-- ==== Sys2Proof/Word.lean ====
section
/-! DEFINITION. The word types of the spec (00_scope.md R8, R9) and the fixed-size stores that the state is built from.
Their accessors stand in Machine/Data.lean. -/

namespace Sys2Proof

/-- `u8` of R9. -/
abbrev Byte := BitVec 8

/-- `u32` and `s32` of R9: one 32-bit pattern, whose `+`, `-`, `*` and `<<` wrap modulo 2^32; a signed reading is `toInt`. -/
abbrev Word := BitVec 32

/-- Three like things: the channel records CH[0..2] and their planes (10_state.md R37, R38). -/
structure Triple (α : Type) where
  e0 : α
  e1 : α
  e2 : α
  deriving DecidableEq, Repr, Inhabited

/-- Four like things: the quantisation tables QT[0..3] and the Huffman slots HT[0..3] (10_state.md R39, R40). -/
structure Quad (α : Type) where
  e0 : α
  e1 : α
  e2 : α
  e3 : α
  deriving DecidableEq, Repr, Inhabited

/-- Eight like things: one row or one column of an 8×8 block (45_idct.md R300). -/
structure Oct (α : Type) where
  e0 : α
  e1 : α
  e2 : α
  e3 : α
  e4 : α
  e5 : α
  e6 : α
  e7 : α
  deriving DecidableEq, Repr, Inhabited

/-- Sixty-four like things in natural order, eight rows of eight: BLK[0..63] and QT[t][0..63] (10_state.md R39, R44). -/
abbrev Grid (α : Type) := Oct (Oct α)

end Sys2Proof
end

