-- ==== Sys2Proof/Config.lean ====
section
/-! DEFINITION. The free values: what the spec leaves unspecified ("a model takes any value", "a draw") or leaves
without a number. None has a body, so nothing can be proved about a value of one. -/

namespace Sys2Proof

/-- What a decode may end with after the host broke 20_memory.md R81: an error code, a frame and a restart count. -/
structure SpoiledOutcome where
  code : BitVec 2
  width : BitVec 16
  height : BitVec 16
  colour : Bool
  events : Word
  deriving DecidableEq, Repr, Inhabited

/-- The byte that draw `d` gives at address `a`: an IN_MEM, OUT_MEM or plane byte nothing has written
(10_state.md R38, R47), OUT_MEM after a failed decode (20_memory.md R82), OUT_MEM read while BUSY (R80). -/
opaque Config.freeByte (d a : Nat) : Byte

/-- Whether a host write to OUT_MEM index `a` made while BUSY wins over the decode's byte (70_reset_and_hazards.md R445). -/
opaque Config.hostWriteWins (d a : Nat) : Bool

/-- The outcome of a decode during which the host wrote IN_MEM below LEN (20_memory.md R81). -/
opaque Config.spoiledOutcome (d : Nat) : SpoiledOutcome

/-- The "few counts per channel" of 45_idct.md R301 (e), less one: the spec gives no number, and a few is at least one. -/
opaque Config.fewCounts : Nat

end Sys2Proof
end

