-- ==== Sys2Proof/Machine/State.lean ====
section
/-! DEFINITION. Everything the spec gives the machine (10_state.md, 20_memory.md), as plain data, with the reasons a step
stops and the state after reset. -/

namespace Sys2Proof

/-- Eight copies. -/
def Oct.fill {α : Type} (x : α) : Oct α := ⟨x, x, x, x, x, x, x, x⟩

end Sys2Proof

namespace Sys2Proof.Machine

/-- The result codes of 60_exceptions.md R400, held by ERRCODE and ERR_KIND (10_state.md R25, R45). -/
inductive ErrCode where
  | ok
  | syntaxError
  | unsupportedError
  | outOfMemory
  | notReady
  deriving DecidableEq, Repr, Inhabited

/-- The engine phase PHASE (10_state.md R34). -/
inductive Phase where
  | idle
  | parsingHeader
  | decodingMcu
  | atRestartBoundary
  | finishing
  | doneOk
  | doneErr
  deriving DecidableEq, Repr, Inhabited

/-- The seven constants of an IDCT kernel (45_idct.md R301 (b)), named as R307 names those of NJ_CHEN_WANG; `half` is the one
R307 writes 181. -/
structure KernelConstants where
  w1 : Word
  w2 : Word
  w3 : Word
  w5 : Word
  w6 : Word
  w7 : Word
  half : Word
  deriving DecidableEq, Repr, Inhabited

/-- One of the seven constants. -/
inductive KernelConstant where
  | w1
  | w2
  | w3
  | w5
  | w6
  | w7
  | half
  deriving DecidableEq, Repr, Inhabited

/-- The factor of a multiplication: a constant, or a sum or difference of two (as in R307's derived constants). -/
inductive KernelFactor where
  | one (c : KernelConstant)
  | sum (c d : KernelConstant)
  | diff (c d : KernelConstant)
  deriving DecidableEq, Repr, Inhabited

/-- One operation of a fixed-point network on `s32` values (00_scope.md R9). Its operands are numbers of values: the inputs
come first, and each operation gives the next one. -/
inductive KernelOp where
  | add (a b : Nat)
  | sub (a b : Nat)
  | scale (f : KernelFactor) (a : Nat)
  | bias (v : Word) (a : Nat)
  | shl (n a : Nat)
  | shr (n a : Nat)
  deriving DecidableEq, Repr, Inhabited

/-- A network on eight values: its operations in order, and the numbers of the eight values it gives. -/
structure KernelNetwork where
  ops : List KernelOp
  outputs : Oct Nat
  deriving DecidableEq, Repr, Inhabited

/-- A kernel as 45_idct.md R301 (b) and (c) describe every one: integer networks with seven constants for the two passes,
and for each pass the operations by which its fast exit derives the flat value from the DC term alone. -/
structure KernelDescription where
  constants : KernelConstants
  row : KernelNetwork
  rowFlat : List KernelOp
  column : KernelNetwork
  columnFlat : List KernelOp
  deriving DecidableEq, Repr, Inhabited

/-- IDCT_KERNEL, left OPEN (00_scope.md R7, 45_idct.md R301): the candidate NJ_CHEN_WANG, or any other kernel, given by its
description. R301 (e) is `Kernel.Accurate` (Machine/Idct.lean), which Safety.lean asks of every legal machine. -/
inductive Kernel where
  | njChenWang
  | other (net : KernelDescription)
  deriving DecidableEq, Repr, Inhabited

/-- The OPEN parameters (00_scope.md R7). No step changes them; the ranges the spec gives them are `ParamsLegal`
(Safety.lean). -/
structure Params where
  inMemSize : Nat
  outMemSize : Nat
  workMemSize : Nat
  regBase : Nat
  inBase : Nat
  outBase : Nat
  kernel : Kernel
  deriving DecidableEq, Repr, Inhabited

/-- The bits of STATUS (10_state.md R24); LOADED is also the session's LOADED (R33). Bits 31:4 read 0 and are not held. -/
structure Status where
  loaded : Bool
  busy : Bool
  done : Bool
  err : Bool
  deriving DecidableEq, Repr, Inhabited

/-- A byte-addressed store: the bytes something has written, by address, strictly rising, and the number of the draw that
gives every other byte. -/
structure Memory where
  draw : Nat
  cells : List Host.Cell
  deriving DecidableEq, Repr, Inhabited

/-- Frame metadata (R36). -/
structure Frame where
  /-- FRAME_SEEN -/
  seen : Bool
  /-- W -/
  width : Nat
  /-- H -/
  height : Nat
  /-- NC -/
  channels : Nat
  hmax : Nat
  vmax : Nat
  mbw : Nat
  mbh : Nat
  deriving DecidableEq, Repr, Inhabited

/-- A channel record CH[i] (R37). -/
structure Channel where
  cid : Byte
  hs : Nat
  vs : Nat
  tq : Fin 4
  dcSlot : Fin 4
  acSlot : Fin 4
  pw : Nat
  ph : Nat
  stride : Nat
  rows : Nat
  pred : Word
  deriving DecidableEq, Repr, Inhabited

/-- One code of a Huffman slot: it fills the next 2^(16 - len) entries of the flat table with (len, sym). -/
structure HuffCode where
  len : Nat
  sym : Byte
  deriving DecidableEq, Repr, Inhabited

/-- A flat table HT[slot] of 65536 entries (R40), held as its codes in index order: the entries after the last code's are
(0, 0). `lookupEntry` (Machine/Huffman.lean) reads an entry. -/
abbrev HuffTable := List HuffCode

/-- Which part of 44_block_decoder.md R276 the current block is at: its next DC symbol, its next AC symbol, its IDCT. -/
inductive BlockStep where
  | dc
  | ac
  | idct
  deriving DecidableEq, Repr, Inhabited

/-- Scan state (R42), with the loop variables of 46_scan_decoder.md R332: the channel, its sample row and column. -/
structure Scan where
  mbx : Nat
  mby : Nat
  countdown : Nat
  nextRst : Nat
  chan : Fin 3
  sby : Nat
  sbx : Nat
  step : BlockStep
  deriving DecidableEq, Repr, Inhabited

/-- Bit reader state (R43); the end pointer is LEN. -/
structure Reader where
  rcur : Nat
  acc : Word
  nb : Nat
  exhausted : Bool
  deriving DecidableEq, Repr, Inhabited

/-- Which part of 47_upsample_colour.md R360 the finishing is at: a channel's upsampling, the output, the completion. -/
inductive FinishStep where
  | upsample (c : Fin 3)
  | output
  | complete
  deriving DecidableEq, Repr, Inhabited

/-- The width of a host access in bytes (20_memory.md R78). -/
inductive AccessSize where
  | one
  | two
  | four
  deriving DecidableEq, Repr

/-- What the outside world does next: a host access at a platform address (20_memory.md R70, R85), leaving the engine one
turn, or a power-on reset (70_reset_and_hazards.md R440, R441). -/
inductive HostOp where
  | read (addr : Nat) (size : AccessSize)
  | write (addr : Nat) (size : AccessSize) (value : Word)
  | engine
  | powerOn
  deriving DecidableEq, Repr

/-- The machine. -/
structure State where
  params : Params
  -- the register block (R21)
  ctrl : Word
  status : Status
  errcode : ErrCode
  inLen : Word
  width : Word
  height : Word
  ncomp : Word
  outLen : Word
  rstEvents : Word
  -- session and engine control (R33 to R35, R45); `strict` is the sampled STRICT of 40_host_commands.md R134
  len : Nat
  phase : Phase
  cursor : Nat
  errKind : ErrCode
  strict : Bool
  -- image and channels (R36 to R38)
  frame : Frame
  ch : Triple Channel
  planes : Triple (Option Memory)
  -- tables (R39 to R41)
  qt : Quad (Grid Byte)
  qtLoaded : Quad Bool
  ht : Quad HuffTable
  ri : Nat
  -- scan, bit reader and block (R42 to R44)
  scan : Scan
  reader : Reader
  blk : Grid Word
  k : Nat
  -- finishing (47_upsample_colour.md R360)
  live : Nat
  fin : FinishStep
  -- the two host-visible memories (20_memory.md R70)
  inMem : Memory
  outMem : Memory
  -- the model's own: the host's accesses to come, oldest first; the last value a host read returned; the next draw's
  -- number; whether the host broke R81 in this decode; the OUT_MEM writes it made while BUSY, oldest first
  host : List HostOp
  readData : Word
  draws : Nat
  spoiled : Bool
  busyWrites : List Host.Cell
  deriving DecidableEq, Repr

/-- Why the machine stops with a fault. -/
inductive Fault where
  /-- Raised by a host access (Machine/HostBus.lean) at a platform address outside the register block, IN_MEM and OUT_MEM,
  or running past the end of a memory (20_memory.md R70, R85). Safe: the model stops where a platform may go on. -/
  | noSuchAddress
  deriving DecidableEq, Repr

/-- Why the machine has no meaning for what comes next. -/
inductive Refusal where
  /-- An instruction without a meaning yet: no arm of exec answers with it. Safe. -/
  | notModelled (mnemonic : String)
  /-- Raised by a host access (Machine/HostBus.lean) to the register block that is not a naturally aligned 32-bit one: "a
  model refuses it" (20_memory.md R78, 93_implementation_defined.md U6). Safe. -/
  | registerAccess
  deriving DecidableEq, Repr

/-- The parameters of the state after reset: the default sizes of 95_test_vectors.md and the default kernel of 45_idct.md
R301. DESIGN CHOICE (log entry 3), unsafe to lean on: they are OPEN. -/
def Params.default : Params :=
  { inMemSize := 4096, outMemSize := 4096, workMemSize := 4096
    regBase := 0, inBase := 0x10000, outBase := 0x20000, kernel := .njChenWang }

/-- A channel record nothing has written. DESIGN CHOICE (log entry 9). -/
def Channel.unset : Channel :=
  { cid := 0, hs := 0, vs := 0, tq := 0, dcSlot := 0, acSlot := 0, pw := 0, ph := 0, stride := 0, rows := 0, pred := 0 }

/-- The state after power-on reset (10_state.md R47, 70_reset_and_hazards.md R440). A field R47 calls "unspecified
(unread)" holds 0 here. DESIGN CHOICE (log entry 9), unsafe to lean on. -/
def State.reset : State :=
  { params := Params.default
    ctrl := 0
    status := { loaded := false, busy := false, done := false, err := false }
    errcode := .ok
    inLen := 0
    width := 0
    height := 0
    ncomp := 0
    outLen := 0
    rstEvents := 0
    len := 0
    phase := .idle
    cursor := 0
    errKind := .ok
    strict := false
    frame := { seen := false, width := 0, height := 0, channels := 0, hmax := 0, vmax := 0, mbw := 0, mbh := 0 }
    ch := ⟨Channel.unset, Channel.unset, Channel.unset⟩
    planes := ⟨none, none, none⟩
    qt := ⟨Oct.fill (Oct.fill 0), Oct.fill (Oct.fill 0), Oct.fill (Oct.fill 0), Oct.fill (Oct.fill 0)⟩
    qtLoaded := ⟨false, false, false, false⟩
    ht := ⟨[], [], [], []⟩
    ri := 0
    scan := { mbx := 0, mby := 0, countdown := 0, nextRst := 0, chan := 0, sby := 0, sbx := 0, step := .dc }
    reader := { rcur := 0, acc := 0, nb := 0, exhausted := false }
    blk := Oct.fill (Oct.fill 0)
    k := 0
    live := 0
    fin := .output
    inMem := { draw := 0, cells := [] }
    outMem := { draw := 1, cells := [] }
    host := []
    readData := 0
    draws := 2
    spoiled := false
    busyWrites := [] }

end Sys2Proof.Machine
end

