-- ==== Sys2Proof/Machine/Data.lean ====
section
/-! DEFINITION. Accessors of the fixed-size stores and of memories. -/

namespace Sys2Proof

/-- Element `i` of three. -/
def Triple.get {α : Type} (t : Triple α) (i : Fin 3) : α :=
  match i with
  | 0 => t.e0
  | 1 => t.e1
  | 2 => t.e2

/-- Three with element `i` replaced. -/
def Triple.set {α : Type} (t : Triple α) (i : Fin 3) (x : α) : Triple α :=
  match i with
  | 0 => { t with e0 := x }
  | 1 => { t with e1 := x }
  | 2 => { t with e2 := x }

/-- Three with the elements below `n` mapped by their index: a loop `for c in 0..NC-1` over the channels. -/
def Triple.mapBelow {α : Type} (n : Nat) (f : Fin 3 → α → α) (t : Triple α) : Triple α :=
  ⟨if 0 < n then f 0 t.e0 else t.e0, if 1 < n then f 1 t.e1 else t.e1, if 2 < n then f 2 t.e2 else t.e2⟩

/-- Element `i` of four. -/
def Quad.get {α : Type} (t : Quad α) (i : Fin 4) : α :=
  match i with
  | 0 => t.e0
  | 1 => t.e1
  | 2 => t.e2
  | 3 => t.e3

/-- Four with element `i` replaced. -/
def Quad.set {α : Type} (t : Quad α) (i : Fin 4) (x : α) : Quad α :=
  match i with
  | 0 => { t with e0 := x }
  | 1 => { t with e1 := x }
  | 2 => { t with e2 := x }
  | 3 => { t with e3 := x }

/-- Four copies. -/
def Quad.fill {α : Type} (x : α) : Quad α := ⟨x, x, x, x⟩

/-- Element `i` of eight. -/
def Oct.get {α : Type} (t : Oct α) (i : Fin 8) : α :=
  match i with
  | 0 => t.e0
  | 1 => t.e1
  | 2 => t.e2
  | 3 => t.e3
  | 4 => t.e4
  | 5 => t.e5
  | 6 => t.e6
  | 7 => t.e7

/-- Eight with element `i` replaced. -/
def Oct.set {α : Type} (t : Oct α) (i : Fin 8) (x : α) : Oct α :=
  match i with
  | 0 => { t with e0 := x }
  | 1 => { t with e1 := x }
  | 2 => { t with e2 := x }
  | 3 => { t with e3 := x }
  | 4 => { t with e4 := x }
  | 5 => { t with e5 := x }
  | 6 => { t with e6 := x }
  | 7 => { t with e7 := x }

/-- Every element mapped. -/
def Oct.map {α β : Type} (f : α → β) (t : Oct α) : Oct β :=
  ⟨f t.e0, f t.e1, f t.e2, f t.e3, f t.e4, f t.e5, f t.e6, f t.e7⟩

/-- The elements in order. -/
def Oct.toList {α : Type} (t : Oct α) : List α := [t.e0, t.e1, t.e2, t.e3, t.e4, t.e5, t.e6, t.e7]

/-- The row of natural index `j`, which is 8 · row + column. -/
def gridRow (j : Nat) : Fin 8 := Fin.ofNat 8 (j / 8)

/-- The column of natural index `j`. -/
def gridCol (j : Nat) : Fin 8 := Fin.ofNat 8 j

/-- The entry at natural index `j` below 64. -/
def Grid.at {α : Type} (g : Grid α) (j : Nat) : α := Oct.get (Oct.get g (gridRow j)) (gridCol j)

/-- The grid with the entry at natural index `j` below 64 replaced. -/
def Grid.put {α : Type} (g : Grid α) (j : Nat) (x : α) : Grid α :=
  Oct.set g (gridRow j) (Oct.set (Oct.get g (gridRow j)) (gridCol j) x)

/-- Column `x` of a grid, top to bottom. -/
def Grid.column {α : Type} (g : Grid α) (x : Fin 8) : Oct α := Oct.map (fun row => Oct.get row x) g

end Sys2Proof

namespace Sys2Proof.Machine

/-- The byte written at address `a`, if any. -/
def findCell : List Host.Cell → Nat → Option Byte
  | [], _ => none
  | (b, v) :: rest, a => if b = a then some v else findCell rest a

/-- The byte at address `a`: the one written there, else the draw's. -/
def Memory.read (m : Memory) (a : Nat) : Byte :=
  match findCell m.cells a with
  | some v => v
  | none => Config.freeByte m.draw a

/-- Consecutive bytes as cells from address `a`. -/
def cellsFrom : Nat → List Byte → List Host.Cell
  | _, [] => []
  | a, v :: rest => (a, v) :: cellsFrom (a + 1) rest

/-- The memory with `bytes` at addresses `a`, `a + 1`, and so on. -/
def Memory.writeBytes (m : Memory) (a : Nat) (bytes : List Byte) : Memory :=
  { m with cells := m.cells.filter (fun c => decide (c.1 < a)) ++ cellsFrom a bytes
      ++ m.cells.filter (fun c => decide (a + bytes.length ≤ c.1)) }

/-- The memory with one byte written. -/
def Memory.write (m : Memory) (a : Nat) (v : Byte) : Memory := m.writeBytes a [v]

/-- `n` bytes from address `a`. -/
def Memory.readBytes (m : Memory) (a n : Nat) : List Byte := (List.range n).map fun i => m.read (a + i)

/-- Addresses strictly rise. -/
def risingCells : List Host.Cell → Bool
  | [] => true
  | [_] => true
  | c :: d :: rest => decide (c.1 < d.1) && risingCells (d :: rest)

/-- The canonical form of a memory: its written addresses strictly rise, so each stands once. An address that is not
written has no entry, and no entry can be known to equal its free byte. -/
def Memory.wf (m : Memory) : Bool := risingCells m.cells

/-- Every written address lies below `n`. -/
def Memory.below (m : Memory) (n : Nat) : Bool := m.cells.all fun c => decide (c.1 < n)

end Sys2Proof.Machine
end

