-- ==== Sys2Proof/Machine/Flags.lean ====
section
/-! DEFINITION. The codes and status bits software sees, and what they are computed from (10_state.md R24, R25, R34). -/

namespace Sys2Proof.Machine

/-- The numeric code of a result (60_exceptions.md R400). -/
def ErrCode.code : ErrCode → Word
  | .ok => 0
  | .syntaxError => 1
  | .unsupportedError => 2
  | .outOfMemory => 3
  | .notReady => 4

/-- A status bit at its place. -/
def flagBit (b : Bool) (place : Nat) : Word := if b then 1#32 <<< place else 0#32

/-- The word STATUS reads (R24). -/
def Status.word (st : Status) : Word :=
  flagBit st.loaded 0 ||| flagBit st.busy 1 ||| flagBit st.done 2 ||| flagBit st.err 3

/-- STATUS after a LOAD that succeeds (40_host_commands.md R133). -/
def Status.afterLoad : Status := { loaded := true, busy := false, done := false, err := false }

/-- STATUS after a LOAD that fails and after a DECODE with nothing loaded (R133, R134). -/
def Status.rejected : Status := { loaded := false, busy := false, done := true, err := true }

/-- STATUS while a decode runs (R134). -/
def Status.running : Status := { loaded := true, busy := true, done := false, err := false }

/-- STATUS after a decode that ends with `kind` (R139). -/
def Status.ended (kind : ErrCode) : Status :=
  { loaded := true, busy := false, done := true, err := decide (kind ≠ .ok) }

/-- STATUS after a FLUSH (R135). -/
def Status.clear : Status := { loaded := false, busy := false, done := false, err := false }

/-- The phases in which STATUS.BUSY is 1 (R34). -/
def Phase.busy : Phase → Bool
  | .idle => false
  | .parsingHeader => true
  | .decodingMcu => true
  | .atRestartBoundary => true
  | .finishing => true
  | .doneOk => false
  | .doneErr => false

/-- The phase a decode that ends with `kind` leaves (40_host_commands.md R139). -/
def Phase.ended (kind : ErrCode) : Phase := if kind = .ok then .doneOk else .doneErr

end Sys2Proof.Machine
end

