-- ==== Sys2Proof/Machine/Ops.lean ====
section
/-! DEFINITION. The shared operations over memory and registers: reading IN_MEM, the plane accesses, the discard and the
per-decode reset, and how an error is raised and a decode ends. -/

namespace Sys2Proof.Machine

/-- A `raise Error(KIND, info)` on its way out (60_exceptions.md R401): the kind, and the state it was raised in. -/
structure Abort where
  kind : ErrCode
  state : State
  deriving DecidableEq, Repr

/-- `InRead(a)` (20_memory.md R71). -/
def inRead (s : State) (a : Nat) : Byte := s.inMem.read a

/-- The bytes of the codestream from index `a` up to LEN, at most `n` of them (R72: none at or above LEN). -/
def inBytes (s : State) (a n : Nat) : List Byte := s.inMem.readBytes a (min n (s.len - a))

/-- Every plane released (10_state.md R38). -/
def noPlanes : Triple (Option Memory) := ⟨none, none, none⟩

/-- The channels below NC, in SOF order. -/
def liveChannels (nc : Nat) : List (Fin 3) := [0, 1, 2].filter fun c => decide (c.val < nc)

/-- CH[c] replaced. -/
def setChannel (s : State) (c : Fin 3) (r : Channel) : State := { s with ch := s.ch.set c r }

/-- Plane[c][r][x] (00_scope.md R10), in a plane whose rows hold `stride` samples. -/
def planeRead (m : Memory) (stride r x : Nat) : Byte := m.read (r * stride + x)

/-- OUT_MEM with every byte unspecified: a fresh draw (20_memory.md R82, 93_implementation_defined.md U1). -/
def drawOutMem (s : State) : State :=
  { s with outMem := { draw := s.draws, cells := [] }, draws := s.draws + 1 }

/-- OUT_MEM after the host's writes made while BUSY are settled against the decode's bytes (70_reset_and_hazards.md R445):
below `n` either byte, above it the host's. -/
def settleBusyWrites (d n : Nat) : List Host.Cell → Memory → Memory
  | [], m => m
  | (a, v) :: rest, m =>
    settleBusyWrites d n rest (if a < n && !Config.hostWriteWins d a then m else m.write a v)

/-- `Complete(OK)` (40_host_commands.md R139). -/
def completeOk (s : State) : State :=
  let n := s.frame.width * s.frame.height * s.frame.channels
  { s with
    width := BitVec.ofNat 32 s.frame.width
    height := BitVec.ofNat 32 s.frame.height
    ncomp := BitVec.ofNat 32 s.frame.channels
    outLen := BitVec.ofNat 32 n
    errcode := .ok
    status := Status.ended .ok
    phase := Phase.ended .ok
    planes := noPlanes
    outMem := settleBusyWrites s.draws n s.busyWrites s.outMem
    draws := s.draws + 1
    busyWrites := []
    spoiled := false }

/-- `Complete(kind)` for an error (40_host_commands.md R139); OUT_MEM is then unspecified (20_memory.md R82). -/
def completeError (kind : ErrCode) (s : State) : State :=
  drawOutMem
    { s with
      width := 0
      height := 0
      ncomp := 0
      outLen := 0
      errcode := kind
      status := Status.ended kind
      phase := Phase.ended kind
      planes := noPlanes
      busyWrites := []
      spoiled := false }

/-- `raise Error(KIND, info)` (60_exceptions.md R401), the nearest thing to taking an exception: ERR_KIND is set and the
decode ends. There is no return from an error (R408): the host resumes by a command. -/
def raiseError (kind : ErrCode) (s : State) : State := completeError kind { s with errKind := kind }

/-- How an operation that may raise an error ends as a step. -/
def settle (r : Except Abort State) : Host.Outcome State Fault Refusal :=
  match r with
  | .ok s => .next s
  | .error e => .next (raiseError e.kind e.state)

/-- `DiscardImage()` (40_host_commands.md R135). -/
def discardImage (s : State) : State :=
  { s with
    frame := { s.frame with seen := false }
    planes := noPlanes
    qtLoaded := Quad.fill false
    ht := Quad.fill []
    ri := 0
    cursor := 0
    errKind := .ok
    phase := .idle
    rstEvents := 0
    width := 0
    height := 0
    ncomp := 0
    outLen := 0 }

/-- The per-decode reset of DECODE (40_host_commands.md R134, 70_reset_and_hazards.md R443), up to PHASE. -/
def startDecode (s : State) : State :=
  { s with
    strict := s.ctrl.getLsbD 0
    frame := { s.frame with seen := false }
    planes := noPlanes
    qtLoaded := Quad.fill false
    ht := Quad.fill []
    ri := 0
    cursor := 0
    errKind := .ok
    rstEvents := 0
    errcode := .ok
    width := 0
    height := 0
    ncomp := 0
    outLen := 0
    status := Status.running
    phase := .parsingHeader
    busyWrites := []
    spoiled := false }

/-- `Command(v)` does nothing while BUSY (R132, R137). -/
def whenIdle (s : State) (act : State → State) : State := if s.status.busy then s else act s

/-- The state after power-on reset (70_reset_and_hazards.md R440, R441): that of 10_state.md R47 with the parameters of
the part, the memories' contents a fresh draw, and the host's accesses still to come. -/
def powerOnReset (s : State) : State :=
  { State.reset with
    params := s.params
    inMem := { draw := s.draws, cells := [] }
    outMem := { draw := s.draws + 1, cells := [] }
    draws := s.draws + 2
    host := s.host }

end Sys2Proof.Machine
end

