-- ==== Sys2Proof/Machine/Commands.lean ====
section
/-! DEFINITION. The host commands (40_host_commands.md R132 to R137). A command written while BUSY is ignored (R137). -/

namespace Sys2Proof.Machine

/-- `Load()` on an idle core (R133). -/
def loadImage (s : State) : State :=
  let s := discardImage s
  if s.params.inMemSize < s.inLen.toNat then
    { s with len := 0, errcode := .outOfMemory, status := Status.rejected }
  else { s with len := s.inLen.toNat, errcode := .ok, status := Status.afterLoad }

/-- `Decode()` with nothing loaded (R134, 60_exceptions.md R406). -/
def rejectDecode (s : State) : State :=
  { s with errcode := .notReady, width := 0, height := 0, ncomp := 0, outLen := 0, status := Status.rejected }

/-- `Flush()` on an idle core (R135). -/
def flushImage (s : State) : State := { discardImage s with len := 0, errcode := .ok, status := Status.clear }

/-- LOAD (R133). -/
def execLoad (s : State) : Host.Outcome State Fault Refusal := .next (whenIdle s loadImage)

/-- DECODE (R134): the decode starts, and its steps follow. -/
def execDecode (s : State) : Host.Outcome State Fault Refusal :=
  .next (whenIdle s fun s => if s.status.loaded then startDecode s else rejectDecode s)

/-- FLUSH (R135). -/
def execFlush (s : State) : Host.Outcome State Fault Refusal := .next (whenIdle s flushImage)

/-- A reserved command value changes no state (R136). -/
def execCmdReserved (_v : Word) (s : State) : Host.Outcome State Fault Refusal := .next s

end Sys2Proof.Machine
end

