-- ==== Sys2Proof/Syntax.lean ====
section
/-! DEFINITION. The instructions: one constructor per row of spec/opcode_table.json, and the formats they are read in
(30_encoding.md R90). -/

namespace Sys2Proof

/-- Where a word is met, which decides how it is read (R90). The first marker of a buffer is read apart from the later
ones, because SOI is accepted only there (R93). -/
inductive Format where
  /-- The 32-bit word written to CMD (R91), as four bytes, lowest first. -/
  | cmd32
  /-- IN_MEM[0..1], which must hold SOI (R93, 41_segment_parser.md R150). -/
  | framing
  /-- A marker met by the marker loop (R92, R93). -/
  | marker
  /-- A byte form of the entropy-coded segment (R100). -/
  | ecsByte
  /-- A symbol decoded from a DC slot (R102). -/
  | dcSym8
  /-- A symbol decoded from an AC slot (R103). -/
  | acSym8
  deriving DecidableEq, Repr

/-- One constructor per row of the opcode table. A marker's segment payload and a symbol's value bits are operands read
from the stream, not part of the instruction's own word. -/
inductive Instr where
  /-- CMD = 1 (40_host_commands.md R133). -/
  | load
  /-- CMD = 2 (R134). -/
  | decode
  /-- CMD = 3 (R135). -/
  | flush
  /-- Any other value `v` of CMD (R136). -/
  | cmdReserved (v : Word)
  /-- `FF D8` at IN_MEM[0..1] (41_segment_parser.md R150). -/
  | soi
  /-- `FF C0` (R155). -/
  | sof0
  /-- `FF C4` (R159). -/
  | dht
  /-- `FF DB` (R160). -/
  | dqt
  /-- `FF DD` (R161). -/
  | dri
  /-- `FF DA` (R162). -/
  | sos
  /-- `FF En` (R164). -/
  | appn (n : BitVec 4)
  /-- `FF FE` (R164). -/
  | com
  /-- `FF D9` met by the marker loop (R165). -/
  | eoi
  /-- `FF kk` with a kk outside the map of 30_encoding.md R93 (R166). -/
  | markerOther (kk : Byte)
  /-- A data byte `b` other than `FF` (43_bitreader.md R231). -/
  | ecsData (b : Byte)
  /-- `FF 00` (R233). -/
  | ecsStuff
  /-- `FF FF` (R234). -/
  | ecsFill
  /-- `FF D9` in entropy data (R235). -/
  | ecsEnd
  /-- `FF Dn`, n from 0 to 7 (R236). -/
  | ecsRst (n : BitVec 3)
  /-- `FF x` with any other x (R237). -/
  | ecsIllegal (x : Byte)
  /-- A DC symbol: size nibble S, high nibble ignored (44_block_decoder.md R264). -/
  | dcDiff (size ignored : BitVec 4)
  /-- AC symbol 0x00 (R268). -/
  | acEob
  /-- AC symbol 0xF0 (R269). -/
  | acZrl
  /-- AC symbol of run R and size S ≠ 0 (R270). -/
  | acRunVal (run size : BitVec 4)
  /-- AC symbol 0x10 to 0xE0 with size 0 (R271). -/
  | acIllegal (run : BitVec 4)
  deriving DecidableEq, Repr

/-- The byte forms of the entropy-coded segment (R100), which the bit reader also meets while it reads an operand. -/
inductive EcsForm where
  | data (b : Byte)
  | stuff
  | fill
  | endOfImage
  | rst (n : BitVec 3)
  | illegal (x : Byte)
  deriving DecidableEq, Repr

/-- The instruction a byte form is. -/
def EcsForm.toInstr : EcsForm → Instr
  | .data b => .ecsData b
  | .stuff => .ecsStuff
  | .fill => .ecsFill
  | .endOfImage => .ecsEnd
  | .rst n => .ecsRst n
  | .illegal x => .ecsIllegal x

end Sys2Proof
end

