-- ==== Sys2Proof/WellFormed.lean ====
section
/-! DEFINITION. Which instructions a word can stand for: the conditions the opcode table puts on its open fields. -/

namespace Sys2Proof

/-- The second bytes of 30_encoding.md R93 that have a handler of their own in the marker loop. SOI is not among them: it
is accepted only at IN_MEM[0..1]. -/
def mappedMarker (kk : Byte) : Bool :=
  kk == 0xC0#8 || kk == 0xC4#8 || kk == 0xDB#8 || kk == 0xDD#8 || kk == 0xDA#8 || kk == 0xFE#8 || kk == 0xD9#8
    || kk.extractLsb' 4 4 == 0xE#4

/-- The second bytes of an `FF x` pair that 30_encoding.md R100 gives a form: `00`, `FF`, `D9` and `D0` to `D7`. -/
def legalFollower (x : Byte) : Bool :=
  x == 0x00#8 || x == 0xFF#8 || x == 0xD9#8 || x.extractLsb' 3 5 == 0b11010#5

/-- The open fields hold only values the row allows (30_encoding.md R91, R93, R100, R102, R103). -/
def Instr.wellFormed : Instr → Bool
  | .load => true
  | .decode => true
  | .flush => true
  | .cmdReserved v => v != 1#32 && v != 2#32 && v != 3#32
  | .soi => true
  | .sof0 => true
  | .dht => true
  | .dqt => true
  | .dri => true
  | .sos => true
  | .appn _ => true
  | .com => true
  | .eoi => true
  | .markerOther kk => !mappedMarker kk
  | .ecsData b => b != 0xFF#8
  | .ecsStuff => true
  | .ecsFill => true
  | .ecsEnd => true
  | .ecsRst _ => true
  | .ecsIllegal x => !legalFollower x
  | .dcDiff _ _ => true
  | .acEob => true
  | .acZrl => true
  | .acRunVal _ size => size != 0#4
  | .acIllegal run => run != 0x0#4 && run != 0xF#4

end Sys2Proof
end

