-- ==== Sys2Proof/Decode.lean ====
section
/-! DEFINITION. The decoder, total on any bytes, and the encoder (30_encoding.md). -/

namespace Sys2Proof

/-- Why bytes are no instruction in a format. -/
inductive DecodeError where
  /-- The bytes end before the instruction does. -/
  | truncated
  /-- A byte other than `FF` where a marker is expected (41_segment_parser.md R151). -/
  | notMarkerPrefix
  /-- The buffer does not start `FF D8` (R150). -/
  | noSoi
  deriving DecidableEq, Repr

/-- CMD32 (30_encoding.md R91): the whole word is the code. -/
def decodeCommand (v : Word) : Instr :=
  if v = 1#32 then .load
  else if v = 2#32 then .decode
  else if v = 3#32 then .flush
  else .cmdReserved v

/-- The marker code map (30_encoding.md R93). -/
def decodeMarkerKind (kk : Byte) : Instr :=
  if kk = 0xC0#8 then .sof0
  else if kk = 0xC4#8 then .dht
  else if kk = 0xDB#8 then .dqt
  else if kk = 0xDD#8 then .dri
  else if kk = 0xDA#8 then .sos
  else if kk = 0xFE#8 then .com
  else if kk = 0xD9#8 then .eoi
  else if kk.extractLsb' 4 4 = 0xE#4 then .appn (kk.extractLsb' 0 4)
  else .markerOther kk

/-- The form an `FF x` pair is (30_encoding.md R100). -/
def ecsPair (x : Byte) : EcsForm :=
  if x = 0x00#8 then .stuff
  else if x = 0xFF#8 then .fill
  else if x = 0xD9#8 then .endOfImage
  else if x.extractLsb' 3 5 = 0b11010#5 then .rst (x.extractLsb' 0 3)
  else .illegal x

/-- The byte form at the front of entropy-coded bytes (R100): one byte, or two when the first is `FF`. -/
def decodeEcs : List Byte → Except DecodeError (EcsForm × List Byte)
  | [] => .error .truncated
  | b :: rest =>
    if b = 0xFF#8 then
      match rest with
      | [] => .error .truncated
      | x :: rest' => .ok (ecsPair x, rest')
    else .ok (.data b, rest)

/-- DCSYM8 (R102). -/
def decodeDcSymbol (sym : Byte) : Instr := .dcDiff (sym.extractLsb' 0 4) (sym.extractLsb' 4 4)

/-- ACSYM8 (R103). -/
def decodeAcSymbol (sym : Byte) : Instr :=
  if sym = 0x00#8 then .acEob
  else if sym = 0xF0#8 then .acZrl
  else if sym.extractLsb' 0 4 = 0#4 then .acIllegal (sym.extractLsb' 4 4)
  else .acRunVal (sym.extractLsb' 4 4) (sym.extractLsb' 0 4)

/-- The instruction at the front of the bytes met in format `f`, with the bytes after it. -/
def decode (f : Format) (bytes : List Byte) : Except DecodeError (Instr × List Byte) :=
  match f, bytes with
  | .cmd32, b0 :: b1 :: b2 :: b3 :: rest => .ok (decodeCommand (b3 ++ b2 ++ b1 ++ b0), rest)
  | .cmd32, _ => .error .truncated
  | .framing, b0 :: b1 :: rest => if b0 = 0xFF#8 ∧ b1 = 0xD8#8 then .ok (.soi, rest) else .error .noSoi
  | .framing, _ => .error .truncated
  | .marker, b0 :: b1 :: rest => if b0 = 0xFF#8 then .ok (decodeMarkerKind b1, rest) else .error .notMarkerPrefix
  | .marker, _ => .error .truncated
  | .ecsByte, bytes => (decodeEcs bytes).map fun p => (p.1.toInstr, p.2)
  | .dcSym8, b :: rest => .ok (decodeDcSymbol b, rest)
  | .dcSym8, [] => .error .truncated
  | .acSym8, b :: rest => .ok (decodeAcSymbol b, rest)
  | .acSym8, [] => .error .truncated

/-- The format an instruction's word is met in. -/
def Instr.format : Instr → Format
  | .load => .cmd32
  | .decode => .cmd32
  | .flush => .cmd32
  | .cmdReserved _ => .cmd32
  | .soi => .framing
  | .sof0 => .marker
  | .dht => .marker
  | .dqt => .marker
  | .dri => .marker
  | .sos => .marker
  | .appn _ => .marker
  | .com => .marker
  | .eoi => .marker
  | .markerOther _ => .marker
  | .ecsData _ => .ecsByte
  | .ecsStuff => .ecsByte
  | .ecsFill => .ecsByte
  | .ecsEnd => .ecsByte
  | .ecsRst _ => .ecsByte
  | .ecsIllegal _ => .ecsByte
  | .dcDiff _ _ => .dcSym8
  | .acEob => .acSym8
  | .acZrl => .acSym8
  | .acRunVal _ _ => .acSym8
  | .acIllegal _ => .acSym8

/-- A 32-bit word as four bytes, lowest first (20_memory.md R78). -/
def wordBytes (v : Word) : List Byte :=
  [v.extractLsb' 0 8, v.extractLsb' 8 8, v.extractLsb' 16 8, v.extractLsb' 24 8]

/-- The bytes of an instruction's word, in stream order (30_encoding.md R91, R93, R100, R102, R103). -/
def encode : Instr → List Byte
  | .load => [0x01#8, 0x00#8, 0x00#8, 0x00#8]
  | .decode => [0x02#8, 0x00#8, 0x00#8, 0x00#8]
  | .flush => [0x03#8, 0x00#8, 0x00#8, 0x00#8]
  | .cmdReserved v => wordBytes v
  | .soi => [0xFF#8, 0xD8#8]
  | .sof0 => [0xFF#8, 0xC0#8]
  | .dht => [0xFF#8, 0xC4#8]
  | .dqt => [0xFF#8, 0xDB#8]
  | .dri => [0xFF#8, 0xDD#8]
  | .sos => [0xFF#8, 0xDA#8]
  | .appn n => [0xFF#8, 0xE#4 ++ n]
  | .com => [0xFF#8, 0xFE#8]
  | .eoi => [0xFF#8, 0xD9#8]
  | .markerOther kk => [0xFF#8, kk]
  | .ecsData b => [b]
  | .ecsStuff => [0xFF#8, 0x00#8]
  | .ecsFill => [0xFF#8, 0xFF#8]
  | .ecsEnd => [0xFF#8, 0xD9#8]
  | .ecsRst n => [0xFF#8, 0b11010#5 ++ n]
  | .ecsIllegal x => [0xFF#8, x]
  | .dcDiff size ignored => [ignored ++ size]
  | .acEob => [0x00#8]
  | .acZrl => [0xF0#8]
  | .acRunVal run size => [run ++ size]
  | .acIllegal run => [run ++ 0x0#4]

/-- The format a word of the opcode table is read in where only its width and its bits are known (log entry 14): the rows
that name a whole word come before the rows that leave bits open, and of two rows naming one word the first. -/
def tableFormat (nbits w : Nat) : Format :=
  if nbits ≤ 8 then .acSym8
  else if nbits ≤ 16 then
    if w = 0xFFD8 then .framing
    else if w = 0xFF00 ∨ w = 0xFFFF ∨ (0xFFD0 ≤ w ∧ w ≤ 0xFFD7) then .ecsByte
    else .marker
  else .cmd32

/-- The bytes of a word of the opcode table as the hardware meets them: a symbol as one byte, a marker or an `FF x` pair
high byte first (30_encoding.md R92, R100), a command word lowest byte first. -/
def tableBytes (nbits w : Nat) : List Byte :=
  if nbits ≤ 8 then [BitVec.ofNat 8 w]
  else if nbits ≤ 16 then [BitVec.ofNat 8 (w / 256), BitVec.ofNat 8 w]
  else wordBytes (BitVec.ofNat 32 w)

/-- The instruction the decoder reads from a word of the opcode table. -/
def decodeTableWord (nbits w : Nat) : Option Instr :=
  match decode (tableFormat nbits w) (tableBytes nbits w) with
  | .ok (i, _) => some i
  | .error _ => none

end Sys2Proof
end

