-- ==== Sys2Proof/Machine/BitReader.lean ====
section
/-! DEFINITION. The bit reader (43_bitreader.md): its refill, the effect of each byte form, and the operations the rest of
the core calls. -/

namespace Sys2Proof.Machine

/-- `ReaderStart(a)` (R230). -/
def readerStart (a : Nat) : Reader := { rcur := a, acc := 0, nb := 0, exhausted := false }

/-- `Push(b)` (R231). -/
def pushByte (b : Byte) (s : State) : State :=
  { s with reader := { s.reader with acc := (s.reader.acc <<< 8) ||| b.setWidth 32, nb := s.reader.nb + 8 } }

/-- A data byte: eight bits (R231). -/
def ecsDataEffect (b : Byte) (s : State) : Except Abort State := .ok (pushByte b s)

/-- `FF 00`: eight bits `FF` (R233). -/
def ecsStuffEffect (s : State) : Except Abort State := .ok (pushByte 0xFF s)

/-- `FF FF`: eight bits `FF` (R234). -/
def ecsFillEffect (s : State) : Except Abort State := .ok (pushByte 0xFF s)

/-- `FF D9`: eight bits `FF`, and the reader is exhausted (R235). -/
def ecsEndEffect (s : State) : Except Abort State :=
  let s := pushByte 0xFF s
  .ok { s with reader := { s.reader with exhausted := true } }

/-- `FF Dn`: sixteen bits, both bytes, and one restart event (R236). -/
def ecsRstEffect (n : BitVec 3) (s : State) : Except Abort State :=
  let s := pushByte (0b11010#5 ++ n) (pushByte 0xFF s)
  .ok { s with rstEvents := s.rstEvents + 1 }

/-- `FF x`, any other x: the `FF` has been pushed, and SyntaxError is raised (R237). -/
def ecsIllegalEffect (s : State) : Except Abort State := .error ⟨.syntaxError, pushByte 0xFF s⟩

/-- The effect of a byte form on everything but RCUR. -/
def ecsEffect (f : EcsForm) (s : State) : Except Abort State :=
  match f with
  | .data b => ecsDataEffect b s
  | .stuff => ecsStuffEffect s
  | .fill => ecsFillEffect s
  | .endOfImage => ecsEndEffect s
  | .rst n => ecsRstEffect n s
  | .illegal _ => ecsIllegalEffect s

/-- Nothing is left to read: a fetch synthesises `FF` (R232). -/
def readerAtEnd (s : State) : Bool := s.reader.exhausted || decide (s.len ≤ s.reader.rcur)

/-- The byte form at RCUR and the state with RCUR past it. An `FF` at LEN - 1 raises SyntaxError (R238). -/
def takeForm (s : State) : Except Abort (EcsForm × State) :=
  match decodeEcs (inBytes s s.reader.rcur 2) with
  | .error _ => .error ⟨.syntaxError, pushByte 0xFF { s with reader := { s.reader with rcur := s.reader.rcur + 1 } }⟩
  | .ok (f, _) => .ok (f, { s with reader := { s.reader with rcur := s.reader.rcur + (encode f.toInstr).length } })

/-- `Fetch()` (R231, R232). -/
def fetchByte (s : State) : Except Abort State :=
  if readerAtEnd s then .ok (pushByte 0xFF s)
  else do
    let (f, s) ← takeForm s
    ecsEffect f s

/-- `while NB < k: Fetch()` (R239), at most `fuel` times; each fetch adds at least eight bits. -/
def fillBits (fuel k : Nat) (s : State) : Except Abort State :=
  match fuel with
  | 0 => .ok s
  | fuel + 1 => if s.reader.nb < k then do fillBits fuel k (← fetchByte s) else .ok s

/-- The top `k` of the valid bits, as a number: `(ACC >> (NB - k)) & (2^k - 1)` (R239). -/
def topBits (r : Reader) (k : Nat) : Nat := (r.acc >>> (r.nb - k)).toNat % 2 ^ k

/-- `show(k)` (R239). -/
def showBits (k : Nat) (s : State) : Except Abort (Nat × State) := do
  let s ← fillBits k k s
  .ok (topBits s.reader k, s)

/-- `skip(k)` (R241). -/
def skipBits (k : Nat) (s : State) : State := { s with reader := { s.reader with nb := s.reader.nb - k } }

/-- `get(k)` (R240). -/
def getBits (k : Nat) (s : State) : Except Abort (Nat × State) := do
  let (v, s) ← showBits k s
  .ok (v, skipBits k s)

/-- `align()` (R242). -/
def alignBits (s : State) : State := skipBits (s.reader.nb % 8) s

end Sys2Proof.Machine
end

