-- ==== Sys2Proof/Machine/Ecs.lean ====
section
/-! DEFINITION. The byte forms of the entropy-coded segment as instructions (43_bitreader.md R231 to R237). Each runs with
RCUR past its bytes. -/

namespace Sys2Proof.Machine

/-- A data byte (R231). -/
def execEcsData (b : Byte) (s : State) : Host.Outcome State Fault Refusal := settle (ecsDataEffect b s)

/-- `FF 00` (R233). -/
def execEcsStuff (s : State) : Host.Outcome State Fault Refusal := settle (ecsStuffEffect s)

/-- `FF FF` (R234). -/
def execEcsFill (s : State) : Host.Outcome State Fault Refusal := settle (ecsFillEffect s)

/-- `FF D9` (R235). -/
def execEcsEnd (s : State) : Host.Outcome State Fault Refusal := settle (ecsEndEffect s)

/-- `FF Dn` (R236). -/
def execEcsRst (n : BitVec 3) (s : State) : Host.Outcome State Fault Refusal := settle (ecsRstEffect n s)

/-- `FF x`, any other x (R237). -/
def execEcsIllegal (_x : Byte) (s : State) : Host.Outcome State Fault Refusal := settle (ecsIllegalEffect s)

end Sys2Proof.Machine
end

