-- ==== Sys2Proof/Machine/Operands.lean ====
section
/-! DEFINITION. The operand forms: a segment's payload read from IN_MEM (30_encoding.md R92, 41_segment_parser.md R152) and
the value bits that follow a symbol (R104, 44_block_decoder.md R261). -/

namespace Sys2Proof.Machine

/-- `be16(a)` (20_memory.md R76). -/
def be16 (s : State) (a : Nat) : Nat := 256 * (inRead s a).toNat + (inRead s (a + 1)).toNat

/-- A segment: where its payload starts and how many bytes it holds. -/
structure Segment where
  start : Nat
  size : Nat
  deriving DecidableEq, Repr

/-- `P(i)`, payload byte `i`. -/
def Segment.byte (g : Segment) (s : State) (i : Nat) : Byte := inRead s (g.start + i)

/-- `ReadSegment()` (41_segment_parser.md R152). -/
def readSegment (s : State) : Except Abort (Segment × State) :=
  if s.len - s.cursor < 2 then .error ⟨.syntaxError, s⟩
  else if be16 s s.cursor < 2 then .error ⟨.syntaxError, s⟩
  else if s.len < s.cursor + be16 s s.cursor then .error ⟨.syntaxError, s⟩
  else .ok (⟨s.cursor + 2, be16 s s.cursor - 2⟩, { s with cursor := s.cursor + be16 s s.cursor })

/-- The signed value of `size` value bits `raw` (R261). -/
def extendValue (size raw : Nat) : Word :=
  if size = 0 then 0
  else if raw < 2 ^ (size - 1) then BitVec.ofInt 32 ((raw : Int) - 2 ^ size + 1)
  else BitVec.ofNat 32 raw

/-- `ReceiveExtend(S)` (R261): no bits are read for S = 0. -/
def receiveExtend (size : Nat) (s : State) : Except Abort (Word × State) :=
  if size = 0 then .ok (0, s)
  else do
    let (v, s) ← getBits size s
    .ok (extendValue size v, s)

end Sys2Proof.Machine
end

