-- ==== Sys2Proof/Machine/Huffman.lean ====
section
/-! DEFINITION. The Huffman table builder and lookup (42_huffman_tables.md). -/

namespace Sys2Proof.Machine

/-- The number of flat-table entries a code of length `len` fills (R203). -/
def span (len : Nat) : Nat := 2 ^ (16 - len)

/-- Entry `x` of the flat table a slot stands for (R203, R205): (LEN_E, SYM), and (0, 0) where no code word is a prefix
of `x`. -/
def lookupEntry : HuffTable → Nat → Nat × Byte
  | [], _ => (0, 0)
  | c :: rest, x => if x < span c.len then (c.len, c.sym) else lookupEntry rest (x - span c.len)

/-- The slot a control byte selects: `(V | V >> 3) & 3` (R200). -/
def slotOf (v : Byte) : Fin 4 := Fin.ofNat 4 ((v ||| (v >>> 3)) &&& 3).toNat

/-- The lengths still to place in `BuildTable` (R203): `counts` from length `len` on, with the leaf budget, the payload
position and the codes placed so far. Answers the table and the position past the symbols. -/
def buildCodes (g : Segment) (s : State) :
    (counts : List Nat) → (len remain i : Nat) → (placed : HuffTable) → Except Abort (HuffTable × Nat)
  | [], _, _, i, placed => .ok (placed, i)
  | n :: rest, len, remain, i, placed =>
    if n = 0 then buildCodes g s rest (len + 1) remain i placed
    else if g.size - i < n then .error ⟨.syntaxError, s⟩
    else if remain < n * span len then .error ⟨.syntaxError, s⟩
    else buildCodes g s rest (len + 1) (remain - n * span len) (i + n)
      (placed ++ (List.range n).map fun j => ⟨len, g.byte s (i + j)⟩)

/-- The counts N[1..16] of a definition whose control byte is at payload position `i` (30_encoding.md R95). -/
def codeCounts (g : Segment) (s : State) (i : Nat) : List Nat :=
  (List.range 16).map fun j => (g.byte s (i + 1 + j)).toNat

/-- `BuildTable(slot, N, p, n, i)` (R203): the whole slot is replaced at once. -/
def buildTable (slot : Fin 4) (counts : List Nat) (g : Segment) (i : Nat) (s : State) : Except Abort (State × Nat) := do
  let (table, i) ← buildCodes g s counts 1 65536 i []
  .ok ({ s with ht := s.ht.set slot table }, i)

/-- `HuffDecode(slot)` (44_block_decoder.md R260) once 16 bits are held: the symbol and the state past its code word. -/
def huffTake (slot : Fin 4) (s : State) : Except Abort (Byte × State) :=
  match lookupEntry (s.ht.get slot) (topBits s.reader 16) with
  | (len, sym) => if len = 0 then .error ⟨.syntaxError, s⟩ else .ok (sym, skipBits len s)

end Sys2Proof.Machine
end

