-- ==== Sys2Proof/Machine/Idct.lean ====
section
/-! DEFINITION. The inverse DCT (45_idct.md): its two passes over any kernel, and the candidate kernel NJ_CHEN_WANG. -/

namespace Sys2Proof.Machine

/-- `clip(x)` (00_scope.md R9). -/
def clip (x : Int) : Byte := if x < 0 then 0 else if x > 255 then 255 else BitVec.ofInt 8 x

/-- `>>` on `s32`: the arithmetic shift (R9). -/
def shr (x : Word) (n : Nat) : Word := x.sshiftRight n

-- The constants of NJ_CHEN_WANG (45_idct.md R307).
def w1 : Word := 2841
def w2 : Word := 2676
def w3 : Word := 2408
def w5 : Word := 1609
def w6 : Word := 1108
def w7 : Word := 565

/-- The last four lines before stage 4 and their outputs are one in both passes: from the even part (x7, x8, x3, x0 of
stage 3) and the odd part (x1, x4, x5, x6 of stage 2), the eight sums before the final shift (R304, R306). -/
def butterflyOut (x7 x8 x3 x0 x1 x4 x5 x6 : Word) : Oct Word :=
  let x2 := shr (181 * (x4 + x5) + 128) 8
  let x4 := shr (181 * (x4 - x5) + 128) 8
  ⟨x7 + x1, x3 + x2, x0 + x4, x8 + x6, x8 - x6, x0 - x4, x3 - x2, x7 - x1⟩

/-- `RowFull(o)` (R304). -/
def rowFull (b : Oct Word) : Oct Word :=
  let x0 := (b.e0 <<< 11) + 128
  let x1 := b.e4 <<< 11
  let x2 := b.e6
  let x3 := b.e2
  let x4 := b.e1
  let x5 := b.e7
  let x6 := b.e5
  let x7 := b.e3
  -- stage 1
  let x8 := w7 * (x4 + x5)
  let x4 := x8 + (w1 - w7) * x4
  let x5 := x8 - (w1 + w7) * x5
  let x8 := w3 * (x6 + x7)
  let x6 := x8 - (w3 - w5) * x6
  let x7 := x8 - (w3 + w5) * x7
  -- stage 2
  let x8 := x0 + x1
  let x0 := x0 - x1
  let x1 := w6 * (x3 + x2)
  let x2 := x1 - (w2 + w6) * x2
  let x3 := x1 + (w2 - w6) * x3
  let x1 := x4 + x6
  let x4 := x4 - x6
  let x6 := x5 + x7
  let x5 := x5 - x7
  -- stages 3 and 4
  (butterflyOut (x8 + x3) (x8 - x3) (x0 + x2) (x0 - x2) x1 x4 x5 x6).map fun v => shr v 8

/-- `ColFull(x)` (R306) up to the final shift. -/
def colFull (b : Oct Word) : Oct Word :=
  let x0 := (b.e0 <<< 8) + 8192
  let x1 := b.e4 <<< 8
  let x2 := b.e6
  let x3 := b.e2
  let x4 := b.e1
  let x5 := b.e7
  let x6 := b.e5
  let x7 := b.e3
  -- stage 1
  let x8 := w7 * (x4 + x5) + 4
  let x4 := shr (x8 + (w1 - w7) * x4) 3
  let x5 := shr (x8 - (w1 + w7) * x5) 3
  let x8 := w3 * (x6 + x7) + 4
  let x6 := shr (x8 - (w3 - w5) * x6) 3
  let x7 := shr (x8 - (w3 + w5) * x7) 3
  -- stage 2
  let x8 := x0 + x1
  let x0 := x0 - x1
  let x1 := w6 * (x3 + x2) + 4
  let x2 := shr (x1 - (w2 + w6) * x2) 3
  let x3 := shr (x1 + (w2 - w6) * x3) 3
  let x1 := x4 + x6
  let x4 := x4 - x6
  let x6 := x5 + x7
  let x5 := x5 - x7
  -- stages 3 and 4
  (butterflyOut (x8 + x3) (x8 - x3) (x0 + x2) (x0 - x2) x1 x4 x5 x6).map fun v => shr v 14

/-- A constant's value. -/
def KernelConstants.get (k : KernelConstants) : KernelConstant → Word
  | .w1 => k.w1
  | .w2 => k.w2
  | .w3 => k.w3
  | .w5 => k.w5
  | .w6 => k.w6
  | .w7 => k.w7
  | .half => k.half

/-- A factor's value. -/
def KernelFactor.value (k : KernelConstants) : KernelFactor → Word
  | .one c => k.get c
  | .sum c d => k.get c + k.get d
  | .diff c d => k.get c - k.get d

/-- The value an operation gives from the values so far (R301 (b): integer arithmetic on `s32`, 00_scope.md R9). A number
that no value has yet stands for 0 (log entry 12). -/
def KernelOp.value (k : KernelConstants) (vs : List Word) : KernelOp → Word
  | .add a b => vs.getD a 0 + vs.getD b 0
  | .sub a b => vs.getD a 0 - vs.getD b 0
  | .scale f a => f.value k * vs.getD a 0
  | .bias v a => vs.getD a 0 + v
  | .shl n a => vs.getD a 0 <<< n
  | .shr n a => Machine.shr (vs.getD a 0) n

/-- The values after a list of operations, in order. -/
def runKernelOps (k : KernelConstants) : List KernelOp → List Word → List Word
  | [], vs => vs
  | op :: ops, vs => runKernelOps k ops (vs ++ [op.value k vs])

/-- The eight values a network gives. -/
def KernelNetwork.run (k : KernelConstants) (net : KernelNetwork) (input : Oct Word) : Oct Word :=
  let vs := runKernelOps k net.ops input.toList
  net.outputs.map fun i => vs.getD i 0

/-- The flat value a fast exit gives: the last value, the DC term being the first (R301 (c)). -/
def kernelFlat (k : KernelConstants) (ops : List KernelOp) (dc : Word) : Word :=
  (runKernelOps k ops [dc]).getLastD 0

/-- The full row path of a kernel (R301, R304). -/
def kernelRow (kn : Kernel) (row : Oct Word) : Oct Word :=
  match kn with
  | .njChenWang => rowFull row
  | .other net => net.row.run net.constants row

/-- The value a kernel's row fast exit gives (R301 (c), R303). A zero row stays zero under every kernel: R301 derives
from (c) that the fast exit "makes rows 1 to 7 zero". -/
def kernelRowFlat (kn : Kernel) (dc : Word) : Word :=
  match kn with
  | .njChenWang => dc <<< 3
  | .other net => if dc = 0 then 0 else kernelFlat net.constants net.rowFlat dc

/-- The full column path of a kernel up to the final shift (R301, R306). -/
def kernelColumn (kn : Kernel) (column : Oct Word) : Oct Word :=
  match kn with
  | .njChenWang => colFull column
  | .other net => net.column.run net.constants column

/-- The value a kernel's column fast exit gives, up to the final shift (R301 (c), R305). -/
def kernelColumnFlat (kn : Kernel) (dc : Word) : Word :=
  match kn with
  | .njChenWang => shr (dc + 32) 6
  | .other net => kernelFlat net.constants net.columnFlat dc

/-- Only the DC term of a row or column may be nonzero. -/
def dcOnly (b : Oct Word) : Bool :=
  b.e1 == 0 && b.e2 == 0 && b.e3 == 0 && b.e4 == 0 && b.e5 == 0 && b.e6 == 0 && b.e7 == 0

/-- `RowPass(o)` (R300, R301 (c), R303): the fast exit is mandatory. -/
def rowPass (kn : Kernel) (row : Oct Word) : Oct Word :=
  if dcOnly row then Oct.fill (kernelRowFlat kn row.e0) else kernelRow kn row

/-- The final +128 level shift and clip (R302). -/
def levelShift (t : Word) : Byte := clip (t + 128).toInt

/-- The sample every pixel of a block with only the DC coefficient takes: the row fast exit, then the column fast exit
(R301 (c)). -/
def flatBlockSample (kn : Kernel) (dc : Word) : Byte := levelShift (kernelColumnFlat kn (kernelRowFlat kn dc))

/-- R301 (e): a flat colour encoded at baseline quality decodes "within DCT quantization error bounds (≤ a few counts per
channel)". A flat plane of value v has the DC coefficient 8 · (v - 128) (the scale of R310's "dc_value", DC / 8), which the
encoder gives as the nearest multiple q · n of the 8-bit quantiser q (30_encoding.md R96), at most q / 2 from it; so the
sample may differ from v by q / 16, the quantisation error, and by the few counts, here in sixteenths. The reading is
DEDUCED (log entry 12). -/
def Kernel.Accurate (kn : Kernel) : Prop :=
  ∀ (v q : Nat) (n : Int), v < 256 → 1 ≤ q → q ≤ 255 → 2 * |q * n - 8 * (v - 128 : Int)| ≤ q →
    16 * |((flatBlockSample kn (BitVec.ofInt 32 (q * n))).toNat : Int) - v| ≤ q + 16 * (Config.fewCounts + 1)

/-- `ColPass(x)` (R300, R301 (c), R305). -/
def colPass (kn : Kernel) (column : Oct Word) : Oct Byte :=
  if dcOnly column then Oct.fill (levelShift (kernelColumnFlat kn column.e0))
  else (kernelColumn kn column).map levelShift

/-- The row pass of all eight rows (R300). -/
def rowPasses (kn : Kernel) (blk : Grid Word) : Grid Word := blk.map (rowPass kn)

/-- The column pass of all eight columns: `out[x]` is the eight samples of column x, top to bottom (R300). -/
def columnPasses (kn : Kernel) (blk : Grid Word) : Oct (Oct Byte) :=
  ⟨colPass kn (Grid.column blk 0), colPass kn (Grid.column blk 1), colPass kn (Grid.column blk 2),
   colPass kn (Grid.column blk 3), colPass kn (Grid.column blk 4), colPass kn (Grid.column blk 5),
   colPass kn (Grid.column blk 6), colPass kn (Grid.column blk 7)⟩

/-- The 64 samples of a block in natural order (R300). -/
def idctSamples (kn : Kernel) (blk : Grid Word) : Grid Byte :=
  let out := columnPasses kn (rowPasses kn blk)
  ⟨Grid.column out 0, Grid.column out 1, Grid.column out 2, Grid.column out 3,
   Grid.column out 4, Grid.column out 5, Grid.column out 6, Grid.column out 7⟩

/-- A plane with a block's samples at rows r0 to r0 + 7 and columns x0 to x0 + 7 (R300, R308). -/
def placeBlock (m : Memory) (stride r0 x0 : Nat) (samples : Grid Byte) : Memory :=
  [0, 1, 2, 3, 4, 5, 6, 7].foldl
    (fun m r => m.writeBytes ((r0 + r) * stride + x0) (Oct.get samples (Fin.ofNat 8 r)).toList) m

/-- `IDCT(r0, x0, c)` (R300): BLK becomes the row pass's result, and the plane takes the samples. -/
def idctBlock (c : Fin 3) (r0 x0 : Nat) (s : State) : State :=
  { s with
    blk := rowPasses s.params.kernel s.blk
    planes := s.planes.set c ((s.planes.get c).map fun m =>
      placeBlock m (s.ch.get c).stride r0 x0 (idctSamples s.params.kernel s.blk)) }

end Sys2Proof.Machine
end

