-- ==== Sys2Proof/Machine/Scan.lean ====
section
/-! DEFINITION. The scan decoder's own operations (46_scan_decoder.md): the start of a scan, the walk over blocks and MCUs,
and the restart step. -/

namespace Sys2Proof.Machine

/-- `ClearBlock()` (44_block_decoder.md R262), and the next symbol is a DC symbol. -/
def beginBlock (s : State) : State :=
  { s with blk := Oct.fill (Oct.fill 0), k := 0, scan := { s.scan with step := .dc } }

/-- The first block of an MCU (46_scan_decoder.md R332). -/
def beginMcu (s : State) : State :=
  beginBlock { s with phase := .decodingMcu, scan := { s.scan with chan := 0, sby := 0, sbx := 0 } }

/-- PRED of every live channel set to 0 (R330, R339). -/
def clearPredictors (s : State) : State :=
  { s with ch := s.ch.mapBelow s.frame.channels fun _ r => { r with pred := 0 } }

/-- The start of `RunScan()` at index `a` (R330). -/
def startScan (a : Nat) (s : State) : State :=
  let s := clearPredictors { s with reader := readerStart a }
  beginMcu { s with scan := { s.scan with mbx := 0, mby := 0, countdown := s.ri, nextRst := 0 } }

/-- The bytes the planes of the live channels hold: Σ STRIDE · ROWS (41_segment_parser.md R158, 47_upsample_colour.md R360). -/
def planeBytes (s : State) : Nat :=
  ((liveChannels s.frame.channels).map fun c => (s.ch.get c).stride * (s.ch.get c).rows).sum

/-- The last MCU has ended: PHASE is FINISHING (46_scan_decoder.md R334, 47_upsample_colour.md R360). -/
def startFinish (s : State) : State :=
  { s with phase := .finishing, live := planeBytes s, fin := .upsample 0 }

/-- The restart countdown after an MCU that is not the last (R335). -/
def countMcu (s : State) : State :=
  if s.ri = 0 then beginMcu s
  else
    let s := { s with scan := { s.scan with countdown := s.scan.countdown - 1 } }
    if s.scan.countdown = 0 then { s with phase := .atRestartBoundary } else beginMcu s

/-- `Advance()` (R331) and what follows it in `RunScan()` (R330, R334). -/
def advanceMcu (s : State) : State :=
  if s.scan.mbx + 1 = s.frame.mbw then
    let s := { s with scan := { s.scan with mbx := 0, mby := s.scan.mby + 1 } }
    if s.scan.mby = s.frame.mbh then startFinish s else countMcu s
  else countMcu { s with scan := { s.scan with mbx := s.scan.mbx + 1 } }

/-- The channel after `c`, if it is live. -/
def nextChannel (s : State) (c : Fin 3) : Option (Fin 3) :=
  match c with
  | 0 => if 1 < s.frame.channels then some 1 else none
  | 1 => if 2 < s.frame.channels then some 2 else none
  | 2 => none

/-- The block after the current one in the MCU (R332), or the end of the MCU. -/
def advanceBlock (s : State) : State :=
  if s.scan.sbx + 1 < (s.ch.get s.scan.chan).hs then
    beginBlock { s with scan := { s.scan with sbx := s.scan.sbx + 1 } }
  else if s.scan.sby + 1 < (s.ch.get s.scan.chan).vs then
    beginBlock { s with scan := { s.scan with sbx := 0, sby := s.scan.sby + 1 } }
  else
    match nextChannel s s.scan.chan with
    | some c => beginBlock { s with scan := { s.scan with chan := c, sbx := 0, sby := 0 } }
    | none => advanceMcu s

/-- The plane row of the current block's first row (R333). -/
def blockRow (s : State) : Nat := (s.scan.mby * (s.ch.get s.scan.chan).vs + s.scan.sby) * 8

/-- The plane column of the current block's first column (R333). -/
def blockColumn (s : State) : Nat := (s.scan.mbx * (s.ch.get s.scan.chan).hs + s.scan.sbx) * 8

/-- The end of a block: its IDCT at its place, then the next block (44_block_decoder.md R276, R332, R333). -/
def finishBlock (s : State) : State := advanceBlock (idctBlock s.scan.chan (blockRow s) (blockColumn s) s)

/-- `CheckSequence(n)`: any n in permissive mode, NEXT_RST in strict mode (R337, R338). -/
def sequenceOk (s : State) (n : Nat) : Bool := !s.strict || decide (n = s.scan.nextRst)

/-- `Restart()` (R336, R339). -/
def restartStep (s : State) : Except Abort State := do
  let (m, s) ← getBits 16 (alignBits s)
  if m / 8 ≠ 0xFFD0 / 8 then .error ⟨.syntaxError, s⟩
  else if !sequenceOk s (m % 8) then .error ⟨.syntaxError, s⟩
  else
    let s := { s with scan := { s.scan with nextRst := (s.scan.nextRst + 1) % 8, countdown := s.ri } }
    .ok (beginMcu (clearPredictors s))

end Sys2Proof.Machine
end

