-- ==== Sys2Proof/Machine/Markers.lean ====
section
/-! DEFINITION. The marker handlers (41_segment_parser.md). Each runs with CURSOR past its marker's two bytes, SOI at the
start of the buffer. -/

namespace Sys2Proof.Machine

/-- Raise `kind` when `bad` holds. -/
def failIf (bad : Bool) (kind : ErrCode) (s : State) : Except Abort State :=
  if bad then .error ⟨kind, s⟩ else .ok s

/-! ### SOI -/

/-- `CheckFraming()` (R150): below six bytes nothing is read. -/
def checkFraming (s : State) : Except Abort State :=
  if s.len < 6 then .error ⟨.syntaxError, s⟩
  else if inRead s 0 ≠ 0xFF ∨ inRead s 1 ≠ 0xD8 then .error ⟨.syntaxError, s⟩
  else if inRead s (s.len - 2) ≠ 0xFF ∨ inRead s (s.len - 1) ≠ 0xD9 then .error ⟨.syntaxError, s⟩
  else .ok { s with cursor := 2 }

/-- SOI (R150). -/
def execSoi (s : State) : Host.Outcome State Fault Refusal := settle (checkFraming s)

/-! ### SOF0 -/

/-- The error a sampling factor raises, if any (R155): 0 and 8 SyntaxError, another that is no power of two
UnsupportedError. -/
def factorError (f : Nat) : Option ErrCode :=
  if f = 0 then some .syntaxError
  else if f &&& (f - 1) ≠ 0 then some .unsupportedError
  else if 4 < f then some .syntaxError
  else none

/-- The error a channel's sampling byte and table byte raise, if any, horizontal factor first (R155). -/
def channelError (sf tq : Byte) : Option ErrCode :=
  match factorError (sf.extractLsb' 4 4).toNat with
  | some e => some e
  | none =>
    match factorError (sf.extractLsb' 0 4).toNat with
    | some e => some e
    | none => if tq &&& 0xFC ≠ 0 then some .syntaxError else none

/-- One turn of the channel loop of `ParseSOF()` (R155). -/
def readChannel (g : Segment) (s : State) (c : Fin 3) : Except Abort State :=
  let sf := g.byte s (7 + 3 * c.val)
  let tq := g.byte s (8 + 3 * c.val)
  match channelError sf tq with
  | some e => .error ⟨e, s⟩
  | none =>
    .ok (setChannel s c
      { s.ch.get c with
        cid := g.byte s (6 + 3 * c.val)
        hs := (sf.extractLsb' 4 4).toNat
        vs := (sf.extractLsb' 0 4).toNat
        tq := Fin.ofNat 4 tq.toNat })

/-- A single channel's sampling factors are replaced by 1 (R155). -/
def forceGray (nc : Nat) (s : State) : State :=
  if nc = 1 then setChannel s 0 { s.ch.get 0 with hs := 1, vs := 1 } else s

/-- `ceil_div(a, b)` (00_scope.md R9). -/
def ceilDiv (a b : Nat) : Nat := (a + b - 1) / b

/-- The largest horizontal factor of the first `nc` channels (R156). -/
def maxHs (nc : Nat) (s : State) : Nat := (liveChannels nc).foldl (fun m c => max m (s.ch.get c).hs) 0

/-- The largest vertical factor of the first `nc` channels (R156). -/
def maxVs (nc : Nat) (s : State) : Nat := (liveChannels nc).foldl (fun m c => max m (s.ch.get c).vs) 0

/-- A channel's plane dimensions in a frame of `w` by `h` pixels (R156). -/
def channelGeometry (f : Frame) (w h : Nat) (r : Channel) : Channel :=
  { r with
    pw := ceilDiv (w * r.hs) f.hmax
    ph := ceilDiv (h * r.vs) f.vmax
    stride := f.mbw * r.hs * 8
    rows := f.mbh * r.vs * 8 }

/-- `Geometry(w, h, nc)` (R156). -/
def geometry (w h nc : Nat) (s : State) : State :=
  let hm := maxHs nc s
  let vm := maxVs nc s
  let f := { s.frame with hmax := hm, vmax := vm, mbw := ceilDiv w (8 * hm), mbh := ceilDiv h (8 * vm) }
  { s with frame := f, ch := s.ch.mapBelow nc fun _ r => channelGeometry f w h r }

/-- A channel the degenerate-subsampling guard rejects (R157). -/
def degenerate (f : Frame) (r : Channel) : Bool :=
  (decide (r.pw < 3) && decide (r.hs ≠ f.hmax)) || (decide (r.ph < 3) && decide (r.vs ≠ f.vmax))

/-- The bytes the planes of the first `nc` channels need (R158). -/
def planesNeed (nc : Nat) (s : State) : Nat :=
  ((liveChannels nc).map fun c => (s.ch.get c).stride * (s.ch.get c).rows).sum

/-- The planes of the first `nc` channels allocated, their contents unspecified (R158). -/
def allocatePlanes (nc : Nat) (s : State) : State :=
  { s with
    planes := s.planes.mapBelow nc fun c _ => some { draw := s.draws + c.val, cells := [] }
    draws := s.draws + 3 }

/-- `Allocate(w, h, nc)` (R158). -/
def allocate (w h nc : Nat) (s : State) : Except Abort State :=
  if s.params.workMemSize < planesNeed nc s then .error ⟨.outOfMemory, s⟩
  else if s.params.outMemSize < w * h * nc then .error ⟨.outOfMemory, s⟩
  else .ok (allocatePlanes nc s)

/-- `ParseSOF()` from the channel list on, once precision, size and channel count are accepted (R155). -/
def parseFrame (g : Segment) (w h nc : Nat) (s : State) : Except Abort State := do
  let s ← (liveChannels nc).foldlM (readChannel g) s
  let s := geometry w h nc (forceGray nc s)
  let s ← failIf ((liveChannels nc).any fun c => degenerate s.frame (s.ch.get c)) .unsupportedError s
  let s ← allocate w h nc s
  .ok { s with frame := { s.frame with width := w, height := h, channels := nc, seen := true } }

/-- `ParseSOF()` (R155). -/
def parseSof (s : State) : Except Abort State := do
  let s ← failIf s.frame.seen .syntaxError s
  let (g, s) ← readSegment s
  let s ← failIf (decide (g.size < 6)) .syntaxError s
  let s ← failIf (g.byte s 0 != 8) .unsupportedError s
  let h := be16 s (g.start + 1)
  let w := be16 s (g.start + 3)
  let nc := (g.byte s 5).toNat
  let s ← failIf (decide (w = 0 ∨ h = 0)) .syntaxError s
  let s ← failIf (decide (nc ≠ 1 ∧ nc ≠ 3)) .unsupportedError s
  let s ← failIf (decide (g.size < 6 + 3 * nc)) .syntaxError s
  parseFrame g w h nc s

/-- SOF0 (R155 to R158). -/
def execSof0 (s : State) : Host.Outcome State Fault Refusal := settle (parseSof s)

/-! ### Tables -/

/-- The table definitions of a DHT payload from position `i` on (R159), at most `fuel` of them; each takes at least 17
bytes. -/
def parseDefinitions (fuel : Nat) (g : Segment) (i : Nat) (s : State) : Except Abort State :=
  match fuel with
  | 0 => .ok s
  | fuel + 1 =>
    if g.size ≤ i then .ok s
    else if g.size - i < 17 then .error ⟨.syntaxError, s⟩
    else
      let v := g.byte s i
      if v &&& 0xEC ≠ 0 then .error ⟨.syntaxError, s⟩
      else if v &&& 0x02 ≠ 0 then .error ⟨.unsupportedError, s⟩
      else do
        let (s, i) ← buildTable (slotOf v) (codeCounts g s i) g (i + 17) s
        parseDefinitions fuel g i s

/-- `ParseDHT()` (R159). -/
def parseDht (s : State) : Except Abort State := do
  let (g, s) ← readSegment s
  parseDefinitions g.size g 0 s

/-- DHT (R159). -/
def execDht (s : State) : Host.Outcome State Fault Refusal := settle (parseDht s)

/-- The natural position of zig-zag index `k` (44_block_decoder.md R263). -/
def zigzag : List Nat :=
  [0, 1, 8, 16, 9, 2, 3, 10] ++ [17, 24, 32, 25, 18, 11, 4, 5] ++ [12, 19, 26, 33, 40, 48, 41, 34]
    ++ [27, 20, 13, 6, 7, 14, 21, 28] ++ [35, 42, 49, 56, 57, 50, 43, 36] ++ [29, 22, 15, 23, 30, 37, 44, 51]
    ++ [58, 59, 52, 45, 38, 31, 39, 46] ++ [53, 60, 61, 54, 47, 55, 62, 63]

/-- ZZ[k] (R263). -/
def zz (k : Nat) : Nat := zigzag.getD k 0

/-- The quantisation table whose 64 bytes in zig-zag order start at payload position `i`, in natural order, over an old
table every entry of which is replaced (R160). -/
def readQuantTable (g : Segment) (s : State) (i : Nat) (old : Grid Byte) : Grid Byte :=
  (List.range 64).foldl (fun q k => Grid.put q (zz k) (g.byte s (i + k))) old

/-- The groups of a DQT payload from position `i` on (R160), at most `fuel` of them. -/
def parseQuantGroups (fuel : Nat) (g : Segment) (i : Nat) (s : State) : Except Abort State :=
  match fuel with
  | 0 => .ok s
  | fuel + 1 =>
    if g.size ≤ i then .ok s
    else if g.size - i < 65 then .error ⟨.syntaxError, s⟩
    else
      let t := g.byte s i
      if t &&& 0xFC ≠ 0 then .error ⟨.syntaxError, s⟩
      else
        let t := Fin.ofNat 4 t.toNat
        parseQuantGroups fuel g (i + 65)
          { s with qt := s.qt.set t (readQuantTable g s (i + 1) (s.qt.get t)), qtLoaded := s.qtLoaded.set t true }

/-- `ParseDQT()` (R160). -/
def parseDqt (s : State) : Except Abort State := do
  let (g, s) ← readSegment s
  parseQuantGroups g.size g 0 s

/-- DQT (R160). -/
def execDqt (s : State) : Host.Outcome State Fault Refusal := settle (parseDqt s)

/-- `ParseDRI()` (R161). -/
def parseDri (s : State) : Except Abort State := do
  let (g, s) ← readSegment s
  let s ← failIf (decide (g.size < 2)) .syntaxError s
  .ok { s with ri := be16 s g.start }

/-- DRI (R161). -/
def execDri (s : State) : Host.Outcome State Fault Refusal := settle (parseDri s)

/-! ### SOS -/

/-- One turn of the channel loop of `ParseSOS()` (R162). -/
def selectTables (g : Segment) (s : State) (c : Fin 3) : Except Abort State :=
  let t := g.byte s (2 + 2 * c.val)
  if g.byte s (1 + 2 * c.val) ≠ (s.ch.get c).cid then .error ⟨.syntaxError, s⟩
  else if t &&& 0xEE ≠ 0 then .error ⟨.syntaxError, s⟩
  else
    .ok (setChannel s c
      { s.ch.get c with dcSlot := if t.getLsbD 4 then 1 else 0, acSlot := if t.getLsbD 0 then 3 else 2 })

/-- The trailer bytes at payload position `j` are those of a baseline scan (R162). -/
def baselineTrailer (g : Segment) (s : State) (j : Nat) : Bool :=
  g.byte s j == 0 && g.byte s (j + 1) == 63 && g.byte s (j + 2) == 0

/-- The quantisation table of every live channel is loaded (R163). -/
def quantTablesLoaded (s : State) : Bool :=
  (liveChannels s.frame.channels).all fun c => s.qtLoaded.get (s.ch.get c).tq

/-- `ParseSOS()` (R162, R163), then the start of the scan at the byte after the segment. -/
def parseSos (s : State) : Except Abort State := do
  let s ← failIf (!s.frame.seen) .syntaxError s
  let (g, s) ← readSegment s
  let s ← failIf (decide (g.size < 1)) .syntaxError s
  let nc := s.frame.channels
  let s ← failIf (decide ((g.byte s 0).toNat ≠ nc)) .unsupportedError s
  let s ← failIf (decide (g.size < 4 + 2 * nc)) .syntaxError s
  let s ← (liveChannels nc).foldlM (selectTables g) s
  let s ← failIf (!baselineTrailer g s (1 + 2 * nc)) .unsupportedError s
  let s ← failIf (!quantTablesLoaded s) .syntaxError s
  .ok (startScan s.cursor s)

/-- SOS (R162, R163). -/
def execSos (s : State) : Host.Outcome State Fault Refusal := settle (parseSos s)

/-! ### Skipped and rejected markers -/

/-- `SkipSegment()` (R164). -/
def skipSegment (s : State) : Except Abort State := do
  let (_, s) ← readSegment s
  .ok s

/-- APPn (R164): the payload is not read. -/
def execAppn (_n : BitVec 4) (s : State) : Host.Outcome State Fault Refusal := settle (skipSegment s)

/-- COM (R164): the payload is not read. -/
def execCom (s : State) : Host.Outcome State Fault Refusal := settle (skipSegment s)

/-- EOI met by the marker loop (R165). -/
def execEoi (s : State) : Host.Outcome State Fault Refusal := .next (raiseError .syntaxError s)

/-- Every other kind byte (R166). -/
def execMarkerOther (_kk : Byte) (s : State) : Host.Outcome State Fault Refusal := .next (raiseError .syntaxError s)

end Sys2Proof.Machine
end

