-- ==== Sys2Proof/Machine/Symbols.lean ====
section
/-! DEFINITION. The symbols of a block (44_block_decoder.md). Each runs on the channel whose block is decoded, with its code
word consumed and its value bits next. -/

namespace Sys2Proof.Machine

/-- q[j] of the current channel, as an `s32` (44_block_decoder.md, introduction). -/
def quantAt (s : State) (j : Nat) : Word :=
  (Grid.at (s.qt.get (s.ch.get s.scan.chan).tq) j).setWidth 32

/-- `UpdatePredictor(c, d)`, `StoreDC(c)` and the start of `DecodeAC(c)` (R265, R266, R267). -/
def storeDc (d : Word) (s : State) : State :=
  let r := s.ch.get s.scan.chan
  { s with
    ch := s.ch.set s.scan.chan { r with pred := r.pred + d }
    blk := Grid.put s.blk 0 ((r.pred + d) * quantAt s 0)
    k := 0
    scan := { s.scan with step := .ac } }

/-- DC_DIFF (R264): the high nibble is ignored. -/
def execDcDiff (size _ignored : BitVec 4) (s : State) : Host.Outcome State Fault Refusal :=
  settle do
    let (d, s) ← receiveExtend size.toNat s
    .ok (storeDc d s)

/-- The block's coefficients are complete; its IDCT is next (R268, R273, R276). -/
def endBlock (s : State) : State := { s with scan := { s.scan with step := .idct } }

/-- A coefficient placed at zig-zag index `k`, at most 63 (R270, R273, R274). -/
def storeAc (v : Word) (s : State) : State :=
  let s := { s with blk := Grid.put s.blk (zz s.k) (v * quantAt s (zz s.k)) }
  if s.k = 63 then endBlock s else s

/-- `run` zeros skipped and one coefficient of `size` value bits placed (R267, R270, R272). -/
def runValue (run size : Nat) (s : State) : Except Abort State := do
  let (v, s) ← receiveExtend size s
  let s := { s with k := s.k + run + 1 }
  if 63 < s.k then .error ⟨.syntaxError, s⟩ else .ok (storeAc v s)

/-- AC_EOB (R268). -/
def execAcEob (s : State) : Host.Outcome State Fault Refusal := .next (endBlock s)

/-- AC_ZRL (R269): sixteen zeros, no value bits. -/
def execAcZrl (s : State) : Host.Outcome State Fault Refusal := settle (runValue 15 0 s)

/-- AC_RUNVAL (R270). -/
def execAcRunVal (run size : BitVec 4) (s : State) : Host.Outcome State Fault Refusal :=
  settle (runValue run.toNat size.toNat s)

/-- AC_ILLEGAL (R271): no value bits are read. -/
def execAcIllegal (_run : BitVec 4) (s : State) : Host.Outcome State Fault Refusal :=
  .next (raiseError .syntaxError s)

end Sys2Proof.Machine
end

