-- ==== Sys2Proof/Machine/Dispatch.lean ====
section
/-! DEFINITION. One arm per row of the opcode table. -/

namespace Sys2Proof.Machine

def exec (i : Instr) (s : State) : Host.Outcome State Fault Refusal :=
  match i with
  | .load => Sys2Proof.Machine.execLoad s
  | .decode => Sys2Proof.Machine.execDecode s
  | .flush => Sys2Proof.Machine.execFlush s
  | .cmdReserved v => Sys2Proof.Machine.execCmdReserved v s
  | .soi => Sys2Proof.Machine.execSoi s
  | .sof0 => Sys2Proof.Machine.execSof0 s
  | .dht => Sys2Proof.Machine.execDht s
  | .dqt => Sys2Proof.Machine.execDqt s
  | .dri => Sys2Proof.Machine.execDri s
  | .sos => Sys2Proof.Machine.execSos s
  | .appn n => Sys2Proof.Machine.execAppn n s
  | .com => Sys2Proof.Machine.execCom s
  | .eoi => Sys2Proof.Machine.execEoi s
  | .markerOther kk => Sys2Proof.Machine.execMarkerOther kk s
  | .ecsData b => Sys2Proof.Machine.execEcsData b s
  | .ecsStuff => Sys2Proof.Machine.execEcsStuff s
  | .ecsFill => Sys2Proof.Machine.execEcsFill s
  | .ecsEnd => Sys2Proof.Machine.execEcsEnd s
  | .ecsRst n => Sys2Proof.Machine.execEcsRst n s
  | .ecsIllegal x => Sys2Proof.Machine.execEcsIllegal x s
  | .dcDiff size ignored => Sys2Proof.Machine.execDcDiff size ignored s
  | .acEob => Sys2Proof.Machine.execAcEob s
  | .acZrl => Sys2Proof.Machine.execAcZrl s
  | .acRunVal run size => Sys2Proof.Machine.execAcRunVal run size s
  | .acIllegal run => Sys2Proof.Machine.execAcIllegal run s

end Sys2Proof.Machine
end

