-- ==== Sys2Proof/Machine/Finish.lean ====
section
/-! DEFINITION. The upsampler and colour transform (47_upsample_colour.md), and the outcome of a decode the host spoiled. -/

namespace Sys2Proof.Machine

/-- The least `s` with `size << s ≥ full` (R361), for sizes of at most 16 bits. -/
def leastShift (size full : Nat) : Nat := ((List.range 17).find? fun s => decide (full ≤ size <<< s)).getD 17

/-- `Shifts(c)`: xs (R361). -/
def shiftX (s : State) (c : Fin 3) : Nat := leastShift (s.ch.get c).pw s.frame.width

/-- `Shifts(c)`: ys (R361). -/
def shiftY (s : State) (c : Fin 3) : Nat := leastShift (s.ch.get c).ph s.frame.height

/-- Every pixel position, row by row. -/
def pixels (w h : Nat) : List (Nat × Nat) := (List.range h).flatMap fun y => (List.range w).map fun x => (y, x)

/-- The full-resolution samples of a plane by replication (R363). -/
def replicate (m : Memory) (stride xs ys w h : Nat) : List Byte :=
  (pixels w h).map fun p => planeRead m stride (p.1 >>> ys) (p.2 >>> xs)

/-- What comes after channel `c` is upsampled: the next live channel, then the output (R360). -/
def afterUpsample (s : State) (c : Fin 3) : State :=
  match nextChannel s c with
  | some d => { s with fin := .upsample d }
  | none => { s with fin := .output }

/-- The upsampled plane in place of the old one (R362 to R364). -/
def replacePlane (s : State) (c : Fin 3) : State :=
  let r := s.ch.get c
  { s with
    planes := s.planes.set c ((s.planes.get c).map fun m =>
      { m with cells := cellsFrom 0 (replicate m r.stride (shiftX s c) (shiftY s c) s.frame.width s.frame.height) })
    ch := s.ch.set c { r with pw := s.frame.width, stride := s.frame.width, ph := s.frame.height, rows := s.frame.height }
    live := s.live - r.stride * r.rows + s.frame.width * s.frame.height }

/-- `Upsample(c)` (R361 to R364). -/
def upsample (c : Fin 3) (s : State) : Except Abort State :=
  if shiftX s c = 0 ∧ shiftY s c = 0 then .ok (afterUpsample s c)
  else if s.params.workMemSize < s.live + s.frame.width * s.frame.height then .error ⟨.outOfMemory, s⟩
  else .ok (afterUpsample (replacePlane s c) c)

/-- R, G and B of one pixel from its stored Y, Cb and Cr samples (R365), in exact integer arithmetic. -/
def colourPixel (y cb cr : Byte) : List Byte :=
  let yv : Int := y.toNat * 256
  let cb : Int := cb.toNat - 128
  let cr : Int := cr.toNat - 128
  [clip ((yv + 359 * cr + 128) / 256), clip ((yv - 88 * cb - 183 * cr + 128) / 256), clip ((yv + 454 * cb + 128) / 256)]

/-- Plane[c][y][x]; an unallocated plane is never read (R364). -/
def sampleAt (s : State) (c : Fin 3) (y x : Nat) : Byte :=
  match s.planes.get c with
  | some m => planeRead m (s.ch.get c).stride y x
  | none => Config.freeByte s.draws x

/-- The bytes `ColourOut()` writes, in address order (R365, R366). -/
def colourBytes (s : State) : List Byte :=
  (pixels s.frame.width s.frame.height).flatMap fun p =>
    colourPixel (sampleAt s 0 p.1 p.2) (sampleAt s 1 p.1 p.2) (sampleAt s 2 p.1 p.2)

/-- The bytes `GrayOut()` writes, in address order (R367). -/
def grayBytes (s : State) : List Byte :=
  (pixels s.frame.width s.frame.height).map fun p => sampleAt s 0 p.1 p.2

/-- `ColourOut()` or `GrayOut()` (R360, R368): OUT_MEM from index 0 up. -/
def writeOutput (s : State) : State :=
  { s with
    outMem := s.outMem.writeBytes 0 (if s.frame.channels = 3 then colourBytes s else grayBytes s)
    fin := .complete }

/-- One part of `Finish()` (R360), then `Complete(OK)`. -/
def finishStep (s : State) : Except Abort State :=
  match s.fin with
  | .upsample c => upsample c s
  | .output => .ok (writeOutput s)
  | .complete => .ok (completeOk s)

/-- A drawn outcome is a successful one only if its image fits OUT_MEM (20_memory.md R81, 41_segment_parser.md R158). -/
def spoiledFits (s : State) (o : SpoiledOutcome) : Bool :=
  o.code == 0 && o.width != 0 && o.height != 0
    && decide (o.width.toNat * o.height.toNat * (if o.colour then 3 else 1) ≤ s.params.outMemSize)

/-- The error a drawn outcome reports otherwise: any of the codes 1 to 3. -/
def spoiledError (o : SpoiledOutcome) : ErrCode :=
  if o.code = 2 then .unsupportedError else if o.code = 3 then .outOfMemory else .syntaxError

/-- The end of a decode during which the host wrote IN_MEM below LEN (20_memory.md R81, 70_reset_and_hazards.md R444): any
error code from 0 to 3 and any bytes below W · H · NC, but nothing written outside. RST_EVENTS never decreases (R131). -/
def spoiledEnd (s : State) : State :=
  let o := Config.spoiledOutcome s.draws
  let s := { s with rstEvents := if s.rstEvents.ule o.events then o.events else s.rstEvents, draws := s.draws + 1 }
  if spoiledFits s o then
    let nc := if o.colour then 3 else 1
    let n := o.width.toNat * o.height.toNat * nc
    completeOk
      { s with
        frame := { s.frame with seen := true, width := o.width.toNat, height := o.height.toNat, channels := nc }
        outMem := s.outMem.writeBytes 0 ((List.range n).map fun a => Config.freeByte s.draws a)
        draws := s.draws + 1 }
  else raiseError (spoiledError o) s

end Sys2Proof.Machine
end

