-- ==== Sys2Proof/Machine/HostBus.lean ====
section
/-! DEFINITION. The host's accesses to the register block and the two memories (20_memory.md R70, R78 to R81, R85,
40_host_commands.md R130, R131, R140, R141). -/

namespace Sys2Proof.Machine

/-- The width in bytes (R78). -/
def AccessSize.bytes : AccessSize → Nat
  | .one => 1
  | .two => 2
  | .four => 4

/-- The place of a host access. -/
inductive Place where
  /-- A register offset, of an access of the width and alignment R78 asks for. -/
  | register (off : Nat)
  /-- Another access to the register block. -/
  | badRegister
  | inMem (index : Nat)
  | outMem (index : Nat)
  | nowhere
  deriving DecidableEq, Repr

/-- Where a platform address lies (20_memory.md R70, R85). A memory access lies in a memory only with all its bytes. -/
def placeOf (p : Params) (addr : Nat) (size : AccessSize) : Place :=
  if p.regBase ≤ addr ∧ addr < p.regBase + 0x100 then
    if size = .four ∧ addr % 4 = 0 ∧ (addr - p.regBase) % 4 = 0 then .register (addr - p.regBase) else .badRegister
  else if p.inBase ≤ addr ∧ addr + size.bytes ≤ p.inBase + p.inMemSize then .inMem (addr - p.inBase)
  else if p.outBase ≤ addr ∧ addr + size.bytes ≤ p.outBase + p.outMemSize then .outMem (addr - p.outBase)
  else .nowhere

/-- What a register reads (10_state.md R21 to R32, 40_host_commands.md R131): CMD and reserved offsets read 0. -/
def regRead (s : State) (off : Nat) : Word :=
  if off = 0x00 then s.ctrl
  else if off = 0x08 then s.status.word
  else if off = 0x0C then s.errcode.code
  else if off = 0x10 then s.inLen
  else if off = 0x14 then s.width
  else if off = 0x18 then s.height
  else if off = 0x1C then s.ncomp
  else if off = 0x20 then s.outLen
  else if off = 0x24 then s.rstEvents
  else 0

/-- `RegWrite(off, v)` for every register but CMD, whose write is a command (R130). -/
def regWrite (off : Nat) (v : Word) (s : State) : State :=
  if off = 0x00 then if s.status.busy then s else { s with ctrl := v &&& 1 }
  else if off = 0x10 then if s.status.busy then s else { s with inLen := v }
  else s

/-- A little-endian value from bytes, the lowest-addressed first (20_memory.md R78). -/
def littleEndian (bytes : List Byte) : Word := bytes.foldr (fun b v => (v <<< 8) ||| b.setWidth 32) 0

/-- The bytes of a value of a given width, lowest first (R78). -/
def valueBytes (size : AccessSize) (v : Word) : List Byte :=
  (List.range size.bytes).map fun i => v.extractLsb' (8 * i) 8

/-- A host write of bytes to IN_MEM (40_host_commands.md R140); below LEN while BUSY it spoils the decode (20_memory.md R81). -/
def writeInMem (a : Nat) (bytes : List Byte) (s : State) : State :=
  { s with
    inMem := s.inMem.writeBytes a bytes
    spoiled := s.spoiled || (s.status.busy && decide (a < s.len)) }

/-- A host write of bytes to OUT_MEM (20_memory.md R80); while BUSY it is settled when the decode ends
(70_reset_and_hazards.md R445). -/
def writeOutMem (a : Nat) (bytes : List Byte) (s : State) : State :=
  if s.status.busy then { s with busyWrites := s.busyWrites ++ cellsFrom a bytes }
  else { s with outMem := s.outMem.writeBytes a bytes }

/-- A host read of OUT_MEM: while BUSY, any value (20_memory.md R80). -/
def readOutMem (a n : Nat) (s : State) : State :=
  if s.status.busy then
    { s with readData := littleEndian ((List.range n).map fun i => Config.freeByte s.draws (a + i)), draws := s.draws + 1 }
  else { s with readData := littleEndian (s.outMem.readBytes a n) }

/-- A host read: its value stands in `readData` afterwards. -/
def hostRead (addr : Nat) (size : AccessSize) (s : State) : Host.Outcome State Fault Refusal :=
  match placeOf s.params addr size with
  | .register off => .next { s with readData := regRead s off }
  | .badRegister => .refused .registerAccess
  | .inMem i => .next { s with readData := littleEndian (s.inMem.readBytes i size.bytes) }
  | .outMem i => .next (readOutMem i size.bytes s)
  | .nowhere => .fault .noSuchAddress

/-- A host write to anything but CMD. -/
def hostWrite (addr : Nat) (size : AccessSize) (v : Word) (s : State) : Host.Outcome State Fault Refusal :=
  match placeOf s.params addr size with
  | .register off => .next (regWrite off v s)
  | .badRegister => .refused .registerAccess
  | .inMem i => .next (writeInMem i (valueBytes size v) s)
  | .outMem i => .next (writeOutMem i (valueBytes size v) s)
  | .nowhere => .fault .noSuchAddress

/-- Whether a host write issues a command: an access to CMD (10_state.md R23, 40_host_commands.md R130). -/
def isCommand (p : Params) (addr : Nat) (size : AccessSize) : Bool := placeOf p addr size == .register 0x04

end Sys2Proof.Machine
end

