-- ==== Sys2Proof/Machine/Fetch.lean ====
section
/-! DEFINITION. What a step runs next: the host's next access or command, else the engine's next marker, byte form, symbol
or operation. -/

namespace Sys2Proof.Machine

/-- What comes next: an instruction, with the state moved past its word, or an operation of the spec that is no row of
the opcode table, with how it ends. -/
inductive Fetched where
  | run (i : Instr) (s : State)
  | done (o : Host.Outcome State Fault Refusal)

/-- The instruction in `bytes` run at `s`, or the error a failing decode raises. -/
def runDecoded (r : Except DecodeError (Instr × List Byte)) (s : State) : Fetched :=
  match r with
  | .ok (i, _) => .run i s
  | .error _ => .done (.next (raiseError .syntaxError s))

/-- The framing check reads IN_MEM[0..1] only in a buffer of at least six bytes (41_segment_parser.md R150). -/
def fetchFraming (s : State) : Fetched :=
  if s.len < 6 then .done (.next (raiseError .syntaxError s)) else runDecoded (decode .framing (inBytes s 0 2)) s

/-- `NextMarker()` (R151): CURSOR moves past the two bytes. -/
def fetchMarker (s : State) : Fetched :=
  match decode .marker (inBytes s s.cursor 2) with
  | .ok (i, _) => .run i { s with cursor := s.cursor + 2 }
  | .error _ => .done (.next (raiseError .syntaxError s))

/-- One `Fetch()` of a lookahead (43_bitreader.md R231, R232, R239): a byte form is an instruction, padding is not. -/
def fetchForm (s : State) : Fetched :=
  if readerAtEnd s then .done (.next (pushByte 0xFF s))
  else
    match takeForm s with
    | .ok (f, s) => .run f.toInstr s
    | .error e => .done (.next (raiseError e.kind e.state))

/-- The next symbol of a slot (44_block_decoder.md R260): bytes are fetched until 16 bits are held. -/
def fetchSymbol (f : Format) (slot : Fin 4) (s : State) : Fetched :=
  if s.reader.nb < 16 then fetchForm s
  else
    match huffTake slot s with
    | .ok (sym, s) => runDecoded (decode f [sym]) s
    | .error e => .done (.next (raiseError e.kind e.state))

/-- The engine's next turn (40_host_commands.md R138); idle, it holds its state (60_exceptions.md R415). -/
def engineTurn (s : State) : Fetched :=
  if s.spoiled && s.status.busy then .done (.next (spoiledEnd s))
  else
    match s.phase with
    | .idle => .done (.next s)
    | .parsingHeader => if s.cursor = 0 then fetchFraming s else fetchMarker s
    | .decodingMcu =>
      match s.scan.step with
      | .dc => fetchSymbol .dcSym8 (s.ch.get s.scan.chan).dcSlot s
      | .ac => fetchSymbol .acSym8 (s.ch.get s.scan.chan).acSlot s
      | .idct => .done (.next (finishBlock s))
    | .atRestartBoundary => .done (settle (restartStep s))
    | .finishing => .done (settle (finishStep s))
    | .doneOk => .done (.next s)
    | .doneErr => .done (.next s)

/-- The host's next turn. -/
def hostTurn (op : HostOp) (s : State) : Fetched :=
  match op with
  | .engine => engineTurn s
  | .powerOn => .done (.next (powerOnReset s))
  | .read addr size => .done (hostRead addr size s)
  | .write addr size v =>
    if isCommand s.params addr size then runDecoded (decode .cmd32 (wordBytes v)) s
    else .done (hostWrite addr size v s)

/-- What the next step does: the oldest of the host's accesses, else the engine's turn. -/
def fetch (s : State) : Fetched :=
  match s.host with
  | [] => engineTurn s
  | op :: rest => hostTurn op { s with host := rest }

/-- A decode in progress with six bytes of codestream, `bytes` at index `a` and the rest zero. -/
def placeBytes (s : State) (a : Nat) (bytes : List Byte) : State :=
  { s with
    inMem := s.inMem.writeBytes 0 (List.replicate a 0 ++ bytes ++ List.replicate (6 - a - bytes.length) 0)
    len := 6
    status := Status.running
    host := []
    spoiled := false }

/-- The reader at the start of the codestream with no bits held, before a DC symbol. -/
def placeForm (s : State) (bytes : List Byte) : State :=
  { placeBytes s 0 bytes with
    phase := .decodingMcu
    scan := { s.scan with step := .dc }
    reader := readerStart 0 }

/-- A block whose next symbol is `sym` in slot `slot`: 31 zero bits are held, of which the first is its code word. -/
def placeSymbol (s : State) (step : BlockStep) (sym : Byte) : State :=
  let r := s.ch.get s.scan.chan
  let slot := if step = .dc then r.dcSlot else r.acSlot
  { s with
    status := Status.running
    phase := .decodingMcu
    scan := { s.scan with step := step }
    reader := { rcur := s.len, acc := 0, nb := 31, exhausted := false }
    ht := s.ht.set slot [⟨1, sym⟩]
    host := []
    spoiled := false }

/-- The state in which the next step meets `bytes` in format `f`. -/
def placeWord (f : Format) (bytes : List Byte) (s : State) : State :=
  match f with
  | .cmd32 => { s with host := .write (s.params.regBase + 4) .four (littleEndian bytes) :: s.host }
  | .framing => { placeBytes s 0 bytes with phase := .parsingHeader, cursor := 0 }
  | .marker => { placeBytes s 2 bytes with phase := .parsingHeader, cursor := 2 }
  | .ecsByte => placeForm s bytes
  | .dcSym8 => placeSymbol s .dc (bytes.headD 0)
  | .acSym8 => placeSymbol s .ac (bytes.headD 0)

end Sys2Proof.Machine
end

