-- ==== Sys2Proof/Machine/Step.lean ====
section
/-! DEFINITION. One step. -/

namespace Sys2Proof.Machine

/-- What comes next, done: an instruction is run by `exec`. -/
def step (s : State) : Host.Outcome State Fault Refusal :=
  match fetch s with
  | .run i s => exec i s
  | .done o => o

/-- `s` with a word of the opcode table where the next step meets it (log entry 15). -/
def State.withFetchWord (s : State) (nbits w : Nat) : State := placeWord (tableFormat nbits w) (tableBytes nbits w) s

end Sys2Proof.Machine
end

