-- ==== Sys2Proof/Safety.lean ====
section
/-! DEFINITION. What holds of every state a run can reach: the invariants the spec states of the machine as a whole, in
the terms the claims use. -/

namespace Sys2Proof.Machine

/-- No address lies in both ranges, each given by its base and size. -/
def apart (a n b m : Nat) : Prop := a + n ≤ b ∨ b + m ≤ a

/-- The OPEN parameters lie in the ranges the spec gives them: IN_MEM_SIZE at least 6 and, like OUT_MEM_SIZE, the size of a
32-bit space, the register block and the two memories apart in the host's address map (00_scope.md R7, 20_memory.md R70,
R85), and a kernel that meets 45_idct.md R301 (e). -/
structure ParamsLegal (p : Params) : Prop where
  inMemSize : 6 ≤ p.inMemSize ∧ p.inMemSize < 2 ^ 32
  outMemSize : p.outMemSize < 2 ^ 32
  regsIn : apart p.regBase 0x100 p.inBase p.inMemSize
  regsOut : apart p.regBase 0x100 p.outBase p.outMemSize
  memories : apart p.inBase p.inMemSize p.outBase p.outMemSize
  kernel : p.kernel.Accurate

/-- STATUS agrees with PHASE and ERRCODE: BUSY is 1 exactly in the four working phases (10_state.md R34), BUSY implies
LOADED, not DONE and not ERR, ERR is 1 exactly when ERRCODE is not 0, and only with DONE (R24); while BUSY the result
registers read 0 (40_host_commands.md R131). -/
structure StatusCoherent (s : State) : Prop where
  busyPhase : s.status.busy = s.phase.busy
  busyLoaded : s.status.busy = true → s.status.loaded = true ∧ s.status.done = false ∧ s.status.err = false
  errCode : s.status.err = decide (s.errcode ≠ .ok)
  errDone : s.status.err = true → s.status.done = true
  busyResults : s.status.busy = true → s.width = 0 ∧ s.height = 0 ∧ s.ncomp = 0 ∧ s.outLen = 0

/-- The phases in which the bit reader runs. -/
def Phase.scanning (p : Phase) : Prop := p = .decodingMcu ∨ p = .atRestartBoundary

/-- The two cursors never pass LEN (10_state.md R35, 43_bitreader.md R245), the accumulator holds at most 31 valid bits
(R243), and each counter fits the width 10_state.md R33 and R41 to R44 give it. -/
structure CursorsBounded (s : State) : Prop where
  len : s.len < 2 ^ 32
  cursor : s.phase = .parsingHeader → s.cursor ≤ s.len
  rcur : s.phase.scanning → s.reader.rcur ≤ s.len
  bits : s.phase.scanning → s.reader.nb ≤ 31
  interval : s.ri < 2 ^ 16
  countdown : s.scan.countdown < 2 ^ 16
  nextRst : s.scan.nextRst < 8
  index : s.k < 2 ^ 7 ∧ (s.phase = .decodingMcu → s.k ≤ 63)

/-- Every memory is in its canonical form. -/
structure MemoriesCanonical (s : State) : Prop where
  inMem : s.inMem.wf = true
  outMem : s.outMem.wf = true
  planes : ∀ c m, s.planes.get c = some m → m.wf = true

/-- The sampling factors and grid widths an accepted frame has (10_state.md R36, R37). -/
def legalFactor (f : Nat) : Prop := f = 1 ∨ f = 2 ∨ f = 4

/-- An accepted frame: its size fits its registers and OUT_MEM (41_segment_parser.md R155, R158), its MCU grid covers it
(R156), and its channels have legal factors. -/
structure FrameLegal (s : State) : Prop where
  width : 1 ≤ s.frame.width ∧ s.frame.width ≤ 65535
  height : 1 ≤ s.frame.height ∧ s.frame.height ≤ 65535
  channels : s.frame.channels = 1 ∨ s.frame.channels = 3
  output : s.frame.width * s.frame.height * s.frame.channels ≤ s.params.outMemSize
  hmax : legalFactor s.frame.hmax
  vmax : legalFactor s.frame.vmax
  mbw : s.frame.mbw = ceilDiv s.frame.width (8 * s.frame.hmax)
  mbh : s.frame.mbh = ceilDiv s.frame.height (8 * s.frame.vmax)
  factors : ∀ c : Fin 3, c.val < s.frame.channels →
    legalFactor (s.ch.get c).hs ∧ legalFactor (s.ch.get c).vs ∧ (s.ch.get c).hs ≤ s.frame.hmax ∧ (s.ch.get c).vs ≤ s.frame.vmax

/-- Before finishing, every live channel has the plane 41_segment_parser.md R156 and R158 give it. -/
def PlanesLegal (s : State) : Prop :=
  ∀ c : Fin 3, c.val < s.frame.channels →
    (s.ch.get c).stride = s.frame.mbw * (s.ch.get c).hs * 8 ∧ (s.ch.get c).rows = s.frame.mbh * (s.ch.get c).vs * 8 ∧
    ∃ m, s.planes.get c = some m ∧ m.below ((s.ch.get c).stride * (s.ch.get c).rows) = true

/-- The scan stands at an MCU of the grid and, within it, at a block of a live channel (46_scan_decoder.md R331, R332), and a
countdown in use has not run out (R335). -/
structure ScanLegal (s : State) : Prop where
  mbx : s.scan.mbx < s.frame.mbw
  mby : s.scan.mby < s.frame.mbh
  chan : s.phase = .decodingMcu → s.scan.chan.val < s.frame.channels
  sbx : s.phase = .decodingMcu → s.scan.sbx < (s.ch.get s.scan.chan).hs
  sby : s.phase = .decodingMcu → s.scan.sby < (s.ch.get s.scan.chan).vs
  countdown : s.phase = .decodingMcu → 0 < s.ri → 0 < s.scan.countdown

/-- While finishing, a channel to be upsampled is live, and the planes hold the bytes counted (47_upsample_colour.md R360). -/
structure FinishLegal (s : State) : Prop where
  live : s.live = planeBytes s
  chan : ∀ c, s.fin = .upsample c → c.val < s.frame.channels

/-- The engine stays within its memories and its grid: IN_MEM and OUT_MEM hold bytes only below their sizes, LEN fits
IN_MEM (40_host_commands.md R133), WORK holds at most WORK_MEM_SIZE bytes (60_exceptions.md R409), a scan runs only with
an accepted frame (41_segment_parser.md R162), and its blocks lie in their planes. -/
structure EngineLegal (s : State) : Prop where
  inMem : s.inMem.below s.params.inMemSize = true
  outMem : s.outMem.below s.params.outMemSize = true
  busyWrites : (s.busyWrites.all fun c => decide (c.1 < s.params.outMemSize)) = true
  len : s.len ≤ s.params.inMemSize
  seen : s.phase.scanning ∨ s.phase = .finishing → s.frame.seen = true
  frame : s.phase.busy = true → s.frame.seen = true → FrameLegal s
  planes : s.phase = .parsingHeader ∨ s.phase.scanning → s.frame.seen = true → PlanesLegal s
  work : s.phase.busy = true → s.frame.seen = true → planeBytes s ≤ s.params.workMemSize
  scan : s.phase.scanning → ScanLegal s
  finish : s.phase = .finishing → FinishLegal s

/-- What holds of every reachable state. -/
structure Inv (s : State) : Prop where
  params : ParamsLegal s.params
  status : StatusCoherent s
  cursors : CursorsBounded s
  memories : MemoriesCanonical s
  engine : EngineLegal s

end Sys2Proof.Machine
end

