-- ==== Sys2Proof/Certificates/Slice0/Obligations.lean ====
section
/-! DEFINITION. The statements: what the spec's rules say of the model. The definitions under Sys2Proof.Claims write out
what a rule names, in the spec's own terms. -/

namespace Sys2Proof.Claims

open Sys2Proof.Machine

/-- The next step is the engine's own (log entry 2): the host has no access waiting and has not broken 20_memory.md R81. -/
structure EngineMoves (s : State) : Prop where
  quiet : s.host = []
  kept : s.spoiled = false

/-- The state in which an error of this kind leaves the core (60_exceptions.md R401, 40_host_commands.md R139): ERR_KIND and
ERRCODE hold the kind, STATUS is 0xD, the result registers are 0, the planes are released, and OUT_MEM holds unspecified
bytes (20_memory.md R82, log entry 5: a fresh draw). Nothing else changes. -/
def errorEnd (kind : ErrCode) (s : State) : State :=
  { s with
    errKind := kind
    errcode := kind
    status := { loaded := true, busy := false, done := true, err := true }
    phase := .doneErr
    width := 0
    height := 0
    ncomp := 0
    outLen := 0
    planes := ⟨none, none, none⟩
    outMem := { draw := s.draws, cells := [] }
    draws := s.draws + 1
    busyWrites := []
    spoiled := false }

/-- The instruction ends the decode with an error of this kind: STATUS reads 0xD, ERRCODE the code, and IN_MEM is as it
was. -/
def EndsWith (i : Instr) (s : State) (kind : ErrCode) : Prop :=
  ∃ t, exec i s = .next t ∧ t.errcode = kind ∧ t.status.word = 0xD ∧ t.phase = .doneErr ∧ t.inMem = s.inMem

/-- The image dropped: the list of `DiscardImage()` (40_host_commands.md R135). -/
def discarded (s : State) : State :=
  { s with
    frame := { s.frame with seen := false }
    planes := ⟨none, none, none⟩
    qtLoaded := ⟨false, false, false, false⟩
    ht := ⟨[], [], [], []⟩
    ri := 0
    cursor := 0
    errKind := .ok
    phase := .idle
    rstEvents := 0
    width := 0
    height := 0
    ncomp := 0
    outLen := 0 }

/-- IN_MEM[a] as a number. -/
def byteAt (s : State) (a : Nat) : Nat := (s.inMem.read a).toNat

/-- Payload byte i of the segment whose length field CURSOR is at, as a number (30_encoding.md R92). -/
def payload (s : State) (i : Nat) : Nat := byteAt s (s.cursor + 2 + i)

/-- The segment at CURSOR has the length L, counting its own two bytes, and ends at or below LEN (41_segment_parser.md R152). -/
structure SegmentAt (s : State) (len : Nat) : Prop where
  field : 256 * byteAt s s.cursor + byteAt s (s.cursor + 1) = len
  length : 2 ≤ len
  inside : s.cursor + len ≤ s.len

/-- A segment that fails a check of R152: no room for the length field, a length below 2, or past LEN. -/
def SegmentBroken (s : State) : Prop :=
  s.len - s.cursor < 2 ∨ 256 * byteAt s s.cursor + byteAt s (s.cursor + 1) < 2 ∨
    s.len < s.cursor + (256 * byteAt s s.cursor + byteAt s (s.cursor + 1))

/-- CURSOR past the segment. -/
def pastSegment (s : State) (len : Nat) : State := { s with cursor := s.cursor + len }

/-- The high nibble of payload byte i. -/
def highNibble (s : State) (i : Nat) : Nat := payload s i / 16

/-- The low nibble of payload byte i. -/
def lowNibble (s : State) (i : Nat) : Nat := payload s i % 16

/-- A sampling factor the core supports (00_scope.md R7 SAMPLE_FACTORS). -/
def goodFactor (f : Nat) : Prop := f = 1 ∨ f = 2 ∨ f = 4

/-- The horizontal factor a frame of nc channels gives channel i: 1 for a single channel (41_segment_parser.md R155). -/
def hsOf (s : State) (nc i : Nat) : Nat := if nc = 1 then 1 else highNibble s (7 + 3 * i)

/-- The vertical factor. -/
def vsOf (s : State) (nc i : Nat) : Nat := if nc = 1 then 1 else lowNibble s (7 + 3 * i)

/-- HMAX (R156). -/
def hmaxOf (s : State) (nc : Nat) : Nat := if nc = 1 then 1 else max (max (hsOf s nc 0) (hsOf s nc 1)) (hsOf s nc 2)

/-- VMAX (R156). -/
def vmaxOf (s : State) (nc : Nat) : Nat := if nc = 1 then 1 else max (max (vsOf s nc 0) (vsOf s nc 1)) (vsOf s nc 2)

/-- ceil(a / b). -/
def ceiling (a b : Nat) : Nat := (a + b - 1) / b

/-- MBW (R156). -/
def mbwOf (s : State) (w nc : Nat) : Nat := ceiling w (8 * hmaxOf s nc)

/-- MBH (R156). -/
def mbhOf (s : State) (h nc : Nat) : Nat := ceiling h (8 * vmaxOf s nc)

/-- The bytes channel i's plane needs (R156, R158). -/
def planeOf (s : State) (w h nc i : Nat) : Nat :=
  if i < nc then mbwOf s w nc * hsOf s nc i * 8 * (mbhOf s h nc * vsOf s nc i * 8) else 0

/-- A SOF0 segment of length L whose payload gives an image of w by h and a list of nc channels (R155, up to the list). -/
structure SofHeader (s : State) (len w h nc : Nat) : Prop where
  unseen : s.frame.seen = false
  segment : SegmentAt s len
  precision : payload s 0 = 8
  height : 256 * payload s 1 + payload s 2 = h
  width : 256 * payload s 3 + payload s 4 = w
  nonzero : 1 ≤ w ∧ 1 ≤ h
  count : payload s 5 = nc
  channels : nc = 1 ∨ nc = 3
  size : 8 + 3 * nc ≤ len

/-- The sampling byte and the table byte of channel i pass their checks (R155). -/
def channelPasses (s : State) (i : Nat) : Prop :=
  goodFactor (highNibble s (7 + 3 * i)) ∧ goodFactor (lowNibble s (7 + 3 * i)) ∧ payload s (8 + 3 * i) ≤ 3

/-- Channel i passes the degenerate-subsampling guard (R157). -/
def guardPasses (s : State) (w h nc i : Nat) : Prop :=
  (hsOf s nc i = hmaxOf s nc ∨ 3 ≤ ceiling (w * hsOf s nc i) (hmaxOf s nc)) ∧
  (vsOf s nc i = vmaxOf s nc ∨ 3 ≤ ceiling (h * vsOf s nc i) (vmaxOf s nc))

/-- The planes fit WORK and the image fits OUT_MEM (R158). -/
def imageFits (s : State) (w h nc : Nat) : Prop :=
  planeOf s w h nc 0 + planeOf s w h nc 1 + planeOf s w h nc 2 ≤ s.params.workMemSize ∧
  w * h * nc ≤ s.params.outMemSize

/-- A SOF0 segment that passes every check of R155, R157 and R158. -/
structure SofAccepted (s : State) (len w h nc : Nat) : Prop where
  header : SofHeader s len w h nc
  list : ∀ i < nc, channelPasses s i
  guard : ∀ i < nc, guardPasses s w h nc i
  fits : imageFits s w h nc

/-- N[L] of the DHT definition at payload position d (30_encoding.md R95). -/
def countOf (s : State) (d l : Nat) : Nat := payload s (d + l)

/-- The code word of the first code of length l + 1 of a definition (42_huffman_tables.md R202): 0 for length 1, and after a
length the running code is shifted left. -/
def firstCode (s : State) (d : Nat) : Nat → Nat
  | 0 => 0
  | l + 1 => 2 * (firstCode s d l + countOf s d (l + 1))

/-- The symbols of a definition's codes of length at most l. -/
def symbolsBefore (s : State) (d l : Nat) : Nat := ((List.range l).map fun j => countOf s d (j + 1)).sum

/-- The flat-table entries a definition's codes of length at most l fill (R203). -/
def entriesBefore (s : State) (d l : Nat) : Nat := ((List.range l).map fun j => countOf s d (j + 1) * 2 ^ (15 - j)).sum

/-- The payload position past a definition's symbols. -/
def definitionEnd (s : State) (d : Nat) : Nat := d + 17 + symbolsBefore s d 16

/-- The four control bytes R200 lists. -/
def legalControl (v : Nat) : Prop := v = 0x00 ∨ v = 0x01 ∨ v = 0x10 ∨ v = 0x11

/-- The slot of a legal control byte: 2 · class + id (R200). -/
def slotNumber (v : Nat) : Nat := 2 * (v / 16) + v % 2

/-- The definition at position d of a payload of n bytes is whole, legal and not over-subscribed (41_segment_parser.md R159,
42_huffman_tables.md R203, R204). -/
structure DefinitionFits (s : State) (n d : Nat) : Prop where
  header : d + 17 ≤ n
  control : legalControl (payload s d)
  symbols : definitionEnd s d ≤ n
  budget : entriesBefore s d 16 ≤ 65536

/-- The definitions at the positions listed follow one another from position i to position j of a payload of n bytes. -/
def Definitions (s : State) (n : Nat) : Nat → List Nat → Nat → Prop
  | i, [], j => i = j
  | i, d :: rest, j => d = i ∧ DefinitionFits s n d ∧ Definitions s n (definitionEnd s d) rest j

/-- The id byte of group g of a DQT payload (30_encoding.md R96). -/
def groupId (s : State) (g : Nat) : Nat := payload s (65 * g)

/-- A scan header is read from the segment at CURSOR with room for the frame's channels (41_segment_parser.md R162). -/
structure SosHeader (s : State) (len : Nat) : Prop where
  seen : s.frame.seen = true
  segment : SegmentAt s len
  channels : s.frame.channels = 1 ∨ s.frame.channels = 3
  count : payload s 0 = s.frame.channels
  size : 6 + 2 * s.frame.channels ≤ len

/-- Scan channel c names the frame's channel c and table selectors 0 or 1 (R162). -/
def selectorPasses (s : State) (c : Fin 3) : Prop :=
  payload s (1 + 2 * c.val) = (s.ch.get c).cid.toNat ∧ highNibble s (2 + 2 * c.val) ≤ 1 ∧ lowNibble s (2 + 2 * c.val) ≤ 1

/-- The three trailer bytes are those of a baseline scan (R162). -/
def trailerPasses (s : State) : Prop :=
  payload s (1 + 2 * s.frame.channels) = 0 ∧ payload s (2 + 2 * s.frame.channels) = 63 ∧
    payload s (3 + 2 * s.frame.channels) = 0

/-- The segment at CURSOR is a scan header that passes every check of R162 and R163. -/
structure SosAccepted (s : State) (len : Nat) : Prop where
  header : SosHeader s len
  list : ∀ c : Fin 3, c.val < s.frame.channels → selectorPasses s c
  spectral : trailerPasses s
  tables : ∀ c : Fin 3, c.val < s.frame.channels → s.qtLoaded.get (s.ch.get c).tq = true

/-- `Push(b)` written out (43_bitreader.md R231). -/
def pushed (b : Byte) (r : Reader) : Reader := { r with acc := (r.acc <<< 8) ||| b.setWidth 32, nb := r.nb + 8 }

/-- The top n of the valid bits as a number (R239). -/
def heldBits (r : Reader) (n : Nat) : Nat := (r.acc >>> (r.nb - n)).toNat % 2 ^ n

/-- Receive-extend in exact integers (44_block_decoder.md R261). -/
def signedValue (size raw : Nat) : Int :=
  if size = 0 then 0 else if raw < 2 ^ (size - 1) then (raw : Int) - 2 ^ size + 1 else raw

/-- The reader with n bits consumed. -/
def consumed (r : Reader) (n : Nat) : Reader := { r with nb := r.nb - n }

/-- The channel whose block is decoded. -/
def current (s : State) : Channel := s.ch.get s.scan.chan

/-- q[j] of the current channel (44_block_decoder.md, introduction). -/
def factor (s : State) (j : Nat) : Nat := (Grid.at (s.qt.get (current s).tq) j).toNat

/-- wrap32 (00_scope.md R9). -/
def wrap32 (x : Int) : Word := BitVec.ofInt 32 x

/-- The samples a block's DC coefficient alone gives under NJ_CHEN_WANG (45_idct.md R310). -/
def flatSample (d : Int) : Byte := clip ((d + 4) / 8 + 128)

/-- The decode stands at the first block of an MCU: its first channel, sample row 0 and sample column 0 (46_scan_decoder.md
R332), a DC symbol next, BLK and K cleared (44_block_decoder.md R262). -/
structure StartsMcu (t : State) : Prop where
  phase : t.phase = .decodingMcu
  place : t.scan.chan = 0 ∧ t.scan.sby = 0 ∧ t.scan.sbx = 0
  symbol : t.scan.step = .dc
  block : ∀ j < 64, Grid.at t.blk j = 0
  index : t.k = 0

/-- The bytes of WORK the planes of the live channels hold (47_upsample_colour.md R360). -/
def workHeld (s : State) : Nat :=
  (if 0 < s.frame.channels then s.ch.e0.stride * s.ch.e0.rows else 0) +
  (if 1 < s.frame.channels then s.ch.e1.stride * s.ch.e1.rows else 0) +
  (if 2 < s.frame.channels then s.ch.e2.stride * s.ch.e2.rows else 0)

/-- What follows the upsampling of channel c in `Finish()`: that of the next live channel, or the output after the last
one (47_upsample_colour.md R360). -/
def FollowsChannel (s : State) (c : Fin 3) (f : FinishStep) : Prop :=
  (∀ d : Fin 3, d.val = c.val + 1 → d.val < s.frame.channels → f = .upsample d) ∧
  (s.frame.channels ≤ c.val + 1 → f = .output)

/-- The byte a list of writes, oldest first, last gives address a. -/
def lastWrite (writes : List Host.Cell) (a : Nat) : Option Byte := (writes.reverse.find? fun c => c.1 == a).map (·.2)

/-- The step is the engine's turn: the host has no access waiting, or leaves the engine one turn (log entry 2). -/
def EngineTurn (s : State) : Prop := s.host = [] ∨ ∃ rest, s.host = .engine :: rest

/-- The step takes the host's write of v to CMD. -/
def CommandWritten (s : State) (v : Word) : Prop := ∃ rest, s.host = .write (s.params.regBase + 4) .four v :: rest

/-- The engine's rows of the table of 46_scan_decoder.md R340, "any raise Error" among them: from `a` to `b`. -/
def EngineRow (a b : Phase) : Prop :=
  (a = .parsingHeader ∧ (b = .decodingMcu ∨ b = .doneErr)) ∨
  (a = .decodingMcu ∧ (b = .atRestartBoundary ∨ b = .finishing ∨ b = .doneErr)) ∨
  (a = .atRestartBoundary ∧ (b = .decodingMcu ∨ b = .doneErr)) ∨
  (a = .finishing ∧ (b = .doneOk ∨ b = .doneErr))

/-- An instruction a marker handler's error list is stated for: each reads its segment first. -/
def readsSegmentFirst (i : Instr) (s : State) : Prop :=
  i = .dht ∨ i = .dqt ∨ i = .dri ∨ i = .com ∨ (∃ n, i = .appn n) ∨ (i = .sof0 ∧ s.frame.seen = false) ∨
    (i = .sos ∧ s.frame.seen = true)

/-- Two idle cores with an image loaded that agree on what R142 says a decode depends on: the parameters, LEN, the bytes
below it and STRICT_RST; and on the number of the next draw, so that bytes the spec leaves unspecified are the same ones. -/
structure SameInputs (s s' : State) : Prop where
  idle : s.status.busy = false ∧ s'.status.busy = false
  loaded : s.status.loaded = true ∧ s'.status.loaded = true
  quiet : s.host = [] ∧ s'.host = []
  params : s.params = s'.params
  len : s.len = s'.len
  bytes : ∀ a < s.len, s.inMem.read a = s'.inMem.read a
  strict : s.ctrl.getLsbD 0 = s'.ctrl.getLsbD 0
  draws : s.draws = s'.draws

/-- The host sees the same outcome of a decode (40_host_commands.md R142). -/
structure SameOutcome (u u' : State) : Prop where
  status : u.status = u'.status
  errcode : u.errcode = u'.errcode
  size : u.width = u'.width ∧ u.height = u'.height ∧ u.ncomp = u'.ncomp ∧ u.outLen = u'.outLen
  events : u.rstEvents = u'.rstEvents
  image : u.errcode = .ok → ∀ a < u.outLen.toNat, u.outMem.read a = u'.outMem.read a

end Sys2Proof.Claims

open Sys2Proof Sys2Proof.Machine Sys2Proof.Claims

/-! ### Encodings -/

/-- A word of each format written out from 30_encoding.md R91, R93, R100, R102 and R103 decodes to its instruction. -/
def Obligations.SpecWordsDecode : Prop :=
  decode .cmd32 [0x01, 0x00, 0x00, 0x00] = .ok (.load, []) ∧
  decode .cmd32 [0x02, 0x01, 0x00, 0x00] = .ok (.cmdReserved 0x00000102, []) ∧
  decode .framing [0xFF, 0xD8] = .ok (.soi, []) ∧
  decode .marker [0xFF, 0xC0] = .ok (.sof0, []) ∧
  decode .marker [0xFF, 0xE5] = .ok (.appn 5, []) ∧
  decode .marker [0xFF, 0xD8] = .ok (.markerOther 0xD8, []) ∧
  decode .ecsByte [0xFF, 0x00, 0xA5] = .ok (.ecsStuff, [0xA5]) ∧
  decode .ecsByte [0xFF, 0xD3] = .ok (.ecsRst 3, []) ∧
  decode .dcSym8 [0x16] = .ok (.dcDiff 6 1, []) ∧
  decode .acSym8 [0xF0] = .ok (.acZrl, []) ∧
  decode .acSym8 [0x31] = .ok (.acRunVal 3 1, []) ∧
  decode .acSym8 [0x10] = .ok (.acIllegal 1, [])

/-- Decode of encode: every well-formed instruction, with every operand at every value its encoding admits, is read back
whole, whatever follows it. -/
def Obligations.DecodeOfEncodeIsTheInstruction : Prop :=
  ∀ (i : Instr) (rest : List Byte), i.wellFormed = true → decode i.format (encode i ++ rest) = .ok (i, rest)

/-- Encode of decode: what the decoder reads is a well-formed instruction of the format, and its encoding is exactly the
bytes read. -/
def Obligations.EncodeOfDecodeIsTheBytes : Prop :=
  ∀ (f : Format) (bytes rest : List Byte) (i : Instr), decode f bytes = .ok (i, rest) →
    i.wellFormed = true ∧ i.format = f ∧ bytes = encode i ++ rest

/-! ### A step runs the decoded instruction -/

/-- A 32-bit write to CMD runs the instruction its value decodes to, the access consumed (40_host_commands.md R130,
R132). The host's queue is the model's (log entry 2). -/
def Obligations.StepRunsTheCommandWritten : Prop :=
  ∀ (s : State) (v : Word) (rest : List HostOp) (i : Instr) (tail : List Byte),
    s.params.regBase % 4 = 0 → s.host = .write (s.params.regBase + 4) .four v :: rest →
    decode .cmd32 (wordBytes v) = .ok (i, tail) → step s = exec i { s with host := rest }

/-- In the marker loop a step runs the instruction at CURSOR, CURSOR past its two bytes; fewer than two bytes left, or
another byte than `FF`, is a SyntaxError. At the start of the buffer it runs SOI, or ends with SyntaxError where there is
none (41_segment_parser.md R150, R151). What OUT_MEM holds after the error is the model's reading (log entry 5). That one
marker is one step is the model's choice (log entry 1). -/
def Obligations.StepRunsTheMarkerAtCursor : Prop :=
  ∀ s : State, EngineMoves s → s.phase = .parsingHeader →
    (∀ i tail, s.cursor ≠ 0 → s.cursor + 2 ≤ s.len →
      decode .marker [s.inMem.read s.cursor, s.inMem.read (s.cursor + 1)] = .ok (i, tail) →
      step s = exec i { s with cursor := s.cursor + 2 }) ∧
    (s.cursor ≠ 0 → s.len < s.cursor + 2 ∨ s.inMem.read s.cursor ≠ 0xFF →
      step s = .next (errorEnd .syntaxError s)) ∧
    (s.cursor = 0 → 6 ≤ s.len → s.inMem.read 0 = 0xFF → s.inMem.read 1 = 0xD8 → step s = exec .soi s) ∧
    (s.cursor = 0 → s.len < 6 ∨ s.inMem.read 0 ≠ 0xFF ∨ s.inMem.read 1 ≠ 0xD8 →
      step s = .next (errorEnd .syntaxError s))

/-- While a symbol's 16 bits are not held, a step runs the byte form at RCUR, RCUR past its bytes; at the end of the data
it pushes `FF` and reads nothing, and an `FF` at LEN - 1 is a SyntaxError (43_bitreader.md R231, R232, R238, R239). This
step is `fetchByte`, which `getBits` and the symbols with value bits also call. What OUT_MEM holds after the error is the
model's reading (log entry 5). That one byte form is one step is the model's choice (log entries 1, 21). -/
def Obligations.StepRunsTheByteFormAtRcur : Prop :=
  ∀ s : State, EngineMoves s → s.phase = .decodingMcu → s.scan.step ≠ .idct → s.reader.nb < 16 →
    (s.reader.exhausted = true ∨ s.len ≤ s.reader.rcur → step s = .next { s with reader := pushed 0xFF s.reader }) ∧
    (s.reader.exhausted = false → s.reader.rcur < s.len → s.inMem.read s.reader.rcur ≠ 0xFF →
      step s = exec (.ecsData (s.inMem.read s.reader.rcur))
        { s with reader := { s.reader with rcur := s.reader.rcur + 1 } }) ∧
    (∀ f, s.reader.exhausted = false → s.reader.rcur + 1 < s.len → s.inMem.read s.reader.rcur = 0xFF →
      ecsPair (s.inMem.read (s.reader.rcur + 1)) = f →
      step s = exec f.toInstr { s with reader := { s.reader with rcur := s.reader.rcur + 2 } }) ∧
    (s.reader.exhausted = false → s.reader.rcur + 1 = s.len → s.inMem.read s.reader.rcur = 0xFF →
      ∃ t, step s = .next t ∧ t.errcode = .syntaxError ∧ t.status.word = 0xD) ∧
    (∀ u, fetchByte s = .ok u → step s = .next u) ∧
    (∀ e, fetchByte s = .error e → step s = .next (errorEnd e.kind e.state))

/-- With 16 bits held, a step looks them up in the slot of the current channel and runs the symbol found, its code word
consumed; an invalid entry is a SyntaxError (44_block_decoder.md R260). What OUT_MEM holds after the error is the model's
reading (log entry 5). That one symbol is one step is the model's choice (log entry 1), and the flat table is read
through `lookupEntry` (log entry 10). -/
def Obligations.StepRunsTheSymbolLookedUp : Prop :=
  ∀ (s : State) (n : Nat) (sym : Byte), EngineMoves s → s.phase = .decodingMcu → 16 ≤ s.reader.nb →
    (s.scan.step = .dc → lookupEntry (s.ht.get (current s).dcSlot) (heldBits s.reader 16) = (n, sym) →
      (n ≠ 0 → step s = exec (.dcDiff (sym.extractLsb' 0 4) (sym.extractLsb' 4 4))
        { s with reader := consumed s.reader n }) ∧
      (n = 0 → step s = .next (errorEnd .syntaxError s))) ∧
    (s.scan.step = .ac → lookupEntry (s.ht.get (current s).acSlot) (heldBits s.reader 16) = (n, sym) →
      (∀ i tail, n ≠ 0 → decode .acSym8 [sym] = .ok (i, tail) →
        step s = exec i { s with reader := consumed s.reader n }) ∧
      (n = 0 → step s = .next (errorEnd .syntaxError s)))

/-- No instruction stops the machine: each has a next state in every state, an error ending the decode only. The reading
of an error as a next state is log entry 23. -/
def Obligations.EveryInstructionGoesOn : Prop := ∀ (i : Instr) (s : State), ∃ t, exec i s = .next t

/-! ### Host commands -/

/-- LOAD on an idle core discards the old image and latches IN_LEN, or reports OutOfMemory (40_host_commands.md R133). -/
def Obligations.LoadLatchesTheLength : Prop :=
  ∀ s : State, s.status.busy = false →
    (s.inLen.toNat ≤ s.params.inMemSize →
      exec .load s = .next { discarded s with
        len := s.inLen.toNat, errcode := .ok
        status := { loaded := true, busy := false, done := false, err := false } }) ∧
    (s.params.inMemSize < s.inLen.toNat →
      exec .load s = .next { discarded s with
        len := 0, errcode := .outOfMemory
        status := { loaded := false, busy := false, done := true, err := true } })

/-- DECODE of a loaded image samples STRICT_RST, resets the list of 40_host_commands.md R134 and starts the decode. Of
what that list does not name, CTRL, IN_LEN, LOADED, LEN, IN_MEM and OUT_MEM survive by 70_reset_and_hazards.md R443; that
every other field is unchanged (the frame's sizes, CH, QT, the scan, the reader, BLK, K, live, fin) is the model's choice
(log entry 9), and so is the clearing of its own `spoiled` and `busyWrites` (log entries 7, 8). With nothing loaded it is
NotReady at once, with RST_EVENTS and PHASE unchanged (R134, 60_exceptions.md R406). -/
def Obligations.DecodeStartsFromTheResetList : Prop :=
  ∀ s : State, s.status.busy = false →
    (s.status.loaded = true →
      exec .decode s = .next { s with
        strict := s.ctrl.getLsbD 0
        frame := { s.frame with seen := false }
        planes := ⟨none, none, none⟩
        qtLoaded := ⟨false, false, false, false⟩
        ht := ⟨[], [], [], []⟩
        ri := 0
        cursor := 0
        errKind := .ok
        rstEvents := 0
        errcode := .ok
        width := 0
        height := 0
        ncomp := 0
        outLen := 0
        status := { loaded := true, busy := true, done := false, err := false }
        phase := .parsingHeader
        busyWrites := []
        spoiled := false }) ∧
    (s.status.loaded = false →
      exec .decode s = .next { s with
        errcode := .notReady
        width := 0
        height := 0
        ncomp := 0
        outLen := 0
        status := { loaded := false, busy := false, done := true, err := true } })

/-- FLUSH on an idle core drops the image and clears STATUS; CTRL, IN_LEN, IN_MEM and OUT_MEM are unchanged (R135). -/
def Obligations.FlushDropsTheImage : Prop :=
  ∀ s : State, s.status.busy = false →
    exec .flush s = .next { discarded s with
      len := 0, errcode := .ok
      status := { loaded := false, busy := false, done := false, err := false } }

/-- A command written while BUSY changes nothing, whatever its value (40_host_commands.md R137), and a value other than
1, 2 and 3 never does (R136): neither the instruction nor the step that takes the host's write. -/
def Obligations.IgnoredCommandsChangeNothing : Prop :=
  ∀ (s : State) (v : Word) (rest : List HostOp), s.params.regBase % 4 = 0 →
    (s.host = .write (s.params.regBase + 4) .four v :: rest →
      s.status.busy = true ∨ (v ≠ 1 ∧ v ≠ 2 ∧ v ≠ 3) → step s = .next { s with host := rest }) ∧
    exec (.cmdReserved v) s = .next s ∧
    (s.status.busy = true → exec .load s = .next s ∧ exec .decode s = .next s ∧ exec .flush s = .next s)

/-! ### Markers -/

/-- The framing check accepts a buffer of at least six bytes that starts `FF D8` and ends `FF D9`, and CURSOR becomes 2;
any other is a SyntaxError (41_segment_parser.md R150). What OUT_MEM holds after the error is the model's reading (log
entry 5). -/
def Obligations.SoiChecksTheFraming : Prop :=
  ∀ s : State,
    (6 ≤ s.len ∧ byteAt s 0 = 0xFF ∧ byteAt s 1 = 0xD8 ∧ byteAt s (s.len - 2) = 0xFF ∧ byteAt s (s.len - 1) = 0xD9 →
      exec .soi s = .next { s with cursor := 2 }) ∧
    (¬ (6 ≤ s.len ∧ byteAt s 0 = 0xFF ∧ byteAt s 1 = 0xD8 ∧ byteAt s (s.len - 2) = 0xFF ∧
        byteAt s (s.len - 1) = 0xD9) → exec .soi s = .next (errorEnd .syntaxError s))

/-- A segment that fails a check of 41_segment_parser.md R152 is a SyntaxError in every handler that reads one first, and
nothing else changes. What OUT_MEM holds after the error is the model's reading (log entry 5). -/
def Obligations.BrokenSegmentIsSyntaxError : Prop :=
  ∀ (s : State) (i : Instr), readsSegmentFirst i s → SegmentBroken s → exec i s = .next (errorEnd .syntaxError s)

/-- SOF0 accepted: CURSOR, the frame metadata, the channel records and the planes are what R155, R156 and R158 give, and
nothing else changes. The planes' contents are unspecified. -/
def Obligations.SofLoadsTheFrame : Prop :=
  ∀ (s : State) (len w h nc : Nat), SofAccepted s len w h nc →
    ∃ t, exec .sof0 s = .next t ∧ t.cursor = s.cursor + len ∧
      t.frame = { seen := true, width := w, height := h, channels := nc, hmax := hmaxOf s nc, vmax := vmaxOf s nc,
                  mbw := mbwOf s w nc, mbh := mbhOf s h nc } ∧
      (∀ c : Fin 3, c.val < nc →
        (t.ch.get c).cid.toNat = payload s (6 + 3 * c.val) ∧
        (t.ch.get c).hs = hsOf s nc c.val ∧ (t.ch.get c).vs = vsOf s nc c.val ∧
        (t.ch.get c).tq.val = payload s (8 + 3 * c.val) ∧
        (t.ch.get c).pw = ceiling (w * hsOf s nc c.val) (hmaxOf s nc) ∧
        (t.ch.get c).ph = ceiling (h * vsOf s nc c.val) (vmaxOf s nc) ∧
        (t.ch.get c).stride = mbwOf s w nc * hsOf s nc c.val * 8 ∧
        (t.ch.get c).rows = mbhOf s h nc * vsOf s nc c.val * 8 ∧
        (t.ch.get c).dcSlot = (s.ch.get c).dcSlot ∧ (t.ch.get c).acSlot = (s.ch.get c).acSlot ∧
        (t.ch.get c).pred = (s.ch.get c).pred ∧
        ∃ d, t.planes.get c = some { draw := d, cells := [] }) ∧
      (∀ c : Fin 3, nc ≤ c.val → t.ch.get c = s.ch.get c ∧ t.planes.get c = s.planes.get c) ∧
      { t with cursor := s.cursor, frame := s.frame, ch := s.ch, planes := s.planes, draws := s.draws } = s

/-- SOF0 rejected by a check before the channel list, in the order of R155: a second SOF, a short payload, precision, a
zero dimension, the channel count, a short channel list. What OUT_MEM holds after the error is the model's reading (log
entry 5). -/
def Obligations.SofRejectsTheHeader : Prop :=
  ∀ s : State,
    (s.frame.seen = true → exec .sof0 s = .next (errorEnd .syntaxError s)) ∧
    (∀ len, s.frame.seen = false → SegmentAt s len →
      (len < 8 → exec .sof0 s = .next (errorEnd .syntaxError (pastSegment s len))) ∧
      (8 ≤ len → payload s 0 ≠ 8 → exec .sof0 s = .next (errorEnd .unsupportedError (pastSegment s len))) ∧
      (8 ≤ len → payload s 0 = 8 → (payload s 1 = 0 ∧ payload s 2 = 0) ∨ (payload s 3 = 0 ∧ payload s 4 = 0) →
        exec .sof0 s = .next (errorEnd .syntaxError (pastSegment s len))) ∧
      (8 ≤ len → payload s 0 = 8 → ¬ ((payload s 1 = 0 ∧ payload s 2 = 0) ∨ (payload s 3 = 0 ∧ payload s 4 = 0)) →
        payload s 5 ≠ 1 → payload s 5 ≠ 3 →
        exec .sof0 s = .next (errorEnd .unsupportedError (pastSegment s len))) ∧
      (8 ≤ len → payload s 0 = 8 → ¬ ((payload s 1 = 0 ∧ payload s 2 = 0) ∨ (payload s 3 = 0 ∧ payload s 4 = 0)) →
        payload s 5 = 1 ∨ payload s 5 = 3 → len < 8 + 3 * payload s 5 →
        exec .sof0 s = .next (errorEnd .syntaxError (pastSegment s len))))

/-- SOF0 rejected after its header (R155, R157, R158): at the first channel that fails, factor 0 or 8 is a SyntaxError
and another that is no power of two an UnsupportedError, horizontal first, then a table id above 3 a SyntaxError; with
every channel good, degenerate subsampling is an UnsupportedError, and then an image that does not fit an OutOfMemory. -/
def Obligations.SofRejectsTheChannels : Prop :=
  ∀ (s : State) (len w h nc : Nat), SofHeader s len w h nc →
    (∀ i < nc, (∀ j < i, channelPasses s j) →
      let hf := highNibble s (7 + 3 * i)
      let vf := lowNibble s (7 + 3 * i)
      (hf = 0 ∨ hf = 8 → EndsWith .sof0 s .syntaxError) ∧
      (¬ (hf = 0 ∨ hf = 8) → ¬ goodFactor hf → EndsWith .sof0 s .unsupportedError) ∧
      (goodFactor hf → vf = 0 ∨ vf = 8 → EndsWith .sof0 s .syntaxError) ∧
      (goodFactor hf → ¬ (vf = 0 ∨ vf = 8) → ¬ goodFactor vf → EndsWith .sof0 s .unsupportedError) ∧
      (goodFactor hf → goodFactor vf → 3 < payload s (8 + 3 * i) → EndsWith .sof0 s .syntaxError)) ∧
    ((∀ i < nc, channelPasses s i) →
      ((∃ i < nc, ¬ guardPasses s w h nc i) → EndsWith .sof0 s .unsupportedError) ∧
      ((∀ i < nc, guardPasses s w h nc i) → ¬ imageFits s w h nc → EndsWith .sof0 s .outOfMemory))

/-- A DHT segment of whole definitions builds the canonical table of each (R159, 42_huffman_tables.md R200, R202, R203,
R205, R206): every 16-bit index whose prefix is the r-th code word of a length holds that length and that symbol, and
every index past the last code word is invalid. The last definition of a slot wins; a slot none names, and everything
else but CURSOR, is unchanged. The flat table is read through `lookupEntry` (log entry 10, DEDUCED), and the code words
are those R206 derives from R203. -/
def Obligations.DhtBuildsTheCanonicalTables : Prop :=
  ∀ (s : State) (len : Nat) (ds : List Nat), SegmentAt s len → Definitions s (len - 2) 0 ds (len - 2) →
    ∃ t, exec .dht s = .next t ∧ t.cursor = s.cursor + len ∧
      (∀ pre d post, ds = pre ++ d :: post →
        (∀ d' ∈ post, slotNumber (payload s d') ≠ slotNumber (payload s d)) →
        ∀ slot : Fin 4, slot.val = slotNumber (payload s d) →
          (∀ l r x, l < 16 → r < countOf s d (l + 1) → x < 65536 → x / 2 ^ (15 - l) = firstCode s d l + r →
            lookupEntry (t.ht.get slot) x =
              (l + 1, s.inMem.read (s.cursor + 2 + (d + 17 + symbolsBefore s d l + r)))) ∧
          (∀ x, entriesBefore s d 16 ≤ x → x < 65536 → lookupEntry (t.ht.get slot) x = (0, 0))) ∧
      (∀ slot : Fin 4, (∀ d ∈ ds, slot.val ≠ slotNumber (payload s d)) → t.ht.get slot = s.ht.get slot) ∧
      { t with cursor := s.cursor, ht := s.ht } = s

/-- A DHT definition after any number of whole ones: under 17 bytes left, or a reserved control bit set, is a
SyntaxError; only bit 1 set an UnsupportedError; symbols that run past the payload, or an over-subscribed code set, a
SyntaxError (R159, 42_huffman_tables.md R203, R204). -/
def Obligations.DhtRejectsBadDefinitions : Prop :=
  ∀ (s : State) (len i : Nat) (ds : List Nat), SegmentAt s len → Definitions s (len - 2) 0 ds i → i < len - 2 →
    (len - 2 < i + 17 → EndsWith .dht s .syntaxError) ∧
    (i + 17 ≤ len - 2 → payload s i &&& 0xEC ≠ 0 → EndsWith .dht s .syntaxError) ∧
    (i + 17 ≤ len - 2 → payload s i &&& 0xEC = 0 → payload s i &&& 0x02 ≠ 0 → EndsWith .dht s .unsupportedError) ∧
    (i + 17 ≤ len - 2 → legalControl (payload s i) → len - 2 < definitionEnd s i ∨ 65536 < entriesBefore s i 16 →
      EndsWith .dht s .syntaxError)

/-- A DQT of whole groups loads every table it names, in natural order, the last group of an id winning; the tables it
does not name, and everything else but CURSOR, are unchanged. After whole groups, a partial group or an id byte above 3
is a SyntaxError (R160, 44_block_decoder.md R263). -/
def Obligations.DqtLoadsEveryGroup : Prop :=
  ∀ (s : State) (len m : Nat), SegmentAt s len → 65 * m ≤ len - 2 → (∀ g < m, groupId s g ≤ 3) →
    (len - 2 = 65 * m →
      ∃ t, exec .dqt s = .next t ∧ t.cursor = s.cursor + len ∧
        (∀ g < m, (∀ g', g < g' → g' < m → groupId s g' ≠ groupId s g) → ∀ id : Fin 4, id.val = groupId s g →
          t.qtLoaded.get id = true ∧
          ∀ k < 64, Grid.at (t.qt.get id) (zz k) = s.inMem.read (s.cursor + 2 + (65 * g + 1 + k))) ∧
        (∀ id : Fin 4, (∀ g < m, groupId s g ≠ id.val) →
          t.qtLoaded.get id = s.qtLoaded.get id ∧ t.qt.get id = s.qt.get id) ∧
        { t with cursor := s.cursor, qt := s.qt, qtLoaded := s.qtLoaded } = s) ∧
    (65 * m < len - 2 → len - 2 < 65 * m + 65 ∨ 3 < groupId s m → EndsWith .dqt s .syntaxError)

/-- DRI sets the restart interval from its first two payload bytes; under two it is a SyntaxError (R161). What OUT_MEM
holds after the error is the model's reading (log entry 5). -/
def Obligations.DriSetsTheRestartInterval : Prop :=
  ∀ (s : State) (len : Nat), SegmentAt s len →
    (4 ≤ len → exec .dri s = .next { s with cursor := s.cursor + len, ri := 256 * payload s 0 + payload s 1 }) ∧
    (len < 4 → exec .dri s = .next (errorEnd .syntaxError (pastSegment s len)))

/-- SOS accepted: the channels take their table slots, and the scan starts at the byte after the segment (R162, R163,
43_bitreader.md R230, 44_block_decoder.md R262, 46_scan_decoder.md R330). -/
def Obligations.SosStartsTheScan : Prop :=
  ∀ (s : State) (len : Nat), SosAccepted s len →
    ∃ t, exec .sos s = .next t ∧ t.phase = .decodingMcu ∧ t.cursor = s.cursor + len ∧
      t.reader = { rcur := s.cursor + len, acc := 0, nb := 0, exhausted := false } ∧
      t.scan = { mbx := 0, mby := 0, countdown := s.ri, nextRst := 0, chan := 0, sby := 0, sbx := 0, step := .dc } ∧
      (∀ j < 64, Grid.at t.blk j = 0) ∧ t.k = 0 ∧
      (∀ c : Fin 3, c.val < s.frame.channels →
        (t.ch.get c).dcSlot.val = highNibble s (2 + 2 * c.val) ∧ (t.ch.get c).acSlot.val = 2 + lowNibble s (2 + 2 * c.val) ∧
        (t.ch.get c).pred = 0 ∧
        { t.ch.get c with dcSlot := (s.ch.get c).dcSlot, acSlot := (s.ch.get c).acSlot, pred := (s.ch.get c).pred } =
          s.ch.get c) ∧
      (∀ c : Fin 3, s.frame.channels ≤ c.val → t.ch.get c = s.ch.get c) ∧
      { t with phase := s.phase, cursor := s.cursor, reader := s.reader, scan := s.scan, blk := s.blk, k := s.k,
               ch := s.ch } = s

/-- SOS rejected, in the order of R162 and R163: no frame, an empty payload, another channel count, a short payload; then
the first channel whose id or selector is wrong; then a trailer that is not 0, 63, 0; then a quantisation table not
loaded. What OUT_MEM holds after the error is the model's reading (log entry 5). -/
def Obligations.SosRejectsBadHeaders : Prop :=
  ∀ s : State,
    (s.frame.seen = false → exec .sos s = .next (errorEnd .syntaxError s)) ∧
    (∀ len, s.frame.seen = true → SegmentAt s len →
      (len = 2 → exec .sos s = .next (errorEnd .syntaxError (pastSegment s len))) ∧
      (2 < len → payload s 0 ≠ s.frame.channels →
        exec .sos s = .next (errorEnd .unsupportedError (pastSegment s len))) ∧
      (2 < len → payload s 0 = s.frame.channels → len < 6 + 2 * s.frame.channels →
        exec .sos s = .next (errorEnd .syntaxError (pastSegment s len)))) ∧
    (∀ len, SosHeader s len →
      (∀ c : Fin 3, c.val < s.frame.channels → (∀ d : Fin 3, d.val < c.val → selectorPasses s d) →
        ¬ selectorPasses s c → EndsWith .sos s .syntaxError) ∧
      ((∀ c : Fin 3, c.val < s.frame.channels → selectorPasses s c) →
        (¬ trailerPasses s → EndsWith .sos s .unsupportedError) ∧
        (trailerPasses s →
          (∃ c : Fin 3, c.val < s.frame.channels ∧ s.qtLoaded.get (s.ch.get c).tq = false) →
          EndsWith .sos s .syntaxError)))

/-- APPn and COM skip their segment whole and change only CURSOR (R164). -/
def Obligations.AppnAndComSkipTheirSegment : Prop :=
  ∀ (s : State) (len : Nat) (n : BitVec 4), SegmentAt s len →
    exec (.appn n) s = .next (pastSegment s len) ∧ exec .com s = .next (pastSegment s len)

/-- EOI met by the marker loop, and every marker outside the map, end the decode with SyntaxError (R165, R166), as does
an `FF` before any other byte in entropy data (43_bitreader.md R237). What OUT_MEM holds after the error is the model's
reading (log entry 5). -/
def Obligations.UnacceptedMarkersAreSyntaxErrors : Prop :=
  ∀ (s : State) (kk : Byte),
    exec .eoi s = .next (errorEnd .syntaxError s) ∧ exec (.markerOther kk) s = .next (errorEnd .syntaxError s) ∧
    exec (.ecsIllegal kk) s = .next (errorEnd .syntaxError { s with reader := pushed 0xFF s.reader })

/-! ### Entropy-coded bytes -/

/-- What each legal byte form adds to the accumulator (43_bitreader.md R231, R233 to R236): eight bits, or the sixteen of
a restart marker, with RST_EVENTS one more; `FF D9` exhausts the reader. Nothing else changes. -/
def Obligations.ByteFormsFillTheAccumulator : Prop :=
  ∀ (s : State) (b : Byte) (n : BitVec 3),
    exec (.ecsData b) s = .next { s with reader := pushed b s.reader } ∧
    exec .ecsStuff s = .next { s with reader := pushed 0xFF s.reader } ∧
    exec .ecsFill s = .next { s with reader := pushed 0xFF s.reader } ∧
    exec .ecsEnd s = .next { s with reader := { pushed 0xFF s.reader with exhausted := true } } ∧
    exec (.ecsRst n) s = .next { s with
      reader := pushed (BitVec.ofNat 8 (0xD0 + n.toNat)) (pushed 0xFF s.reader), rstEvents := s.rstEvents + 1 }

/-- `get(k)` returns the next k held bits and consumes them; with fewer held it fetches first, and what it ends with is
the same as reading after that fetch (R239, R240). -/
def Obligations.GetReadsTheNextBits : Prop :=
  ∀ (s : State) (k : Nat), k ≤ 16 →
    (k ≤ s.reader.nb → getBits k s = .ok (heldBits s.reader k, { s with reader := consumed s.reader k })) ∧
    (s.reader.nb < k → (∀ u, fetchByte s = .ok u → getBits k s = getBits k u) ∧
      (∀ e, fetchByte s = .error e → getBits k s = .error e))

/-! ### Symbols -/

/-- DC_DIFF with its value bits held: the predictor takes the difference and BLK[0] the dequantised predictor, both
modulo 2^32, and AC decoding starts at K = 0; the high nibble is ignored (44_block_decoder.md R261, R264 to R267). -/
def Obligations.DcDiffUpdatesThePredictor : Prop :=
  ∀ (s : State) (size ignored : BitVec 4), size.toNat ≤ s.reader.nb →
    exec (.dcDiff size ignored) s = .next { s with
      reader := consumed s.reader size.toNat
      ch := s.ch.set s.scan.chan { current s with
        pred := wrap32 ((current s).pred.toInt + signedValue size.toNat (heldBits s.reader size.toNat)) }
      blk := Grid.put s.blk 0 (wrap32
        ((wrap32 ((current s).pred.toInt + signedValue size.toNat (heldBits s.reader size.toNat))).toInt * factor s 0))
      k := 0
      scan := { s.scan with step := .ac } }

/-- AC_RUNVAL with its value bits held: K moves past the run, the dequantised value goes to BLK[ZZ[K]], and the block
ends at K = 63; past 63 it is a SyntaxError (R267, R270, R272 to R274). What OUT_MEM holds after the error is the model's
reading (log entry 5). -/
def Obligations.AcRunValPlacesACoefficient : Prop :=
  ∀ (s : State) (run size : BitVec 4), size ≠ 0 → size.toNat ≤ s.reader.nb →
    (s.k + run.toNat + 1 ≤ 63 →
      exec (.acRunVal run size) s = .next { s with
        reader := consumed s.reader size.toNat
        k := s.k + run.toNat + 1
        blk := Grid.put s.blk (zz (s.k + run.toNat + 1)) (wrap32
          (signedValue size.toNat (heldBits s.reader size.toNat) * factor s (zz (s.k + run.toNat + 1))))
        scan := { s.scan with step := if s.k + run.toNat + 1 = 63 then .idct else s.scan.step } }) ∧
    (63 < s.k + run.toNat + 1 →
      exec (.acRunVal run size) s = .next (errorEnd .syntaxError { s with
        reader := consumed s.reader size.toNat, k := s.k + run.toNat + 1 }))

/-- A symbol whose value bits are not all held fetches first: what it ends with is the same as running it after that
fetch, and an error of the fetch ends the decode (R261, 43_bitreader.md R239). What OUT_MEM holds after the error is the
model's reading (log entry 5). -/
def Obligations.SymbolsFetchTheirValueBits : Prop :=
  ∀ (s u : State) (run size ignored : BitVec 4), s.reader.nb < size.toNat →
    (fetchByte s = .ok u →
      exec (.dcDiff size ignored) s = exec (.dcDiff size ignored) u ∧
      exec (.acRunVal run size) s = exec (.acRunVal run size) u) ∧
    (fetchByte s = .error ⟨.syntaxError, u⟩ →
      exec (.dcDiff size ignored) s = .next (errorEnd .syntaxError u) ∧
      exec (.acRunVal run size) s = .next (errorEnd .syntaxError u))

/-- AC_ZRL moves K by 16, writes 0 there and ends the block at 63, or is a SyntaxError past it; it reads no value bits
(R269, R272, R273). AC_EOB ends the block (R268). AC_ILLEGAL is a SyntaxError before any value bits (R271). What OUT_MEM
holds after the error is the model's reading (log entry 5). -/
def Obligations.AcSymbolsWithoutAValue : Prop :=
  ∀ (s : State) (run : BitVec 4),
    (s.k + 16 ≤ 63 → exec .acZrl s = .next { s with
      k := s.k + 16
      blk := Grid.put s.blk (zz (s.k + 16)) 0
      scan := { s.scan with step := if s.k + 16 = 63 then .idct else s.scan.step } }) ∧
    (63 < s.k + 16 → exec .acZrl s = .next (errorEnd .syntaxError { s with k := s.k + 16 })) ∧
    exec .acEob s = .next { s with scan := { s.scan with step := .idct } } ∧
    exec (.acIllegal run) s = .next (errorEnd .syntaxError s)

/-! ### Inverse DCT -/

/-- A block with only a DC coefficient gives 64 equal samples under every kernel (45_idct.md R301, which derives it from
(c); a kernel other than the candidate is the model's reading of R301, log entry 12). Under NJ_CHEN_WANG their value is
clip(((D + 4) >> 3) + 128) for |D| < 2^20 (R310). Under every kernel that is accurate in the sense of R301 (e) as the
model reads it (log entry 12), the block a baseline encoder gives a flat plane of value v, its DC the multiple q · n
nearest to 8 · (v - 128), has samples within the quantisation error q / 16 and the few counts of v. -/
def Obligations.DcOnlyBlocksAreFlat : Prop :=
  (∀ (kn : Kernel) (d : Word), ∃ v, ∀ j < 64, Grid.at (idctSamples kn (Grid.put (Oct.fill (Oct.fill 0)) 0 d)) j = v) ∧
  (∀ (d : Int), -2 ^ 20 < d → d < 2 ^ 20 → ∀ j < 64,
    Grid.at (idctSamples .njChenWang (Grid.put (Oct.fill (Oct.fill 0)) 0 (wrap32 d))) j = flatSample d) ∧
  (∀ (kn : Kernel) (v q : Nat) (n : Int), kn.Accurate → v < 256 → 1 ≤ q → q ≤ 255 →
    2 * |q * n - 8 * (v - 128 : Int)| ≤ q → ∀ j < 64,
    16 * |((Grid.at (idctSamples kn (Grid.put (Oct.fill (Oct.fill 0)) 0 (wrap32 (q * n)))) j).toNat : Int) - v| ≤
      q + 16 * (Config.fewCounts + 1))

/-- Under NJ_CHEN_WANG the fast exits agree with the full paths (R309). -/
def Obligations.FastExitsAgreeWithTheFullPaths : Prop :=
  ∀ d : Int,
    (-2 ^ 20 < d → d < 2 ^ 20 → rowFull ⟨wrap32 d, 0, 0, 0, 0, 0, 0, 0⟩ = Oct.fill (wrap32 (8 * d))) ∧
    (-2 ^ 22 < d → d < 2 ^ 22 →
      (colFull ⟨wrap32 d, 0, 0, 0, 0, 0, 0, 0⟩).map levelShift = Oct.fill (clip ((d + 32) / 64 + 128)))

/-- The end of a block writes its 64 samples at its place in the current channel's plane and no other sample (45_idct.md
R300, R308, 46_scan_decoder.md R333). The plane's layout and the size of the step are the model's choices (log entries
20, 1). -/
def Obligations.BlockEndWritesItsSamples : Prop :=
  ∀ (s : State) (m : Memory), EngineMoves s → s.phase = .decodingMcu → s.scan.step = .idct →
    s.planes.get s.scan.chan = some m → (s.scan.mbx * (current s).hs + s.scan.sbx) * 8 + 8 ≤ (current s).stride →
    ∃ t m', step s = .next t ∧ t.planes.get s.scan.chan = some m' ∧
      (∀ c, c ≠ s.scan.chan → t.planes.get c = s.planes.get c) ∧
      (∀ r < 8, ∀ x < 8,
        m'.read (((s.scan.mby * (current s).vs + s.scan.sby) * 8 + r) * (current s).stride
          + ((s.scan.mbx * (current s).hs + s.scan.sbx) * 8 + x)) =
        Grid.at (idctSamples s.params.kernel s.blk) (8 * r + x)) ∧
      (∀ row col, col < (current s).stride →
        ¬ ((s.scan.mby * (current s).vs + s.scan.sby) * 8 ≤ row ∧ row < (s.scan.mby * (current s).vs + s.scan.sby) * 8 + 8 ∧
           (s.scan.mbx * (current s).hs + s.scan.sbx) * 8 ≤ col ∧
           col < (s.scan.mbx * (current s).hs + s.scan.sbx) * 8 + 8) →
        m'.read (row * (current s).stride + col) = m.read (row * (current s).stride + col))

/-! ### The scan -/

/-- The end of a block that is not its MCU's last goes to the next block of the MCU: along the sample row, then the next
sample row, then the next channel, with a cleared block (44_block_decoder.md R262, 46_scan_decoder.md R332). That the end
of a block and the move to the next are one step is the model's choice (log entry 1). -/
def Obligations.BlocksOfAnMcuInOrder : Prop :=
  ∀ s : State, EngineMoves s → s.phase = .decodingMcu → s.scan.step = .idct →
    ∃ t, step s = .next t ∧
      (s.scan.sbx + 1 < (current s).hs →
        t.scan = { s.scan with sbx := s.scan.sbx + 1, step := .dc } ∧ t.k = 0 ∧ ∀ j < 64, Grid.at t.blk j = 0) ∧
      ((current s).hs ≤ s.scan.sbx + 1 → s.scan.sby + 1 < (current s).vs →
        t.scan = { s.scan with sbx := 0, sby := s.scan.sby + 1, step := .dc } ∧ t.k = 0 ∧ ∀ j < 64, Grid.at t.blk j = 0) ∧
      (∀ d : Fin 3, (current s).hs ≤ s.scan.sbx + 1 → (current s).vs ≤ s.scan.sby + 1 → d.val = s.scan.chan.val + 1 →
        d.val < s.frame.channels →
        t.scan = { s.scan with chan := d, sbx := 0, sby := 0, step := .dc } ∧ t.k = 0 ∧ ∀ j < 64, Grid.at t.blk j = 0) ∧
      t.ch = s.ch ∧ t.reader = s.reader ∧ t.inMem = s.inMem ∧ t.outMem = s.outMem

/-- The end of an MCU's last block goes to the first block of the next MCU in raster order, to the restart boundary when
the countdown reaches 0, or, after the last MCU, to finishing with no restart step, at the upsampling of channel 0 with
the planes' bytes counted (46_scan_decoder.md R331, R332, R334, R335, 44_block_decoder.md R262, 47_upsample_colour.md
R360). That the end of a block and the move to what follows are one step is the model's choice (log entry 1). A countdown
of 0 with RI > 0 is no case of R335, and no run reaches it (`ScanLegal`, which StepKeepsEngineLegal states). -/
def Obligations.McusInRasterOrder : Prop :=
  ∀ s : State, EngineMoves s → s.phase = .decodingMcu → s.scan.step = .idct →
    (current s).hs ≤ s.scan.sbx + 1 → (current s).vs ≤ s.scan.sby + 1 → s.frame.channels ≤ s.scan.chan.val + 1 →
    s.scan.mbx < s.frame.mbw → s.scan.mby < s.frame.mbh →
    ∃ t, step s = .next t ∧
      (s.scan.mbx + 1 = s.frame.mbw → s.scan.mby + 1 = s.frame.mbh →
        t.phase = .finishing ∧ t.fin = .upsample 0 ∧ t.live = workHeld s) ∧
      (¬ (s.scan.mbx + 1 = s.frame.mbw ∧ s.scan.mby + 1 = s.frame.mbh) →
        t.scan.mby * s.frame.mbw + t.scan.mbx = s.scan.mby * s.frame.mbw + s.scan.mbx + 1 ∧
        t.scan.mbx < s.frame.mbw ∧ t.scan.mby < s.frame.mbh ∧ t.scan.nextRst = s.scan.nextRst ∧
        (s.ri = 0 → StartsMcu t) ∧
        (0 < s.ri → 1 ≤ s.scan.countdown → t.scan.countdown = s.scan.countdown - 1 ∧
          (s.scan.countdown = 1 → t.phase = .atRestartBoundary) ∧
          (s.scan.countdown ≠ 1 → StartsMcu t))) ∧
      { t with phase := s.phase, scan := s.scan, blk := s.blk, k := s.k, planes := s.planes, live := s.live,
               fin := s.fin } = s

/-- A restart step drops the partial byte, fetches until 16 bits are held and reads them: a marker that passes its check
sets every live predictor to 0, reloads the countdown, moves the expected number on and goes back to decoding, at the
first block of the next MCU (R332, 44_block_decoder.md R262); any other value, and in strict mode a marker out of
sequence, is a SyntaxError (R336 to R339). What OUT_MEM holds after the error is the model's reading (log entry 5). That
the restart step is one step is the model's choice (log entry 1). -/
def Obligations.RestartStepChecksAndResets : Prop :=
  ∀ s : State, EngineMoves s → s.phase = .atRestartBoundary →
    let aligned := consumed s.reader (s.reader.nb % 8)
    (aligned.nb < 16 →
      (∀ u, fetchByte { s with reader := aligned } = .ok u → step s = step u) ∧
      (∀ e, fetchByte { s with reader := aligned } = .error e → step s = .next (errorEnd e.kind e.state))) ∧
    (16 ≤ aligned.nb →
      (∀ n < 8, heldBits aligned 16 = 0xFFD0 + n → s.strict = false ∨ n = s.scan.nextRst →
        ∃ t, step s = .next t ∧ StartsMcu t ∧ t.reader = consumed aligned 16 ∧
          t.scan = { s.scan with countdown := s.ri, nextRst := (s.scan.nextRst + 1) % 8,
                                 chan := 0, sby := 0, sbx := 0, step := .dc } ∧
          (∀ c : Fin 3, c.val < s.frame.channels → t.ch.get c = { s.ch.get c with pred := 0 }) ∧
          (∀ c : Fin 3, s.frame.channels ≤ c.val → t.ch.get c = s.ch.get c) ∧
          { t with phase := s.phase, reader := s.reader, scan := s.scan, ch := s.ch, blk := s.blk, k := s.k } = s) ∧
      (∀ n < 8, heldBits aligned 16 = 0xFFD0 + n → s.strict = true → n ≠ s.scan.nextRst →
        ∃ t, step s = .next t ∧ t.errcode = .syntaxError ∧ t.status.word = 0xD) ∧
      ((∀ n < 8, heldBits aligned 16 ≠ 0xFFD0 + n) →
        ∃ t, step s = .next t ∧ t.errcode = .syntaxError ∧ t.status.word = 0xD))

/-! ### Finishing -/

/-- Upsampling a channel that is smaller than the image replicates its samples by the least shifts that reach the image
size, and its record becomes that of a full-resolution plane (47_upsample_colour.md R361, R363, R364); the next live
channel follows, or the output after the last one (R360). WORK must hold the new plane beside the old ones, or the decode
ends with OutOfMemory (R362). What OUT_MEM holds after the error is the model's reading (log entry 5). The plane's layout
and the size of the step are the model's choices (log entries 20, 1). -/
def Obligations.UpsamplingReplicatesSamples : Prop :=
  ∀ (s : State) (c : Fin 3) (m : Memory) (xs ys : Nat), EngineMoves s → s.phase = .finishing → s.fin = .upsample c →
    s.planes.get c = some m → s.frame.width ≤ 65535 → s.frame.height ≤ 65535 →
    IsLeast { k : Nat | s.frame.width ≤ (s.ch.get c).pw * 2 ^ k } xs →
    IsLeast { k : Nat | s.frame.height ≤ (s.ch.get c).ph * 2 ^ k } ys →
    (xs = 0 → ys = 0 → ∃ t, step s = .next t ∧ FollowsChannel s c t.fin ∧ { t with fin := s.fin } = s) ∧
    (xs ≠ 0 ∨ ys ≠ 0 → s.live + s.frame.width * s.frame.height ≤ s.params.workMemSize →
      ∃ t m', step s = .next t ∧ FollowsChannel s c t.fin ∧ t.planes.get c = some m' ∧
        (∀ y < s.frame.height, ∀ x < s.frame.width,
          m'.read (y * s.frame.width + x) = m.read ((y >>> ys) * (s.ch.get c).stride + (x >>> xs))) ∧
        t.ch.get c = { s.ch.get c with
          pw := s.frame.width, stride := s.frame.width, ph := s.frame.height, rows := s.frame.height } ∧
        (∀ d, d ≠ c → t.planes.get d = s.planes.get d ∧ t.ch.get d = s.ch.get d) ∧
        t.live = s.live - (s.ch.get c).stride * (s.ch.get c).rows + s.frame.width * s.frame.height ∧
        { t with planes := s.planes, ch := s.ch, live := s.live, fin := s.fin } = s) ∧
    (xs ≠ 0 ∨ ys ≠ 0 → s.params.workMemSize < s.live + s.frame.width * s.frame.height →
      step s = .next (errorEnd .outOfMemory s))

/-- For a channel that passed the degenerate guard the shifts are the logarithms of the factor ratios, so 4:2:0 chroma
samples fill exactly 2×2 blocks (R361, R370). -/
def Obligations.ShiftIsTheFactorRatio : Prop :=
  ∀ (w hmax hs a : Nat), 1 ≤ w → w ≤ 65535 → legalFactor hmax → legalFactor hs → hmax = hs * 2 ^ a →
    (hs ≠ hmax → 3 ≤ ceilDiv (w * hs) hmax) → leastShift (ceilDiv (w * hs) hmax) w = a

/-- The output of a three-channel image: R, G and B of every pixel at 3·(y·W + x) by the fixed-point transform, and no
byte from 3·W·H on (20_memory.md R73, R74, 47_upsample_colour.md R365, R366, R368). That the whole output is one step is
the model's choice (log entry 1). -/
def Obligations.ColourOutputIsTheTransform : Prop :=
  ∀ (s : State) (p0 p1 p2 : Memory), EngineMoves s → s.phase = .finishing → s.fin = .output → s.frame.channels = 3 →
    s.planes = ⟨some p0, some p1, some p2⟩ →
    ∃ o, step s = .next { s with outMem := o, fin := .complete } ∧
      (∀ y < s.frame.height, ∀ x < s.frame.width,
        let yv : Int := 256 * (p0.read (y * s.ch.e0.stride + x)).toNat
        let cb : Int := (p1.read (y * s.ch.e1.stride + x)).toNat - 128
        let cr : Int := (p2.read (y * s.ch.e2.stride + x)).toNat - 128
        o.read (3 * (y * s.frame.width + x)) = clip ((yv + 359 * cr + 128) >>> 8) ∧
        o.read (3 * (y * s.frame.width + x) + 1) = clip ((yv - 88 * cb - 183 * cr + 128) >>> 8) ∧
        o.read (3 * (y * s.frame.width + x) + 2) = clip ((yv + 454 * cb + 128) >>> 8)) ∧
      ∀ a, 3 * s.frame.width * s.frame.height ≤ a → o.read a = s.outMem.read a

/-- The output of a one-channel image: its plane without the stride padding, and no byte from W·H on (R367). That the
whole output is one step is the model's choice (log entry 1). -/
def Obligations.GrayOutputIsThePlane : Prop :=
  ∀ (s : State) (p : Memory), EngineMoves s → s.phase = .finishing → s.fin = .output → s.frame.channels = 1 →
    s.planes.get 0 = some p →
    ∃ o, step s = .next { s with outMem := o, fin := .complete } ∧
      (∀ y < s.frame.height, ∀ x < s.frame.width,
        o.read (y * s.frame.width + x) = p.read (y * s.ch.e0.stride + x)) ∧
      ∀ a, s.frame.width * s.frame.height ≤ a → o.read a = s.outMem.read a

/-- The completion of a decode reports the frame (40_host_commands.md R139) and settles the OUT_MEM bytes the host wrote
while BUSY (70_reset_and_hazards.md R445): a byte it did not write is as the output left it; at or above W·H·NC its last
byte is kept; below, the byte is that one or the output's. That completion is a step of its own is the model's choice
(log entry 1), and so are the list of the host's writes, emptied here, and the moment they are settled (log entry 8). -/
def Obligations.CompletionReportsTheImage : Prop :=
  ∀ s : State, EngineMoves s → s.phase = .finishing → s.fin = .complete →
    ∃ o, step s = .next { s with
        width := BitVec.ofNat 32 s.frame.width
        height := BitVec.ofNat 32 s.frame.height
        ncomp := BitVec.ofNat 32 s.frame.channels
        outLen := BitVec.ofNat 32 (s.frame.width * s.frame.height * s.frame.channels)
        errcode := .ok
        status := { loaded := true, busy := false, done := true, err := false }
        phase := .doneOk
        planes := ⟨none, none, none⟩
        outMem := o
        draws := s.draws + 1
        busyWrites := [] } ∧
      (∀ a, lastWrite s.busyWrites a = none → o.read a = s.outMem.read a) ∧
      (∀ a v, lastWrite s.busyWrites a = some v →
        (s.frame.width * s.frame.height * s.frame.channels ≤ a → o.read a = v) ∧
        (a < s.frame.width * s.frame.height * s.frame.channels → o.read a = v ∨ o.read a = s.outMem.read a))

/-! ### Whole-machine rules -/

/-- OUT_MEM is written by the engine only in finishing: any other turn of a decode leaves it as it is (20_memory.md R73,
47_upsample_colour.md R369), but for one that ends the decode with an error: then OUT_MEM is unspecified, as R82 allows,
where R369 derives that it stays as it was; that reading is the model's (log entry 5). IN_MEM is never written by the
engine (40_host_commands.md R140). -/
def Obligations.EngineWritesOutMemOnlyInFinishing : Prop :=
  ∀ s t : State, EngineMoves s → step s = .next t →
    t.inMem = s.inMem ∧ (s.phase ≠ .finishing → t.outMem = s.outMem ∨ t.phase = .doneErr)

/-- No turn of a scan or of finishing writes a table, the restart interval or the frame metadata (20_memory.md R83,
10_state.md R36, R39, R41). -/
def Obligations.TablesAreReadOnlyDuringTheScan : Prop :=
  ∀ s t : State, EngineMoves s → s.phase ≠ .parsingHeader → step s = .next t →
    t.qt = s.qt ∧ t.qtLoaded = s.qtLoaded ∧ t.ht = s.ht ∧ t.ri = s.ri ∧ t.frame = s.frame

/-- Whoever moves, PHASE changes only as the table of 46_scan_decoder.md R340 says: by the engine's rows at its turn, to
PARSING_HEADER by a DECODE of a loaded idle core, and to IDLE by LOAD or FLUSH of an idle core; or to IDLE by a power-on
reset (70_reset_and_hazards.md R440, R441), or, at the engine's turn, to its end in a decode the host spoiled, which the
model ends at once (log entry 7). STATUS and PHASE agree on BUSY in every state a run reaches (StepKeepsStatusCoherent). -/
def Obligations.PhasesFollowTheTable : Prop :=
  ∀ s t : State, StatusCoherent s → step s = .next t →
    t.phase = s.phase ∨
    (EngineTurn s ∧ s.spoiled = false ∧ EngineRow s.phase t.phase) ∨
    (CommandWritten s 2 ∧ s.status.loaded = true ∧ (s.phase = .idle ∨ s.phase = .doneOk ∨ s.phase = .doneErr) ∧
      t.phase = .parsingHeader) ∨
    ((CommandWritten s 1 ∨ CommandWritten s 3) ∧ (s.phase = .idle ∨ s.phase = .doneOk ∨ s.phase = .doneErr) ∧
      t.phase = .idle) ∨
    (∃ rest, s.host = .powerOn :: rest ∧ t.phase = .idle) ∨
    (EngineTurn s ∧ s.spoiled = true ∧ ¬ (s.phase = .idle ∨ s.phase = .doneOk ∨ s.phase = .doneErr) ∧
      (t.phase = .doneOk ∨ t.phase = .doneErr))

/-- The bytes at and above LEN cannot be learnt: with IN_MEM replaced by any memory that agrees below LEN, an engine turn
does the same (20_memory.md R72, 43_bitreader.md R245). -/
def Obligations.EngineIgnoresBytesFromLenOn : Prop :=
  ∀ (s t : State) (m : Memory), s.host = [] → (∀ a < s.len, m.read a = s.inMem.read a) → step s = .next t →
    step { s with inMem := m } = .next { t with inMem := m }

/-- An accepted DECODE ends the same whatever an earlier image left (40_host_commands.md R142, 70_reset_and_hazards.md
R443): after any number of steps, from two cores that agree on what it depends on, the host sees one outcome. The two
agree on the next draw too, which stands for the bytes the spec leaves unspecified (log entry 4). -/
def Obligations.DecodeDependsOnlyOnItsInputs : Prop :=
  ∀ (s s' t t' u u' : State) (n : Nat), SameInputs s s' → exec .decode s = .next t → exec .decode s' = .next t' →
    Sys2Proof.core.run n t = .next u → Sys2Proof.core.run n t' = .next u' → SameOutcome u u'

/-- A decode the host spoiled by writing IN_MEM below LEN still ends, at the engine's next turn, with a code from 0 to 3
and an image that fits OUT_MEM, IN_MEM as it was and, by an OK outcome, no OUT_MEM byte at or above OUT_LEN changed but
by the host's own writes (20_memory.md R81, 70_reset_and_hazards.md R444, R445). That it ends at the next turn, and the
draw of its outcome, are the model's choices (log entry 7), and so is the list of the host's writes (log entry 8). -/
def Obligations.SpoiledDecodeStillEnds : Prop :=
  ∀ s : State, s.host = [] → s.spoiled = true → s.status.busy = true → s.params.outMemSize < 2 ^ 32 →
    ∃ t, step s = .next t ∧ t.status.busy = false ∧ t.status.done = true ∧ t.errcode ≠ .notReady ∧
      t.inMem = s.inMem ∧ t.outLen.toNat ≤ s.params.outMemSize ∧
      (t.errcode = .ok → ∀ a, t.outLen.toNat ≤ a →
        t.outMem.read a = (lastWrite s.busyWrites a).getD (s.outMem.read a))

/-! ### Host accesses -/

/-- What a 32-bit read of the register block returns (10_state.md R21 to R32, 40_host_commands.md R131): the register,
and 0 for CMD and every reserved offset; nothing else changes. -/
def Obligations.RegistersReadTheirContents : Prop :=
  ∀ (s : State) (off : Nat) (rest : List HostOp), s.params.regBase % 4 = 0 → off % 4 = 0 → off < 0x100 →
    s.host = .read (s.params.regBase + off) .four :: rest →
    ∃ v, step s = .next { s with host := rest, readData := v } ∧
      (off = 0x00 → v = s.ctrl) ∧
      (off = 0x08 → v = BitVec.ofNat 32 (s.status.loaded.toNat + 2 * s.status.busy.toNat + 4 * s.status.done.toNat
        + 8 * s.status.err.toNat)) ∧
      (off = 0x0C → v = (match s.errcode with
        | .ok => 0 | .syntaxError => 1 | .unsupportedError => 2 | .outOfMemory => 3 | .notReady => 4)) ∧
      (off = 0x10 → v = s.inLen) ∧ (off = 0x14 → v = s.width) ∧ (off = 0x18 → v = s.height) ∧
      (off = 0x1C → v = s.ncomp) ∧ (off = 0x20 → v = s.outLen) ∧ (off = 0x24 → v = s.rstEvents) ∧
      (off = 0x04 ∨ 0x28 ≤ off → v = 0)

/-- What a 32-bit write of the register block does, CMD apart (R130): CTRL takes bit 0 and IN_LEN the value, unless BUSY;
every other offset changes nothing. -/
def Obligations.RegisterWritesReachCtrlAndInLen : Prop :=
  ∀ (s : State) (off : Nat) (v : Word) (rest : List HostOp), s.params.regBase % 4 = 0 → off % 4 = 0 → off < 0x100 →
    off ≠ 0x04 → s.host = .write (s.params.regBase + off) .four v :: rest →
    (off = 0x00 → s.status.busy = false →
      step s = .next { s with host := rest, ctrl := if v.getLsbD 0 then 1 else 0 }) ∧
    (off = 0x10 → s.status.busy = false → step s = .next { s with host := rest, inLen := v }) ∧
    ((off ≠ 0x00 ∧ off ≠ 0x10) ∨ s.status.busy = true → step s = .next { s with host := rest })

/-- A register access of another width or alignment is refused (20_memory.md R78), and an access with a byte outside the
register block and the two memories faults (R70, R85; log entry 13). -/
def Obligations.BadAccessesStop : Prop :=
  ∀ (s : State) (a : Nat) (size : AccessSize) (v : Word) (rest : List HostOp),
    s.host = .read a size :: rest ∨ s.host = .write a size v :: rest →
    (∀ off, a = s.params.regBase + off → off < 0x100 → size ≠ .four ∨ a % 4 ≠ 0 →
      step s = .refused .registerAccess) ∧
    (a < s.params.regBase ∨ s.params.regBase + 0x100 ≤ a →
      a < s.params.inBase ∨ s.params.inBase + s.params.inMemSize < a + size.bytes →
      a < s.params.outBase ∨ s.params.outBase + s.params.outMemSize < a + size.bytes →
      step s = .fault .noSuchAddress)

/-- A host write to IN_MEM, or to OUT_MEM of an idle core, stores the value's bytes, lowest first, at any alignment, and
a read of the same width there returns them; no other byte changes (20_memory.md R78, R80, 40_host_commands.md R140). A
write to IN_MEM below LEN while BUSY is also noted (R81). While BUSY a write to OUT_MEM is noted for the decode's end,
and a read of it returns any value of its width (R80, 70_reset_and_hazards.md R445). The notes and the draw are the
model's (log entries 6, 7, 8). -/
def Obligations.MemoryAccessesAreLittleEndian : Prop :=
  ∀ (s : State) (a i : Nat) (size : AccessSize) (v : Word) (rest : List HostOp),
    a < s.params.regBase ∨ s.params.regBase + 0x100 ≤ a →
    (a = s.params.inBase + i → i + size.bytes ≤ s.params.inMemSize →
      (s.host = .write a size v :: rest →
        ∃ t, step s = .next t ∧
          (∀ j < size.bytes, t.inMem.read (i + j) = v.extractLsb' (8 * j) 8) ∧
          (∀ b, b < i ∨ i + size.bytes ≤ b → t.inMem.read b = s.inMem.read b) ∧
          t.spoiled = (s.spoiled || (s.status.busy && decide (i < s.len))) ∧
          { t with inMem := s.inMem, host := s.host, spoiled := s.spoiled } = s ∧ t.host = rest) ∧
      (s.host = .read a size :: rest →
        ∃ x, step s = .next { s with host := rest, readData := x } ∧ x.toNat < 2 ^ (8 * size.bytes) ∧
          ∀ j < size.bytes, x.extractLsb' (8 * j) 8 = s.inMem.read (i + j))) ∧
    (a < s.params.inBase ∨ s.params.inBase + s.params.inMemSize < a + size.bytes →
      a = s.params.outBase + i → i + size.bytes ≤ s.params.outMemSize →
      (s.status.busy = true →
        (s.host = .write a size v :: rest →
          step s = .next { s with host := rest, busyWrites :=
            s.busyWrites ++ (List.range size.bytes).map fun j => (i + j, v.extractLsb' (8 * j) 8) }) ∧
        (s.host = .read a size :: rest →
          ∃ x, step s = .next { s with host := rest, readData := x, draws := s.draws + 1 } ∧
            x.toNat < 2 ^ (8 * size.bytes))) ∧
      (s.status.busy = false → s.host = .write a size v :: rest →
        ∃ t, step s = .next t ∧
          (∀ j < size.bytes, t.outMem.read (i + j) = v.extractLsb' (8 * j) 8) ∧
          (∀ b, b < i ∨ i + size.bytes ≤ b → t.outMem.read b = s.outMem.read b) ∧
          { t with outMem := s.outMem, host := s.host } = s ∧ t.host = rest) ∧
      (s.status.busy = false → s.host = .read a size :: rest →
        ∃ x, step s = .next { s with host := rest, readData := x } ∧ x.toNat < 2 ^ (8 * size.bytes) ∧
          ∀ j < size.bytes, x.extractLsb' (8 * j) 8 = s.outMem.read (i + j)))

/-! ### Reset and invariants -/

/-- The values 10_state.md R47 gives for power-on reset: every register 0, nothing loaded, PHASE IDLE, no frame, no
plane, no table, every Huffman entry invalid. -/
def Obligations.ResetValues : Prop :=
  (∀ off, regRead State.reset off = 0) ∧ State.reset.status.loaded = false ∧ State.reset.len = 0 ∧
  State.reset.phase = .idle ∧ State.reset.cursor = 0 ∧ State.reset.frame.seen = false ∧
  State.reset.planes = ⟨none, none, none⟩ ∧ (∀ t, State.reset.qtLoaded.get t = false) ∧
  (∀ slot x, lookupEntry (State.reset.ht.get slot) x = (0, 0)) ∧ State.reset.ri = 0 ∧ State.reset.errKind = .ok

/-- A power-on reset, even of a running decode, gives those values again (70_reset_and_hazards.md R440, R441); the
parameters and the accesses still to come stay. That the queue stays is the model's choice (log entry 18). -/
def Obligations.PowerOnAbandonsTheDecode : Prop :=
  ∀ (s : State) (rest : List HostOp), s.host = .powerOn :: rest →
    ∃ t, step s = .next t ∧ t.params = s.params ∧ t.host = rest ∧ (∀ off, regRead t off = 0) ∧ t.len = 0 ∧
      t.phase = .idle ∧ t.cursor = 0 ∧ t.frame.seen = false ∧ t.planes = ⟨none, none, none⟩ ∧
      (∀ q, t.qtLoaded.get q = false) ∧ (∀ slot x, lookupEntry (t.ht.get slot) x = (0, 0)) ∧ t.ri = 0 ∧ t.errKind = .ok

/-- The state after reset meets every invariant, that its parameters are legal among them. It rests on the values the
model chose for reset (log entries 3, 9) and on its reading of R301 (e) (log entry 12). -/
def Obligations.ResetMeetsTheInvariants : Prop := Inv State.reset

/-- Every step, the host's or the engine's, keeps STATUS coherent with PHASE and ERRCODE (10_state.md R24, R34). -/
def Obligations.StepKeepsStatusCoherent : Prop :=
  ∀ s t : State, StatusCoherent s → step s = .next t → StatusCoherent t

/-- Every step keeps both cursors at or below LEN, the accumulator at or below 31 bits, and every counter within its
width (10_state.md R33, R35, R41 to R44, 43_bitreader.md R243, R245). -/
def Obligations.StepKeepsCursorsBounded : Prop :=
  ∀ s t : State, CursorsBounded s → step s = .next t → CursorsBounded t

/-- Every step keeps every memory in its canonical form. The form is the model's choice (log entry 4). -/
def Obligations.StepKeepsMemoriesCanonical : Prop :=
  ∀ s t : State, MemoriesCanonical s → step s = .next t → MemoriesCanonical t

/-- Every step keeps the engine within its memories and its grid (60_exceptions.md R409), and no step changes a parameter
(00_scope.md R7), so the parameters stay legal. -/
def Obligations.StepKeepsEngineLegal : Prop :=
  ∀ s t : State, EngineLegal s → step s = .next t → EngineLegal t ∧ t.params = s.params

/-- Every decode completes with DONE = 1: from any state that meets the invariants, the host leaving the engine alone,
finitely many steps reach one that is not BUSY (46_scan_decoder.md R343, 70_reset_and_hazards.md R449). -/
def Obligations.EveryDecodeCompletes : Prop :=
  ∀ s : State, Inv s → s.host = [] → s.status.busy = true →
    ∃ n t, Sys2Proof.core.run n s = .next t ∧ t.status.busy = false ∧ t.status.done = true
end

