-- ==== Sys2Proof/Laws/Data.lean ====
section
/-! SUPPORT. Laws of the fixed-size stores and of memories. -/

namespace Sys2Proof

@[simp] theorem Triple.get_set_same {α : Type} (t : Triple α) (i : Fin 3) (x : α) : (t.set i x).get i = x := by
  fin_cases i <;> rfl

theorem Triple.get_set_other {α : Type} (t : Triple α) {i j : Fin 3} (x : α) (h : j ≠ i) :
    (t.set i x).get j = t.get j := by
  fin_cases i <;> fin_cases j <;> first | rfl | exact absurd rfl h

theorem Triple.get_set {α : Type} (t : Triple α) (i j : Fin 3) (x : α) :
    (t.set i x).get j = if j = i then x else t.get j := by
  split
  · next h => subst h; simp
  · next h => exact Triple.get_set_other t x h

theorem Triple.get_mapBelow {α : Type} (n : Nat) (f : Fin 3 → α → α) (t : Triple α) (i : Fin 3) :
    (t.mapBelow n f).get i = if i.val < n then f i (t.get i) else t.get i := by
  fin_cases i <;> rfl

@[simp] theorem Quad.get_set_same {α : Type} (t : Quad α) (i : Fin 4) (x : α) : (t.set i x).get i = x := by
  fin_cases i <;> rfl

theorem Quad.get_set_other {α : Type} (t : Quad α) {i j : Fin 4} (x : α) (h : j ≠ i) :
    (t.set i x).get j = t.get j := by
  fin_cases i <;> fin_cases j <;> first | rfl | exact absurd rfl h

theorem Quad.get_set {α : Type} (t : Quad α) (i j : Fin 4) (x : α) :
    (t.set i x).get j = if j = i then x else t.get j := by
  split
  · next h => subst h; simp
  · next h => exact Quad.get_set_other t x h

@[simp] theorem Quad.get_fill {α : Type} (x : α) (i : Fin 4) : (Quad.fill x).get i = x := by fin_cases i <;> rfl

@[simp] theorem Oct.get_set_same {α : Type} (t : Oct α) (i : Fin 8) (x : α) : (t.set i x).get i = x := by
  fin_cases i <;> rfl

theorem Oct.get_set_other {α : Type} (t : Oct α) {i j : Fin 8} (x : α) (h : j ≠ i) : (t.set i x).get j = t.get j := by
  fin_cases i <;> fin_cases j <;> first | rfl | exact absurd rfl h

@[simp] theorem Oct.get_fill {α : Type} (x : α) (i : Fin 8) : (Oct.fill x).get i = x := by fin_cases i <;> rfl

@[simp] theorem Oct.get_map {α β : Type} (f : α → β) (t : Oct α) (i : Fin 8) : (t.map f).get i = f (t.get i) := by
  fin_cases i <;> rfl

@[simp] theorem Oct.length_toList {α : Type} (t : Oct α) : t.toList.length = 8 := rfl

@[simp] theorem Grid.at_put_same {α : Type} (g : Grid α) (j : Nat) (x : α) : Grid.at (Grid.put g j x) j = x := by
  simp [Grid.at, Grid.put]

theorem Grid.at_put_other {α : Type} (g : Grid α) {i j : Nat} (x : α) (hi : i < 64) (hj : j < 64) (h : j ≠ i) :
    Grid.at (Grid.put g i x) j = Grid.at g j := by
  unfold Grid.at Grid.put
  by_cases hr : gridRow j = gridRow i
  · rw [hr, Oct.get_set_same, Oct.get_set_other]
    intro hc
    simp only [gridRow, gridCol, Fin.ext_iff, Fin.ofNat] at hr hc
    omega
  · rw [Oct.get_set_other _ _ hr]

@[simp] theorem Grid.at_fill {α : Type} (x : α) (j : Nat) : Grid.at (Oct.fill (Oct.fill x)) j = x := by simp [Grid.at]

end Sys2Proof

namespace Sys2Proof.Machine

@[simp] theorem length_cellsFrom (a : Nat) (bytes : List Byte) : (cellsFrom a bytes).length = bytes.length := by
  induction bytes generalizing a with
  | nil => rfl
  | cons v rest ih => simp [cellsFrom, ih]

theorem mem_cellsFrom {a : Nat} {bytes : List Byte} {c : Host.Cell} (h : c ∈ cellsFrom a bytes) :
    a ≤ c.1 ∧ c.1 < a + bytes.length := by
  induction bytes generalizing a with
  | nil => simp [cellsFrom] at h
  | cons v rest ih =>
    rcases List.mem_cons.1 h with rfl | h
    · simp
    · have := ih h
      simp only [List.length_cons]
      omega

theorem findCell_append (l l' : List Host.Cell) (a : Nat) :
    findCell (l ++ l') a = (findCell l a).or (findCell l' a) := by
  induction l with
  | nil => simp [findCell]
  | cons c rest ih =>
    obtain ⟨b, v⟩ := c
    simp only [List.cons_append, findCell]
    split <;> simp [ih]

theorem findCell_filter (p : Nat → Bool) (l : List Host.Cell) (a : Nat) :
    findCell (l.filter fun c => p c.1) a = if p a then findCell l a else none := by
  induction l with
  | nil => simp [findCell]
  | cons c rest ih =>
    obtain ⟨b, v⟩ := c
    by_cases hb : p b <;> by_cases hab : b = a
    · subst hab; simp [findCell, hb]
    · simp [findCell, hb, hab, ih]
    · subst hab; simp [hb, ih]
    · simp [findCell, hb, hab, ih]

theorem findCell_cellsFrom (a : Nat) (bytes : List Byte) (x : Nat) :
    findCell (cellsFrom a bytes) x = if a ≤ x then bytes[x - a]? else none := by
  induction bytes generalizing a with
  | nil => simp [cellsFrom, findCell]
  | cons v rest ih =>
    simp only [cellsFrom, findCell, ih]
    by_cases h : a = x
    · subst h; simp
    · by_cases h' : a ≤ x
      · rw [if_neg h, if_pos (by omega), if_pos h', show x - a = (x - (a + 1)) + 1 by omega,
          List.getElem?_cons_succ]
      · rw [if_neg h, if_neg (by omega), if_neg h']

theorem findCell_writeBytes (m : Memory) (a : Nat) (bytes : List Byte) (x : Nat) :
    findCell (m.writeBytes a bytes).cells x =
      if a ≤ x ∧ x < a + bytes.length then bytes[x - a]? else findCell m.cells x := by
  have h1 := findCell_filter (fun n => decide (n < a)) m.cells x
  have h2 := findCell_filter (fun n => decide (a + bytes.length ≤ n)) m.cells x
  simp only [Memory.writeBytes, findCell_append, h1, h2, findCell_cellsFrom]
  by_cases hx : a ≤ x
  · by_cases hx' : x < a + bytes.length
    · have hlt : x - a < bytes.length := by omega
      simp [hx, hx', hlt, show ¬ x < a by omega, show ¬ a + bytes.length ≤ x by omega]
    · have hge : bytes.length ≤ x - a := by omega
      simp [hx, hx', hge, show ¬ x < a by omega, show a + bytes.length ≤ x by omega]
  · simp [hx, show x < a by omega, show ¬ a + bytes.length ≤ x by omega]

/-- A byte outside those written reads as before. -/
theorem Memory.read_writeBytes_other (m : Memory) (a : Nat) (bytes : List Byte) (x : Nat)
    (h : x < a ∨ a + bytes.length ≤ x) : (m.writeBytes a bytes).read x = m.read x := by
  have hn : ¬ (a ≤ x ∧ x < a + bytes.length) := by omega
  have hd : (m.writeBytes a bytes).draw = m.draw := rfl
  simp [Memory.read, findCell_writeBytes, hn, hd]

/-- A byte written reads as written. -/
theorem Memory.read_writeBytes_same (m : Memory) (a : Nat) (bytes : List Byte) (i : Nat) (h : i < bytes.length) :
    (m.writeBytes a bytes).read (a + i) = bytes[i] := by
  have hp : a ≤ a + i ∧ a + i < a + bytes.length := by omega
  simp only [Memory.read, findCell_writeBytes, if_pos hp, Nat.add_sub_cancel_left, List.getElem?_eq_getElem h]

@[simp] theorem Memory.read_write_same (m : Memory) (a : Nat) (v : Byte) : (m.write a v).read a = v :=
  Memory.read_writeBytes_same m a [v] 0 (by simp)

theorem Memory.read_write_other (m : Memory) {a x : Nat} (v : Byte) (h : x ≠ a) : (m.write a v).read x = m.read x :=
  Memory.read_writeBytes_other m a [v] x (by simp; omega)

/-- The canonical form as a pairwise order. -/
theorem risingCells_iff (l : List Host.Cell) : risingCells l = true ↔ l.Pairwise fun c d => c.1 < d.1 := by
  induction l with
  | nil => simp [risingCells]
  | cons c rest ih =>
    cases rest with
    | nil => simp [risingCells]
    | cons d rest =>
      simp only [risingCells, Bool.and_eq_true, decide_eq_true_eq, ih, List.pairwise_cons]
      constructor
      · rintro ⟨hcd, hd, hr⟩
        refine ⟨?_, hd, hr⟩
        rintro e he
        rcases List.mem_cons.1 he with rfl | he
        · exact hcd
        · exact Nat.lt_trans hcd (hd e he)
      · rintro ⟨hc, hd, hr⟩
        exact ⟨hc d (by simp), hd, hr⟩

theorem rising_cellsFrom (a : Nat) (bytes : List Byte) : (cellsFrom a bytes).Pairwise fun c d => c.1 < d.1 := by
  induction bytes generalizing a with
  | nil => simp [cellsFrom]
  | cons v rest ih =>
    refine List.pairwise_cons.2 ⟨fun d hd => ?_, ih _⟩
    have := mem_cellsFrom hd
    simp only
    omega

/-- Every write keeps the canonical form. -/
theorem Memory.wf_writeBytes (m : Memory) (a : Nat) (bytes : List Byte) (h : m.wf = true) :
    (m.writeBytes a bytes).wf = true := by
  have hp := (risingCells_iff _).1 h
  refine (risingCells_iff _).2 ?_
  refine List.pairwise_append.2 ⟨List.pairwise_append.2 ⟨hp.filter _, rising_cellsFrom a bytes, ?_⟩, hp.filter _, ?_⟩
  · intro c hc d hd
    have h1 := (List.mem_filter.1 hc).2
    have h2 := mem_cellsFrom hd
    simp only [decide_eq_true_eq] at h1
    omega
  · intro c hc d hd
    have h2 := (List.mem_filter.1 hd).2
    simp only [decide_eq_true_eq] at h2
    rcases List.mem_append.1 hc with hc | hc
    · have h1 := (List.mem_filter.1 hc).2
      simp only [decide_eq_true_eq] at h1
      omega
    · have h1 := mem_cellsFrom hc
      omega

theorem Memory.wf_write (m : Memory) (a : Nat) (v : Byte) (h : m.wf = true) : (m.write a v).wf = true :=
  Memory.wf_writeBytes m a [v] h

/-- A memory of consecutive bytes is canonical. -/
theorem Memory.wf_cellsFrom (d a : Nat) (bytes : List Byte) :
    Memory.wf { draw := d, cells := cellsFrom a bytes } = true :=
  (risingCells_iff _).2 (rising_cellsFrom a bytes)

@[simp] theorem Memory.wf_empty (d : Nat) : Memory.wf { draw := d, cells := [] } = true := rfl

/-- A write below `n` keeps every written address below `n`. -/
theorem Memory.below_writeBytes (m : Memory) (a n : Nat) (bytes : List Byte) (h : m.below n = true)
    (hb : a + bytes.length ≤ n) : (m.writeBytes a bytes).below n = true := by
  simp only [Memory.below, List.all_eq_true, decide_eq_true_eq, Memory.writeBytes, List.mem_append, List.mem_filter] at *
  rintro c ((⟨hc, -⟩ | hc) | ⟨hc, -⟩)
  · exact h c hc
  · have := mem_cellsFrom hc
    omega
  · exact h c hc

@[simp] theorem Memory.below_empty (d n : Nat) : Memory.below { draw := d, cells := [] } n = true := rfl

theorem Memory.below_cellsFrom (d a n : Nat) (bytes : List Byte) (hb : a + bytes.length ≤ n) :
    Memory.below { draw := d, cells := cellsFrom a bytes } n = true := by
  simp only [Memory.below, List.all_eq_true, decide_eq_true_eq]
  intro c hc
  have := mem_cellsFrom hc
  omega

@[simp] theorem Memory.length_readBytes (m : Memory) (a n : Nat) : (m.readBytes a n).length = n := by
  simp [Memory.readBytes]

end Sys2Proof.Machine
end

