-- ==== Sys2Proof/Laws/Kernel.lean ====
section
/-! SUPPORT. The candidate kernel NJ_CHEN_WANG meets the contract of 45_idct.md R301: a description of it computes the same
(b), and it meets the accuracy bound (e). -/

namespace Sys2Proof.Machine

/-- R304's row pass, operation by operation. Values 0 to 7 are the row. -/
def njRowOps : List KernelOp :=
  ([.shl 11 0, .bias 128 8, .shl 11 4,
    .add 1 7, .scale (.one .w7) 11, .scale (.diff .w1 .w7) 1, .add 12 13, .scale (.sum .w1 .w7) 7, .sub 12 15,
    .add 5 3, .scale (.one .w3) 17, .scale (.diff .w3 .w5) 5, .sub 18 19, .scale (.sum .w3 .w5) 3, .sub 18 21] : List KernelOp) ++
  ([.add 9 10, .sub 9 10, .add 2 6, .scale (.one .w6) 25, .scale (.sum .w2 .w6) 6, .sub 26 27, .scale (.diff .w2 .w6) 2,
    .add 26 29, .add 14 20, .sub 14 20, .add 16 22, .sub 16 22] : List KernelOp) ++
  ([.add 23 30, .sub 23 30, .add 24 28, .sub 24 28, .add 32 34, .scale (.one .half) 39, .bias 128 40, .shr 8 41,
    .sub 32 34, .scale (.one .half) 43, .bias 128 44, .shr 8 45] : List KernelOp) ++
  ([.add 35 31, .add 37 42, .add 38 46, .add 36 33, .sub 36 33, .sub 38 46, .sub 37 42, .sub 35 31,
    .shr 8 47, .shr 8 48, .shr 8 49, .shr 8 50, .shr 8 51, .shr 8 52, .shr 8 53, .shr 8 54] : List KernelOp)

/-- R306's column pass up to the final shift. -/
def njColumnOps : List KernelOp :=
  ([.shl 8 0, .bias 8192 8, .shl 8 4,
    .add 1 7, .scale (.one .w7) 11, .bias 4 12, .scale (.diff .w1 .w7) 1, .add 13 14, .shr 3 15,
    .scale (.sum .w1 .w7) 7, .sub 13 17, .shr 3 18,
    .add 5 3, .scale (.one .w3) 20, .bias 4 21, .scale (.diff .w3 .w5) 5, .sub 22 23, .shr 3 24,
    .scale (.sum .w3 .w5) 3, .sub 22 26, .shr 3 27] : List KernelOp) ++
  ([.add 9 10, .sub 9 10, .add 2 6, .scale (.one .w6) 31, .bias 4 32, .scale (.sum .w2 .w6) 6, .sub 33 34, .shr 3 35,
    .scale (.diff .w2 .w6) 2, .add 33 37, .shr 3 38, .add 16 25, .sub 16 25, .add 19 28, .sub 19 28] : List KernelOp) ++
  ([.add 29 39, .sub 29 39, .add 30 36, .sub 30 36, .add 41 43, .scale (.one .half) 48, .bias 128 49, .shr 8 50,
    .sub 41 43, .scale (.one .half) 52, .bias 128 53, .shr 8 54] : List KernelOp) ++
  ([.add 44 40, .add 46 51, .add 47 55, .add 45 42, .sub 45 42, .sub 47 55, .sub 46 51, .sub 44 40,
    .shr 14 56, .shr 14 57, .shr 14 58, .shr 14 59, .shr 14 60, .shr 14 61, .shr 14 62, .shr 14 63] : List KernelOp)

/-- NJ_CHEN_WANG (45_idct.md R303 to R307) as a description. -/
def njDescription : KernelDescription where
  constants := { w1 := w1, w2 := w2, w3 := w3, w5 := w5, w6 := w6, w7 := w7, half := 181 }
  row := { ops := njRowOps, outputs := ⟨55, 56, 57, 58, 59, 60, 61, 62⟩ }
  rowFlat := [.shl 3 0]
  column := { ops := njColumnOps, outputs := ⟨64, 65, 66, 67, 68, 69, 70, 71⟩ }
  columnFlat := [.bias 32 0, .shr 6 1]

/-- The description's row network is R304. -/
theorem kernelRow_njDescription (row : Oct Word) : kernelRow (.other njDescription) row = rowFull row := by
  obtain ⟨a, b, c, d, e, f, g, h⟩ := row
  simp only [kernelRow, KernelNetwork.run, njDescription, njRowOps, runKernelOps, KernelOp.value, KernelFactor.value,
    KernelConstants.get, Oct.toList, Oct.map, List.cons_append, List.nil_append, List.getD_cons_zero, List.getD_cons_succ]
  simp only [rowFull, butterflyOut, Oct.map]

/-- The description's column network is R306. -/
theorem kernelColumn_njDescription (column : Oct Word) : kernelColumn (.other njDescription) column = colFull column := by
  obtain ⟨a, b, c, d, e, f, g, h⟩ := column
  simp only [kernelColumn, KernelNetwork.run, njDescription, njColumnOps, runKernelOps, KernelOp.value, KernelFactor.value,
    KernelConstants.get, Oct.toList, Oct.map, List.cons_append, List.nil_append, List.getD_cons_zero, List.getD_cons_succ]
  simp only [colFull, butterflyOut, Oct.map]

/-- The description's row fast exit is R303. -/
theorem kernelRowFlat_njDescription (dc : Word) :
    kernelRowFlat (.other njDescription) dc = kernelRowFlat .njChenWang dc := by
  show (if dc = 0 then (0 : Word) else dc <<< 3) = dc <<< 3
  split
  · next h => subst h; rfl
  · rfl

/-- The description's column fast exit is R305. -/
theorem kernelColumnFlat_njDescription (dc : Word) :
    kernelColumnFlat (.other njDescription) dc = kernelColumnFlat .njChenWang dc := rfl

/-- A small integer survives its word. -/
theorem toInt_ofInt_small {x : Int} (h : -2 ^ 31 ≤ x ∧ x < 2 ^ 31) : (BitVec.ofInt 32 x).toInt = x := by
  rw [BitVec.toInt_ofInt, Int.bmod_eq_of_le] <;> omega

/-- The sample of a DC-only block under NJ_CHEN_WANG (R303, R305). -/
theorem flatBlockSample_njChenWang (d : Int) (h : -2 ^ 20 < d ∧ d < 2 ^ 20) :
    flatBlockSample .njChenWang (BitVec.ofInt 32 d) = clip ((d + 4) / 8 + 128) := by
  have h8 : BitVec.ofInt 32 d <<< 3 + 32 = BitVec.ofInt 32 (8 * d + 32) := by
    rw [BitVec.shiftLeft_eq_mul_twoPow, show BitVec.twoPow 32 3 = BitVec.ofInt 32 8 from rfl, ← BitVec.ofInt_mul,
      show (32 : BitVec 32) = BitVec.ofInt 32 32 from rfl, ← BitVec.ofInt_add, Int.mul_comm]
  have hs : shr (BitVec.ofInt 32 (8 * d + 32)) 6 + 128 = BitVec.ofInt 32 ((d + 4) / 8 + 128) := by
    apply BitVec.eq_of_toInt_eq
    rw [shr, BitVec.toInt_add, BitVec.toInt_sshiftRight, toInt_ofInt_small (by omega), toInt_ofInt_small (by omega),
      Int.shiftRight_eq_div_pow, show (128 : BitVec 32).toInt = 128 from rfl, Int.bmod_eq_of_le] <;> omega
  unfold flatBlockSample levelShift kernelColumnFlat kernelRowFlat
  simp only [h8, hs]
  rw [toInt_ofInt_small (by omega)]

/-- `clip` (00_scope.md R9) as a bound. -/
theorem toNat_clip (x : Int) : ((clip x).toNat : Int) = max 0 (min x 255) := by
  unfold clip
  split
  · simp; omega
  · split
    · simp; omega
    · rw [BitVec.toNat_ofInt]; omega

/-- NJ_CHEN_WANG meets 45_idct.md R301 (e): its flat sample is the DC over 8, rounded. -/
theorem accurate_njChenWang : Kernel.Accurate .njChenWang := by
  intro v q n hv hq hq' h
  generalize hd : (q : Int) * n = d at *
  have hd' : |d - 8 * (v - 128 : Int)| ≤ 127 := by omega
  rw [flatBlockSample_njChenWang d (by rw [abs_le] at hd'; omega), toNat_clip]
  have bounds := abs_le.1 (le_refl |d - 8 * (v - 128 : Int)|)
  have hx : |max 0 (min ((d + 4) / 8 + 128) 255) - (v : Int)| ≤ |(d + 4) / 8 + 128 - (v : Int)| := by
    rw [abs_le]; constructor <;> rcases abs_cases ((d + 4) / 8 + 128 - (v : Int)) with h | h <;> omega
  have hy : 16 * |(d + 4) / 8 + 128 - (v : Int)| ≤ q + 16 := by
    rcases abs_cases ((d + 4) / 8 + 128 - (v : Int)) with h | h <;> omega
  omega

end Sys2Proof.Machine
end

