-- ==== Sys2Proof/Laws/State.lean ====
section
/-! SUPPORT. One lemma per field per shared update: what an update leaves, and the new value of what it changes. -/

namespace Sys2Proof.Machine

/-! ### pushByte -/

@[simp] theorem pushByte_params (b : Byte) (s : State) : (pushByte b s).params = s.params := rfl
@[simp] theorem pushByte_ctrl (b : Byte) (s : State) : (pushByte b s).ctrl = s.ctrl := rfl
@[simp] theorem pushByte_status (b : Byte) (s : State) : (pushByte b s).status = s.status := rfl
@[simp] theorem pushByte_errcode (b : Byte) (s : State) : (pushByte b s).errcode = s.errcode := rfl
@[simp] theorem pushByte_inLen (b : Byte) (s : State) : (pushByte b s).inLen = s.inLen := rfl
@[simp] theorem pushByte_width (b : Byte) (s : State) : (pushByte b s).width = s.width := rfl
@[simp] theorem pushByte_height (b : Byte) (s : State) : (pushByte b s).height = s.height := rfl
@[simp] theorem pushByte_ncomp (b : Byte) (s : State) : (pushByte b s).ncomp = s.ncomp := rfl
@[simp] theorem pushByte_outLen (b : Byte) (s : State) : (pushByte b s).outLen = s.outLen := rfl
@[simp] theorem pushByte_rstEvents (b : Byte) (s : State) : (pushByte b s).rstEvents = s.rstEvents := rfl
@[simp] theorem pushByte_len (b : Byte) (s : State) : (pushByte b s).len = s.len := rfl
@[simp] theorem pushByte_phase (b : Byte) (s : State) : (pushByte b s).phase = s.phase := rfl
@[simp] theorem pushByte_cursor (b : Byte) (s : State) : (pushByte b s).cursor = s.cursor := rfl
@[simp] theorem pushByte_errKind (b : Byte) (s : State) : (pushByte b s).errKind = s.errKind := rfl
@[simp] theorem pushByte_strict (b : Byte) (s : State) : (pushByte b s).strict = s.strict := rfl
@[simp] theorem pushByte_frame (b : Byte) (s : State) : (pushByte b s).frame = s.frame := rfl
@[simp] theorem pushByte_ch (b : Byte) (s : State) : (pushByte b s).ch = s.ch := rfl
@[simp] theorem pushByte_planes (b : Byte) (s : State) : (pushByte b s).planes = s.planes := rfl
@[simp] theorem pushByte_qt (b : Byte) (s : State) : (pushByte b s).qt = s.qt := rfl
@[simp] theorem pushByte_qtLoaded (b : Byte) (s : State) : (pushByte b s).qtLoaded = s.qtLoaded := rfl
@[simp] theorem pushByte_ht (b : Byte) (s : State) : (pushByte b s).ht = s.ht := rfl
@[simp] theorem pushByte_ri (b : Byte) (s : State) : (pushByte b s).ri = s.ri := rfl
@[simp] theorem pushByte_scan (b : Byte) (s : State) : (pushByte b s).scan = s.scan := rfl
@[simp] theorem pushByte_reader (b : Byte) (s : State) : (pushByte b s).reader = { s.reader with acc := (s.reader.acc <<< 8) ||| b.setWidth 32, nb := s.reader.nb + 8 } := rfl
@[simp] theorem pushByte_blk (b : Byte) (s : State) : (pushByte b s).blk = s.blk := rfl
@[simp] theorem pushByte_k (b : Byte) (s : State) : (pushByte b s).k = s.k := rfl
@[simp] theorem pushByte_live (b : Byte) (s : State) : (pushByte b s).live = s.live := rfl
@[simp] theorem pushByte_fin (b : Byte) (s : State) : (pushByte b s).fin = s.fin := rfl
@[simp] theorem pushByte_inMem (b : Byte) (s : State) : (pushByte b s).inMem = s.inMem := rfl
@[simp] theorem pushByte_outMem (b : Byte) (s : State) : (pushByte b s).outMem = s.outMem := rfl
@[simp] theorem pushByte_host (b : Byte) (s : State) : (pushByte b s).host = s.host := rfl
@[simp] theorem pushByte_readData (b : Byte) (s : State) : (pushByte b s).readData = s.readData := rfl
@[simp] theorem pushByte_draws (b : Byte) (s : State) : (pushByte b s).draws = s.draws := rfl
@[simp] theorem pushByte_spoiled (b : Byte) (s : State) : (pushByte b s).spoiled = s.spoiled := rfl
@[simp] theorem pushByte_busyWrites (b : Byte) (s : State) : (pushByte b s).busyWrites = s.busyWrites := rfl

/-! ### skipBits -/

@[simp] theorem skipBits_params (n : Nat) (s : State) : (skipBits n s).params = s.params := rfl
@[simp] theorem skipBits_ctrl (n : Nat) (s : State) : (skipBits n s).ctrl = s.ctrl := rfl
@[simp] theorem skipBits_status (n : Nat) (s : State) : (skipBits n s).status = s.status := rfl
@[simp] theorem skipBits_errcode (n : Nat) (s : State) : (skipBits n s).errcode = s.errcode := rfl
@[simp] theorem skipBits_inLen (n : Nat) (s : State) : (skipBits n s).inLen = s.inLen := rfl
@[simp] theorem skipBits_width (n : Nat) (s : State) : (skipBits n s).width = s.width := rfl
@[simp] theorem skipBits_height (n : Nat) (s : State) : (skipBits n s).height = s.height := rfl
@[simp] theorem skipBits_ncomp (n : Nat) (s : State) : (skipBits n s).ncomp = s.ncomp := rfl
@[simp] theorem skipBits_outLen (n : Nat) (s : State) : (skipBits n s).outLen = s.outLen := rfl
@[simp] theorem skipBits_rstEvents (n : Nat) (s : State) : (skipBits n s).rstEvents = s.rstEvents := rfl
@[simp] theorem skipBits_len (n : Nat) (s : State) : (skipBits n s).len = s.len := rfl
@[simp] theorem skipBits_phase (n : Nat) (s : State) : (skipBits n s).phase = s.phase := rfl
@[simp] theorem skipBits_cursor (n : Nat) (s : State) : (skipBits n s).cursor = s.cursor := rfl
@[simp] theorem skipBits_errKind (n : Nat) (s : State) : (skipBits n s).errKind = s.errKind := rfl
@[simp] theorem skipBits_strict (n : Nat) (s : State) : (skipBits n s).strict = s.strict := rfl
@[simp] theorem skipBits_frame (n : Nat) (s : State) : (skipBits n s).frame = s.frame := rfl
@[simp] theorem skipBits_ch (n : Nat) (s : State) : (skipBits n s).ch = s.ch := rfl
@[simp] theorem skipBits_planes (n : Nat) (s : State) : (skipBits n s).planes = s.planes := rfl
@[simp] theorem skipBits_qt (n : Nat) (s : State) : (skipBits n s).qt = s.qt := rfl
@[simp] theorem skipBits_qtLoaded (n : Nat) (s : State) : (skipBits n s).qtLoaded = s.qtLoaded := rfl
@[simp] theorem skipBits_ht (n : Nat) (s : State) : (skipBits n s).ht = s.ht := rfl
@[simp] theorem skipBits_ri (n : Nat) (s : State) : (skipBits n s).ri = s.ri := rfl
@[simp] theorem skipBits_scan (n : Nat) (s : State) : (skipBits n s).scan = s.scan := rfl
@[simp] theorem skipBits_reader (n : Nat) (s : State) : (skipBits n s).reader = { s.reader with nb := s.reader.nb - n } := rfl
@[simp] theorem skipBits_blk (n : Nat) (s : State) : (skipBits n s).blk = s.blk := rfl
@[simp] theorem skipBits_k (n : Nat) (s : State) : (skipBits n s).k = s.k := rfl
@[simp] theorem skipBits_live (n : Nat) (s : State) : (skipBits n s).live = s.live := rfl
@[simp] theorem skipBits_fin (n : Nat) (s : State) : (skipBits n s).fin = s.fin := rfl
@[simp] theorem skipBits_inMem (n : Nat) (s : State) : (skipBits n s).inMem = s.inMem := rfl
@[simp] theorem skipBits_outMem (n : Nat) (s : State) : (skipBits n s).outMem = s.outMem := rfl
@[simp] theorem skipBits_host (n : Nat) (s : State) : (skipBits n s).host = s.host := rfl
@[simp] theorem skipBits_readData (n : Nat) (s : State) : (skipBits n s).readData = s.readData := rfl
@[simp] theorem skipBits_draws (n : Nat) (s : State) : (skipBits n s).draws = s.draws := rfl
@[simp] theorem skipBits_spoiled (n : Nat) (s : State) : (skipBits n s).spoiled = s.spoiled := rfl
@[simp] theorem skipBits_busyWrites (n : Nat) (s : State) : (skipBits n s).busyWrites = s.busyWrites := rfl

/-! ### alignBits -/

@[simp] theorem alignBits_params (s : State) : (alignBits s).params = s.params := rfl
@[simp] theorem alignBits_ctrl (s : State) : (alignBits s).ctrl = s.ctrl := rfl
@[simp] theorem alignBits_status (s : State) : (alignBits s).status = s.status := rfl
@[simp] theorem alignBits_errcode (s : State) : (alignBits s).errcode = s.errcode := rfl
@[simp] theorem alignBits_inLen (s : State) : (alignBits s).inLen = s.inLen := rfl
@[simp] theorem alignBits_width (s : State) : (alignBits s).width = s.width := rfl
@[simp] theorem alignBits_height (s : State) : (alignBits s).height = s.height := rfl
@[simp] theorem alignBits_ncomp (s : State) : (alignBits s).ncomp = s.ncomp := rfl
@[simp] theorem alignBits_outLen (s : State) : (alignBits s).outLen = s.outLen := rfl
@[simp] theorem alignBits_rstEvents (s : State) : (alignBits s).rstEvents = s.rstEvents := rfl
@[simp] theorem alignBits_len (s : State) : (alignBits s).len = s.len := rfl
@[simp] theorem alignBits_phase (s : State) : (alignBits s).phase = s.phase := rfl
@[simp] theorem alignBits_cursor (s : State) : (alignBits s).cursor = s.cursor := rfl
@[simp] theorem alignBits_errKind (s : State) : (alignBits s).errKind = s.errKind := rfl
@[simp] theorem alignBits_strict (s : State) : (alignBits s).strict = s.strict := rfl
@[simp] theorem alignBits_frame (s : State) : (alignBits s).frame = s.frame := rfl
@[simp] theorem alignBits_ch (s : State) : (alignBits s).ch = s.ch := rfl
@[simp] theorem alignBits_planes (s : State) : (alignBits s).planes = s.planes := rfl
@[simp] theorem alignBits_qt (s : State) : (alignBits s).qt = s.qt := rfl
@[simp] theorem alignBits_qtLoaded (s : State) : (alignBits s).qtLoaded = s.qtLoaded := rfl
@[simp] theorem alignBits_ht (s : State) : (alignBits s).ht = s.ht := rfl
@[simp] theorem alignBits_ri (s : State) : (alignBits s).ri = s.ri := rfl
@[simp] theorem alignBits_scan (s : State) : (alignBits s).scan = s.scan := rfl
@[simp] theorem alignBits_reader (s : State) : (alignBits s).reader = { s.reader with nb := s.reader.nb - s.reader.nb % 8 } := rfl
@[simp] theorem alignBits_blk (s : State) : (alignBits s).blk = s.blk := rfl
@[simp] theorem alignBits_k (s : State) : (alignBits s).k = s.k := rfl
@[simp] theorem alignBits_live (s : State) : (alignBits s).live = s.live := rfl
@[simp] theorem alignBits_fin (s : State) : (alignBits s).fin = s.fin := rfl
@[simp] theorem alignBits_inMem (s : State) : (alignBits s).inMem = s.inMem := rfl
@[simp] theorem alignBits_outMem (s : State) : (alignBits s).outMem = s.outMem := rfl
@[simp] theorem alignBits_host (s : State) : (alignBits s).host = s.host := rfl
@[simp] theorem alignBits_readData (s : State) : (alignBits s).readData = s.readData := rfl
@[simp] theorem alignBits_draws (s : State) : (alignBits s).draws = s.draws := rfl
@[simp] theorem alignBits_spoiled (s : State) : (alignBits s).spoiled = s.spoiled := rfl
@[simp] theorem alignBits_busyWrites (s : State) : (alignBits s).busyWrites = s.busyWrites := rfl

/-! ### setChannel -/

@[simp] theorem setChannel_params (s : State) (c : Fin 3) (r : Channel) : (setChannel s c r).params = s.params := rfl
@[simp] theorem setChannel_ctrl (s : State) (c : Fin 3) (r : Channel) : (setChannel s c r).ctrl = s.ctrl := rfl
@[simp] theorem setChannel_status (s : State) (c : Fin 3) (r : Channel) : (setChannel s c r).status = s.status := rfl
@[simp] theorem setChannel_errcode (s : State) (c : Fin 3) (r : Channel) : (setChannel s c r).errcode = s.errcode := rfl
@[simp] theorem setChannel_inLen (s : State) (c : Fin 3) (r : Channel) : (setChannel s c r).inLen = s.inLen := rfl
@[simp] theorem setChannel_width (s : State) (c : Fin 3) (r : Channel) : (setChannel s c r).width = s.width := rfl
@[simp] theorem setChannel_height (s : State) (c : Fin 3) (r : Channel) : (setChannel s c r).height = s.height := rfl
@[simp] theorem setChannel_ncomp (s : State) (c : Fin 3) (r : Channel) : (setChannel s c r).ncomp = s.ncomp := rfl
@[simp] theorem setChannel_outLen (s : State) (c : Fin 3) (r : Channel) : (setChannel s c r).outLen = s.outLen := rfl
@[simp] theorem setChannel_rstEvents (s : State) (c : Fin 3) (r : Channel) : (setChannel s c r).rstEvents = s.rstEvents := rfl
@[simp] theorem setChannel_len (s : State) (c : Fin 3) (r : Channel) : (setChannel s c r).len = s.len := rfl
@[simp] theorem setChannel_phase (s : State) (c : Fin 3) (r : Channel) : (setChannel s c r).phase = s.phase := rfl
@[simp] theorem setChannel_cursor (s : State) (c : Fin 3) (r : Channel) : (setChannel s c r).cursor = s.cursor := rfl
@[simp] theorem setChannel_errKind (s : State) (c : Fin 3) (r : Channel) : (setChannel s c r).errKind = s.errKind := rfl
@[simp] theorem setChannel_strict (s : State) (c : Fin 3) (r : Channel) : (setChannel s c r).strict = s.strict := rfl
@[simp] theorem setChannel_frame (s : State) (c : Fin 3) (r : Channel) : (setChannel s c r).frame = s.frame := rfl
@[simp] theorem setChannel_ch (s : State) (c : Fin 3) (r : Channel) : (setChannel s c r).ch = s.ch.set c r := rfl
@[simp] theorem setChannel_planes (s : State) (c : Fin 3) (r : Channel) : (setChannel s c r).planes = s.planes := rfl
@[simp] theorem setChannel_qt (s : State) (c : Fin 3) (r : Channel) : (setChannel s c r).qt = s.qt := rfl
@[simp] theorem setChannel_qtLoaded (s : State) (c : Fin 3) (r : Channel) : (setChannel s c r).qtLoaded = s.qtLoaded := rfl
@[simp] theorem setChannel_ht (s : State) (c : Fin 3) (r : Channel) : (setChannel s c r).ht = s.ht := rfl
@[simp] theorem setChannel_ri (s : State) (c : Fin 3) (r : Channel) : (setChannel s c r).ri = s.ri := rfl
@[simp] theorem setChannel_scan (s : State) (c : Fin 3) (r : Channel) : (setChannel s c r).scan = s.scan := rfl
@[simp] theorem setChannel_reader (s : State) (c : Fin 3) (r : Channel) : (setChannel s c r).reader = s.reader := rfl
@[simp] theorem setChannel_blk (s : State) (c : Fin 3) (r : Channel) : (setChannel s c r).blk = s.blk := rfl
@[simp] theorem setChannel_k (s : State) (c : Fin 3) (r : Channel) : (setChannel s c r).k = s.k := rfl
@[simp] theorem setChannel_live (s : State) (c : Fin 3) (r : Channel) : (setChannel s c r).live = s.live := rfl
@[simp] theorem setChannel_fin (s : State) (c : Fin 3) (r : Channel) : (setChannel s c r).fin = s.fin := rfl
@[simp] theorem setChannel_inMem (s : State) (c : Fin 3) (r : Channel) : (setChannel s c r).inMem = s.inMem := rfl
@[simp] theorem setChannel_outMem (s : State) (c : Fin 3) (r : Channel) : (setChannel s c r).outMem = s.outMem := rfl
@[simp] theorem setChannel_host (s : State) (c : Fin 3) (r : Channel) : (setChannel s c r).host = s.host := rfl
@[simp] theorem setChannel_readData (s : State) (c : Fin 3) (r : Channel) : (setChannel s c r).readData = s.readData := rfl
@[simp] theorem setChannel_draws (s : State) (c : Fin 3) (r : Channel) : (setChannel s c r).draws = s.draws := rfl
@[simp] theorem setChannel_spoiled (s : State) (c : Fin 3) (r : Channel) : (setChannel s c r).spoiled = s.spoiled := rfl
@[simp] theorem setChannel_busyWrites (s : State) (c : Fin 3) (r : Channel) : (setChannel s c r).busyWrites = s.busyWrites := rfl

/-! ### drawOutMem -/

@[simp] theorem drawOutMem_params (s : State) : (drawOutMem s).params = s.params := rfl
@[simp] theorem drawOutMem_ctrl (s : State) : (drawOutMem s).ctrl = s.ctrl := rfl
@[simp] theorem drawOutMem_status (s : State) : (drawOutMem s).status = s.status := rfl
@[simp] theorem drawOutMem_errcode (s : State) : (drawOutMem s).errcode = s.errcode := rfl
@[simp] theorem drawOutMem_inLen (s : State) : (drawOutMem s).inLen = s.inLen := rfl
@[simp] theorem drawOutMem_width (s : State) : (drawOutMem s).width = s.width := rfl
@[simp] theorem drawOutMem_height (s : State) : (drawOutMem s).height = s.height := rfl
@[simp] theorem drawOutMem_ncomp (s : State) : (drawOutMem s).ncomp = s.ncomp := rfl
@[simp] theorem drawOutMem_outLen (s : State) : (drawOutMem s).outLen = s.outLen := rfl
@[simp] theorem drawOutMem_rstEvents (s : State) : (drawOutMem s).rstEvents = s.rstEvents := rfl
@[simp] theorem drawOutMem_len (s : State) : (drawOutMem s).len = s.len := rfl
@[simp] theorem drawOutMem_phase (s : State) : (drawOutMem s).phase = s.phase := rfl
@[simp] theorem drawOutMem_cursor (s : State) : (drawOutMem s).cursor = s.cursor := rfl
@[simp] theorem drawOutMem_errKind (s : State) : (drawOutMem s).errKind = s.errKind := rfl
@[simp] theorem drawOutMem_strict (s : State) : (drawOutMem s).strict = s.strict := rfl
@[simp] theorem drawOutMem_frame (s : State) : (drawOutMem s).frame = s.frame := rfl
@[simp] theorem drawOutMem_ch (s : State) : (drawOutMem s).ch = s.ch := rfl
@[simp] theorem drawOutMem_planes (s : State) : (drawOutMem s).planes = s.planes := rfl
@[simp] theorem drawOutMem_qt (s : State) : (drawOutMem s).qt = s.qt := rfl
@[simp] theorem drawOutMem_qtLoaded (s : State) : (drawOutMem s).qtLoaded = s.qtLoaded := rfl
@[simp] theorem drawOutMem_ht (s : State) : (drawOutMem s).ht = s.ht := rfl
@[simp] theorem drawOutMem_ri (s : State) : (drawOutMem s).ri = s.ri := rfl
@[simp] theorem drawOutMem_scan (s : State) : (drawOutMem s).scan = s.scan := rfl
@[simp] theorem drawOutMem_reader (s : State) : (drawOutMem s).reader = s.reader := rfl
@[simp] theorem drawOutMem_blk (s : State) : (drawOutMem s).blk = s.blk := rfl
@[simp] theorem drawOutMem_k (s : State) : (drawOutMem s).k = s.k := rfl
@[simp] theorem drawOutMem_live (s : State) : (drawOutMem s).live = s.live := rfl
@[simp] theorem drawOutMem_fin (s : State) : (drawOutMem s).fin = s.fin := rfl
@[simp] theorem drawOutMem_inMem (s : State) : (drawOutMem s).inMem = s.inMem := rfl
@[simp] theorem drawOutMem_outMem (s : State) : (drawOutMem s).outMem = { draw := s.draws, cells := [] } := rfl
@[simp] theorem drawOutMem_host (s : State) : (drawOutMem s).host = s.host := rfl
@[simp] theorem drawOutMem_readData (s : State) : (drawOutMem s).readData = s.readData := rfl
@[simp] theorem drawOutMem_draws (s : State) : (drawOutMem s).draws = s.draws + 1 := rfl
@[simp] theorem drawOutMem_spoiled (s : State) : (drawOutMem s).spoiled = s.spoiled := rfl
@[simp] theorem drawOutMem_busyWrites (s : State) : (drawOutMem s).busyWrites = s.busyWrites := rfl

/-! ### completeOk -/

@[simp] theorem completeOk_params (s : State) : (completeOk s).params = s.params := rfl
@[simp] theorem completeOk_ctrl (s : State) : (completeOk s).ctrl = s.ctrl := rfl
@[simp] theorem completeOk_status (s : State) : (completeOk s).status = Status.ended .ok := rfl
@[simp] theorem completeOk_errcode (s : State) : (completeOk s).errcode = .ok := rfl
@[simp] theorem completeOk_inLen (s : State) : (completeOk s).inLen = s.inLen := rfl
@[simp] theorem completeOk_width (s : State) : (completeOk s).width = BitVec.ofNat 32 s.frame.width := rfl
@[simp] theorem completeOk_height (s : State) : (completeOk s).height = BitVec.ofNat 32 s.frame.height := rfl
@[simp] theorem completeOk_ncomp (s : State) : (completeOk s).ncomp = BitVec.ofNat 32 s.frame.channels := rfl
@[simp] theorem completeOk_outLen (s : State) : (completeOk s).outLen = BitVec.ofNat 32 (s.frame.width * s.frame.height * s.frame.channels) := rfl
@[simp] theorem completeOk_rstEvents (s : State) : (completeOk s).rstEvents = s.rstEvents := rfl
@[simp] theorem completeOk_len (s : State) : (completeOk s).len = s.len := rfl
@[simp] theorem completeOk_phase (s : State) : (completeOk s).phase = .doneOk := rfl
@[simp] theorem completeOk_cursor (s : State) : (completeOk s).cursor = s.cursor := rfl
@[simp] theorem completeOk_errKind (s : State) : (completeOk s).errKind = s.errKind := rfl
@[simp] theorem completeOk_strict (s : State) : (completeOk s).strict = s.strict := rfl
@[simp] theorem completeOk_frame (s : State) : (completeOk s).frame = s.frame := rfl
@[simp] theorem completeOk_ch (s : State) : (completeOk s).ch = s.ch := rfl
@[simp] theorem completeOk_planes (s : State) : (completeOk s).planes = noPlanes := rfl
@[simp] theorem completeOk_qt (s : State) : (completeOk s).qt = s.qt := rfl
@[simp] theorem completeOk_qtLoaded (s : State) : (completeOk s).qtLoaded = s.qtLoaded := rfl
@[simp] theorem completeOk_ht (s : State) : (completeOk s).ht = s.ht := rfl
@[simp] theorem completeOk_ri (s : State) : (completeOk s).ri = s.ri := rfl
@[simp] theorem completeOk_scan (s : State) : (completeOk s).scan = s.scan := rfl
@[simp] theorem completeOk_reader (s : State) : (completeOk s).reader = s.reader := rfl
@[simp] theorem completeOk_blk (s : State) : (completeOk s).blk = s.blk := rfl
@[simp] theorem completeOk_k (s : State) : (completeOk s).k = s.k := rfl
@[simp] theorem completeOk_live (s : State) : (completeOk s).live = s.live := rfl
@[simp] theorem completeOk_fin (s : State) : (completeOk s).fin = s.fin := rfl
@[simp] theorem completeOk_inMem (s : State) : (completeOk s).inMem = s.inMem := rfl
@[simp] theorem completeOk_host (s : State) : (completeOk s).host = s.host := rfl
@[simp] theorem completeOk_readData (s : State) : (completeOk s).readData = s.readData := rfl
@[simp] theorem completeOk_draws (s : State) : (completeOk s).draws = s.draws + 1 := rfl
@[simp] theorem completeOk_spoiled (s : State) : (completeOk s).spoiled = false := rfl
@[simp] theorem completeOk_busyWrites (s : State) : (completeOk s).busyWrites = [] := rfl

/-! ### completeError -/

@[simp] theorem completeError_params (e : ErrCode) (s : State) : (completeError e s).params = s.params := rfl
@[simp] theorem completeError_ctrl (e : ErrCode) (s : State) : (completeError e s).ctrl = s.ctrl := rfl
@[simp] theorem completeError_status (e : ErrCode) (s : State) : (completeError e s).status = Status.ended e := rfl
@[simp] theorem completeError_errcode (e : ErrCode) (s : State) : (completeError e s).errcode = e := rfl
@[simp] theorem completeError_inLen (e : ErrCode) (s : State) : (completeError e s).inLen = s.inLen := rfl
@[simp] theorem completeError_width (e : ErrCode) (s : State) : (completeError e s).width = 0 := rfl
@[simp] theorem completeError_height (e : ErrCode) (s : State) : (completeError e s).height = 0 := rfl
@[simp] theorem completeError_ncomp (e : ErrCode) (s : State) : (completeError e s).ncomp = 0 := rfl
@[simp] theorem completeError_outLen (e : ErrCode) (s : State) : (completeError e s).outLen = 0 := rfl
@[simp] theorem completeError_rstEvents (e : ErrCode) (s : State) : (completeError e s).rstEvents = s.rstEvents := rfl
@[simp] theorem completeError_len (e : ErrCode) (s : State) : (completeError e s).len = s.len := rfl
@[simp] theorem completeError_phase (e : ErrCode) (s : State) : (completeError e s).phase = Phase.ended e := rfl
@[simp] theorem completeError_cursor (e : ErrCode) (s : State) : (completeError e s).cursor = s.cursor := rfl
@[simp] theorem completeError_errKind (e : ErrCode) (s : State) : (completeError e s).errKind = s.errKind := rfl
@[simp] theorem completeError_strict (e : ErrCode) (s : State) : (completeError e s).strict = s.strict := rfl
@[simp] theorem completeError_frame (e : ErrCode) (s : State) : (completeError e s).frame = s.frame := rfl
@[simp] theorem completeError_ch (e : ErrCode) (s : State) : (completeError e s).ch = s.ch := rfl
@[simp] theorem completeError_planes (e : ErrCode) (s : State) : (completeError e s).planes = noPlanes := rfl
@[simp] theorem completeError_qt (e : ErrCode) (s : State) : (completeError e s).qt = s.qt := rfl
@[simp] theorem completeError_qtLoaded (e : ErrCode) (s : State) : (completeError e s).qtLoaded = s.qtLoaded := rfl
@[simp] theorem completeError_ht (e : ErrCode) (s : State) : (completeError e s).ht = s.ht := rfl
@[simp] theorem completeError_ri (e : ErrCode) (s : State) : (completeError e s).ri = s.ri := rfl
@[simp] theorem completeError_scan (e : ErrCode) (s : State) : (completeError e s).scan = s.scan := rfl
@[simp] theorem completeError_reader (e : ErrCode) (s : State) : (completeError e s).reader = s.reader := rfl
@[simp] theorem completeError_blk (e : ErrCode) (s : State) : (completeError e s).blk = s.blk := rfl
@[simp] theorem completeError_k (e : ErrCode) (s : State) : (completeError e s).k = s.k := rfl
@[simp] theorem completeError_live (e : ErrCode) (s : State) : (completeError e s).live = s.live := rfl
@[simp] theorem completeError_fin (e : ErrCode) (s : State) : (completeError e s).fin = s.fin := rfl
@[simp] theorem completeError_inMem (e : ErrCode) (s : State) : (completeError e s).inMem = s.inMem := rfl
@[simp] theorem completeError_outMem (e : ErrCode) (s : State) : (completeError e s).outMem = { draw := s.draws, cells := [] } := rfl
@[simp] theorem completeError_host (e : ErrCode) (s : State) : (completeError e s).host = s.host := rfl
@[simp] theorem completeError_readData (e : ErrCode) (s : State) : (completeError e s).readData = s.readData := rfl
@[simp] theorem completeError_draws (e : ErrCode) (s : State) : (completeError e s).draws = s.draws + 1 := rfl
@[simp] theorem completeError_spoiled (e : ErrCode) (s : State) : (completeError e s).spoiled = false := rfl
@[simp] theorem completeError_busyWrites (e : ErrCode) (s : State) : (completeError e s).busyWrites = [] := rfl

/-! ### raiseError -/

@[simp] theorem raiseError_params (e : ErrCode) (s : State) : (raiseError e s).params = s.params := rfl
@[simp] theorem raiseError_ctrl (e : ErrCode) (s : State) : (raiseError e s).ctrl = s.ctrl := rfl
@[simp] theorem raiseError_status (e : ErrCode) (s : State) : (raiseError e s).status = Status.ended e := rfl
@[simp] theorem raiseError_errcode (e : ErrCode) (s : State) : (raiseError e s).errcode = e := rfl
@[simp] theorem raiseError_inLen (e : ErrCode) (s : State) : (raiseError e s).inLen = s.inLen := rfl
@[simp] theorem raiseError_width (e : ErrCode) (s : State) : (raiseError e s).width = 0 := rfl
@[simp] theorem raiseError_height (e : ErrCode) (s : State) : (raiseError e s).height = 0 := rfl
@[simp] theorem raiseError_ncomp (e : ErrCode) (s : State) : (raiseError e s).ncomp = 0 := rfl
@[simp] theorem raiseError_outLen (e : ErrCode) (s : State) : (raiseError e s).outLen = 0 := rfl
@[simp] theorem raiseError_rstEvents (e : ErrCode) (s : State) : (raiseError e s).rstEvents = s.rstEvents := rfl
@[simp] theorem raiseError_len (e : ErrCode) (s : State) : (raiseError e s).len = s.len := rfl
@[simp] theorem raiseError_phase (e : ErrCode) (s : State) : (raiseError e s).phase = Phase.ended e := rfl
@[simp] theorem raiseError_cursor (e : ErrCode) (s : State) : (raiseError e s).cursor = s.cursor := rfl
@[simp] theorem raiseError_errKind (e : ErrCode) (s : State) : (raiseError e s).errKind = e := rfl
@[simp] theorem raiseError_strict (e : ErrCode) (s : State) : (raiseError e s).strict = s.strict := rfl
@[simp] theorem raiseError_frame (e : ErrCode) (s : State) : (raiseError e s).frame = s.frame := rfl
@[simp] theorem raiseError_ch (e : ErrCode) (s : State) : (raiseError e s).ch = s.ch := rfl
@[simp] theorem raiseError_planes (e : ErrCode) (s : State) : (raiseError e s).planes = noPlanes := rfl
@[simp] theorem raiseError_qt (e : ErrCode) (s : State) : (raiseError e s).qt = s.qt := rfl
@[simp] theorem raiseError_qtLoaded (e : ErrCode) (s : State) : (raiseError e s).qtLoaded = s.qtLoaded := rfl
@[simp] theorem raiseError_ht (e : ErrCode) (s : State) : (raiseError e s).ht = s.ht := rfl
@[simp] theorem raiseError_ri (e : ErrCode) (s : State) : (raiseError e s).ri = s.ri := rfl
@[simp] theorem raiseError_scan (e : ErrCode) (s : State) : (raiseError e s).scan = s.scan := rfl
@[simp] theorem raiseError_reader (e : ErrCode) (s : State) : (raiseError e s).reader = s.reader := rfl
@[simp] theorem raiseError_blk (e : ErrCode) (s : State) : (raiseError e s).blk = s.blk := rfl
@[simp] theorem raiseError_k (e : ErrCode) (s : State) : (raiseError e s).k = s.k := rfl
@[simp] theorem raiseError_live (e : ErrCode) (s : State) : (raiseError e s).live = s.live := rfl
@[simp] theorem raiseError_fin (e : ErrCode) (s : State) : (raiseError e s).fin = s.fin := rfl
@[simp] theorem raiseError_inMem (e : ErrCode) (s : State) : (raiseError e s).inMem = s.inMem := rfl
@[simp] theorem raiseError_outMem (e : ErrCode) (s : State) : (raiseError e s).outMem = { draw := s.draws, cells := [] } := rfl
@[simp] theorem raiseError_host (e : ErrCode) (s : State) : (raiseError e s).host = s.host := rfl
@[simp] theorem raiseError_readData (e : ErrCode) (s : State) : (raiseError e s).readData = s.readData := rfl
@[simp] theorem raiseError_draws (e : ErrCode) (s : State) : (raiseError e s).draws = s.draws + 1 := rfl
@[simp] theorem raiseError_spoiled (e : ErrCode) (s : State) : (raiseError e s).spoiled = false := rfl
@[simp] theorem raiseError_busyWrites (e : ErrCode) (s : State) : (raiseError e s).busyWrites = [] := rfl

/-! ### discardImage -/

@[simp] theorem discardImage_params (s : State) : (discardImage s).params = s.params := rfl
@[simp] theorem discardImage_ctrl (s : State) : (discardImage s).ctrl = s.ctrl := rfl
@[simp] theorem discardImage_status (s : State) : (discardImage s).status = s.status := rfl
@[simp] theorem discardImage_errcode (s : State) : (discardImage s).errcode = s.errcode := rfl
@[simp] theorem discardImage_inLen (s : State) : (discardImage s).inLen = s.inLen := rfl
@[simp] theorem discardImage_width (s : State) : (discardImage s).width = 0 := rfl
@[simp] theorem discardImage_height (s : State) : (discardImage s).height = 0 := rfl
@[simp] theorem discardImage_ncomp (s : State) : (discardImage s).ncomp = 0 := rfl
@[simp] theorem discardImage_outLen (s : State) : (discardImage s).outLen = 0 := rfl
@[simp] theorem discardImage_rstEvents (s : State) : (discardImage s).rstEvents = 0 := rfl
@[simp] theorem discardImage_len (s : State) : (discardImage s).len = s.len := rfl
@[simp] theorem discardImage_phase (s : State) : (discardImage s).phase = .idle := rfl
@[simp] theorem discardImage_cursor (s : State) : (discardImage s).cursor = 0 := rfl
@[simp] theorem discardImage_errKind (s : State) : (discardImage s).errKind = .ok := rfl
@[simp] theorem discardImage_strict (s : State) : (discardImage s).strict = s.strict := rfl
@[simp] theorem discardImage_frame (s : State) : (discardImage s).frame = { s.frame with seen := false } := rfl
@[simp] theorem discardImage_ch (s : State) : (discardImage s).ch = s.ch := rfl
@[simp] theorem discardImage_planes (s : State) : (discardImage s).planes = noPlanes := rfl
@[simp] theorem discardImage_qt (s : State) : (discardImage s).qt = s.qt := rfl
@[simp] theorem discardImage_qtLoaded (s : State) : (discardImage s).qtLoaded = Quad.fill false := rfl
@[simp] theorem discardImage_ht (s : State) : (discardImage s).ht = Quad.fill [] := rfl
@[simp] theorem discardImage_ri (s : State) : (discardImage s).ri = 0 := rfl
@[simp] theorem discardImage_scan (s : State) : (discardImage s).scan = s.scan := rfl
@[simp] theorem discardImage_reader (s : State) : (discardImage s).reader = s.reader := rfl
@[simp] theorem discardImage_blk (s : State) : (discardImage s).blk = s.blk := rfl
@[simp] theorem discardImage_k (s : State) : (discardImage s).k = s.k := rfl
@[simp] theorem discardImage_live (s : State) : (discardImage s).live = s.live := rfl
@[simp] theorem discardImage_fin (s : State) : (discardImage s).fin = s.fin := rfl
@[simp] theorem discardImage_inMem (s : State) : (discardImage s).inMem = s.inMem := rfl
@[simp] theorem discardImage_outMem (s : State) : (discardImage s).outMem = s.outMem := rfl
@[simp] theorem discardImage_host (s : State) : (discardImage s).host = s.host := rfl
@[simp] theorem discardImage_readData (s : State) : (discardImage s).readData = s.readData := rfl
@[simp] theorem discardImage_draws (s : State) : (discardImage s).draws = s.draws := rfl
@[simp] theorem discardImage_spoiled (s : State) : (discardImage s).spoiled = s.spoiled := rfl
@[simp] theorem discardImage_busyWrites (s : State) : (discardImage s).busyWrites = s.busyWrites := rfl

/-! ### startDecode -/

@[simp] theorem startDecode_params (s : State) : (startDecode s).params = s.params := rfl
@[simp] theorem startDecode_ctrl (s : State) : (startDecode s).ctrl = s.ctrl := rfl
@[simp] theorem startDecode_status (s : State) : (startDecode s).status = Status.running := rfl
@[simp] theorem startDecode_errcode (s : State) : (startDecode s).errcode = .ok := rfl
@[simp] theorem startDecode_inLen (s : State) : (startDecode s).inLen = s.inLen := rfl
@[simp] theorem startDecode_width (s : State) : (startDecode s).width = 0 := rfl
@[simp] theorem startDecode_height (s : State) : (startDecode s).height = 0 := rfl
@[simp] theorem startDecode_ncomp (s : State) : (startDecode s).ncomp = 0 := rfl
@[simp] theorem startDecode_outLen (s : State) : (startDecode s).outLen = 0 := rfl
@[simp] theorem startDecode_rstEvents (s : State) : (startDecode s).rstEvents = 0 := rfl
@[simp] theorem startDecode_len (s : State) : (startDecode s).len = s.len := rfl
@[simp] theorem startDecode_phase (s : State) : (startDecode s).phase = .parsingHeader := rfl
@[simp] theorem startDecode_cursor (s : State) : (startDecode s).cursor = 0 := rfl
@[simp] theorem startDecode_errKind (s : State) : (startDecode s).errKind = .ok := rfl
@[simp] theorem startDecode_strict (s : State) : (startDecode s).strict = s.ctrl.getLsbD 0 := rfl
@[simp] theorem startDecode_frame (s : State) : (startDecode s).frame = { s.frame with seen := false } := rfl
@[simp] theorem startDecode_ch (s : State) : (startDecode s).ch = s.ch := rfl
@[simp] theorem startDecode_planes (s : State) : (startDecode s).planes = noPlanes := rfl
@[simp] theorem startDecode_qt (s : State) : (startDecode s).qt = s.qt := rfl
@[simp] theorem startDecode_qtLoaded (s : State) : (startDecode s).qtLoaded = Quad.fill false := rfl
@[simp] theorem startDecode_ht (s : State) : (startDecode s).ht = Quad.fill [] := rfl
@[simp] theorem startDecode_ri (s : State) : (startDecode s).ri = 0 := rfl
@[simp] theorem startDecode_scan (s : State) : (startDecode s).scan = s.scan := rfl
@[simp] theorem startDecode_reader (s : State) : (startDecode s).reader = s.reader := rfl
@[simp] theorem startDecode_blk (s : State) : (startDecode s).blk = s.blk := rfl
@[simp] theorem startDecode_k (s : State) : (startDecode s).k = s.k := rfl
@[simp] theorem startDecode_live (s : State) : (startDecode s).live = s.live := rfl
@[simp] theorem startDecode_fin (s : State) : (startDecode s).fin = s.fin := rfl
@[simp] theorem startDecode_inMem (s : State) : (startDecode s).inMem = s.inMem := rfl
@[simp] theorem startDecode_outMem (s : State) : (startDecode s).outMem = s.outMem := rfl
@[simp] theorem startDecode_host (s : State) : (startDecode s).host = s.host := rfl
@[simp] theorem startDecode_readData (s : State) : (startDecode s).readData = s.readData := rfl
@[simp] theorem startDecode_draws (s : State) : (startDecode s).draws = s.draws := rfl
@[simp] theorem startDecode_spoiled (s : State) : (startDecode s).spoiled = false := rfl
@[simp] theorem startDecode_busyWrites (s : State) : (startDecode s).busyWrites = [] := rfl

/-! ### clearPredictors -/

@[simp] theorem clearPredictors_params (s : State) : (clearPredictors s).params = s.params := rfl
@[simp] theorem clearPredictors_ctrl (s : State) : (clearPredictors s).ctrl = s.ctrl := rfl
@[simp] theorem clearPredictors_status (s : State) : (clearPredictors s).status = s.status := rfl
@[simp] theorem clearPredictors_errcode (s : State) : (clearPredictors s).errcode = s.errcode := rfl
@[simp] theorem clearPredictors_inLen (s : State) : (clearPredictors s).inLen = s.inLen := rfl
@[simp] theorem clearPredictors_width (s : State) : (clearPredictors s).width = s.width := rfl
@[simp] theorem clearPredictors_height (s : State) : (clearPredictors s).height = s.height := rfl
@[simp] theorem clearPredictors_ncomp (s : State) : (clearPredictors s).ncomp = s.ncomp := rfl
@[simp] theorem clearPredictors_outLen (s : State) : (clearPredictors s).outLen = s.outLen := rfl
@[simp] theorem clearPredictors_rstEvents (s : State) : (clearPredictors s).rstEvents = s.rstEvents := rfl
@[simp] theorem clearPredictors_len (s : State) : (clearPredictors s).len = s.len := rfl
@[simp] theorem clearPredictors_phase (s : State) : (clearPredictors s).phase = s.phase := rfl
@[simp] theorem clearPredictors_cursor (s : State) : (clearPredictors s).cursor = s.cursor := rfl
@[simp] theorem clearPredictors_errKind (s : State) : (clearPredictors s).errKind = s.errKind := rfl
@[simp] theorem clearPredictors_strict (s : State) : (clearPredictors s).strict = s.strict := rfl
@[simp] theorem clearPredictors_frame (s : State) : (clearPredictors s).frame = s.frame := rfl
@[simp] theorem clearPredictors_ch (s : State) : (clearPredictors s).ch = s.ch.mapBelow s.frame.channels fun _ r => { r with pred := 0 } := rfl
@[simp] theorem clearPredictors_planes (s : State) : (clearPredictors s).planes = s.planes := rfl
@[simp] theorem clearPredictors_qt (s : State) : (clearPredictors s).qt = s.qt := rfl
@[simp] theorem clearPredictors_qtLoaded (s : State) : (clearPredictors s).qtLoaded = s.qtLoaded := rfl
@[simp] theorem clearPredictors_ht (s : State) : (clearPredictors s).ht = s.ht := rfl
@[simp] theorem clearPredictors_ri (s : State) : (clearPredictors s).ri = s.ri := rfl
@[simp] theorem clearPredictors_scan (s : State) : (clearPredictors s).scan = s.scan := rfl
@[simp] theorem clearPredictors_reader (s : State) : (clearPredictors s).reader = s.reader := rfl
@[simp] theorem clearPredictors_blk (s : State) : (clearPredictors s).blk = s.blk := rfl
@[simp] theorem clearPredictors_k (s : State) : (clearPredictors s).k = s.k := rfl
@[simp] theorem clearPredictors_live (s : State) : (clearPredictors s).live = s.live := rfl
@[simp] theorem clearPredictors_fin (s : State) : (clearPredictors s).fin = s.fin := rfl
@[simp] theorem clearPredictors_inMem (s : State) : (clearPredictors s).inMem = s.inMem := rfl
@[simp] theorem clearPredictors_outMem (s : State) : (clearPredictors s).outMem = s.outMem := rfl
@[simp] theorem clearPredictors_host (s : State) : (clearPredictors s).host = s.host := rfl
@[simp] theorem clearPredictors_readData (s : State) : (clearPredictors s).readData = s.readData := rfl
@[simp] theorem clearPredictors_draws (s : State) : (clearPredictors s).draws = s.draws := rfl
@[simp] theorem clearPredictors_spoiled (s : State) : (clearPredictors s).spoiled = s.spoiled := rfl
@[simp] theorem clearPredictors_busyWrites (s : State) : (clearPredictors s).busyWrites = s.busyWrites := rfl

/-! ### beginBlock -/

@[simp] theorem beginBlock_params (s : State) : (beginBlock s).params = s.params := rfl
@[simp] theorem beginBlock_ctrl (s : State) : (beginBlock s).ctrl = s.ctrl := rfl
@[simp] theorem beginBlock_status (s : State) : (beginBlock s).status = s.status := rfl
@[simp] theorem beginBlock_errcode (s : State) : (beginBlock s).errcode = s.errcode := rfl
@[simp] theorem beginBlock_inLen (s : State) : (beginBlock s).inLen = s.inLen := rfl
@[simp] theorem beginBlock_width (s : State) : (beginBlock s).width = s.width := rfl
@[simp] theorem beginBlock_height (s : State) : (beginBlock s).height = s.height := rfl
@[simp] theorem beginBlock_ncomp (s : State) : (beginBlock s).ncomp = s.ncomp := rfl
@[simp] theorem beginBlock_outLen (s : State) : (beginBlock s).outLen = s.outLen := rfl
@[simp] theorem beginBlock_rstEvents (s : State) : (beginBlock s).rstEvents = s.rstEvents := rfl
@[simp] theorem beginBlock_len (s : State) : (beginBlock s).len = s.len := rfl
@[simp] theorem beginBlock_phase (s : State) : (beginBlock s).phase = s.phase := rfl
@[simp] theorem beginBlock_cursor (s : State) : (beginBlock s).cursor = s.cursor := rfl
@[simp] theorem beginBlock_errKind (s : State) : (beginBlock s).errKind = s.errKind := rfl
@[simp] theorem beginBlock_strict (s : State) : (beginBlock s).strict = s.strict := rfl
@[simp] theorem beginBlock_frame (s : State) : (beginBlock s).frame = s.frame := rfl
@[simp] theorem beginBlock_ch (s : State) : (beginBlock s).ch = s.ch := rfl
@[simp] theorem beginBlock_planes (s : State) : (beginBlock s).planes = s.planes := rfl
@[simp] theorem beginBlock_qt (s : State) : (beginBlock s).qt = s.qt := rfl
@[simp] theorem beginBlock_qtLoaded (s : State) : (beginBlock s).qtLoaded = s.qtLoaded := rfl
@[simp] theorem beginBlock_ht (s : State) : (beginBlock s).ht = s.ht := rfl
@[simp] theorem beginBlock_ri (s : State) : (beginBlock s).ri = s.ri := rfl
@[simp] theorem beginBlock_scan (s : State) : (beginBlock s).scan = { s.scan with step := .dc } := rfl
@[simp] theorem beginBlock_reader (s : State) : (beginBlock s).reader = s.reader := rfl
@[simp] theorem beginBlock_blk (s : State) : (beginBlock s).blk = Oct.fill (Oct.fill 0) := rfl
@[simp] theorem beginBlock_k (s : State) : (beginBlock s).k = 0 := rfl
@[simp] theorem beginBlock_live (s : State) : (beginBlock s).live = s.live := rfl
@[simp] theorem beginBlock_fin (s : State) : (beginBlock s).fin = s.fin := rfl
@[simp] theorem beginBlock_inMem (s : State) : (beginBlock s).inMem = s.inMem := rfl
@[simp] theorem beginBlock_outMem (s : State) : (beginBlock s).outMem = s.outMem := rfl
@[simp] theorem beginBlock_host (s : State) : (beginBlock s).host = s.host := rfl
@[simp] theorem beginBlock_readData (s : State) : (beginBlock s).readData = s.readData := rfl
@[simp] theorem beginBlock_draws (s : State) : (beginBlock s).draws = s.draws := rfl
@[simp] theorem beginBlock_spoiled (s : State) : (beginBlock s).spoiled = s.spoiled := rfl
@[simp] theorem beginBlock_busyWrites (s : State) : (beginBlock s).busyWrites = s.busyWrites := rfl

/-! ### beginMcu -/

@[simp] theorem beginMcu_params (s : State) : (beginMcu s).params = s.params := rfl
@[simp] theorem beginMcu_ctrl (s : State) : (beginMcu s).ctrl = s.ctrl := rfl
@[simp] theorem beginMcu_status (s : State) : (beginMcu s).status = s.status := rfl
@[simp] theorem beginMcu_errcode (s : State) : (beginMcu s).errcode = s.errcode := rfl
@[simp] theorem beginMcu_inLen (s : State) : (beginMcu s).inLen = s.inLen := rfl
@[simp] theorem beginMcu_width (s : State) : (beginMcu s).width = s.width := rfl
@[simp] theorem beginMcu_height (s : State) : (beginMcu s).height = s.height := rfl
@[simp] theorem beginMcu_ncomp (s : State) : (beginMcu s).ncomp = s.ncomp := rfl
@[simp] theorem beginMcu_outLen (s : State) : (beginMcu s).outLen = s.outLen := rfl
@[simp] theorem beginMcu_rstEvents (s : State) : (beginMcu s).rstEvents = s.rstEvents := rfl
@[simp] theorem beginMcu_len (s : State) : (beginMcu s).len = s.len := rfl
@[simp] theorem beginMcu_phase (s : State) : (beginMcu s).phase = .decodingMcu := rfl
@[simp] theorem beginMcu_cursor (s : State) : (beginMcu s).cursor = s.cursor := rfl
@[simp] theorem beginMcu_errKind (s : State) : (beginMcu s).errKind = s.errKind := rfl
@[simp] theorem beginMcu_strict (s : State) : (beginMcu s).strict = s.strict := rfl
@[simp] theorem beginMcu_frame (s : State) : (beginMcu s).frame = s.frame := rfl
@[simp] theorem beginMcu_ch (s : State) : (beginMcu s).ch = s.ch := rfl
@[simp] theorem beginMcu_planes (s : State) : (beginMcu s).planes = s.planes := rfl
@[simp] theorem beginMcu_qt (s : State) : (beginMcu s).qt = s.qt := rfl
@[simp] theorem beginMcu_qtLoaded (s : State) : (beginMcu s).qtLoaded = s.qtLoaded := rfl
@[simp] theorem beginMcu_ht (s : State) : (beginMcu s).ht = s.ht := rfl
@[simp] theorem beginMcu_ri (s : State) : (beginMcu s).ri = s.ri := rfl
@[simp] theorem beginMcu_scan (s : State) : (beginMcu s).scan = { s.scan with chan := 0, sby := 0, sbx := 0, step := .dc } := rfl
@[simp] theorem beginMcu_reader (s : State) : (beginMcu s).reader = s.reader := rfl
@[simp] theorem beginMcu_blk (s : State) : (beginMcu s).blk = Oct.fill (Oct.fill 0) := rfl
@[simp] theorem beginMcu_k (s : State) : (beginMcu s).k = 0 := rfl
@[simp] theorem beginMcu_live (s : State) : (beginMcu s).live = s.live := rfl
@[simp] theorem beginMcu_fin (s : State) : (beginMcu s).fin = s.fin := rfl
@[simp] theorem beginMcu_inMem (s : State) : (beginMcu s).inMem = s.inMem := rfl
@[simp] theorem beginMcu_outMem (s : State) : (beginMcu s).outMem = s.outMem := rfl
@[simp] theorem beginMcu_host (s : State) : (beginMcu s).host = s.host := rfl
@[simp] theorem beginMcu_readData (s : State) : (beginMcu s).readData = s.readData := rfl
@[simp] theorem beginMcu_draws (s : State) : (beginMcu s).draws = s.draws := rfl
@[simp] theorem beginMcu_spoiled (s : State) : (beginMcu s).spoiled = s.spoiled := rfl
@[simp] theorem beginMcu_busyWrites (s : State) : (beginMcu s).busyWrites = s.busyWrites := rfl

/-! ### startScan -/

@[simp] theorem startScan_params (a : Nat) (s : State) : (startScan a s).params = s.params := rfl
@[simp] theorem startScan_ctrl (a : Nat) (s : State) : (startScan a s).ctrl = s.ctrl := rfl
@[simp] theorem startScan_status (a : Nat) (s : State) : (startScan a s).status = s.status := rfl
@[simp] theorem startScan_errcode (a : Nat) (s : State) : (startScan a s).errcode = s.errcode := rfl
@[simp] theorem startScan_inLen (a : Nat) (s : State) : (startScan a s).inLen = s.inLen := rfl
@[simp] theorem startScan_width (a : Nat) (s : State) : (startScan a s).width = s.width := rfl
@[simp] theorem startScan_height (a : Nat) (s : State) : (startScan a s).height = s.height := rfl
@[simp] theorem startScan_ncomp (a : Nat) (s : State) : (startScan a s).ncomp = s.ncomp := rfl
@[simp] theorem startScan_outLen (a : Nat) (s : State) : (startScan a s).outLen = s.outLen := rfl
@[simp] theorem startScan_rstEvents (a : Nat) (s : State) : (startScan a s).rstEvents = s.rstEvents := rfl
@[simp] theorem startScan_len (a : Nat) (s : State) : (startScan a s).len = s.len := rfl
@[simp] theorem startScan_phase (a : Nat) (s : State) : (startScan a s).phase = .decodingMcu := rfl
@[simp] theorem startScan_cursor (a : Nat) (s : State) : (startScan a s).cursor = s.cursor := rfl
@[simp] theorem startScan_errKind (a : Nat) (s : State) : (startScan a s).errKind = s.errKind := rfl
@[simp] theorem startScan_strict (a : Nat) (s : State) : (startScan a s).strict = s.strict := rfl
@[simp] theorem startScan_frame (a : Nat) (s : State) : (startScan a s).frame = s.frame := rfl
@[simp] theorem startScan_ch (a : Nat) (s : State) : (startScan a s).ch = s.ch.mapBelow s.frame.channels fun _ r => { r with pred := 0 } := rfl
@[simp] theorem startScan_planes (a : Nat) (s : State) : (startScan a s).planes = s.planes := rfl
@[simp] theorem startScan_qt (a : Nat) (s : State) : (startScan a s).qt = s.qt := rfl
@[simp] theorem startScan_qtLoaded (a : Nat) (s : State) : (startScan a s).qtLoaded = s.qtLoaded := rfl
@[simp] theorem startScan_ht (a : Nat) (s : State) : (startScan a s).ht = s.ht := rfl
@[simp] theorem startScan_ri (a : Nat) (s : State) : (startScan a s).ri = s.ri := rfl
@[simp] theorem startScan_scan (a : Nat) (s : State) : (startScan a s).scan = { mbx := 0, mby := 0, countdown := s.ri, nextRst := 0, chan := 0, sby := 0, sbx := 0, step := .dc } := rfl
@[simp] theorem startScan_reader (a : Nat) (s : State) : (startScan a s).reader = readerStart a := rfl
@[simp] theorem startScan_blk (a : Nat) (s : State) : (startScan a s).blk = Oct.fill (Oct.fill 0) := rfl
@[simp] theorem startScan_k (a : Nat) (s : State) : (startScan a s).k = 0 := rfl
@[simp] theorem startScan_live (a : Nat) (s : State) : (startScan a s).live = s.live := rfl
@[simp] theorem startScan_fin (a : Nat) (s : State) : (startScan a s).fin = s.fin := rfl
@[simp] theorem startScan_inMem (a : Nat) (s : State) : (startScan a s).inMem = s.inMem := rfl
@[simp] theorem startScan_outMem (a : Nat) (s : State) : (startScan a s).outMem = s.outMem := rfl
@[simp] theorem startScan_host (a : Nat) (s : State) : (startScan a s).host = s.host := rfl
@[simp] theorem startScan_readData (a : Nat) (s : State) : (startScan a s).readData = s.readData := rfl
@[simp] theorem startScan_draws (a : Nat) (s : State) : (startScan a s).draws = s.draws := rfl
@[simp] theorem startScan_spoiled (a : Nat) (s : State) : (startScan a s).spoiled = s.spoiled := rfl
@[simp] theorem startScan_busyWrites (a : Nat) (s : State) : (startScan a s).busyWrites = s.busyWrites := rfl

/-! ### startFinish -/

@[simp] theorem startFinish_params (s : State) : (startFinish s).params = s.params := rfl
@[simp] theorem startFinish_ctrl (s : State) : (startFinish s).ctrl = s.ctrl := rfl
@[simp] theorem startFinish_status (s : State) : (startFinish s).status = s.status := rfl
@[simp] theorem startFinish_errcode (s : State) : (startFinish s).errcode = s.errcode := rfl
@[simp] theorem startFinish_inLen (s : State) : (startFinish s).inLen = s.inLen := rfl
@[simp] theorem startFinish_width (s : State) : (startFinish s).width = s.width := rfl
@[simp] theorem startFinish_height (s : State) : (startFinish s).height = s.height := rfl
@[simp] theorem startFinish_ncomp (s : State) : (startFinish s).ncomp = s.ncomp := rfl
@[simp] theorem startFinish_outLen (s : State) : (startFinish s).outLen = s.outLen := rfl
@[simp] theorem startFinish_rstEvents (s : State) : (startFinish s).rstEvents = s.rstEvents := rfl
@[simp] theorem startFinish_len (s : State) : (startFinish s).len = s.len := rfl
@[simp] theorem startFinish_phase (s : State) : (startFinish s).phase = .finishing := rfl
@[simp] theorem startFinish_cursor (s : State) : (startFinish s).cursor = s.cursor := rfl
@[simp] theorem startFinish_errKind (s : State) : (startFinish s).errKind = s.errKind := rfl
@[simp] theorem startFinish_strict (s : State) : (startFinish s).strict = s.strict := rfl
@[simp] theorem startFinish_frame (s : State) : (startFinish s).frame = s.frame := rfl
@[simp] theorem startFinish_ch (s : State) : (startFinish s).ch = s.ch := rfl
@[simp] theorem startFinish_planes (s : State) : (startFinish s).planes = s.planes := rfl
@[simp] theorem startFinish_qt (s : State) : (startFinish s).qt = s.qt := rfl
@[simp] theorem startFinish_qtLoaded (s : State) : (startFinish s).qtLoaded = s.qtLoaded := rfl
@[simp] theorem startFinish_ht (s : State) : (startFinish s).ht = s.ht := rfl
@[simp] theorem startFinish_ri (s : State) : (startFinish s).ri = s.ri := rfl
@[simp] theorem startFinish_scan (s : State) : (startFinish s).scan = s.scan := rfl
@[simp] theorem startFinish_reader (s : State) : (startFinish s).reader = s.reader := rfl
@[simp] theorem startFinish_blk (s : State) : (startFinish s).blk = s.blk := rfl
@[simp] theorem startFinish_k (s : State) : (startFinish s).k = s.k := rfl
@[simp] theorem startFinish_live (s : State) : (startFinish s).live = planeBytes s := rfl
@[simp] theorem startFinish_fin (s : State) : (startFinish s).fin = .upsample 0 := rfl
@[simp] theorem startFinish_inMem (s : State) : (startFinish s).inMem = s.inMem := rfl
@[simp] theorem startFinish_outMem (s : State) : (startFinish s).outMem = s.outMem := rfl
@[simp] theorem startFinish_host (s : State) : (startFinish s).host = s.host := rfl
@[simp] theorem startFinish_readData (s : State) : (startFinish s).readData = s.readData := rfl
@[simp] theorem startFinish_draws (s : State) : (startFinish s).draws = s.draws := rfl
@[simp] theorem startFinish_spoiled (s : State) : (startFinish s).spoiled = s.spoiled := rfl
@[simp] theorem startFinish_busyWrites (s : State) : (startFinish s).busyWrites = s.busyWrites := rfl

/-! ### idctBlock -/

@[simp] theorem idctBlock_params (c : Fin 3) (r0 x0 : Nat) (s : State) : (idctBlock c r0 x0 s).params = s.params := rfl
@[simp] theorem idctBlock_ctrl (c : Fin 3) (r0 x0 : Nat) (s : State) : (idctBlock c r0 x0 s).ctrl = s.ctrl := rfl
@[simp] theorem idctBlock_status (c : Fin 3) (r0 x0 : Nat) (s : State) : (idctBlock c r0 x0 s).status = s.status := rfl
@[simp] theorem idctBlock_errcode (c : Fin 3) (r0 x0 : Nat) (s : State) : (idctBlock c r0 x0 s).errcode = s.errcode := rfl
@[simp] theorem idctBlock_inLen (c : Fin 3) (r0 x0 : Nat) (s : State) : (idctBlock c r0 x0 s).inLen = s.inLen := rfl
@[simp] theorem idctBlock_width (c : Fin 3) (r0 x0 : Nat) (s : State) : (idctBlock c r0 x0 s).width = s.width := rfl
@[simp] theorem idctBlock_height (c : Fin 3) (r0 x0 : Nat) (s : State) : (idctBlock c r0 x0 s).height = s.height := rfl
@[simp] theorem idctBlock_ncomp (c : Fin 3) (r0 x0 : Nat) (s : State) : (idctBlock c r0 x0 s).ncomp = s.ncomp := rfl
@[simp] theorem idctBlock_outLen (c : Fin 3) (r0 x0 : Nat) (s : State) : (idctBlock c r0 x0 s).outLen = s.outLen := rfl
@[simp] theorem idctBlock_rstEvents (c : Fin 3) (r0 x0 : Nat) (s : State) : (idctBlock c r0 x0 s).rstEvents = s.rstEvents := rfl
@[simp] theorem idctBlock_len (c : Fin 3) (r0 x0 : Nat) (s : State) : (idctBlock c r0 x0 s).len = s.len := rfl
@[simp] theorem idctBlock_phase (c : Fin 3) (r0 x0 : Nat) (s : State) : (idctBlock c r0 x0 s).phase = s.phase := rfl
@[simp] theorem idctBlock_cursor (c : Fin 3) (r0 x0 : Nat) (s : State) : (idctBlock c r0 x0 s).cursor = s.cursor := rfl
@[simp] theorem idctBlock_errKind (c : Fin 3) (r0 x0 : Nat) (s : State) : (idctBlock c r0 x0 s).errKind = s.errKind := rfl
@[simp] theorem idctBlock_strict (c : Fin 3) (r0 x0 : Nat) (s : State) : (idctBlock c r0 x0 s).strict = s.strict := rfl
@[simp] theorem idctBlock_frame (c : Fin 3) (r0 x0 : Nat) (s : State) : (idctBlock c r0 x0 s).frame = s.frame := rfl
@[simp] theorem idctBlock_ch (c : Fin 3) (r0 x0 : Nat) (s : State) : (idctBlock c r0 x0 s).ch = s.ch := rfl
@[simp] theorem idctBlock_qt (c : Fin 3) (r0 x0 : Nat) (s : State) : (idctBlock c r0 x0 s).qt = s.qt := rfl
@[simp] theorem idctBlock_qtLoaded (c : Fin 3) (r0 x0 : Nat) (s : State) : (idctBlock c r0 x0 s).qtLoaded = s.qtLoaded := rfl
@[simp] theorem idctBlock_ht (c : Fin 3) (r0 x0 : Nat) (s : State) : (idctBlock c r0 x0 s).ht = s.ht := rfl
@[simp] theorem idctBlock_ri (c : Fin 3) (r0 x0 : Nat) (s : State) : (idctBlock c r0 x0 s).ri = s.ri := rfl
@[simp] theorem idctBlock_scan (c : Fin 3) (r0 x0 : Nat) (s : State) : (idctBlock c r0 x0 s).scan = s.scan := rfl
@[simp] theorem idctBlock_reader (c : Fin 3) (r0 x0 : Nat) (s : State) : (idctBlock c r0 x0 s).reader = s.reader := rfl
@[simp] theorem idctBlock_blk (c : Fin 3) (r0 x0 : Nat) (s : State) : (idctBlock c r0 x0 s).blk = rowPasses s.params.kernel s.blk := rfl
@[simp] theorem idctBlock_k (c : Fin 3) (r0 x0 : Nat) (s : State) : (idctBlock c r0 x0 s).k = s.k := rfl
@[simp] theorem idctBlock_live (c : Fin 3) (r0 x0 : Nat) (s : State) : (idctBlock c r0 x0 s).live = s.live := rfl
@[simp] theorem idctBlock_fin (c : Fin 3) (r0 x0 : Nat) (s : State) : (idctBlock c r0 x0 s).fin = s.fin := rfl
@[simp] theorem idctBlock_inMem (c : Fin 3) (r0 x0 : Nat) (s : State) : (idctBlock c r0 x0 s).inMem = s.inMem := rfl
@[simp] theorem idctBlock_outMem (c : Fin 3) (r0 x0 : Nat) (s : State) : (idctBlock c r0 x0 s).outMem = s.outMem := rfl
@[simp] theorem idctBlock_host (c : Fin 3) (r0 x0 : Nat) (s : State) : (idctBlock c r0 x0 s).host = s.host := rfl
@[simp] theorem idctBlock_readData (c : Fin 3) (r0 x0 : Nat) (s : State) : (idctBlock c r0 x0 s).readData = s.readData := rfl
@[simp] theorem idctBlock_draws (c : Fin 3) (r0 x0 : Nat) (s : State) : (idctBlock c r0 x0 s).draws = s.draws := rfl
@[simp] theorem idctBlock_spoiled (c : Fin 3) (r0 x0 : Nat) (s : State) : (idctBlock c r0 x0 s).spoiled = s.spoiled := rfl
@[simp] theorem idctBlock_busyWrites (c : Fin 3) (r0 x0 : Nat) (s : State) : (idctBlock c r0 x0 s).busyWrites = s.busyWrites := rfl

/-! ### replacePlane -/

@[simp] theorem replacePlane_params (s : State) (c : Fin 3) : (replacePlane s c).params = s.params := rfl
@[simp] theorem replacePlane_ctrl (s : State) (c : Fin 3) : (replacePlane s c).ctrl = s.ctrl := rfl
@[simp] theorem replacePlane_status (s : State) (c : Fin 3) : (replacePlane s c).status = s.status := rfl
@[simp] theorem replacePlane_errcode (s : State) (c : Fin 3) : (replacePlane s c).errcode = s.errcode := rfl
@[simp] theorem replacePlane_inLen (s : State) (c : Fin 3) : (replacePlane s c).inLen = s.inLen := rfl
@[simp] theorem replacePlane_width (s : State) (c : Fin 3) : (replacePlane s c).width = s.width := rfl
@[simp] theorem replacePlane_height (s : State) (c : Fin 3) : (replacePlane s c).height = s.height := rfl
@[simp] theorem replacePlane_ncomp (s : State) (c : Fin 3) : (replacePlane s c).ncomp = s.ncomp := rfl
@[simp] theorem replacePlane_outLen (s : State) (c : Fin 3) : (replacePlane s c).outLen = s.outLen := rfl
@[simp] theorem replacePlane_rstEvents (s : State) (c : Fin 3) : (replacePlane s c).rstEvents = s.rstEvents := rfl
@[simp] theorem replacePlane_len (s : State) (c : Fin 3) : (replacePlane s c).len = s.len := rfl
@[simp] theorem replacePlane_phase (s : State) (c : Fin 3) : (replacePlane s c).phase = s.phase := rfl
@[simp] theorem replacePlane_cursor (s : State) (c : Fin 3) : (replacePlane s c).cursor = s.cursor := rfl
@[simp] theorem replacePlane_errKind (s : State) (c : Fin 3) : (replacePlane s c).errKind = s.errKind := rfl
@[simp] theorem replacePlane_strict (s : State) (c : Fin 3) : (replacePlane s c).strict = s.strict := rfl
@[simp] theorem replacePlane_frame (s : State) (c : Fin 3) : (replacePlane s c).frame = s.frame := rfl
@[simp] theorem replacePlane_qt (s : State) (c : Fin 3) : (replacePlane s c).qt = s.qt := rfl
@[simp] theorem replacePlane_qtLoaded (s : State) (c : Fin 3) : (replacePlane s c).qtLoaded = s.qtLoaded := rfl
@[simp] theorem replacePlane_ht (s : State) (c : Fin 3) : (replacePlane s c).ht = s.ht := rfl
@[simp] theorem replacePlane_ri (s : State) (c : Fin 3) : (replacePlane s c).ri = s.ri := rfl
@[simp] theorem replacePlane_scan (s : State) (c : Fin 3) : (replacePlane s c).scan = s.scan := rfl
@[simp] theorem replacePlane_reader (s : State) (c : Fin 3) : (replacePlane s c).reader = s.reader := rfl
@[simp] theorem replacePlane_blk (s : State) (c : Fin 3) : (replacePlane s c).blk = s.blk := rfl
@[simp] theorem replacePlane_k (s : State) (c : Fin 3) : (replacePlane s c).k = s.k := rfl
@[simp] theorem replacePlane_fin (s : State) (c : Fin 3) : (replacePlane s c).fin = s.fin := rfl
@[simp] theorem replacePlane_inMem (s : State) (c : Fin 3) : (replacePlane s c).inMem = s.inMem := rfl
@[simp] theorem replacePlane_outMem (s : State) (c : Fin 3) : (replacePlane s c).outMem = s.outMem := rfl
@[simp] theorem replacePlane_host (s : State) (c : Fin 3) : (replacePlane s c).host = s.host := rfl
@[simp] theorem replacePlane_readData (s : State) (c : Fin 3) : (replacePlane s c).readData = s.readData := rfl
@[simp] theorem replacePlane_draws (s : State) (c : Fin 3) : (replacePlane s c).draws = s.draws := rfl
@[simp] theorem replacePlane_spoiled (s : State) (c : Fin 3) : (replacePlane s c).spoiled = s.spoiled := rfl
@[simp] theorem replacePlane_busyWrites (s : State) (c : Fin 3) : (replacePlane s c).busyWrites = s.busyWrites := rfl

/-! ### writeOutput -/

@[simp] theorem writeOutput_params (s : State) : (writeOutput s).params = s.params := rfl
@[simp] theorem writeOutput_ctrl (s : State) : (writeOutput s).ctrl = s.ctrl := rfl
@[simp] theorem writeOutput_status (s : State) : (writeOutput s).status = s.status := rfl
@[simp] theorem writeOutput_errcode (s : State) : (writeOutput s).errcode = s.errcode := rfl
@[simp] theorem writeOutput_inLen (s : State) : (writeOutput s).inLen = s.inLen := rfl
@[simp] theorem writeOutput_width (s : State) : (writeOutput s).width = s.width := rfl
@[simp] theorem writeOutput_height (s : State) : (writeOutput s).height = s.height := rfl
@[simp] theorem writeOutput_ncomp (s : State) : (writeOutput s).ncomp = s.ncomp := rfl
@[simp] theorem writeOutput_outLen (s : State) : (writeOutput s).outLen = s.outLen := rfl
@[simp] theorem writeOutput_rstEvents (s : State) : (writeOutput s).rstEvents = s.rstEvents := rfl
@[simp] theorem writeOutput_len (s : State) : (writeOutput s).len = s.len := rfl
@[simp] theorem writeOutput_phase (s : State) : (writeOutput s).phase = s.phase := rfl
@[simp] theorem writeOutput_cursor (s : State) : (writeOutput s).cursor = s.cursor := rfl
@[simp] theorem writeOutput_errKind (s : State) : (writeOutput s).errKind = s.errKind := rfl
@[simp] theorem writeOutput_strict (s : State) : (writeOutput s).strict = s.strict := rfl
@[simp] theorem writeOutput_frame (s : State) : (writeOutput s).frame = s.frame := rfl
@[simp] theorem writeOutput_ch (s : State) : (writeOutput s).ch = s.ch := rfl
@[simp] theorem writeOutput_planes (s : State) : (writeOutput s).planes = s.planes := rfl
@[simp] theorem writeOutput_qt (s : State) : (writeOutput s).qt = s.qt := rfl
@[simp] theorem writeOutput_qtLoaded (s : State) : (writeOutput s).qtLoaded = s.qtLoaded := rfl
@[simp] theorem writeOutput_ht (s : State) : (writeOutput s).ht = s.ht := rfl
@[simp] theorem writeOutput_ri (s : State) : (writeOutput s).ri = s.ri := rfl
@[simp] theorem writeOutput_scan (s : State) : (writeOutput s).scan = s.scan := rfl
@[simp] theorem writeOutput_reader (s : State) : (writeOutput s).reader = s.reader := rfl
@[simp] theorem writeOutput_blk (s : State) : (writeOutput s).blk = s.blk := rfl
@[simp] theorem writeOutput_k (s : State) : (writeOutput s).k = s.k := rfl
@[simp] theorem writeOutput_live (s : State) : (writeOutput s).live = s.live := rfl
@[simp] theorem writeOutput_fin (s : State) : (writeOutput s).fin = .complete := rfl
@[simp] theorem writeOutput_inMem (s : State) : (writeOutput s).inMem = s.inMem := rfl
@[simp] theorem writeOutput_host (s : State) : (writeOutput s).host = s.host := rfl
@[simp] theorem writeOutput_readData (s : State) : (writeOutput s).readData = s.readData := rfl
@[simp] theorem writeOutput_draws (s : State) : (writeOutput s).draws = s.draws := rfl
@[simp] theorem writeOutput_spoiled (s : State) : (writeOutput s).spoiled = s.spoiled := rfl
@[simp] theorem writeOutput_busyWrites (s : State) : (writeOutput s).busyWrites = s.busyWrites := rfl

/-! ### geometry -/

@[simp] theorem geometry_params (w h nc : Nat) (s : State) : (geometry w h nc s).params = s.params := rfl
@[simp] theorem geometry_ctrl (w h nc : Nat) (s : State) : (geometry w h nc s).ctrl = s.ctrl := rfl
@[simp] theorem geometry_status (w h nc : Nat) (s : State) : (geometry w h nc s).status = s.status := rfl
@[simp] theorem geometry_errcode (w h nc : Nat) (s : State) : (geometry w h nc s).errcode = s.errcode := rfl
@[simp] theorem geometry_inLen (w h nc : Nat) (s : State) : (geometry w h nc s).inLen = s.inLen := rfl
@[simp] theorem geometry_width (w h nc : Nat) (s : State) : (geometry w h nc s).width = s.width := rfl
@[simp] theorem geometry_height (w h nc : Nat) (s : State) : (geometry w h nc s).height = s.height := rfl
@[simp] theorem geometry_ncomp (w h nc : Nat) (s : State) : (geometry w h nc s).ncomp = s.ncomp := rfl
@[simp] theorem geometry_outLen (w h nc : Nat) (s : State) : (geometry w h nc s).outLen = s.outLen := rfl
@[simp] theorem geometry_rstEvents (w h nc : Nat) (s : State) : (geometry w h nc s).rstEvents = s.rstEvents := rfl
@[simp] theorem geometry_len (w h nc : Nat) (s : State) : (geometry w h nc s).len = s.len := rfl
@[simp] theorem geometry_phase (w h nc : Nat) (s : State) : (geometry w h nc s).phase = s.phase := rfl
@[simp] theorem geometry_cursor (w h nc : Nat) (s : State) : (geometry w h nc s).cursor = s.cursor := rfl
@[simp] theorem geometry_errKind (w h nc : Nat) (s : State) : (geometry w h nc s).errKind = s.errKind := rfl
@[simp] theorem geometry_strict (w h nc : Nat) (s : State) : (geometry w h nc s).strict = s.strict := rfl
@[simp] theorem geometry_planes (w h nc : Nat) (s : State) : (geometry w h nc s).planes = s.planes := rfl
@[simp] theorem geometry_qt (w h nc : Nat) (s : State) : (geometry w h nc s).qt = s.qt := rfl
@[simp] theorem geometry_qtLoaded (w h nc : Nat) (s : State) : (geometry w h nc s).qtLoaded = s.qtLoaded := rfl
@[simp] theorem geometry_ht (w h nc : Nat) (s : State) : (geometry w h nc s).ht = s.ht := rfl
@[simp] theorem geometry_ri (w h nc : Nat) (s : State) : (geometry w h nc s).ri = s.ri := rfl
@[simp] theorem geometry_scan (w h nc : Nat) (s : State) : (geometry w h nc s).scan = s.scan := rfl
@[simp] theorem geometry_reader (w h nc : Nat) (s : State) : (geometry w h nc s).reader = s.reader := rfl
@[simp] theorem geometry_blk (w h nc : Nat) (s : State) : (geometry w h nc s).blk = s.blk := rfl
@[simp] theorem geometry_k (w h nc : Nat) (s : State) : (geometry w h nc s).k = s.k := rfl
@[simp] theorem geometry_live (w h nc : Nat) (s : State) : (geometry w h nc s).live = s.live := rfl
@[simp] theorem geometry_fin (w h nc : Nat) (s : State) : (geometry w h nc s).fin = s.fin := rfl
@[simp] theorem geometry_inMem (w h nc : Nat) (s : State) : (geometry w h nc s).inMem = s.inMem := rfl
@[simp] theorem geometry_outMem (w h nc : Nat) (s : State) : (geometry w h nc s).outMem = s.outMem := rfl
@[simp] theorem geometry_host (w h nc : Nat) (s : State) : (geometry w h nc s).host = s.host := rfl
@[simp] theorem geometry_readData (w h nc : Nat) (s : State) : (geometry w h nc s).readData = s.readData := rfl
@[simp] theorem geometry_draws (w h nc : Nat) (s : State) : (geometry w h nc s).draws = s.draws := rfl
@[simp] theorem geometry_spoiled (w h nc : Nat) (s : State) : (geometry w h nc s).spoiled = s.spoiled := rfl
@[simp] theorem geometry_busyWrites (w h nc : Nat) (s : State) : (geometry w h nc s).busyWrites = s.busyWrites := rfl

/-! ### allocatePlanes -/

@[simp] theorem allocatePlanes_params (nc : Nat) (s : State) : (allocatePlanes nc s).params = s.params := rfl
@[simp] theorem allocatePlanes_ctrl (nc : Nat) (s : State) : (allocatePlanes nc s).ctrl = s.ctrl := rfl
@[simp] theorem allocatePlanes_status (nc : Nat) (s : State) : (allocatePlanes nc s).status = s.status := rfl
@[simp] theorem allocatePlanes_errcode (nc : Nat) (s : State) : (allocatePlanes nc s).errcode = s.errcode := rfl
@[simp] theorem allocatePlanes_inLen (nc : Nat) (s : State) : (allocatePlanes nc s).inLen = s.inLen := rfl
@[simp] theorem allocatePlanes_width (nc : Nat) (s : State) : (allocatePlanes nc s).width = s.width := rfl
@[simp] theorem allocatePlanes_height (nc : Nat) (s : State) : (allocatePlanes nc s).height = s.height := rfl
@[simp] theorem allocatePlanes_ncomp (nc : Nat) (s : State) : (allocatePlanes nc s).ncomp = s.ncomp := rfl
@[simp] theorem allocatePlanes_outLen (nc : Nat) (s : State) : (allocatePlanes nc s).outLen = s.outLen := rfl
@[simp] theorem allocatePlanes_rstEvents (nc : Nat) (s : State) : (allocatePlanes nc s).rstEvents = s.rstEvents := rfl
@[simp] theorem allocatePlanes_len (nc : Nat) (s : State) : (allocatePlanes nc s).len = s.len := rfl
@[simp] theorem allocatePlanes_phase (nc : Nat) (s : State) : (allocatePlanes nc s).phase = s.phase := rfl
@[simp] theorem allocatePlanes_cursor (nc : Nat) (s : State) : (allocatePlanes nc s).cursor = s.cursor := rfl
@[simp] theorem allocatePlanes_errKind (nc : Nat) (s : State) : (allocatePlanes nc s).errKind = s.errKind := rfl
@[simp] theorem allocatePlanes_strict (nc : Nat) (s : State) : (allocatePlanes nc s).strict = s.strict := rfl
@[simp] theorem allocatePlanes_frame (nc : Nat) (s : State) : (allocatePlanes nc s).frame = s.frame := rfl
@[simp] theorem allocatePlanes_ch (nc : Nat) (s : State) : (allocatePlanes nc s).ch = s.ch := rfl
@[simp] theorem allocatePlanes_qt (nc : Nat) (s : State) : (allocatePlanes nc s).qt = s.qt := rfl
@[simp] theorem allocatePlanes_qtLoaded (nc : Nat) (s : State) : (allocatePlanes nc s).qtLoaded = s.qtLoaded := rfl
@[simp] theorem allocatePlanes_ht (nc : Nat) (s : State) : (allocatePlanes nc s).ht = s.ht := rfl
@[simp] theorem allocatePlanes_ri (nc : Nat) (s : State) : (allocatePlanes nc s).ri = s.ri := rfl
@[simp] theorem allocatePlanes_scan (nc : Nat) (s : State) : (allocatePlanes nc s).scan = s.scan := rfl
@[simp] theorem allocatePlanes_reader (nc : Nat) (s : State) : (allocatePlanes nc s).reader = s.reader := rfl
@[simp] theorem allocatePlanes_blk (nc : Nat) (s : State) : (allocatePlanes nc s).blk = s.blk := rfl
@[simp] theorem allocatePlanes_k (nc : Nat) (s : State) : (allocatePlanes nc s).k = s.k := rfl
@[simp] theorem allocatePlanes_live (nc : Nat) (s : State) : (allocatePlanes nc s).live = s.live := rfl
@[simp] theorem allocatePlanes_fin (nc : Nat) (s : State) : (allocatePlanes nc s).fin = s.fin := rfl
@[simp] theorem allocatePlanes_inMem (nc : Nat) (s : State) : (allocatePlanes nc s).inMem = s.inMem := rfl
@[simp] theorem allocatePlanes_outMem (nc : Nat) (s : State) : (allocatePlanes nc s).outMem = s.outMem := rfl
@[simp] theorem allocatePlanes_host (nc : Nat) (s : State) : (allocatePlanes nc s).host = s.host := rfl
@[simp] theorem allocatePlanes_readData (nc : Nat) (s : State) : (allocatePlanes nc s).readData = s.readData := rfl
@[simp] theorem allocatePlanes_spoiled (nc : Nat) (s : State) : (allocatePlanes nc s).spoiled = s.spoiled := rfl
@[simp] theorem allocatePlanes_busyWrites (nc : Nat) (s : State) : (allocatePlanes nc s).busyWrites = s.busyWrites := rfl

/-! ### storeDc -/

@[simp] theorem storeDc_params (d : Word) (s : State) : (storeDc d s).params = s.params := rfl
@[simp] theorem storeDc_ctrl (d : Word) (s : State) : (storeDc d s).ctrl = s.ctrl := rfl
@[simp] theorem storeDc_status (d : Word) (s : State) : (storeDc d s).status = s.status := rfl
@[simp] theorem storeDc_errcode (d : Word) (s : State) : (storeDc d s).errcode = s.errcode := rfl
@[simp] theorem storeDc_inLen (d : Word) (s : State) : (storeDc d s).inLen = s.inLen := rfl
@[simp] theorem storeDc_width (d : Word) (s : State) : (storeDc d s).width = s.width := rfl
@[simp] theorem storeDc_height (d : Word) (s : State) : (storeDc d s).height = s.height := rfl
@[simp] theorem storeDc_ncomp (d : Word) (s : State) : (storeDc d s).ncomp = s.ncomp := rfl
@[simp] theorem storeDc_outLen (d : Word) (s : State) : (storeDc d s).outLen = s.outLen := rfl
@[simp] theorem storeDc_rstEvents (d : Word) (s : State) : (storeDc d s).rstEvents = s.rstEvents := rfl
@[simp] theorem storeDc_len (d : Word) (s : State) : (storeDc d s).len = s.len := rfl
@[simp] theorem storeDc_phase (d : Word) (s : State) : (storeDc d s).phase = s.phase := rfl
@[simp] theorem storeDc_cursor (d : Word) (s : State) : (storeDc d s).cursor = s.cursor := rfl
@[simp] theorem storeDc_errKind (d : Word) (s : State) : (storeDc d s).errKind = s.errKind := rfl
@[simp] theorem storeDc_strict (d : Word) (s : State) : (storeDc d s).strict = s.strict := rfl
@[simp] theorem storeDc_frame (d : Word) (s : State) : (storeDc d s).frame = s.frame := rfl
@[simp] theorem storeDc_planes (d : Word) (s : State) : (storeDc d s).planes = s.planes := rfl
@[simp] theorem storeDc_qt (d : Word) (s : State) : (storeDc d s).qt = s.qt := rfl
@[simp] theorem storeDc_qtLoaded (d : Word) (s : State) : (storeDc d s).qtLoaded = s.qtLoaded := rfl
@[simp] theorem storeDc_ht (d : Word) (s : State) : (storeDc d s).ht = s.ht := rfl
@[simp] theorem storeDc_ri (d : Word) (s : State) : (storeDc d s).ri = s.ri := rfl
@[simp] theorem storeDc_scan (d : Word) (s : State) : (storeDc d s).scan = { s.scan with step := .ac } := rfl
@[simp] theorem storeDc_reader (d : Word) (s : State) : (storeDc d s).reader = s.reader := rfl
@[simp] theorem storeDc_k (d : Word) (s : State) : (storeDc d s).k = 0 := rfl
@[simp] theorem storeDc_live (d : Word) (s : State) : (storeDc d s).live = s.live := rfl
@[simp] theorem storeDc_fin (d : Word) (s : State) : (storeDc d s).fin = s.fin := rfl
@[simp] theorem storeDc_inMem (d : Word) (s : State) : (storeDc d s).inMem = s.inMem := rfl
@[simp] theorem storeDc_outMem (d : Word) (s : State) : (storeDc d s).outMem = s.outMem := rfl
@[simp] theorem storeDc_host (d : Word) (s : State) : (storeDc d s).host = s.host := rfl
@[simp] theorem storeDc_readData (d : Word) (s : State) : (storeDc d s).readData = s.readData := rfl
@[simp] theorem storeDc_draws (d : Word) (s : State) : (storeDc d s).draws = s.draws := rfl
@[simp] theorem storeDc_spoiled (d : Word) (s : State) : (storeDc d s).spoiled = s.spoiled := rfl
@[simp] theorem storeDc_busyWrites (d : Word) (s : State) : (storeDc d s).busyWrites = s.busyWrites := rfl

/-! ### endBlock -/

@[simp] theorem endBlock_params (s : State) : (endBlock s).params = s.params := rfl
@[simp] theorem endBlock_ctrl (s : State) : (endBlock s).ctrl = s.ctrl := rfl
@[simp] theorem endBlock_status (s : State) : (endBlock s).status = s.status := rfl
@[simp] theorem endBlock_errcode (s : State) : (endBlock s).errcode = s.errcode := rfl
@[simp] theorem endBlock_inLen (s : State) : (endBlock s).inLen = s.inLen := rfl
@[simp] theorem endBlock_width (s : State) : (endBlock s).width = s.width := rfl
@[simp] theorem endBlock_height (s : State) : (endBlock s).height = s.height := rfl
@[simp] theorem endBlock_ncomp (s : State) : (endBlock s).ncomp = s.ncomp := rfl
@[simp] theorem endBlock_outLen (s : State) : (endBlock s).outLen = s.outLen := rfl
@[simp] theorem endBlock_rstEvents (s : State) : (endBlock s).rstEvents = s.rstEvents := rfl
@[simp] theorem endBlock_len (s : State) : (endBlock s).len = s.len := rfl
@[simp] theorem endBlock_phase (s : State) : (endBlock s).phase = s.phase := rfl
@[simp] theorem endBlock_cursor (s : State) : (endBlock s).cursor = s.cursor := rfl
@[simp] theorem endBlock_errKind (s : State) : (endBlock s).errKind = s.errKind := rfl
@[simp] theorem endBlock_strict (s : State) : (endBlock s).strict = s.strict := rfl
@[simp] theorem endBlock_frame (s : State) : (endBlock s).frame = s.frame := rfl
@[simp] theorem endBlock_ch (s : State) : (endBlock s).ch = s.ch := rfl
@[simp] theorem endBlock_planes (s : State) : (endBlock s).planes = s.planes := rfl
@[simp] theorem endBlock_qt (s : State) : (endBlock s).qt = s.qt := rfl
@[simp] theorem endBlock_qtLoaded (s : State) : (endBlock s).qtLoaded = s.qtLoaded := rfl
@[simp] theorem endBlock_ht (s : State) : (endBlock s).ht = s.ht := rfl
@[simp] theorem endBlock_ri (s : State) : (endBlock s).ri = s.ri := rfl
@[simp] theorem endBlock_scan (s : State) : (endBlock s).scan = { s.scan with step := .idct } := rfl
@[simp] theorem endBlock_reader (s : State) : (endBlock s).reader = s.reader := rfl
@[simp] theorem endBlock_blk (s : State) : (endBlock s).blk = s.blk := rfl
@[simp] theorem endBlock_k (s : State) : (endBlock s).k = s.k := rfl
@[simp] theorem endBlock_live (s : State) : (endBlock s).live = s.live := rfl
@[simp] theorem endBlock_fin (s : State) : (endBlock s).fin = s.fin := rfl
@[simp] theorem endBlock_inMem (s : State) : (endBlock s).inMem = s.inMem := rfl
@[simp] theorem endBlock_outMem (s : State) : (endBlock s).outMem = s.outMem := rfl
@[simp] theorem endBlock_host (s : State) : (endBlock s).host = s.host := rfl
@[simp] theorem endBlock_readData (s : State) : (endBlock s).readData = s.readData := rfl
@[simp] theorem endBlock_draws (s : State) : (endBlock s).draws = s.draws := rfl
@[simp] theorem endBlock_spoiled (s : State) : (endBlock s).spoiled = s.spoiled := rfl
@[simp] theorem endBlock_busyWrites (s : State) : (endBlock s).busyWrites = s.busyWrites := rfl

end Sys2Proof.Machine
end

