-- ==== Sys2Proof/Laws/Memory.lean ====
section
/-! SUPPORT. Every operation on a memory keeps its canonical form, and State.reset's memories have it; what a byte reads after
the host's writes made while BUSY are settled. -/

namespace Sys2Proof.Machine

theorem wf_foldl_writeBytes {α : Type} (f : α → Nat × List Byte) (l : List α) (m : Memory) (h : m.wf = true) :
    (l.foldl (fun m x => m.writeBytes (f x).1 (f x).2) m).wf = true := by
  induction l generalizing m with
  | nil => exact h
  | cons x rest ih => exact ih _ (Memory.wf_writeBytes m _ _ h)

/-- A block's samples (45_idct.md R300). -/
theorem wf_placeBlock (m : Memory) (stride r0 x0 : Nat) (samples : Grid Byte) (h : m.wf = true) :
    (placeBlock m stride r0 x0 samples).wf = true :=
  wf_foldl_writeBytes (fun r => ((r0 + r) * stride + x0, (Oct.get samples (Fin.ofNat 8 r)).toList)) _ m h

/-- The host's writes settled at completion (70_reset_and_hazards.md R445). -/
theorem wf_settleBusyWrites (d n : Nat) (l : List Host.Cell) (m : Memory) (h : m.wf = true) :
    (settleBusyWrites d n l m).wf = true := by
  induction l generalizing m with
  | nil => exact h
  | cons c rest ih =>
    obtain ⟨a, v⟩ := c
    unfold settleBusyWrites
    refine ih _ ?_
    split
    · exact h
    · exact Memory.wf_write m a v h

/-- What a byte reads after the host's writes are settled (R445): where the decode's byte stands, as before; elsewhere the
last byte written there, if any. -/
theorem read_settleBusyWrites (d n a : Nat) (l : List Host.Cell) (m : Memory) :
    (settleBusyWrites d n l m).read a =
      if a < n && !Config.hostWriteWins d a then m.read a
      else ((l.reverse.find? fun c => c.1 == a).map (·.2)).getD (m.read a) := by
  induction l generalizing m with
  | nil => simp [settleBusyWrites]
  | cons c rest ih =>
    obtain ⟨b, v⟩ := c
    rw [settleBusyWrites, ih]
    by_cases hb : b = a
    · subst hb
      by_cases hk : (b < n && !Config.hostWriteWins d b) = true
      · simp [hk]
      · rw [if_neg hk, if_neg hk, if_neg hk, Memory.read_write_same]
        simp only [List.reverse_cons, List.find?_append]
        cases rest.reverse.find? fun c => c.1 == b <;> simp
    · have hm : (if b < n && !Config.hostWriteWins d b then m else m.write b v).read a = m.read a := by
        split
        · rfl
        · exact Memory.read_write_other m v (Ne.symm hb)
      rw [hm]
      simp [List.find?_append, hb]

theorem wf_writeInMem (a : Nat) (bytes : List Byte) (s : State) (h : s.inMem.wf = true) :
    (writeInMem a bytes s).inMem.wf = true := Memory.wf_writeBytes _ _ _ h

theorem wf_writeOutMem (a : Nat) (bytes : List Byte) (s : State) (h : s.outMem.wf = true) :
    (writeOutMem a bytes s).outMem.wf = true := by
  unfold writeOutMem
  split
  · exact h
  · exact Memory.wf_writeBytes _ _ _ h

theorem wf_writeOutput (s : State) (h : s.outMem.wf = true) : (writeOutput s).outMem.wf = true :=
  Memory.wf_writeBytes _ _ _ h

theorem wf_completeOk (s : State) (h : s.outMem.wf = true) : (completeOk s).outMem.wf = true :=
  wf_settleBusyWrites _ _ _ _ h

theorem wf_raiseError (kind : ErrCode) (s : State) : (raiseError kind s).outMem.wf = true := rfl

/-- A plane upsampled (47_upsample_colour.md R364). -/
theorem wf_replacePlane (s : State) (c d : Fin 3) (m : Memory)
    (h : ∀ m', s.planes.get d = some m' → m'.wf = true) (hm : (replacePlane s c).planes.get d = some m) :
    m.wf = true := by
  simp only [replacePlane, Triple.get_set] at hm
  split at hm
  · obtain ⟨m', -, rfl⟩ := Option.map_eq_some_iff.1 hm
    exact (risingCells_iff _).2 (rising_cellsFrom _ _)
  · exact h m hm

/-- A block placed in its plane. -/
theorem wf_idctBlock (s : State) (c d : Fin 3) (r0 x0 : Nat) (m : Memory)
    (h : ∀ e m', s.planes.get e = some m' → m'.wf = true) (hm : (idctBlock c r0 x0 s).planes.get d = some m) :
    m.wf = true := by
  simp only [idctBlock, Triple.get_set] at hm
  split at hm
  · obtain ⟨m', hm', rfl⟩ := Option.map_eq_some_iff.1 hm
    exact wf_placeBlock _ _ _ _ _ (h _ _ hm')
  · exact h d m hm

theorem wf_allocatePlanes (s : State) (nc : Nat) (c : Fin 3) (m : Memory)
    (h : ∀ m', s.planes.get c = some m' → m'.wf = true) (hm : (allocatePlanes nc s).planes.get c = some m) :
    m.wf = true := by
  simp only [allocatePlanes, Triple.get_mapBelow] at hm
  split at hm
  · cases hm; rfl
  · exact h m hm

theorem wf_reset : State.reset.inMem.wf = true ∧ State.reset.outMem.wf = true := ⟨rfl, rfl⟩

end Sys2Proof.Machine
end

