-- ==== Sys2Proof/Laws/PerInstr.lean ====
section
/-! SUPPORT. The width of an instruction's word (30_encoding.md R90), per instruction. -/

namespace Sys2Proof.Laws.WordLength

/-- The bytes of a well-formed instruction's word: four of a command, one of a symbol or of a data byte, two of a marker or of an `FF x` pair. -/
def Statement (i : Instr) : Prop :=
  i.wellFormed = true → (encode i).length =
    match i.format with
    | .cmd32 => 4
    | .framing => 2
    | .marker => 2
    | .ecsByte => if (encode i).head? = some 0xFF#8 then 2 else 1
    | .dcSym8 => 1
    | .acSym8 => 1

theorem load : Statement .load := fun _ => rfl
theorem decode : Statement .decode := fun _ => rfl
theorem flush : Statement .flush := fun _ => rfl
theorem cmdReserved (v : Word) : Statement (.cmdReserved v) := fun _ => rfl
theorem soi : Statement .soi := fun _ => rfl
theorem sof0 : Statement .sof0 := fun _ => rfl
theorem dht : Statement .dht := fun _ => rfl
theorem dqt : Statement .dqt := fun _ => rfl
theorem dri : Statement .dri := fun _ => rfl
theorem sos : Statement .sos := fun _ => rfl
theorem appn (n : BitVec 4) : Statement (.appn n) := fun _ => rfl
theorem com : Statement .com := fun _ => rfl
theorem eoi : Statement .eoi := fun _ => rfl
theorem markerOther (kk : Byte) : Statement (.markerOther kk) := fun _ => rfl
theorem ecsData (b : Byte) : Statement (.ecsData b) := by
  intro h
  have hb : b ≠ 0xFF#8 := by simpa [Instr.wellFormed] using h
  simp [encode, Instr.format, hb]
theorem ecsStuff : Statement .ecsStuff := fun _ => rfl
theorem ecsFill : Statement .ecsFill := fun _ => rfl
theorem ecsEnd : Statement .ecsEnd := fun _ => rfl
theorem ecsRst (n : BitVec 3) : Statement (.ecsRst n) := fun _ => rfl
theorem ecsIllegal (x : Byte) : Statement (.ecsIllegal x) := fun _ => rfl
theorem dcDiff (size ignored : BitVec 4) : Statement (.dcDiff size ignored) := fun _ => rfl
theorem acEob : Statement .acEob := fun _ => rfl
theorem acZrl : Statement .acZrl := fun _ => rfl
theorem acRunVal (run size : BitVec 4) : Statement (.acRunVal run size) := fun _ => rfl
theorem acIllegal (run : BitVec 4) : Statement (.acIllegal run) := fun _ => rfl

end Sys2Proof.Laws.WordLength
end

