-- ==== Sys2Proof/Laws/Reader.lean ====
section
/-! SUPPORT. What the bit reader's operations can do: they change only the reader and RST_EVENTS, and raise only
SyntaxError. -/

namespace Sys2Proof.Machine

/-- `t` differs from `s` in the reader and RST_EVENTS only. -/
def ReaderOnly (s t : State) : Prop := ∃ r e, t = { s with reader := r, rstEvents := e }

theorem ReaderOnly.refl (s : State) : ReaderOnly s s := ⟨s.reader, s.rstEvents, rfl⟩

theorem ReaderOnly.trans {s t u : State} (h : ReaderOnly s t) (h' : ReaderOnly t u) : ReaderOnly s u := by
  obtain ⟨r, e, rfl⟩ := h
  obtain ⟨r', e', rfl⟩ := h'
  exact ⟨r', e', rfl⟩

theorem readerOnly_pushByte (b : Byte) (s : State) : ReaderOnly s (pushByte b s) := ⟨_, s.rstEvents, rfl⟩

theorem readerOnly_skipBits (n : Nat) (s : State) : ReaderOnly s (skipBits n s) := ⟨_, s.rstEvents, rfl⟩

/-- What an operation of the reader can end with. -/
def ReaderResult (s : State) (r : Except Abort State) : Prop :=
  (∃ t, r = .ok t ∧ ReaderOnly s t) ∨ (∃ t, r = .error ⟨.syntaxError, t⟩ ∧ ReaderOnly s t)

/-- The same for an operation that also answers a value. -/
def ReaderValue {α : Type} (s : State) (r : Except Abort (α × State)) : Prop :=
  (∃ v t, r = .ok (v, t) ∧ ReaderOnly s t) ∨ (∃ t, r = .error ⟨.syntaxError, t⟩ ∧ ReaderOnly s t)

theorem ecsEffect_result (f : EcsForm) (s : State) : ReaderResult s (ecsEffect f s) := by
  cases f with
  | data b => exact .inl ⟨_, rfl, readerOnly_pushByte b s⟩
  | stuff => exact .inl ⟨_, rfl, readerOnly_pushByte _ s⟩
  | fill => exact .inl ⟨_, rfl, readerOnly_pushByte _ s⟩
  | endOfImage => exact .inl ⟨_, rfl, _, s.rstEvents, rfl⟩
  | rst n => exact .inl ⟨_, rfl, _, s.rstEvents + 1, rfl⟩
  | illegal x => exact .inr ⟨_, rfl, readerOnly_pushByte _ s⟩

theorem takeForm_result (s : State) : ReaderValue s (takeForm s) := by
  unfold takeForm
  split
  · exact .inr ⟨_, rfl, _, s.rstEvents, rfl⟩
  · exact .inl ⟨_, _, rfl, _, s.rstEvents, rfl⟩

theorem fetchByte_result (s : State) : ReaderResult s (fetchByte s) := by
  unfold fetchByte
  split
  · exact .inl ⟨_, rfl, readerOnly_pushByte _ s⟩
  · rcases takeForm_result s with ⟨f, t, ht, hst⟩ | ⟨t, ht, hst⟩
    · rcases ecsEffect_result f t with ⟨u, hu, htu⟩ | ⟨u, hu, htu⟩
      · exact .inl ⟨u, by simp [ht, hu, bind, Except.bind], hst.trans htu⟩
      · exact .inr ⟨u, by simp [ht, hu, bind, Except.bind], hst.trans htu⟩
    · exact .inr ⟨t, by simp [ht, bind, Except.bind], hst⟩

theorem fillBits_result (fuel k : Nat) (s : State) : ReaderResult s (fillBits fuel k s) := by
  induction fuel generalizing s with
  | zero => exact .inl ⟨s, rfl, .refl s⟩
  | succ fuel ih =>
    unfold fillBits
    split
    · rcases fetchByte_result s with ⟨t, ht, hst⟩ | ⟨t, ht, hst⟩
      · rcases ih t with ⟨u, hu, htu⟩ | ⟨u, hu, htu⟩
        · exact .inl ⟨u, by simp [ht, hu, bind, Except.bind], hst.trans htu⟩
        · exact .inr ⟨u, by simp [ht, hu, bind, Except.bind], hst.trans htu⟩
      · exact .inr ⟨t, by simp [ht, bind, Except.bind], hst⟩
    · exact .inl ⟨s, rfl, .refl s⟩

theorem showBits_result (k : Nat) (s : State) : ReaderValue s (showBits k s) := by
  unfold showBits
  rcases fillBits_result k k s with ⟨t, ht, hst⟩ | ⟨t, ht, hst⟩
  · exact .inl ⟨_, t, by simp [ht, bind, Except.bind]; rfl, hst⟩
  · exact .inr ⟨t, by simp [ht, bind, Except.bind], hst⟩

theorem getBits_result (k : Nat) (s : State) : ReaderValue s (getBits k s) := by
  unfold getBits
  rcases showBits_result k s with ⟨v, t, ht, hst⟩ | ⟨t, ht, hst⟩
  · exact .inl ⟨v, skipBits k t, by simp [ht, bind, Except.bind], hst.trans (readerOnly_skipBits k t)⟩
  · exact .inr ⟨t, by simp [ht, bind, Except.bind], hst⟩

theorem receiveExtend_result (size : Nat) (s : State) : ReaderValue s (receiveExtend size s) := by
  unfold receiveExtend
  split
  · exact .inl ⟨0, s, rfl, .refl s⟩
  · rcases getBits_result size s with ⟨v, t, ht, hst⟩ | ⟨t, ht, hst⟩
    · exact .inl ⟨_, t, by simp [ht, bind, Except.bind]; rfl, hst⟩
    · exact .inr ⟨t, by simp [ht, bind, Except.bind], hst⟩

/-- Bits already held are read without a fetch. -/
theorem fillBits_of_held {fuel k : Nat} {s : State} (h : k ≤ s.reader.nb) : fillBits fuel k s = .ok s := by
  cases fuel with
  | zero => rfl
  | succ fuel => simp [fillBits, Nat.not_lt.2 h]

theorem showBits_of_held {k : Nat} {s : State} (h : k ≤ s.reader.nb) : showBits k s = .ok (topBits s.reader k, s) := by
  simp [showBits, fillBits_of_held h, bind, Except.bind]

theorem getBits_of_held {k : Nat} {s : State} (h : k ≤ s.reader.nb) :
    getBits k s = .ok (topBits s.reader k, skipBits k s) := by
  simp [getBits, showBits_of_held h, bind, Except.bind]

/-- A fetch that goes on adds eight or sixteen bits. -/
theorem fetchByte_bits {s t : State} (h : fetchByte s = .ok t) :
    t.reader.nb = s.reader.nb + 8 ∨ t.reader.nb = s.reader.nb + 16 := by
  unfold fetchByte at h
  split at h
  · cases h; exact .inl rfl
  · unfold takeForm at h
    split at h
    · simp [bind, Except.bind] at h
    · next f rest _ =>
      cases f <;> simp [bind, Except.bind, ecsEffect, ecsDataEffect, ecsStuffEffect, ecsFillEffect, ecsEndEffect,
        ecsRstEffect, ecsIllegalEffect] at h <;> subst h <;> simp

/-- A refill that goes on ends with the bits asked for. -/
theorem fillBits_bits {fuel k : Nat} {s t : State} (h : fillBits fuel k s = .ok t) (hk : k ≤ s.reader.nb + 8 * fuel) :
    k ≤ t.reader.nb := by
  induction fuel generalizing s with
  | zero => cases h; omega
  | succ fuel ih =>
    unfold fillBits at h
    split at h
    · rcases hf : fetchByte s with e | u
      · simp [hf, bind, Except.bind] at h
      · simp only [hf, bind, Except.bind] at h
        refine ih h ?_
        rcases fetchByte_bits hf with hb | hb <;> omega
    · cases h; omega

end Sys2Proof.Machine
end

