-- ==== Sys2Proof/Laws/Segment.lean ====
section
/-! SUPPORT. What reading a segment and raising an error can do, and how an instruction's meaning ends. -/

namespace Sys2Proof.Machine

/-- The three checks of 41_segment_parser.md R152 on the segment whose length field CURSOR is at. -/
structure SegmentFits (s : State) : Prop where
  room : 2 ≤ s.len - s.cursor
  length : 2 ≤ be16 s s.cursor
  inside : s.cursor + be16 s s.cursor ≤ s.len

/-- A segment read to its end: its payload, and CURSOR past it. -/
theorem readSegment_ok {s t : State} {g : Segment} :
    readSegment s = .ok (g, t) ↔
      SegmentFits s ∧ g = ⟨s.cursor + 2, be16 s s.cursor - 2⟩ ∧ t = { s with cursor := s.cursor + be16 s s.cursor } := by
  unfold readSegment
  split
  · next h => exact ⟨(fun h' => nomatch h'), fun hf => absurd hf.1.room (by omega)⟩
  · split
    · next h => exact ⟨(fun h' => nomatch h'), fun hf => absurd hf.1.length (by omega)⟩
    · split
      · next h => exact ⟨(fun h' => nomatch h'), fun hf => absurd hf.1.inside (by omega)⟩
      · next h1 h2 h3 =>
        constructor
        · intro h'
          cases h'
          exact ⟨⟨by omega, by omega, by omega⟩, rfl, rfl⟩
        · rintro ⟨-, rfl, rfl⟩
          rfl

/-- A segment that does not fit raises SyntaxError and moves nothing. -/
theorem readSegment_error {s : State} (h : ¬ SegmentFits s) : readSegment s = .error ⟨.syntaxError, s⟩ := by
  unfold readSegment
  split
  · rfl
  · split
    · rfl
    · split
      · rfl
      · exact absurd ⟨by omega, by omega, by omega⟩ h

/-- However an operation ends, the step goes on: an error ends the decode, not the machine. -/
theorem settle_next (r : Except Abort State) : ∃ t, settle r = .next t := by
  cases r with
  | ok s => exact ⟨s, rfl⟩
  | error e => exact ⟨_, rfl⟩

@[simp] theorem settle_ok (s : State) : settle (.ok s) = .next s := rfl

@[simp] theorem settle_error (e : Abort) : settle (.error e) = .next (raiseError e.kind e.state) := rfl

/-- `failIf` goes on with the state unchanged, or raises its kind. -/
theorem failIf_eq (b : Bool) (k : ErrCode) (s : State) : failIf b k s = if b then .error ⟨k, s⟩ else .ok s := rfl

end Sys2Proof.Machine
end

