-- ==== Sys2Proof/Laws/Turn.lean ====
section
/-! SUPPORT. What an engine turn can be: which instruction it runs, and from where. -/

namespace Sys2Proof.Machine

theorem fetch_engine {s : State} (h : s.host = []) : fetch s = engineTurn s := by simp [fetch, h]

theorem step_run {s t : State} {i : Instr} (h : fetch s = .run i t) : step s = exec i t := by simp [step, h]

theorem step_done {s : State} {o : Host.Outcome State Fault Refusal} (h : fetch s = .done o) : step s = o := by
  simp [step, h]

/-- A marker turn: two bytes below LEN were read and CURSOR is past them. -/
theorem fetchMarker_run {s t : State} {i : Instr} (h : fetchMarker s = .run i t) :
    t = { s with cursor := s.cursor + 2 } ∧ ∃ rest, decode .marker (inBytes s s.cursor 2) = .ok (i, rest) := by
  unfold fetchMarker at h
  split at h
  · next rest hd => cases h; exact ⟨rfl, rest, hd⟩
  · cases h

/-- A byte-form turn: only RCUR has moved. -/
theorem fetchForm_run {s t : State} {i : Instr} (h : fetchForm s = .run i t) :
    ∃ f, i = f.toInstr ∧ takeForm s = .ok (f, t) ∧ readerAtEnd s = false := by
  unfold fetchForm at h
  split at h
  · cases h
  · next hend =>
    split at h
    · next f u hf => cases h; exact ⟨f, rfl, hf, by simpa using hend⟩
    · cases h

/-- A symbol turn runs a byte form while fewer than 16 bits are held, and otherwise the symbol its slot holds. -/
theorem fetchSymbol_run {f : Format} {slot : Fin 4} {s t : State} {i : Instr} (h : fetchSymbol f slot s = .run i t) :
    (s.reader.nb < 16 ∧ fetchForm s = .run i t) ∨
    (16 ≤ s.reader.nb ∧ ∃ sym rest, huffTake slot s = .ok (sym, t) ∧ decode f [sym] = .ok (i, rest)) := by
  unfold fetchSymbol at h
  split at h
  · next hn => exact .inl ⟨hn, h⟩
  · next hn =>
    split at h
    · next sym u hu =>
      unfold runDecoded at h
      split at h
      · next rest hd => cases h; exact .inr ⟨by omega, sym, rest, hu, hd⟩
      · cases h
    · cases h

/-- The meaning of a byte form is its effect in the bit reader. -/
theorem exec_form (f : EcsForm) (s : State) : exec f.toInstr s = settle (ecsEffect f s) := by cases f <;> rfl

end Sys2Proof.Machine
end

