-- ==== Sys2Proof/Laws/Walk.lean ====
section
/-! SUPPORT. What the walk over blocks and MCUs, the restart step, the table builders and the segment handlers' loops can
change. -/

namespace Sys2Proof.Machine

/-- `t` differs from `s` in the scan position, the block, PHASE and the start of finishing only. -/
def WalkOnly (s t : State) : Prop :=
  ∃ p sc b k l f, t = { s with phase := p, scan := sc, blk := b, k := k, live := l, fin := f }

theorem WalkOnly.refl (s : State) : WalkOnly s s := ⟨s.phase, s.scan, s.blk, s.k, s.live, s.fin, rfl⟩

theorem walkOnly_beginBlock (s : State) (sc : Scan) : WalkOnly s (beginBlock { s with scan := sc }) :=
  ⟨s.phase, _, _, _, s.live, s.fin, rfl⟩

theorem walkOnly_countMcu (s : State) : WalkOnly s (countMcu s) := by
  unfold countMcu
  split
  · exact ⟨_, _, _, _, s.live, s.fin, rfl⟩
  · dsimp only
    split
    · exact ⟨_, _, s.blk, s.k, s.live, s.fin, rfl⟩
    · exact ⟨_, _, _, _, s.live, s.fin, rfl⟩

theorem walkOnly_advanceMcu (s : State) : WalkOnly s (advanceMcu s) := by
  unfold advanceMcu
  split
  · dsimp only
    split
    · exact ⟨_, _, s.blk, s.k, _, _, rfl⟩
    · obtain ⟨p, sc, b, k, l, f, h⟩ :=
        walkOnly_countMcu { s with scan := { s.scan with mbx := 0, mby := s.scan.mby + 1 } }
      exact ⟨p, sc, b, k, l, f, h⟩
  · obtain ⟨p, sc, b, k, l, f, h⟩ := walkOnly_countMcu { s with scan := { s.scan with mbx := s.scan.mbx + 1 } }
    exact ⟨p, sc, b, k, l, f, h⟩

theorem walkOnly_advanceBlock (s : State) : WalkOnly s (advanceBlock s) := by
  unfold advanceBlock
  split
  · exact walkOnly_beginBlock s _
  · split
    · exact walkOnly_beginBlock s _
    · split
      · exact walkOnly_beginBlock s _
      · exact walkOnly_advanceMcu s

/-- Where the walk leaves PHASE (46_scan_decoder.md R340). -/
theorem phase_countMcu (s : State) : (countMcu s).phase = .decodingMcu ∨ (countMcu s).phase = .atRestartBoundary := by
  unfold countMcu
  split
  · exact .inl rfl
  · dsimp only
    split
    · exact .inr rfl
    · exact .inl rfl

theorem phase_advanceMcu (s : State) :
    (advanceMcu s).phase = .decodingMcu ∨ (advanceMcu s).phase = .atRestartBoundary ∨
      (advanceMcu s).phase = .finishing := by
  unfold advanceMcu
  split
  · dsimp only
    split
    · exact .inr (.inr rfl)
    · rcases phase_countMcu { s with scan := { s.scan with mbx := 0, mby := s.scan.mby + 1 } } with h | h
      · exact .inl h
      · exact .inr (.inl h)
  · rcases phase_countMcu { s with scan := { s.scan with mbx := s.scan.mbx + 1 } } with h | h
    · exact .inl h
    · exact .inr (.inl h)

/-- The lengths placed by the table builder: a failure is a SyntaxError and leaves the state alone. -/
theorem buildCodes_error {g : Segment} {s : State} {counts : List Nat} {len remain i : Nat} {placed : HuffTable}
    {e : Abort} (h : buildCodes g s counts len remain i placed = .error e) : e = ⟨.syntaxError, s⟩ := by
  induction counts generalizing len remain i placed with
  | nil => cases h
  | cons n rest ih =>
    unfold buildCodes at h
    split at h
    · exact ih h
    · split at h
      · cases h; rfl
      · split at h
        · cases h; rfl
        · exact ih h

/-- The definitions of a DHT change the Huffman slots only, whether they end well or not. -/
theorem parseDefinitions_result (fuel : Nat) (g : Segment) (i : Nat) (s : State) :
    (∃ ht, parseDefinitions fuel g i s = .ok { s with ht := ht }) ∨
    (∃ ht k, parseDefinitions fuel g i s = .error ⟨k, { s with ht := ht }⟩) := by
  induction fuel generalizing i s with
  | zero => exact .inl ⟨s.ht, rfl⟩
  | succ fuel ih =>
    unfold parseDefinitions
    split
    · exact .inl ⟨s.ht, rfl⟩
    · split
      · exact .inr ⟨s.ht, _, rfl⟩
      · dsimp only
        split
        · exact .inr ⟨s.ht, _, rfl⟩
        · split
          · exact .inr ⟨s.ht, _, rfl⟩
          · rcases hb : buildCodes g s (codeCounts g s i) 1 65536 (i + 17) [] with e | ⟨table, j⟩
            · have he := buildCodes_error hb
              subst he
              exact .inr ⟨s.ht, .syntaxError, by simp [buildTable, hb, bind, Except.bind]⟩
            · rcases ih j { s with ht := s.ht.set (slotOf (g.byte s i)) table } with ⟨ht, h⟩ | ⟨ht, k, h⟩
              · exact .inl ⟨ht, by simp [buildTable, hb, bind, Except.bind, h]⟩
              · exact .inr ⟨ht, k, by simp [buildTable, hb, bind, Except.bind, h]⟩

/-- The groups of a DQT change the quantisation tables and their flags only. -/
theorem parseQuantGroups_result (fuel : Nat) (g : Segment) (i : Nat) (s : State) :
    (∃ q l, parseQuantGroups fuel g i s = .ok { s with qt := q, qtLoaded := l }) ∨
    (∃ q l, parseQuantGroups fuel g i s = .error ⟨.syntaxError, { s with qt := q, qtLoaded := l }⟩) := by
  induction fuel generalizing i s with
  | zero => exact .inl ⟨s.qt, s.qtLoaded, rfl⟩
  | succ fuel ih =>
    unfold parseQuantGroups
    split
    · exact .inl ⟨s.qt, s.qtLoaded, rfl⟩
    · split
      · exact .inr ⟨s.qt, s.qtLoaded, rfl⟩
      · dsimp only
        split
        · exact .inr ⟨s.qt, s.qtLoaded, rfl⟩
        · rcases ih (i + 65) _ with ⟨q, l, h⟩ | ⟨q, l, h⟩
          · exact .inl ⟨q, l, h⟩
          · exact .inr ⟨q, l, h⟩

/-- One scan channel's selectors change the channel records only; a failure is a SyntaxError and leaves the state alone. -/
theorem selectTables_result (g : Segment) (s : State) (c : Fin 3) :
    (∃ r, selectTables g s c = .ok (setChannel s c r)) ∨ selectTables g s c = .error ⟨.syntaxError, s⟩ := by
  unfold selectTables
  dsimp only
  split
  · exact .inr rfl
  · split
    · exact .inr rfl
    · exact .inl ⟨_, rfl⟩

/-- One frame channel's bytes change its record only; a failure leaves the state alone. -/
theorem readChannel_result (g : Segment) (s : State) (c : Fin 3) :
    (∃ r, readChannel g s c = .ok (setChannel s c r)) ∨ ∃ k, readChannel g s c = .error ⟨k, s⟩ := by
  unfold readChannel
  dsimp only
  split
  · exact .inr ⟨_, rfl⟩
  · exact .inl ⟨_, rfl⟩

end Sys2Proof.Machine
end

