-- ==== Sys2Proof/Tests/Slice0.lean ====
section
/-! SUPPORT. Tests of the model: ill-formed terms refused, words of the spec's encodings decoded, single steps of the spec's
own examples, and for each statement with hypotheses a state that meets them. -/

namespace Sys2Proof.Tests

open Sys2Proof Sys2Proof.Machine Sys2Proof.Claims

/-! ### Helpers -/

/-- A check of a next state; false of a fault and of a refusal. -/
def after (o : Host.Outcome State Fault Refusal) (p : State → Bool) : Bool :=
  match o with
  | .next s => p s
  | .fault _ => false
  | .refused _ => false

/-- A decode in its header phase, the codestream in IN_MEM, CURSOR at 0. -/
def header (bytes : List Byte) : State :=
  { State.reset with
    inMem := { draw := 0, cells := cellsFrom 0 bytes }
    len := bytes.length
    status := Status.running
    phase := .parsingHeader }

/-- The record of the one channel of a grayscale frame, or of a full-resolution channel of an 8×8 image. -/
def plain (id : Byte) : Channel := { Channel.unset with cid := id, hs := 1, vs := 1, acSlot := 2, pw := 8, ph := 8, stride := 8, rows := 8 }

/-- The frame of an 8×8 image of nc channels, one MCU. -/
def frame8 (nc : Nat) : Frame :=
  { seen := true, width := 8, height := 8, channels := nc, hmax := 1, vmax := 1, mbw := 1, mbh := 1 }

/-- A plane holding these samples from its first on. -/
def plane (bytes : List Byte) : Memory := { draw := 9, cells := cellsFrom 0 bytes }

/-- A grayscale scan of one MCU, its entropy data at IN_MEM[0]. -/
def scan (bytes : List Byte) : State :=
  { header bytes with
    phase := .decodingMcu
    frame := frame8 1
    ch := ⟨plain 1, Channel.unset, Channel.unset⟩
    planes := ⟨some (plane []), none, none⟩
    qtLoaded := ⟨true, false, false, false⟩
    qt := ⟨Oct.fill (Oct.fill 16), Oct.fill (Oct.fill 0), Oct.fill (Oct.fill 0), Oct.fill (Oct.fill 0)⟩
    ht := ⟨[⟨1, 0x16⟩], [], [⟨1, 0x31⟩], []⟩
    k := 3 }

/-- The scan with some bits held. -/
def holding (acc : Word) (nb : Nat) : State :=
  { scan [0xFF, 0x00, 0xFF] with reader := { rcur := 0, acc := acc, nb := nb, exhausted := false } }

/-- The same scan at another part of its block. -/
def atPart (p : BlockStep) (s : State) : State := { s with scan := { s.scan with step := p } }

/-- A frame header segment of a grayscale image, CURSOR at its length field. -/
def sofGray : List Byte := [0x00, 0x0B, 0x08, 0x00, 0x08, 0x00, 0x08, 0x01, 0x01, 0x11, 0x00]

/-- 64 equal bytes. -/
def sixtyFour (v : Byte) : List Byte := List.replicate 64 v

/-- A DHT definition with one code of length 1 for symbol 5. -/
def oneCode (v : Byte) : List Byte := [v, 1, 0, 0, 0, 0, 0, 0, 0, 0, 0, 0, 0, 0, 0, 0, 0, 5]

/-- A finishing decode of an 8×8 image of nc channels. -/
def finishing (nc : Nat) (f : FinishStep) : State :=
  { header [] with
    phase := .finishing
    fin := f
    frame := frame8 nc
    ch := ⟨plain 1, plain 2, plain 3⟩
    planes := ⟨some (plane [100]), some (plane [200]), some (plane [50])⟩
    live := 64 * nc }

/-! ### Ill-formed terms are refused, one for each check of WellFormed -/

theorem smoke_cmdReserved_load : Instr.wellFormed (.cmdReserved 1) = false := by decide
theorem smoke_cmdReserved_decode : Instr.wellFormed (.cmdReserved 2) = false := by decide
theorem smoke_cmdReserved_flush : Instr.wellFormed (.cmdReserved 3) = false := by decide
theorem smoke_markerOther : Instr.wellFormed (.markerOther 0xC4) = false ∧ Instr.wellFormed (.markerOther 0xE7) = false := by decide
theorem smoke_ecsData : Instr.wellFormed (.ecsData 0xFF) = false := by decide
theorem smoke_ecsIllegal : Instr.wellFormed (.ecsIllegal 0x00) = false ∧ Instr.wellFormed (.ecsIllegal 0xD7) = false := by decide
theorem smoke_acRunVal : Instr.wellFormed (.acRunVal 3 0) = false := by decide
theorem smoke_acIllegal : Instr.wellFormed (.acIllegal 0) = false ∧ Instr.wellFormed (.acIllegal 15) = false := by decide

/-! ### Words of 30_encoding.md R91, R93, R100, R102 and R103 -/

theorem decode_load : decode .cmd32 [0x01, 0x00, 0x00, 0x00] = .ok (.load, []) := by decide
theorem decode_decode : decode .cmd32 [0x02, 0x00, 0x00, 0x00] = .ok (.decode, []) := by decide
theorem decode_flush : decode .cmd32 [0x03, 0x00, 0x00, 0x00] = .ok (.flush, []) := by decide
theorem decode_cmdReserved : decode .cmd32 [0x01, 0x00, 0x00, 0x80] = .ok (.cmdReserved 0x80000001, []) := by decide
theorem decode_soi : decode .framing [0xFF, 0xD8] = .ok (.soi, []) := by decide
theorem decode_sof0 : decode .marker [0xFF, 0xC0] = .ok (.sof0, []) := by decide
theorem decode_dht : decode .marker [0xFF, 0xC4] = .ok (.dht, []) := by decide
theorem decode_dqt : decode .marker [0xFF, 0xDB] = .ok (.dqt, []) := by decide
theorem decode_dri : decode .marker [0xFF, 0xDD] = .ok (.dri, []) := by decide
theorem decode_sos : decode .marker [0xFF, 0xDA] = .ok (.sos, []) := by decide
theorem decode_appn : decode .marker [0xFF, 0xEF] = .ok (.appn 15, []) := by decide
theorem decode_com : decode .marker [0xFF, 0xFE] = .ok (.com, []) := by decide
theorem decode_eoi : decode .marker [0xFF, 0xD9] = .ok (.eoi, []) := by decide
theorem decode_markerOther : decode .marker [0xFF, 0xC2] = .ok (.markerOther 0xC2, []) := by decide
theorem decode_ecsData : decode .ecsByte [0xA5, 0xFF] = .ok (.ecsData 0xA5, [0xFF]) := by decide
theorem decode_ecsStuff : decode .ecsByte [0xFF, 0x00, 0xA5] = .ok (.ecsStuff, [0xA5]) := by decide
theorem decode_ecsFill : decode .ecsByte [0xFF, 0xFF, 0xA5] = .ok (.ecsFill, [0xA5]) := by decide
theorem decode_ecsEnd : decode .ecsByte [0xFF, 0xD9, 0x12] = .ok (.ecsEnd, [0x12]) := by decide
theorem decode_ecsRst : decode .ecsByte [0xFF, 0xD7] = .ok (.ecsRst 7, []) := by decide
theorem decode_ecsIllegal : decode .ecsByte [0xFF, 0xD8] = .ok (.ecsIllegal 0xD8, []) := by decide
theorem decode_dcDiff : decode .dcSym8 [0x1B] = .ok (.dcDiff 11 1, []) := by decide
theorem decode_acEob : decode .acSym8 [0x00] = .ok (.acEob, []) := by decide
theorem decode_acZrl : decode .acSym8 [0xF0] = .ok (.acZrl, []) := by decide
theorem decode_acRunVal : decode .acSym8 [0xF1] = .ok (.acRunVal 15 1, []) := by decide
theorem decode_acIllegal : decode .acSym8 [0xE0] = .ok (.acIllegal 14, []) := by decide
theorem decode_truncated : decode .marker [0xFF] = .error .truncated := by decide
theorem decode_notMarker : decode .marker [0x00, 0xC0] = .error .notMarkerPrefix := by decide
theorem decode_notSoi : decode .framing [0xFF, 0xD9] = .error .noSoi := by decide

/-! ### Single steps of the spec's examples -/

/-- R133: IN_LEN = 153 gives LEN = 153 and STATUS = 1. -/
theorem test_load : after (exec .load { State.reset with inLen := 153 }) (fun s => s.len == 153 && s.status.word == 1) = true := by
  decide

/-- R133: IN_LEN above IN_MEM_SIZE. -/
theorem test_load_too_long :
    after (exec .load { State.reset with inLen := 4097 }) (fun s => s.errcode == .outOfMemory && s.status.word == 0xC) = true := by
  decide

/-- R134: after reset, ERRCODE = 4 and STATUS = 0xC. -/
theorem test_decode_not_ready :
    after (exec .decode State.reset) (fun s => s.errcode.code == 4 && s.status.word == 0xC && s.phase == .idle) = true := by
  decide

/-- R446: STATUS reads 3 while a decode runs. -/
theorem test_decode_starts :
    after (exec .decode { State.reset with status := Status.afterLoad, ctrl := 1 })
      (fun s => s.status.word == 3 && s.phase == .parsingHeader && s.strict) = true := by
  decide

/-- R135: FLUSH after a decode. -/
theorem test_flush :
    after (exec .flush { finishing 1 .complete with status := Status.ended .ok, outLen := 64 })
      (fun s => s.status.word == 0 && s.outLen == 0 && s.phase == .idle && s.len == 0) = true := by
  decide

/-- R136: 0x00000102 is ignored, not read by its low bits. -/
theorem test_cmdReserved :
    after (step { State.reset with host := [.write 4 .four 0x00000102] }) (fun s => s == State.reset) = true := by
  decide

/-- R150: the smallest buffer that passes. -/
theorem test_soi : after (exec .soi (header [0xFF, 0xD8, 0xFF, 0xD9, 0xFF, 0xD9])) (fun s => s.cursor == 2) = true := by decide

/-- R150: a buffer of four bytes. -/
theorem test_soi_short :
    after (step (header [0xFF, 0xD8, 0xFF, 0xD9])) (fun s => s.errcode == .syntaxError && s.status.word == 0xD) = true := by
  decide

/-- R155: payload 08 00 08 00 08 01 01 11 00. -/
theorem test_sof0 :
    after (exec .sof0 (header sofGray))
      (fun s => s.frame == frame8 1 && s.ch.e0.cid == 1 && s.ch.e0.stride == 8 && s.cursor == 11) = true := by
  decide

/-- R157: a 4×4 image with a subsampled chroma. -/
theorem test_sof0_degenerate :
    after (exec .sof0 (header [0x00, 0x11, 8, 0, 4, 0, 4, 3, 1, 0x22, 0, 2, 0x11, 0, 3, 0x11, 0]))
      (fun s => s.errcode == .unsupportedError) = true := by
  decide

/-- R203: one code of length 1 fills the entries below 0x8000. -/
theorem test_dht :
    after (exec .dht (header ([0x00, 0x14] ++ oneCode 0x11)))
      (fun s => lookupEntry s.ht.e3 0x7FFF == (1, 5) && lookupEntry s.ht.e3 0x8000 == (0, 0) && s.ht.e0 == []) = true := by
  decide

/-- R204: three codes of length 1. -/
theorem test_dht_over :
    after (exec .dht (header ([0x00, 0x16, 0, 3, 0, 0, 0, 0, 0, 0, 0, 0, 0, 0, 0, 0, 0, 0, 0] ++ [0, 1, 2])))
      (fun s => s.errcode == .syntaxError) = true := by
  decide

set_option maxRecDepth 4000 in
/-- R160: the third coefficient byte goes to QT[0][8]. -/
theorem test_dqt :
    after (exec .dqt (header ([0x00, 0x43, 0x00, 0x10, 0x11, 0x12] ++ List.replicate 61 0x01)))
      (fun s => Grid.at s.qt.e0 8 == 0x12 && Grid.at s.qt.e0 63 == 1 && s.qtLoaded == ⟨true, false, false, false⟩) = true := by
  decide

/-- R160: an id byte above 3. -/
theorem test_dqt_id :
    after (exec .dqt (header ([0x00, 0x43, 0x04] ++ sixtyFour 1))) (fun s => s.errcode == .syntaxError) = true := by decide

/-- R161: FF DD 00 04 00 01 sets RI = 1. -/
theorem test_dri : after (exec .dri (header [0x00, 0x04, 0x00, 0x01])) (fun s => s.ri == 1 && s.cursor == 4) = true := by decide

/-- R162: payload 01 01 00 00 3F 00. -/
theorem test_sos :
    after (exec .sos { scan [0x00, 0x08, 0x01, 0x01, 0x00, 0x00, 0x3F, 0x00] with phase := .parsingHeader })
      (fun s => s.ch.e0.dcSlot == 0 && s.ch.e0.acSlot == 2 && s.reader.rcur == 8 && s.phase == .decodingMcu) = true := by
  decide

/-- R162: a selector above 1. -/
theorem test_sos_selector :
    after (exec .sos { scan [0x00, 0x08, 0x01, 0x01, 0x20, 0x00, 0x3F, 0x00] with phase := .parsingHeader })
      (fun s => s.errcode == .syntaxError) = true := by
  decide

/-- R164: FF FE 00 05 41 42 43 moves CURSOR by 7, five of them by the handler. -/
theorem test_com : after (exec .com (header [0x00, 0x05, 0x41, 0x42, 0x43])) (fun s => s.cursor == 5 && s.phase == .parsingHeader) = true := by
  decide

/-- R152: an APP segment that runs past LEN. -/
theorem test_appn : after (exec (.appn 0) (header [0x00, 0x05, 0x41, 0x42])) (fun s => s.errcode == .syntaxError) = true := by decide

/-- R165: FF D8 FF D9 FF D9 fails at offset 2. -/
theorem test_eoi :
    after (step { header [0xFF, 0xD8, 0xFF, 0xD9, 0xFF, 0xD9] with cursor := 2 }) (fun s => s.errcode == .syntaxError) = true := by
  decide

/-- R166: a progressive frame. -/
theorem test_markerOther :
    after (step { header [0xFF, 0xD8, 0xFF, 0xC2, 0xFF, 0xD9] with cursor := 2 }) (fun s => s.errcode == .syntaxError) = true := by
  decide

/-- R231: bytes 12 34, the second fetched. -/
theorem test_ecsData :
    after (step { scan [0x12, 0x34] with reader := { rcur := 1, acc := 0x12, nb := 8, exhausted := false } })
      (fun s => s.reader == { rcur := 2, acc := 0x1234, nb := 16, exhausted := false }) = true := by
  decide

/-- R233: FF 00 is eight bits FF, two bytes consumed. -/
theorem test_ecsStuff :
    after (step (scan [0xFF, 0x00, 0xA5])) (fun s => s.reader == { rcur := 2, acc := 0xFF, nb := 8, exhausted := false }) = true := by
  decide

/-- R234: FF FF likewise. -/
theorem test_ecsFill :
    after (step (scan [0xFF, 0xFF, 0xA5])) (fun s => s.reader == { rcur := 2, acc := 0xFF, nb := 8, exhausted := false }) = true := by
  decide

/-- R235: FF D9 exhausts the reader. -/
theorem test_ecsEnd :
    after (step (scan [0xFF, 0xD9, 0x12])) (fun s => s.reader == { rcur := 2, acc := 0xFF, nb := 8, exhausted := true }) = true := by
  decide

/-- R236: FF D3 is sixteen bits and one event. -/
theorem test_ecsRst :
    after (step (scan [0xFF, 0xD3, 0x5A]))
      (fun s => s.reader == { rcur := 2, acc := 0xFFD3, nb := 16, exhausted := false } && s.rstEvents == 1) = true := by
  decide

/-- R237: FF C4 is a SyntaxError. -/
theorem test_ecsIllegal : after (step (scan [0xFF, 0xC4])) (fun s => s.errcode == .syntaxError) = true := by decide

/-- R264: symbol 6 with value bits 101000 gives 40, which R266 scales by 16. -/
theorem test_dcDiff :
    after (exec (.dcDiff 6 0) (holding 0b101000 6))
      (fun s => s.ch.e0.pred == 40 && Grid.at s.blk 0 == 640 && s.reader.nb == 0 && s.scan.step == .ac && s.k == 0) = true := by
  decide

/-- R265: PRED = 40 and a difference of -80 give -40; symbol 7 with value bits 0101111. -/
theorem test_dcDiff_negative :
    after (exec (.dcDiff 7 15) { holding 0b0101111 7 with ch := ⟨{ plain 1 with pred := 40 }, plain 2, plain 3⟩ })
      (fun s => s.ch.e0.pred.toInt == -40) = true := by
  decide

/-- R268: an EOB ends the block. -/
theorem test_acEob : after (exec .acEob (atPart .ac (holding 0 31))) (fun s => s.scan.step == .idct && s.reader.nb == 31) = true := by
  decide

/-- R269: a ZRL from K = 47 lands on 63 and ends the block. -/
theorem test_acZrl :
    after (exec .acZrl (atPart .ac { holding 0 31 with k := 47 })) (fun s => s.k == 63 && s.scan.step == .idct) = true := by
  decide

/-- R269: a fourth ZRL, from K = 48, is a SyntaxError. -/
theorem test_acZrl_overflow : after (exec .acZrl { holding 0 31 with k := 48 }) (fun s => s.errcode == .syntaxError) = true := by decide

/-- R270: at K = 0, symbol 0x11 with value bit 0 gives K = 2 and BLK[8] = -q[8]. -/
theorem test_acRunVal :
    after (exec (.acRunVal 1 1) (atPart .ac { holding 0 1 with k := 0 }))
      (fun s => s.k == 2 && (Grid.at s.blk 8).toInt == -16 && s.scan.step == .ac) = true := by
  decide

/-- R272: at K = 60, symbol 0x31 gives K = 64. -/
theorem test_acRunVal_overflow :
    after (exec (.acRunVal 3 1) { holding 0 1 with k := 60 }) (fun s => s.errcode == .syntaxError) = true := by decide

/-- R271: symbol 0x10. -/
theorem test_acIllegal : after (exec (.acIllegal 1) (holding 0 31)) (fun s => s.errcode == .syntaxError) = true := by decide

/-! ### Operations that are no row of the opcode table -/

/-- R261: size 3 maps raw 0, 3, 4, 7 to -7, -4, 4, 7. -/
theorem test_extendValue : ([0, 3, 4, 7].map fun r => (extendValue 3 r).toInt) = [-7, -4, 4, 7] := by decide

/-- R263: ZZ is a permutation of 0 to 63. -/
theorem test_zigzag : zigzag.length = 64 ∧ ∀ j < 64, j ∈ zigzag := by decide

/-- R304: the row (0, 100, 0, ...). -/
theorem test_rowPass :
    (rowPass .njChenWang ⟨0, 100, 0, 0, 0, 0, 0, 0⟩).map BitVec.toInt = ⟨1110, 941, 629, 221, -221, -629, -941, -1110⟩ := by
  decide

set_option maxRecDepth 4000 in
/-- R306: BLK[1] = 100 gives each row 145 143 138 131 125 118 113 111. -/
theorem test_idct :
    (idctSamples .njChenWang (Grid.put (Oct.fill (Oct.fill 0)) 1 100)).e7 = ⟨145, 143, 138, 131, 125, 118, 113, 111⟩ := by
  decide

/-- R365: (100, 200, 50) gives (0, 131, 228). -/
theorem test_colourPixel : colourPixel 100 200 50 = [0, 131, 228] := by decide

/-- R361: W = 13 and PW = 7 give a shift of 1. -/
theorem test_leastShift : leastShift 7 13 = 1 ∧ leastShift 8 8 = 0 := by decide

/-- R130: with BUSY = 0, writing 0xFFFFFFFF to CTRL leaves 1. -/
theorem test_ctrl :
    after (step { State.reset with host := [.write 0 .four 0xFFFFFFFF] }) (fun s => s.ctrl == 1) = true := by decide

/-- R78: a two-byte read of IN_MEM is little-endian, at any alignment. -/
theorem test_inMem :
    after (step { header [0x11, 0x22, 0x33] with host := [.read 0x10001 .two] }) (fun s => s.readData == 0x3322) = true := by
  decide

/-! ### States that meet the hypotheses of the statements -/

theorem witness_DecodeOfEncodeIsTheInstruction :
    Instr.wellFormed (.acRunVal 15 15) = true ∧ Instr.wellFormed (.cmdReserved 0xFFFFFFFF) = true ∧
      Instr.wellFormed (.markerOther 0xDF) = true ∧ Instr.wellFormed (.ecsIllegal 0xD8) = true := by decide

theorem witness_EncodeOfDecodeIsTheBytes : decode .ecsByte [0xFF, 0xD3, 0x5A] = .ok (.ecsRst 3, [0x5A]) := by decide

theorem witness_StepRunsTheCommandWritten :
    ∃ (s : State) (v : Word) (rest : List HostOp), s.params.regBase % 4 = 0 ∧
      s.host = .write (s.params.regBase + 4) .four v :: rest ∧ decode .cmd32 (wordBytes v) = .ok (.decode, []) :=
  ⟨{ State.reset with host := [.write 4 .four 2, .engine] }, 2, [.engine], by decide, rfl, by decide⟩

theorem header_moves (bytes : List Byte) : EngineMoves (header bytes) := ⟨rfl, rfl⟩

/-- The last two bytes below LEN, one byte, another byte than FF, SOI, and no SOI. -/
theorem witness_StepRunsTheMarkerAtCursor :
    let s := { header [0xFF, 0xD8, 0xFF, 0xDD, 0xFF, 0xD9] with cursor := 4 }
    let t := header [0xFF, 0xD8, 0xFF, 0xD9, 0xFF, 0xD9]
    (EngineMoves s ∧ s.phase = .parsingHeader ∧ s.cursor ≠ 0 ∧ s.cursor + 2 ≤ s.len ∧
      decode .marker [s.inMem.read s.cursor, s.inMem.read (s.cursor + 1)] = .ok (.eoi, [])) ∧
    (EngineMoves { s with cursor := 5 } ∧ s.len < 5 + 2) ∧
    (EngineMoves { s with cursor := 3 } ∧ s.inMem.read 3 ≠ 0xFF) ∧
    (EngineMoves t ∧ t.phase = .parsingHeader ∧ t.cursor = 0 ∧ 6 ≤ t.len ∧ t.inMem.read 0 = 0xFF ∧ t.inMem.read 1 = 0xD8) ∧
    (EngineMoves (header [0xFF, 0xD9]) ∧ (header [0xFF, 0xD9]).cursor = 0 ∧ (header [0xFF, 0xD9]).inMem.read 1 ≠ 0xD8) :=
  ⟨⟨⟨rfl, rfl⟩, rfl, by decide, by decide, by decide⟩, ⟨⟨rfl, rfl⟩, by decide⟩, ⟨⟨rfl, rfl⟩, by decide⟩,
    ⟨header_moves _, rfl, rfl, by decide, by decide, by decide⟩, header_moves _, rfl, by decide⟩

theorem holding_moves (acc : Word) (nb : Nat) :
    EngineMoves (holding acc nb) ∧ (holding acc nb).phase = .decodingMcu ∧ (holding acc nb).scan.step = .dc := ⟨⟨rfl, rfl⟩, rfl, rfl⟩

/-- 15 bits held: at the end of the data, exhausted, a data byte, a pair ending at LEN, and an FF at LEN - 1. -/
theorem witness_StepRunsTheByteFormAtRcur :
    (holding 0 15).reader.nb < 16 ∧ (holding 0 15).scan.step ≠ .idct ∧
    (let s := { holding 0 15 with reader := { rcur := 3, acc := 0, nb := 15, exhausted := false } }
     EngineMoves s ∧ s.len ≤ s.reader.rcur) ∧
    (let s := { holding 0 15 with reader := { rcur := 0, acc := 0, nb := 15, exhausted := true } }
     EngineMoves s ∧ s.reader.exhausted = true) ∧
    (let s := { holding 0 15 with reader := { rcur := 1, acc := 0, nb := 15, exhausted := false } }
     EngineMoves s ∧ s.reader.rcur < s.len ∧ s.inMem.read s.reader.rcur ≠ 0xFF) ∧
    (let s := scan [0x00, 0xFF, 0xD5]
     let s := { s with reader := { rcur := 1, acc := 0, nb := 0, exhausted := false } }
     EngineMoves s ∧ s.reader.rcur + 1 < s.len ∧ s.inMem.read s.reader.rcur = 0xFF ∧
       ecsPair (s.inMem.read (s.reader.rcur + 1)) = .rst 5) ∧
    (let s := { holding 0 15 with reader := { rcur := 2, acc := 0, nb := 15, exhausted := false } }
     EngineMoves s ∧ s.reader.rcur + 1 = s.len ∧ s.inMem.read s.reader.rcur = 0xFF ∧ ∃ e, fetchByte s = .error e) ∧
    ∃ u, fetchByte (holding 0 15) = .ok u :=
  ⟨by decide, by decide, ⟨⟨rfl, rfl⟩, by decide⟩, ⟨⟨rfl, rfl⟩, rfl⟩, ⟨⟨rfl, rfl⟩, by decide, by decide⟩,
    ⟨⟨rfl, rfl⟩, by decide, by decide, by decide⟩, ⟨⟨rfl, rfl⟩, by decide, by decide, _, rfl⟩, _, rfl⟩

/-- Sixteen bits held, before a DC and before an AC symbol, of a code word and of none. -/
theorem witness_StepRunsTheSymbolLookedUp :
    let s := holding 0x7FFF 16
    let t := atPart .ac s
    let u := holding 0x8000 16
    (EngineMoves s ∧ s.phase = .decodingMcu ∧ 16 ≤ s.reader.nb ∧ s.scan.step = .dc ∧
      lookupEntry (s.ht.get (current s).dcSlot) (heldBits s.reader 16) = (1, 0x16)) ∧
    (EngineMoves t ∧ t.scan.step = .ac ∧
      lookupEntry (t.ht.get (current t).acSlot) (heldBits t.reader 16) = (1, 0x31) ∧
      decode .acSym8 [0x31] = .ok (.acRunVal 3 1, [])) ∧
    (EngineMoves u ∧ lookupEntry (u.ht.get (current u).dcSlot) (heldBits u.reader 16) = (0, 0)) ∧
    (EngineMoves (atPart .ac u) ∧ lookupEntry (u.ht.get (current u).acSlot) (heldBits u.reader 16) = (0, 0)) :=
  ⟨⟨⟨rfl, rfl⟩, rfl, by decide, rfl, by decide⟩, ⟨⟨rfl, rfl⟩, rfl, by decide, by decide⟩, ⟨⟨rfl, rfl⟩, by decide⟩,
    ⟨rfl, rfl⟩, by decide⟩

theorem witness_LoadLatchesTheLength :
    State.reset.status.busy = false ∧ (0x1000 : Word).toNat ≤ State.reset.params.inMemSize ∧
      State.reset.params.inMemSize < (0x1001 : Word).toNat := by decide

theorem witness_DecodeStartsFromTheResetList :
    State.reset.status.busy = false ∧ State.reset.status.loaded = false ∧ Status.afterLoad.busy = false ∧
      Status.afterLoad.loaded = true := by decide

theorem witness_FlushDropsTheImage : State.reset.status.busy = false := by decide

theorem witness_IgnoredCommandsChangeNothing :
    (let s := { header [] with host := [.write 4 .four 3] }
     s.params.regBase % 4 = 0 ∧ s.host = .write (s.params.regBase + 4) .four 3 :: [] ∧ s.status.busy = true) ∧
    (let s := { State.reset with host := [.write 4 .four 0] }
     s.host = .write (s.params.regBase + 4) .four 0 :: [] ∧ (0 : Word) ≠ 1 ∧ (0 : Word) ≠ 2 ∧ (0 : Word) ≠ 3) := by decide

theorem witness_SoiChecksTheFraming :
    (let s := header [0xFF, 0xD8, 0xFF, 0xD9, 0xFF, 0xD9]
     6 ≤ s.len ∧ byteAt s 0 = 0xFF ∧ byteAt s 1 = 0xD8 ∧ byteAt s (s.len - 2) = 0xFF ∧ byteAt s (s.len - 1) = 0xD9) ∧
    ¬ (6 ≤ (header [0xFF, 0xD8, 0xFF, 0xFF, 0xD9]).len) := by decide

/-- No room for the length field, a length of 1, a segment one byte past LEN; and the frame handlers' extra conditions. -/
theorem witness_BrokenSegmentIsSyntaxError :
    SegmentBroken (header [0x00]) ∧ SegmentBroken (header [0x00, 0x01]) ∧ SegmentBroken (header [0x00, 0x03]) ∧
    readsSegmentFirst .dht (header []) ∧ readsSegmentFirst (.appn 3) (header []) ∧ readsSegmentFirst .sof0 (header []) ∧
    readsSegmentFirst .sos (scan []) := by
  refine ⟨.inl (by decide), .inr (.inl (by decide)), .inr (.inr (by decide)), .inl rfl, ?_, ?_, ?_⟩
  · exact .inr (.inr (.inr (.inr (.inl ⟨3, rfl⟩))))
  · exact .inr (.inr (.inr (.inr (.inr (.inl ⟨rfl, rfl⟩)))))
  · exact .inr (.inr (.inr (.inr (.inr (.inr ⟨rfl, rfl⟩)))))

/-- A segment that is the whole codestream. -/
theorem segmentAt_whole {bytes : List Byte} {len : Nat} (hf : 256 * byteAt (header bytes) 0 + byteAt (header bytes) 1 = len)
    (hl : 2 ≤ len) (hi : 0 + len ≤ bytes.length) : SegmentAt (header bytes) len := ⟨hf, hl, hi⟩

theorem gray_header : SofHeader (header sofGray) 11 8 8 1 :=
  ⟨rfl, segmentAt_whole (by decide) (by decide) (by decide), by decide, by decide, by decide, by decide, by decide, .inl rfl, by decide⟩

/-- A 6×6 image of three channels, 4:2:0: the smallest that passes the degenerate guard. -/
def sofColour (w h : Byte) : List Byte := [0x00, 0x11, 8, 0, h, 0, w, 3, 1, 0x22, 0, 2, 0x11, 0, 3, 0x11, 3]

theorem colour_header : SofHeader (header (sofColour 6 6)) 17 6 6 3 :=
  ⟨rfl, segmentAt_whole (by decide) (by decide) (by decide), by decide, by decide, by decide, by decide, by decide, .inr rfl, by decide⟩

theorem witness_SofLoadsTheFrame : SofAccepted (header sofGray) 11 8 8 1 ∧ SofAccepted (header (sofColour 6 6)) 17 6 6 3 :=
  ⟨⟨gray_header, by unfold channelPasses goodFactor; decide, by unfold guardPasses; decide, by unfold imageFits; decide⟩,
    ⟨colour_header, by unfold channelPasses goodFactor; decide, by unfold guardPasses; decide, by unfold imageFits; decide⟩⟩

/-- A second SOF; payloads of 5 bytes, of precision 12, of width 0, of 2 channels, and short of its list. -/
theorem witness_SofRejectsTheHeader :
    (scan []).frame.seen = true ∧
    (SegmentAt (header [0, 7, 8, 0, 8, 0, 8]) 7 ∧ (7 : Nat) < 8) ∧
    (let s := header [0, 8, 12, 0, 8, 0, 8, 1]
     SegmentAt s 8 ∧ s.frame.seen = false ∧ payload s 0 ≠ 8) ∧
    (let s := header [0, 8, 8, 0, 8, 0, 0, 1]
     SegmentAt s 8 ∧ payload s 0 = 8 ∧ payload s 3 = 0 ∧ payload s 4 = 0) ∧
    (let s := header [0, 8, 8, 0, 8, 0, 8, 2]
     SegmentAt s 8 ∧ payload s 0 = 8 ∧ ¬ ((payload s 1 = 0 ∧ payload s 2 = 0) ∨ (payload s 3 = 0 ∧ payload s 4 = 0)) ∧
       payload s 5 ≠ 1 ∧ payload s 5 ≠ 3) ∧
    (let s := header [0, 10, 8, 0, 8, 0, 8, 1, 1, 0x11]
     SegmentAt s 10 ∧ payload s 0 = 8 ∧ payload s 5 = 1 ∧ 10 < 8 + 3 * payload s 5) :=
  ⟨rfl, ⟨segmentAt_whole (by decide) (by decide) (by decide), by decide⟩,
    ⟨segmentAt_whole (by decide) (by decide) (by decide), rfl, by decide⟩,
    ⟨segmentAt_whole (by decide) (by decide) (by decide), by decide, by decide, by decide⟩,
    ⟨segmentAt_whole (by decide) (by decide) (by decide), by decide, by decide, by decide, by decide⟩,
    ⟨segmentAt_whole (by decide) (by decide) (by decide), by decide, by decide, by decide⟩⟩

/-- A grayscale SOF0 with these sampling and table bytes. -/
def sofFactors (sf tq : Byte) : State := header [0, 11, 8, 0, 8, 0, 8, 1, 1, sf, tq]

theorem sofFactors_header (sf tq : Byte) : SofHeader (sofFactors sf tq) 11 8 8 1 :=
  ⟨rfl, ⟨rfl, by decide, by show 0 + 11 ≤ 11; decide⟩, rfl, rfl, rfl, by decide, rfl, .inl rfl, by decide⟩

/-- Horizontal factors 8 and 9, vertical factors 0 and 15, table id 4; the guard at 4×4; WORK one byte short. -/
theorem witness_SofRejectsTheChannels :
    highNibble (sofFactors 0x81 0) 7 = 8 ∧ (highNibble (sofFactors 0x91 0) 7 = 9 ∧ ¬ goodFactor 9) ∧
    (goodFactor (highNibble (sofFactors 0x10 0) 7) ∧ lowNibble (sofFactors 0x10 0) 7 = 0) ∧
    (goodFactor (highNibble (sofFactors 0x4F 0) 7) ∧ lowNibble (sofFactors 0x4F 0) 7 = 15 ∧ ¬ goodFactor 15) ∧
    (goodFactor (lowNibble (sofFactors 0x11 4) 7) ∧ 3 < payload (sofFactors 0x11 4) 8) ∧
    (SofHeader (header (sofColour 4 6)) 17 4 6 3 ∧ (∀ i < 3, channelPasses (header (sofColour 4 6)) i) ∧
      ¬ guardPasses (header (sofColour 4 6)) 4 6 3 1) ∧
    (let s := { header sofGray with params := { Params.default with workMemSize := 63 } }
     SofHeader s 11 8 8 1 ∧ (∀ i < 1, channelPasses s i) ∧ (∀ i < 1, guardPasses s 8 8 1 i) ∧ ¬ imageFits s 8 8 1) := by
  refine ⟨by decide, ⟨by decide, by unfold goodFactor; decide⟩, ⟨by unfold goodFactor; decide, by decide⟩,
    ⟨by unfold goodFactor; decide, by decide, by unfold goodFactor; decide⟩, ⟨by unfold goodFactor; decide, by decide⟩,
    ⟨⟨rfl, segmentAt_whole (by decide) (by decide) (by decide), by decide, by decide, by decide, by decide, by decide,
      .inr rfl, by decide⟩, by unfold channelPasses goodFactor; decide, by unfold guardPasses; decide⟩,
    ⟨⟨rfl, ⟨by decide, by decide, by decide⟩, by decide, by decide, by decide, by decide, by decide, .inl rfl, by decide⟩,
      by unfold channelPasses goodFactor; decide, by unfold guardPasses; decide, by unfold imageFits; decide⟩⟩

/-- Two definitions of one slot, and none at all. -/
def twoDefinitions : State := header ([0x00, 0x26] ++ oneCode 0x10 ++ oneCode 0x10)

theorem oneCode_fits (i : Nat) (h : i = 0 ∨ i = 18) : DefinitionFits twoDefinitions 36 i := by
  rcases h with rfl | rfl <;> exact ⟨by decide, by unfold legalControl; decide, by decide, by decide⟩

theorem twoDefinitions_segment : SegmentAt twoDefinitions 38 := segmentAt_whole (by decide) (by decide) (by decide)

theorem witness_DhtBuildsTheCanonicalTables :
    SegmentAt twoDefinitions 38 ∧ Definitions twoDefinitions 36 0 [0, 18] 36 ∧
    SegmentAt (header [0x00, 0x02]) 2 ∧ Definitions (header [0x00, 0x02]) 0 0 [] 0 ∧
    slotNumber (payload twoDefinitions 18) = 2 ∧ countOf twoDefinitions 18 1 = 1 ∧ entriesBefore twoDefinitions 18 16 = 32768 :=
  ⟨twoDefinitions_segment, ⟨rfl, oneCode_fits 0 (.inl rfl), (by decide : 18 = definitionEnd twoDefinitions 0), oneCode_fits 18 (.inr rfl),
      (by decide : definitionEnd twoDefinitions 18 = 36)⟩,
    segmentAt_whole (by decide) (by decide) (by decide), rfl, by decide, by decide, by decide⟩

/-- After no definition: 16 bytes left, a reserved bit, bit 1, a symbol missing, three codes of length 1. -/
theorem witness_DhtRejectsBadDefinitions :
    (SegmentAt (header ([0x00, 0x12] ++ List.replicate 16 0)) 18 ∧ 18 - 2 < 0 + 17 ∧ 0 < 18 - 2) ∧
    (let s := header ([0x00, 0x13, 0x04] ++ List.replicate 16 0)
     SegmentAt s 19 ∧ 0 + 17 ≤ 19 - 2 ∧ payload s 0 &&& 0xEC ≠ 0) ∧
    (let s := header ([0x00, 0x13, 0x02] ++ List.replicate 16 0)
     SegmentAt s 19 ∧ payload s 0 &&& 0xEC = 0 ∧ payload s 0 &&& 0x02 ≠ 0) ∧
    (let s := header ([0x00, 0x13, 0x11, 1] ++ List.replicate 15 0)
     SegmentAt s 19 ∧ legalControl (payload s 0) ∧ 19 - 2 < definitionEnd s 0) ∧
    (let s := header ([0x00, 0x16, 0x00, 3] ++ List.replicate 15 0 ++ [0, 1, 2])
     SegmentAt s 22 ∧ legalControl (payload s 0) ∧ 65536 < entriesBefore s 0 16) ∧
    (SegmentAt twoDefinitions 38 ∧ Definitions twoDefinitions 36 0 [0] 18 ∧ 18 < 36) := by
  unfold legalControl
  exact ⟨⟨segmentAt_whole (by decide) (by decide) (by decide), by decide, by decide⟩,
    ⟨segmentAt_whole (by decide) (by decide) (by decide), by decide, by decide⟩,
    ⟨segmentAt_whole (by decide) (by decide) (by decide), by decide, by decide⟩,
    ⟨segmentAt_whole (by decide) (by decide) (by decide), by decide, by decide⟩,
    ⟨segmentAt_whole (by decide) (by decide) (by decide), by decide, by decide⟩,
    twoDefinitions_segment, ⟨rfl, oneCode_fits 0 (.inl rfl), (by decide : definitionEnd twoDefinitions 0 = 18)⟩,
    by decide⟩

/-- One group of id 3; no group; after one group, a partial one, and an id of 4. -/
theorem witness_DqtLoadsEveryGroup :
    (let s := header ([0x00, 0x43, 0x03] ++ sixtyFour 1)
     SegmentAt s 67 ∧ 65 * 1 ≤ 67 - 2 ∧ (∀ g < 1, groupId s g ≤ 3) ∧ 67 - 2 = 65 * 1) ∧
    (SegmentAt (header [0x00, 0x02]) 2 ∧ 2 - 2 = 65 * 0) ∧
    (let s := header ([0x00, 0x44, 0x03] ++ sixtyFour 1 ++ [0x00])
     SegmentAt s 68 ∧ 65 * 1 < 68 - 2 ∧ 68 - 2 < 65 * 1 + 65) ∧
    (let s := header ([0x00, 0x84, 0x03] ++ sixtyFour 1 ++ [0x04] ++ sixtyFour 1)
     SegmentAt s 132 ∧ 65 * 1 < 132 - 2 ∧ 3 < groupId s 1) :=
  ⟨⟨segmentAt_whole (by decide) (by decide) (by decide), by decide, by decide, by decide⟩,
    ⟨segmentAt_whole (by decide) (by decide) (by decide), by decide⟩,
    ⟨segmentAt_whole (by decide) (by decide) (by decide), by decide, by decide⟩,
    ⟨segmentAt_whole (by decide) (by decide) (by decide), by decide, by decide⟩⟩

theorem witness_DriSetsTheRestartInterval :
    (SegmentAt (header [0, 4, 0, 1]) 4 ∧ (4 : Nat) ≤ 4) ∧ (SegmentAt (header [0, 3, 0]) 3 ∧ (3 : Nat) < 4) :=
  ⟨⟨segmentAt_whole (by decide) (by decide) (by decide), by decide⟩,
    ⟨segmentAt_whole (by decide) (by decide) (by decide), by decide⟩⟩

/-- A scan header of the 8×8 grayscale image with these channel id, selector and trailer bytes. -/
def sosGray (id t e : Byte) : State := { scan [0x00, 0x08, 0x01, id, t, 0x00, e, 0x00] with phase := .parsingHeader }

theorem sosGray_header (id t e : Byte) : SosHeader (sosGray id t e) 8 :=
  ⟨rfl, ⟨rfl, by decide, by show 0 + 8 ≤ 8; decide⟩, .inl rfl, rfl, by show 6 + 2 * 1 ≤ 8; decide⟩

/-- The clauses on channels are about channel 0 alone in a grayscale frame. -/
theorem gray_channel {p : Fin 3 → Prop} {s : State} (hn : s.frame.channels = 1) (h : p 0) :
    ∀ c : Fin 3, c.val < s.frame.channels → p c := by
  intro c hc
  have h0 : c = 0 := by omega
  exact h0 ▸ h

theorem witness_SosStartsTheScan : SosAccepted (sosGray 1 0x11 0x3F) 8 :=
  ⟨sosGray_header 1 0x11 0x3F, gray_channel rfl (by unfold selectorPasses; decide), by unfold trailerPasses; decide,
    gray_channel rfl (by decide)⟩

/-- No frame; an empty payload, two channels, a payload a byte short; a wrong id, a selector of 2, an end of 62, no table. -/
theorem witness_SosRejectsBadHeaders :
    (header []).frame.seen = false ∧
    (SegmentAt (scan [0, 2]) 2 ∧ (scan [0, 2]).frame.seen = true) ∧
    (SegmentAt (scan [0, 3, 2]) 3 ∧ payload (scan [0, 3, 2]) 0 ≠ (scan [0, 3, 2]).frame.channels) ∧
    (let s := scan [0, 7, 1, 1, 0, 0, 63]
     SegmentAt s 7 ∧ payload s 0 = s.frame.channels ∧ 7 < 6 + 2 * s.frame.channels) ∧
    (SosHeader (sosGray 2 0 0x3F) 8 ∧ ¬ selectorPasses (sosGray 2 0 0x3F) 0) ∧
    (SosHeader (sosGray 1 2 0x3F) 8 ∧ ¬ selectorPasses (sosGray 1 2 0x3F) 0) ∧
    (SosHeader (sosGray 1 0 0x3E) 8 ∧ selectorPasses (sosGray 1 0 0x3E) 0 ∧ ¬ trailerPasses (sosGray 1 0 0x3E)) ∧
    (let s := { sosGray 1 0 0x3F with qtLoaded := Quad.fill false }
     SosHeader s 8 ∧ selectorPasses s 0 ∧ trailerPasses s ∧ s.qtLoaded.get (s.ch.get 0).tq = false) := by
  unfold selectorPasses trailerPasses
  exact ⟨rfl, ⟨⟨by decide, by decide, by decide⟩, rfl⟩, ⟨⟨by decide, by decide, by decide⟩, by decide⟩,
    ⟨⟨by decide, by decide, by decide⟩, by decide, by decide⟩,
    ⟨sosGray_header _ _ _, by decide⟩, ⟨sosGray_header _ _ _, by decide⟩, ⟨sosGray_header _ _ _, by decide, by decide⟩,
    ⟨⟨rfl, ⟨by decide, by decide, by decide⟩, .inl rfl, by decide, by decide⟩, by decide, by decide, by decide⟩⟩

theorem witness_AppnAndComSkipTheirSegment : SegmentAt (header [0x00, 0x02]) 2 :=
  segmentAt_whole (by decide) (by decide) (by decide)

/-- Sixteen bits asked for: all held, one short, and an FF before an illegal byte in the way. -/
theorem witness_GetReadsTheNextBits :
    16 ≤ (holding 0 16).reader.nb ∧ (holding 0 15).reader.nb < 16 ∧ (∃ u, fetchByte (holding 0 15) = .ok u) ∧
      ∃ e, fetchByte (scan [0xFF, 0xC4]) = .error e := ⟨by decide, by decide, ⟨_, rfl⟩, _, rfl⟩

theorem witness_DcDiffUpdatesThePredictor : (15 : BitVec 4).toNat ≤ (holding 0 15).reader.nb := by decide

/-- The run ends at 63, and at 64. -/
theorem witness_AcRunValPlacesACoefficient :
    (1 : BitVec 4) ≠ 0 ∧ (1 : BitVec 4).toNat ≤ (holding 0 1).reader.nb ∧ 60 + (2 : BitVec 4).toNat + 1 ≤ 63 ∧
      63 < 60 + (3 : BitVec 4).toNat + 1 := by decide

theorem witness_SymbolsFetchTheirValueBits :
    (holding 0 14).reader.nb < (15 : BitVec 4).toNat ∧ (∃ u, fetchByte (holding 0 14) = .ok u) ∧
      (scan [0xFF, 0xC4]).reader.nb < (1 : BitVec 4).toNat ∧ ∃ u, fetchByte (scan [0xFF, 0xC4]) = .error ⟨.syntaxError, u⟩ :=
  ⟨by decide, ⟨_, rfl⟩, by decide, _, rfl⟩

/-- K = 47, and K = 48. -/
theorem witness_AcSymbolsWithoutAValue : 47 + 16 ≤ 63 ∧ 63 < 48 + 16 := by decide

/-- The largest D; and, under the candidate, value 255 with quantiser 16, whose DC 1016 is nearest to 64 · 16, half a
quantiser away. -/
theorem witness_DcOnlyBlocksAreFlat :
    ((-2 ^ 20 : Int) < 2 ^ 20 - 1 ∧ (2 ^ 20 - 1 : Int) < 2 ^ 20) ∧ Kernel.njChenWang.Accurate ∧
      2 * |((16 : Nat) : Int) * 64 - 8 * (((255 : Nat) : Int) - 128)| ≤ ((16 : Nat) : Int) :=
  ⟨by decide, accurate_njChenWang, by decide⟩

theorem witness_FastExitsAgreeWithTheFullPaths : (-2 ^ 22 : Int) < 1 - 2 ^ 22 ∧ (1 - 2 ^ 22 : Int) < 2 ^ 22 := by decide

/-- The last part of a block. -/
def blockEnd : State := atPart .idct (scan [])

theorem witness_BlockEndWritesItsSamples :
    EngineMoves blockEnd ∧ blockEnd.phase = .decodingMcu ∧ blockEnd.scan.step = .idct ∧
      blockEnd.planes.get blockEnd.scan.chan = some (plane []) ∧
      (blockEnd.scan.mbx * (current blockEnd).hs + blockEnd.scan.sbx) * 8 + 8 ≤ (current blockEnd).stride :=
  ⟨⟨rfl, rfl⟩, rfl, rfl, rfl, by decide⟩

/-- A 2×2 channel at its first block, at the end of a row, and a channel before another one. -/
theorem witness_BlocksOfAnMcuInOrder :
    (let s := { blockEnd with ch := ⟨{ plain 1 with hs := 2, vs := 2 }, plain 2, plain 3⟩ }
     EngineMoves s ∧ s.scan.sbx + 1 < (current s).hs ∧ s.scan.sby + 1 < (current s).vs) ∧
    (let s := { blockEnd with ch := ⟨{ plain 1 with vs := 2 }, plain 2, plain 3⟩ }
     EngineMoves s ∧ (current s).hs ≤ s.scan.sbx + 1 ∧ s.scan.sby + 1 < (current s).vs) ∧
    (let s := { blockEnd with frame := frame8 3 }
     EngineMoves s ∧ (current s).hs ≤ s.scan.sbx + 1 ∧ (current s).vs ≤ s.scan.sby + 1 ∧
       (1 : Fin 3).val = s.scan.chan.val + 1 ∧ (1 : Fin 3).val < s.frame.channels) :=
  ⟨⟨⟨rfl, rfl⟩, by decide, by decide⟩, ⟨⟨rfl, rfl⟩, by decide, by decide⟩,
    ⟨⟨rfl, rfl⟩, by decide, by decide, by decide, by decide⟩⟩

/-- The last MCU; and one of two, restarts off, the countdown at 1, and at 2. -/
theorem witness_McusInRasterOrder :
    (EngineMoves blockEnd ∧ (current blockEnd).hs ≤ blockEnd.scan.sbx + 1 ∧ (current blockEnd).vs ≤ blockEnd.scan.sby + 1 ∧
      blockEnd.frame.channels ≤ blockEnd.scan.chan.val + 1 ∧ blockEnd.scan.mbx < blockEnd.frame.mbw ∧
      blockEnd.scan.mby < blockEnd.frame.mbh ∧ blockEnd.scan.mbx + 1 = blockEnd.frame.mbw ∧
      blockEnd.scan.mby + 1 = blockEnd.frame.mbh) ∧
    (let s := { blockEnd with frame := { frame8 1 with mbw := 2 } }
     EngineMoves s ∧ ¬ (s.scan.mbx + 1 = s.frame.mbw ∧ s.scan.mby + 1 = s.frame.mbh) ∧ s.ri = 0) ∧
    (let s := { blockEnd with ri := 2, scan := { blockEnd.scan with countdown := 1 } }
     EngineMoves s ∧ 0 < s.ri ∧ 1 ≤ s.scan.countdown ∧ s.scan.countdown = 1) ∧
    (let s := { blockEnd with ri := 2, scan := { blockEnd.scan with countdown := 2 } }
     EngineMoves s ∧ 1 ≤ s.scan.countdown ∧ s.scan.countdown ≠ 1) :=
  ⟨⟨⟨rfl, rfl⟩, by decide, by decide, by decide, by decide, by decide, by decide, by decide⟩,
    ⟨⟨rfl, rfl⟩, by decide, rfl⟩, ⟨⟨rfl, rfl⟩, by decide, by decide, rfl⟩, ⟨⟨rfl, rfl⟩, by decide, by decide⟩⟩

/-- A restart boundary with some bits held. -/
def boundary (acc : Word) (nb : Nat) (strict : Bool) : State :=
  { holding acc nb with phase := .atRestartBoundary, strict := strict }

/-- Markers RST0 and RST7 in both modes, no marker, and 15 bits held of which 8 are whole. -/
theorem witness_RestartStepChecksAndResets :
    (EngineMoves (boundary 0xFFD7 16 false) ∧ (boundary 0xFFD7 16 false).phase = .atRestartBoundary ∧
      16 ≤ (consumed (boundary 0xFFD7 16 false).reader 0).nb ∧
      heldBits (boundary 0xFFD7 16 false).reader 16 = 0xFFD0 + 7 ∧ (boundary 0xFFD7 16 false).strict = false) ∧
    (EngineMoves (boundary 0xFFD0 16 true) ∧ heldBits (boundary 0xFFD0 16 true).reader 16 = 0xFFD0 + 0 ∧
      0 = (boundary 0xFFD0 16 true).scan.nextRst) ∧
    (EngineMoves (boundary 0xFFD1 16 true) ∧ heldBits (boundary 0xFFD1 16 true).reader 16 = 0xFFD0 + 1 ∧
      1 ≠ (boundary 0xFFD1 16 true).scan.nextRst) ∧
    (EngineMoves (boundary 0xFFD8 16 false) ∧ ∀ n < 8, heldBits (boundary 0xFFD8 16 false).reader 16 ≠ 0xFFD0 + n) ∧
    (EngineMoves (boundary 0 15 false) ∧
      (consumed (boundary 0 15 false).reader ((boundary 0 15 false).reader.nb % 8)).nb = 8 ∧
      ∃ u, fetchByte { boundary 0 15 false with reader := consumed (boundary 0 15 false).reader 7 } = .ok u) :=
  ⟨⟨⟨rfl, rfl⟩, rfl, by decide, by decide, rfl⟩, ⟨⟨rfl, rfl⟩, by decide, rfl⟩, ⟨⟨rfl, rfl⟩, by decide, by decide⟩,
    ⟨⟨rfl, rfl⟩, by decide⟩, ⟨⟨rfl, rfl⟩, by decide, _, rfl⟩⟩

/-- A chroma plane of 4×8 samples in an 8×8 image, WORK just large enough and one byte short; and one of full size. -/
def narrow (work : Nat) : State :=
  { finishing 3 (.upsample 1) with
    ch := ⟨plain 1, { plain 2 with pw := 4 }, plain 3⟩
    params := { Params.default with workMemSize := work } }

theorem isLeast_zero (a b : Nat) (h : a ≤ b) : IsLeast { k : Nat | a ≤ b * 2 ^ k } 0 :=
  ⟨by simpa using h, fun k _ => Nat.zero_le k⟩

theorem isLeast_one (a b : Nat) (h : a ≤ b * 2) (h' : b < a) : IsLeast { k : Nat | a ≤ b * 2 ^ k } 1 := by
  refine ⟨by simpa using h, fun k hk => ?_⟩
  rcases k with _ | k
  · have hb : a ≤ b := by simpa using hk
    omega
  · omega

theorem witness_UpsamplingReplicatesSamples :
    (EngineMoves (narrow 256) ∧ (narrow 256).phase = .finishing ∧ (narrow 256).fin = .upsample 1 ∧
      (narrow 256).planes.get 1 = some (plane [200]) ∧ (narrow 256).frame.width ≤ 65535 ∧
      IsLeast { k : Nat | (narrow 256).frame.width ≤ ((narrow 256).ch.get 1).pw * 2 ^ k } 1 ∧
      IsLeast { k : Nat | (narrow 256).frame.height ≤ ((narrow 256).ch.get 1).ph * 2 ^ k } 0 ∧
      (narrow 256).live + (narrow 256).frame.width * (narrow 256).frame.height ≤ (narrow 256).params.workMemSize) ∧
    (narrow 255).params.workMemSize < (narrow 255).live + (narrow 255).frame.width * (narrow 255).frame.height ∧
    (let s := finishing 3 (.upsample 2)
     EngineMoves s ∧ IsLeast { k : Nat | s.frame.width ≤ (s.ch.get 2).pw * 2 ^ k } 0) :=
  ⟨⟨⟨rfl, rfl⟩, rfl, rfl, rfl, by decide, isLeast_one 8 4 (by decide) (by decide), isLeast_zero 8 8 (by decide), by decide⟩,
    by decide, ⟨rfl, rfl⟩, isLeast_zero 8 8 (by decide)⟩

/-- W = 5 with a factor 1 against 2: three chroma samples. -/
theorem witness_ShiftIsTheFactorRatio :
    legalFactor 2 ∧ legalFactor 1 ∧ 2 = 1 * 2 ^ 1 ∧ 3 ≤ ceilDiv (5 * 1) 2 := by unfold legalFactor; decide

theorem witness_ColourOutputIsTheTransform :
    EngineMoves (finishing 3 .output) ∧ (finishing 3 .output).phase = .finishing ∧ (finishing 3 .output).fin = .output ∧
      (finishing 3 .output).frame.channels = 3 ∧
      (finishing 3 .output).planes = ⟨some (plane [100]), some (plane [200]), some (plane [50])⟩ := ⟨⟨rfl, rfl⟩, rfl, rfl, rfl, rfl⟩

theorem witness_GrayOutputIsThePlane :
    EngineMoves (finishing 1 .output) ∧ (finishing 1 .output).frame.channels = 1 ∧
      (finishing 1 .output).planes.get 0 = some (plane [100]) := ⟨⟨rfl, rfl⟩, rfl, rfl⟩

/-- The host wrote the last byte of the image, twice, and the byte after it, but not the byte after that. -/
theorem witness_CompletionReportsTheImage :
    let s := { finishing 3 .complete with busyWrites := [(191, 1), (191, 2), (192, 3)] }
    EngineMoves s ∧ s.phase = .finishing ∧ s.fin = .complete ∧
      s.frame.width * s.frame.height * s.frame.channels = 192 ∧ lastWrite s.busyWrites 191 = some 2 ∧
      lastWrite s.busyWrites 192 = some 3 ∧ lastWrite s.busyWrites 193 = none := ⟨⟨rfl, rfl⟩, by decide⟩

theorem witness_EngineWritesOutMemOnlyInFinishing :
    EngineMoves blockEnd ∧ blockEnd.phase ≠ .finishing ∧ ∃ t, step blockEnd = .next t := ⟨⟨rfl, rfl⟩, by decide, _, rfl⟩

theorem witness_TablesAreReadOnlyDuringTheScan :
    EngineMoves blockEnd ∧ blockEnd.phase ≠ .parsingHeader ∧ ∃ t, step blockEnd = .next t := ⟨⟨rfl, rfl⟩, by decide, _, rfl⟩

/-- Two memories that differ from LEN on. -/
theorem witness_EngineIgnoresBytesFromLenOn :
    let s := { header [0xFF, 0xD8, 0xFF, 0xD9, 0xFF, 0xD9, 0x01] with len := 6 }
    let m : Memory := { draw := 0, cells := cellsFrom 0 [0xFF, 0xD8, 0xFF, 0xD9, 0xFF, 0xD9, 0x02] }
    s.host = [] ∧ (∀ a < s.len, m.read a = s.inMem.read a) ∧ m.read 6 ≠ s.inMem.read 6 ∧ ∃ t, step s = .next t :=
  ⟨rfl, by decide, by decide, _, rfl⟩

/-- An idle core with an image, and one that has other values left by an earlier decode. -/
theorem witness_DecodeDependsOnlyOnItsInputs :
    let s := { header [0xFF, 0xD8, 0xFF, 0xD9, 0xFF, 0xD9] with phase := .idle, status := Status.afterLoad }
    let s' := { s with phase := .doneErr, errcode := .syntaxError, status := Status.ended .syntaxError, k := 9, ri := 4 }
    SameInputs s s' ∧ (∃ t, exec .decode s = .next t ∧ ∃ u, Sys2Proof.core.run 0 t = .next u) ∧
      ∃ t, exec .decode s' = .next t ∧ ∃ u, Sys2Proof.core.run 0 t = .next u :=
  ⟨⟨⟨rfl, rfl⟩, ⟨rfl, rfl⟩, ⟨rfl, rfl⟩, rfl, rfl, fun _ _ => rfl, rfl, rfl⟩, ⟨_, rfl, _, rfl⟩, _, rfl, _, rfl⟩

theorem witness_SpoiledDecodeStillEnds :
    let s := { header [] with spoiled := true, busyWrites := [(5, 1)] }
    s.host = [] ∧ s.spoiled = true ∧ s.status.busy = true ∧ s.params.outMemSize < 2 ^ 32 := by decide

theorem witness_RegistersReadTheirContents :
    let s := { State.reset with host := [.read 0xFC .four] }
    s.params.regBase % 4 = 0 ∧ 0xFC % 4 = 0 ∧ 0xFC < 0x100 ∧ s.host = .read (s.params.regBase + 0xFC) .four :: [] := by decide

theorem witness_RegisterWritesReachCtrlAndInLen :
    (let s := { State.reset with host := [.write 0x00 .four 3] }
     s.host = .write (s.params.regBase + 0x00) .four 3 :: [] ∧ s.status.busy = false) ∧
    (let s := { State.reset with host := [.write 0x10 .four 3] }
     s.host = .write (s.params.regBase + 0x10) .four 3 :: [] ∧ s.status.busy = false) ∧
    (let s := { State.reset with host := [.write 0xFC .four 3] }
     s.host = .write (s.params.regBase + 0xFC) .four 3 :: []) ∧
    (let s := { header [] with host := [.write 0x10 .four 3] }
     s.host = .write (s.params.regBase + 0x10) .four 3 :: [] ∧ s.status.busy = true) := by decide

/-- A byte access to the last register, a word access one off, and the byte past OUT_MEM. -/
theorem witness_BadAccessesStop :
    (let s := { State.reset with host := [.read 0xFF .one] }
     s.host = .read 0xFF .one :: [] ∧ 0xFF = s.params.regBase + 0xFF ∧ AccessSize.one ≠ .four) ∧
    (let s := { State.reset with host := [.write 0x11 .four 0] }
     s.host = .write 0x11 .four 0 :: [] ∧ 0x11 % 4 ≠ 0) ∧
    (let s := { State.reset with host := [.read 0x20FFF .two] }
     s.host = .read 0x20FFF .two :: [] ∧ s.params.regBase + 0x100 ≤ 0x20FFF ∧
       s.params.inBase + s.params.inMemSize < 0x20FFF + AccessSize.two.bytes ∧
       s.params.outBase + s.params.outMemSize < 0x20FFF + AccessSize.two.bytes) := by decide

/-- The last word of each memory, and of OUT_MEM in a decode. -/
theorem witness_MemoryAccessesAreLittleEndian :
    (let s := { State.reset with host := [.write 0x10FFC .four 5] }
     s.params.regBase + 0x100 ≤ 0x10FFC ∧ 0x10FFC = s.params.inBase + 0xFFC ∧
       0xFFC + AccessSize.four.bytes ≤ s.params.inMemSize ∧ s.host = .write 0x10FFC .four 5 :: []) ∧
    (let s := { State.reset with host := [.read 0x20FFC .four] }
     s.params.regBase + 0x100 ≤ 0x20FFC ∧ s.params.inBase + s.params.inMemSize < 0x20FFC + AccessSize.four.bytes ∧
       0x20FFC = s.params.outBase + 0xFFC ∧ 0xFFC + AccessSize.four.bytes ≤ s.params.outMemSize ∧
       s.status.busy = false ∧ s.host = .read 0x20FFC .four :: []) ∧
    (let s := { header [] with host := [.write 0x20FFC .four 5] }
     s.params.regBase + 0x100 ≤ 0x20FFC ∧ s.params.inBase + s.params.inMemSize < 0x20FFC + AccessSize.four.bytes ∧
       0x20FFC = s.params.outBase + 0xFFC ∧ 0xFFC + AccessSize.four.bytes ≤ s.params.outMemSize ∧
       s.status.busy = true ∧ s.host = .write 0x20FFC .four 5 :: []) := by decide

theorem witness_PowerOnAbandonsTheDecode : { header [] with host := [.powerOn] }.host = .powerOn :: [] := rfl

/-- A running scan meets every invariant. -/
def running : State :=
  { scan [0x12, 0x34] with ri := 2, scan := { (scan []).scan with countdown := 2 } }

theorem running_frame : FrameLegal running where
  width := by decide
  height := by decide
  channels := .inl rfl
  output := by decide
  hmax := .inl rfl
  vmax := .inl rfl
  mbw := by decide
  mbh := by decide
  factors := gray_channel rfl (by unfold legalFactor; decide)

theorem running_engine : EngineLegal running where
  inMem := by decide
  outMem := by decide
  busyWrites := by decide
  len := by decide
  seen := fun _ => rfl
  frame := fun _ _ => running_frame
  planes := fun _ _ => gray_channel rfl ⟨by decide, by decide, plane [], rfl, by decide⟩
  work := fun _ _ => by decide
  scan := fun _ => ⟨by decide, by decide, fun _ => by decide, fun _ => by decide, fun _ => by decide, fun _ _ => by decide⟩
  finish := fun h => nomatch h

theorem default_params : ParamsLegal Params.default where
  inMemSize := by decide
  outMemSize := by decide
  regsIn := .inl (by decide)
  regsOut := .inl (by decide)
  memories := .inl (by decide)
  kernel := accurate_njChenWang

theorem running_inv : Inv running where
  params := default_params
  status := { busyPhase := rfl, busyLoaded := fun _ => ⟨rfl, rfl, rfl⟩, errCode := rfl, errDone := (fun h => nomatch h),
              busyResults := fun _ => ⟨rfl, rfl, rfl, rfl⟩ }
  cursors := ⟨by decide, fun _ => by decide, fun _ => by decide, fun _ => by decide, by decide, by decide, by decide,
    by decide, fun _ => by decide⟩
  memories := ⟨by decide, by decide, by
    intro c m h
    fin_cases c
    · cases h; rfl
    · cases h
    · cases h⟩
  engine := running_engine

/-- The engine's turn, a power-on, and the three commands written to an idle core. -/
theorem witness_PhasesFollowTheTable :
    (StatusCoherent running ∧ ∃ t, step running = .next t) ∧
    (StatusCoherent { running with host := [.powerOn] } ∧ ∃ t, step { running with host := [.powerOn] } = .next t) ∧
    (∀ v : Word, StatusCoherent { State.reset with host := [.write 4 .four v] } ∧
      CommandWritten { State.reset with host := [.write 4 .four v] } v) :=
  ⟨⟨running_inv.status, _, rfl⟩, ⟨⟨rfl, fun _ => ⟨rfl, rfl, rfl⟩, rfl, (fun h => nomatch h), fun _ => ⟨rfl, rfl, rfl, rfl⟩⟩, _, rfl⟩,
    fun _ => ⟨⟨rfl, (fun h => nomatch h), rfl, (fun h => nomatch h), fun h => nomatch h⟩, [], rfl⟩⟩

theorem witness_StepKeepsStatusCoherent : StatusCoherent running ∧ ∃ t, step running = .next t := ⟨running_inv.status, _, rfl⟩
theorem witness_StepKeepsCursorsBounded : CursorsBounded running ∧ ∃ t, step running = .next t := ⟨running_inv.cursors, _, rfl⟩
theorem witness_StepKeepsMemoriesCanonical : MemoriesCanonical running ∧ ∃ t, step running = .next t :=
  ⟨running_inv.memories, _, rfl⟩
theorem witness_StepKeepsEngineLegal : EngineLegal running ∧ ∃ t, step running = .next t := ⟨running_engine, _, rfl⟩
theorem witness_EveryDecodeCompletes : Inv running ∧ running.host = [] ∧ running.status.busy = true := ⟨running_inv, rfl, rfl⟩

end Sys2Proof.Tests
end

section
/-! PROOF. The state after reset, and what a register read returns (10_state.md R21 to R32, R47). -/

namespace Sys2Proof.Machine

/-! ### Reset -/

theorem regRead_reset (off : Nat) : regRead State.reset off = 0 := by
  unfold regRead
  repeat' split
  all_goals rfl

/-- No Huffman slot holds a code, so every entry is invalid. -/
theorem ht_reset (slot : Fin 4) : State.reset.ht.get slot = [] := by fin_cases slot <;> rfl

theorem planes_reset (c : Fin 3) : State.reset.planes.get c = none := by fin_cases c <;> rfl

/-- The default parameters lie in the ranges the spec asks for; the kernel is NJ_CHEN_WANG (log entries 3, 12). -/
theorem paramsLegal_reset : ParamsLegal State.reset.params where
  inMemSize := by decide
  outMemSize := by decide
  regsIn := .inl (by decide)
  regsOut := .inl (by decide)
  memories := .inl (by decide)
  kernel := accurate_njChenWang

theorem statusCoherent_reset : StatusCoherent State.reset where
  busyPhase := rfl
  busyLoaded := nofun
  errCode := rfl
  errDone := nofun
  busyResults := nofun

theorem not_scanning_idle : ¬ Phase.idle.scanning := by rintro (h | h) <;> cases h

theorem cursorsBounded_reset : CursorsBounded State.reset where
  len := by decide
  cursor := nofun
  rcur := fun h => absurd h not_scanning_idle
  bits := fun h => absurd h not_scanning_idle
  interval := by decide
  countdown := by decide
  nextRst := by decide
  index := ⟨by decide, nofun⟩

theorem memoriesCanonical_reset : MemoriesCanonical State.reset where
  inMem := rfl
  outMem := rfl
  planes := fun c _ h => by rw [planes_reset c] at h; cases h

/-- The memories are empty, and an idle engine owes nothing more. -/
theorem engineLegal_reset : EngineLegal State.reset where
  inMem := rfl
  outMem := rfl
  busyWrites := rfl
  len := by decide
  seen := by rintro (h | h); exacts [absurd h not_scanning_idle, nomatch h]
  frame := nofun
  planes := nofun
  work := nofun
  scan := fun h => absurd h not_scanning_idle
  finish := nofun

/-! ### Register reads -/

/-- A 32-bit access at an aligned offset of an aligned register block reaches the register (20_memory.md R78). -/
theorem placeOf_register {p : Params} {off : Nat} (hb : p.regBase % 4 = 0) (ho : off % 4 = 0) (hlt : off < 0x100) :
    placeOf p (p.regBase + off) .four = .register off := by
  have hin : p.regBase ≤ p.regBase + off ∧ p.regBase + off < p.regBase + 0x100 := by omega
  have hal : AccessSize.four = .four ∧ (p.regBase + off) % 4 = 0 ∧ (p.regBase + off - p.regBase) % 4 = 0 :=
    ⟨rfl, by omega, by omega⟩
  rw [placeOf, if_pos hin, if_pos hal, Nat.add_sub_cancel_left]

theorem step_read_register {s : State} {off : Nat} {rest : List HostOp} (hb : s.params.regBase % 4 = 0)
    (ho : off % 4 = 0) (hlt : off < 0x100) (hs : s.host = .read (s.params.regBase + off) .four :: rest) :
    step s = .next { s with host := rest, readData := regRead s off } := by
  have hf : fetch s = .done (hostRead (s.params.regBase + off) .four { s with host := rest }) := by
    simp [fetch, hs, hostTurn]
  have hp : placeOf { s with host := rest }.params (s.params.regBase + off) .four = .register off :=
    placeOf_register hb ho hlt
  rw [step_done hf, hostRead, hp]
  rfl

/-- The four bits of STATUS as a number (10_state.md R24). -/
theorem Status.word_eq (st : Status) :
    st.word = BitVec.ofNat 32 (st.loaded.toNat + 2 * st.busy.toNat + 4 * st.done.toNat + 8 * st.err.toNat) := by
  obtain ⟨l, b, d, e⟩ := st
  revert l b d e
  decide

/-- CMD and every reserved offset read 0 (R23, R32). -/
theorem regRead_reserved (s : State) {off : Nat} (h : off = 0x04 ∨ 0x28 ≤ off) : regRead s off = 0 := by
  unfold regRead
  rcases h with rfl | h
  · rfl
  · simp [show off ≠ 0x00 by omega, show off ≠ 0x08 by omega, show off ≠ 0x0C by omega, show off ≠ 0x10 by omega,
      show off ≠ 0x14 by omega, show off ≠ 0x18 by omega, show off ≠ 0x1C by omega, show off ≠ 0x20 by omega,
      show off ≠ 0x24 by omega]

end Sys2Proof.Machine

open Sys2Proof Sys2Proof.Machine

/-- Settles O53: the reset state is written out, and each value is read off it. -/
theorem resetValues : Obligations.ResetValues :=
  ⟨regRead_reset, rfl, rfl, rfl, rfl, rfl, rfl, by decide, fun slot x => by rw [ht_reset]; rfl, rfl, rfl⟩

/-- Settles O55, invariant by invariant. -/
theorem resetMeetsTheInvariants : Obligations.ResetMeetsTheInvariants where
  params := paramsLegal_reset
  status := statusCoherent_reset
  cursors := cursorsBounded_reset
  memories := memoriesCanonical_reset
  engine := engineLegal_reset

/-- Settles O49: the read returns `regRead`, whose value at each offset is the register's. -/
theorem registersReadTheirContents : Obligations.RegistersReadTheirContents := by
  intro s off rest hb ho hlt hs
  refine ⟨regRead s off, step_read_register hb ho hlt hs, ?_, ?_, ?_, ?_, ?_, ?_, ?_, ?_, ?_, regRead_reserved s⟩ <;>
    rintro rfl
  case refine_2 => exact s.status.word_eq
  case refine_3 =>
    show s.errcode.code = _
    cases s.errcode <;> rfl
  all_goals rfl
end

section
/-! PROOF. How a computation that may raise ends: a postcondition for the value it answers, and one for the state an
error is raised in. -/

namespace Sys2Proof.Machine

/-- `r` answers a value that meets `Q`, or raises an error in a state that meets `E`. -/
def Ends {α : Type} (Q : α → Prop) (E : State → Prop) : Except Abort α → Prop
  | .ok a => Q a
  | .error e => E e.state

variable {α β : Type} {Q : α → Prop} {R : β → Prop} {E : State → Prop}

theorem Ends.bind {r : Except Abort α} {f : α → Except Abort β} (hr : Ends Q E r) (hf : ∀ a, Q a → Ends R E (f a)) :
    Ends R E (r >>= f) := by
  cases r with
  | ok a => exact hf a hr
  | error e => exact hr

theorem Ends.mono {Q' : α → Prop} {E' : State → Prop} {r : Except Abort α} (hr : Ends Q E r) (hq : ∀ a, Q a → Q' a)
    (he : ∀ u, E u → E' u) : Ends Q' E' r := by
  cases r with
  | ok a => exact hq a hr
  | error e => exact he _ hr

theorem Ends.failIf {b : Bool} {k : ErrCode} {s : State} {f : State → Except Abort β} (he : E s) (hf : Ends R E (f s)) :
    Ends R E (failIf b k s >>= f) := by
  cases b with
  | false => exact hf
  | true => exact he

theorem Ends.readSegment {s : State} {f : Segment × State → Except Abort β} (he : E s)
    (hf : SegmentFits s →
      Ends R E (f (⟨s.cursor + 2, be16 s s.cursor - 2⟩, { s with cursor := s.cursor + be16 s s.cursor }))) :
    Ends R E (readSegment s >>= f) := by
  by_cases h : SegmentFits s
  · rw [readSegment_ok.2 ⟨h, rfl, rfl⟩]
    exact hf h
  · rw [readSegment_error h]
    exact he

/-- A loop over the channels keeps what each of its turns keeps. -/
theorem Ends.foldlM {P : State → Prop} {f : State → Fin 3 → Except Abort State} (hf : ∀ u c, P u → Ends P E (f u c))
    (l : List (Fin 3)) {s : State} (hs : P s) : Ends P E (l.foldlM f s) := by
  induction l generalizing s with
  | nil => exact hs
  | cons c rest ih => exact (hf s c hs).bind fun u hu => ih hu

/-- A step that settles: the answer is the next state, and an error ends the decode. -/
theorem Ends.settle {P : State → Prop} {r : Except Abort State} {t : State}
    (hr : Ends P (fun u => ∀ k, P (raiseError k u)) r) (h : settle r = .next t) : P t := by
  cases r with
  | ok u => cases h; exact hr
  | error e => cases h; exact hr e.kind

end Sys2Proof.Machine
end

section
/-! PROOF. The kinds of turn a step can be. -/

namespace Sys2Proof.Machine

/-- The decoder answers only instructions of the format it reads. -/
theorem format_decodeMarkerKind (kk : Byte) : (decodeMarkerKind kk).format = .marker := by
  unfold decodeMarkerKind
  repeat' split
  all_goals rfl

theorem format_decodeCommand (v : Word) : (decodeCommand v).format = .cmd32 := by
  unfold decodeCommand
  repeat' split
  all_goals rfl

theorem format_decodeAcSymbol (sym : Byte) : (decodeAcSymbol sym).format = .acSym8 := by
  unfold decodeAcSymbol
  repeat' split
  all_goals rfl

/-- What the next step does with what was fetched. -/
def Fetched.outcome : Fetched → Host.Outcome State Fault Refusal
  | .run i s => exec i s
  | .done o => o

theorem step_eq (s : State) : step s = (fetch s).outcome := by
  unfold step
  cases fetch s <;> rfl

theorem outcome_runDecoded_ok {r : Except DecodeError (Instr × List Byte)} {i : Instr} {rest : List Byte} (s : State)
    (h : r = .ok (i, rest)) : (runDecoded r s).outcome = exec i s := by rw [h]; rfl

/-- One byte form of a lookahead, or padding, is one `Fetch()` of the bit reader (43_bitreader.md R231, R232). -/
theorem outcome_fetchForm (s : State) : (fetchForm s).outcome = settle (fetchByte s) := by
  unfold fetchForm fetchByte
  split
  · rfl
  · rcases takeForm s with e | ⟨f, u⟩
    · rfl
    · exact exec_form f u

/-- What an engine turn does, by the phase it is taken in (40_host_commands.md R138, 46_scan_decoder.md R340). -/
inductive EngineMove (s : State) : State → Prop
  /-- The host broke 20_memory.md R81, and the decode ends. -/
  | spoiled (broken : s.spoiled = true) (busy : s.status.busy = true) : EngineMove s (spoiledEnd s)
  /-- The engine is not working. -/
  | hold (idle : s.phase.busy = false) : EngineMove s s
  /-- What stands at the cursor is no instruction, or no code word. -/
  | reject (busy : s.phase.busy = true) : EngineMove s (raiseError .syntaxError s)
  | framing {t : State} (phase : s.phase = .parsingHeader) (done : settle (checkFraming s) = .next t) : EngineMove s t
  | marker {i : Instr} {t : State} (phase : s.phase = .parsingHeader) (room : s.cursor + 2 ≤ s.len)
      (format : i.format = .marker) (done : exec i { s with cursor := s.cursor + 2 } = .next t) : EngineMove s t
  /-- Fewer than the 16 bits a symbol is looked up with are held. -/
  | refill {t : State} (phase : s.phase = .decodingMcu) (few : s.reader.nb < 16)
      (done : settle (fetchByte s) = .next t) : EngineMove s t
  /-- A symbol, its code word of `n` bits consumed. -/
  | symbol {i : Instr} {n : Nat} {t : State} (phase : s.phase = .decodingMcu)
      (held : 16 ≤ s.reader.nb)
      (format : s.scan.step = .dc ∧ i.format = .dcSym8 ∨ s.scan.step = .ac ∧ i.format = .acSym8)
      (done : exec i (skipBits n s) = .next t) : EngineMove s t
  | block (phase : s.phase = .decodingMcu) (step : s.scan.step = .idct) : EngineMove s (finishBlock s)
  | restart {t : State} (phase : s.phase = .atRestartBoundary) (done : settle (restartStep s) = .next t) :
      EngineMove s t
  | finish {t : State} (phase : s.phase = .finishing) (done : settle (finishStep s) = .next t) : EngineMove s t

theorem length_inBytes (s : State) (a n : Nat) : (inBytes s a n).length = min n (s.len - a) :=
  Memory.length_readBytes ..

theorem engineMove_of_fetchFraming {s t : State} (hp : s.phase = .parsingHeader)
    (h : (fetchFraming s).outcome = .next t) : EngineMove s t := by
  have hbusy : s.phase.busy = true := by rw [hp]; rfl
  unfold fetchFraming at h
  split at h
  · cases h; exact .reject hbusy
  · rcases hb : inBytes s 0 2 with _ | ⟨b0, _ | ⟨b1, rest⟩⟩
    · rw [hb] at h; cases h; exact .reject hbusy
    · rw [hb] at h; cases h; exact .reject hbusy
    · rw [hb, decode] at h
      split at h
      · exact .framing hp h
      · cases h; exact .reject hbusy

theorem engineMove_of_fetchMarker {s t : State} (hp : s.phase = .parsingHeader)
    (h : (fetchMarker s).outcome = .next t) : EngineMove s t := by
  have hbusy : s.phase.busy = true := by rw [hp]; rfl
  have hlen := length_inBytes s s.cursor 2
  unfold fetchMarker at h
  rcases hb : inBytes s s.cursor 2 with _ | ⟨b0, _ | ⟨b1, rest⟩⟩
  · rw [hb] at h; cases h; exact .reject hbusy
  · rw [hb] at h; cases h; exact .reject hbusy
  · rw [hb, decode] at h
    rw [hb, List.length_cons, List.length_cons] at hlen
    by_cases hff : b0 = 0xFF#8
    · rw [if_pos hff] at h
      exact .marker hp (by omega) (format_decodeMarkerKind b1) h
    · rw [if_neg hff] at h; cases h; exact .reject hbusy

theorem huffTake_cases (slot : Fin 4) (s : State) :
    (∃ sym n, huffTake slot s = .ok (sym, skipBits n s)) ∨ huffTake slot s = .error ⟨.syntaxError, s⟩ := by
  unfold huffTake
  dsimp only
  split
  · exact .inr rfl
  · exact .inl ⟨_, _, rfl⟩

/-- A turn that needs a symbol of format `f`, all of whose words are instructions. -/
theorem engineMove_of_fetchSymbol {s t : State} {f : Format} {slot : Fin 4} (read : Byte → Instr)
    (hf : ∀ sym, decode f [sym] = .ok (read sym, [])) 
    (hr : ∀ sym, s.scan.step = .dc ∧ (read sym).format = .dcSym8 ∨ s.scan.step = .ac ∧ (read sym).format = .acSym8)
    (hp : s.phase = .decodingMcu) (h : (fetchSymbol f slot s).outcome = .next t) : EngineMove s t := by
  unfold fetchSymbol at h
  split at h
  · next hn =>
    rw [outcome_fetchForm] at h
    exact .refill hp hn h
  · next hn =>
    rcases huffTake_cases slot s with ⟨sym, n, hu⟩ | hu
    · simp only [hu] at h
      rw [outcome_runDecoded_ok _ (hf sym)] at h
      exact .symbol hp (Nat.not_lt.1 hn) (hr sym) h
    · simp only [hu] at h
      cases h
      exact .reject (by rw [hp]; rfl)

theorem engineMove_of_engineTurn {s t : State} (h : (engineTurn s).outcome = .next t) : EngineMove s t := by
  unfold engineTurn at h
  split at h
  · next hs =>
    obtain ⟨hbroken, hbusy⟩ := Bool.and_eq_true_iff.1 hs
    cases h
    exact .spoiled hbroken hbusy
  · cases hp : s.phase <;> simp only [hp] at h
    case idle | doneOk | doneErr => cases h; exact .hold (by rw [hp]; rfl)
    case parsingHeader =>
      split at h
      · exact engineMove_of_fetchFraming hp h
      · exact engineMove_of_fetchMarker hp h
    case decodingMcu =>
      cases hs : s.scan.step <;> simp only [hs] at h
      case dc => exact engineMove_of_fetchSymbol decodeDcSymbol (fun _ => rfl) (fun _ => .inl ⟨hs, rfl⟩) hp h
      case ac =>
        exact engineMove_of_fetchSymbol decodeAcSymbol (fun _ => rfl)
          (fun sym => .inr ⟨hs, format_decodeAcSymbol sym⟩) hp h
      case idct => cases h; exact .block hp hs
    case atRestartBoundary => exact .restart hp h
    case finishing => exact .finish hp h

/-- What a step does once the host's access, if any, is off the queue. -/
inductive Move (s : State) : State → Prop
  | read {addr : Nat} {size : AccessSize} {t : State} (done : hostRead addr size s = .next t) : Move s t
  | write {addr : Nat} {size : AccessSize} {v : Word} {t : State} (done : hostWrite addr size v s = .next t) : Move s t
  | command {i : Instr} {t : State} (format : i.format = .cmd32) (done : exec i s = .next t) : Move s t
  | powerOn : Move s (powerOnReset s)
  | engine {t : State} (move : EngineMove s t) : Move s t

theorem move_of_hostTurn {s t : State} {op : HostOp} (h : (hostTurn op s).outcome = .next t) : Move s t := by
  cases op with
  | read addr size => exact .read h
  | write addr size v =>
    unfold hostTurn at h
    dsimp only at h
    split at h
    · exact .command (format_decodeCommand _) h
    · exact .write h
  | engine => exact .engine (engineMove_of_engineTurn h)
  | powerOn => cases h; exact .powerOn

/-- A step is a move from the state with its oldest access off the queue. -/
theorem move_of_step {s t : State} (h : step s = .next t) : Move { s with host := s.host.tail } t := by
  rw [step_eq] at h
  unfold fetch at h
  split at h
  · next hq =>
    have hs : { s with host := s.host.tail } = s := by rw [hq, List.tail_nil, ← hq]
    rw [hs]
    exact .engine (engineMove_of_engineTurn h)
  · next op rest hq =>
    rw [hq]
    exact move_of_hostTurn h

/-- A property that does not look at the queue and that every move keeps is kept by every step. -/
theorem step_keeps {P : State → Prop} (hq : ∀ s q, P s → P { s with host := q }) (hm : ∀ s t, P s → Move s t → P t)
    {s t : State} (hs : P s) (h : step s = .next t) : P t :=
  hm _ _ (hq s s.host.tail hs) (move_of_step h)

end Sys2Proof.Machine
end

section
/-! PROOF. What each kind of turn can change: one relation per kind, and the lemma that says its operations keep to
it. -/

namespace Sys2Proof.Machine

/-! ### The header -/

/-- What a marker's handler leaves as it was: all but CURSOR, the frame and its channels and planes, the tables and RI.
A cursor within the codestream stays there, and RI within its width. -/
structure HeaderKept (s t : State) : Prop where
  only : { t with cursor := s.cursor, frame := s.frame, ch := s.ch, planes := s.planes, qt := s.qt,
                  qtLoaded := s.qtLoaded, ht := s.ht, ri := s.ri, draws := s.draws } = s
  cursor : s.cursor ≤ s.len → t.cursor ≤ t.len
  interval : s.ri < 2 ^ 16 → t.ri < 2 ^ 16

theorem HeaderKept.refl (s : State) : HeaderKept s s := ⟨rfl, id, id⟩

theorem HeaderKept.trans {s t u : State} (h : HeaderKept s t) (h' : HeaderKept t u) : HeaderKept s u where
  only := by
    have hu := congrArg (fun x : State => { x with
      cursor := s.cursor, frame := s.frame, ch := s.ch, planes := s.planes, qt := s.qt, qtLoaded := s.qtLoaded,
      ht := s.ht, ri := s.ri, draws := s.draws }) h'.only
    exact hu.trans h.only
  cursor hs := h'.cursor (h.cursor hs)
  interval hs := h'.interval (h.interval hs)

theorem HeaderKept.phase_eq {s t : State} (h : HeaderKept s t) : t.phase = s.phase := (congrArg State.phase h.only :)

theorem headerKept_segment {s : State} (h : SegmentFits s) :
    HeaderKept s { s with cursor := s.cursor + be16 s s.cursor } := ⟨rfl, fun _ => h.inside, id⟩

/-- A postcondition of what follows a part of a handler holds of the whole. -/
theorem Ends.afterHeader {s u : State} {r : Except Abort State} (hu : HeaderKept s u)
    (hr : Ends (HeaderKept u) (HeaderKept u) r) : Ends (HeaderKept s) (HeaderKept s) r :=
  hr.mono (fun _ => hu.trans) (fun _ => hu.trans)

theorem checkFraming_ends (s : State) : Ends (HeaderKept s) (HeaderKept s) (checkFraming s) := by
  unfold checkFraming
  split
  · exact .refl s
  · next hlen =>
    split
    · exact .refl s
    · split
      · exact .refl s
      · exact ⟨rfl, fun _ => show 2 ≤ s.len by omega, id⟩

theorem readChannel_ends (g : Segment) (s : State) (c : Fin 3) :
    Ends (HeaderKept s) (HeaderKept s) (readChannel g s c) := by
  rcases readChannel_result g s c with ⟨r, h⟩ | ⟨k, h⟩ <;> rw [h]
  · exact ⟨rfl, id, id⟩
  · exact .refl s

theorem selectTables_ends (g : Segment) (s : State) (c : Fin 3) :
    Ends (HeaderKept s) (HeaderKept s) (selectTables g s c) := by
  rcases selectTables_result g s c with ⟨r, h⟩ | h <;> rw [h]
  · exact ⟨rfl, id, id⟩
  · exact .refl s

theorem headerKept_forceGray (nc : Nat) (s : State) : HeaderKept s (forceGray nc s) := by
  unfold forceGray
  split
  · exact ⟨rfl, id, id⟩
  · exact .refl s

theorem allocate_ends (w h nc : Nat) (s : State) : Ends (HeaderKept s) (HeaderKept s) (allocate w h nc s) := by
  unfold allocate
  split
  · exact .refl s
  · split
    · exact .refl s
    · exact ⟨rfl, id, id⟩

theorem parseFrame_ends (g : Segment) (w h nc : Nat) (s : State) :
    Ends (HeaderKept s) (HeaderKept s) (parseFrame g w h nc s) := by
  unfold parseFrame
  refine (Ends.foldlM (fun u c hu => .afterHeader hu (readChannel_ends g u c)) _ (.refl s)).bind fun u hu => ?_
  have hgeo : HeaderKept s (geometry w h nc (forceGray nc u)) :=
    hu.trans ((headerKept_forceGray nc u).trans ⟨rfl, id, id⟩)
  refine .failIf hgeo (Ends.bind (.afterHeader hgeo (allocate_ends w h nc _)) fun v hv => ?_)
  exact hv.trans ⟨rfl, id, id⟩

theorem parseSof_ends (s : State) : Ends (HeaderKept s) (HeaderKept s) (parseSof s) := by
  unfold parseSof
  refine .failIf (.refl s) (.readSegment (.refl s) fun hfit => ?_)
  have hg := headerKept_segment hfit
  exact .failIf hg (.failIf hg (.failIf hg (.failIf hg (.failIf hg (.afterHeader hg (parseFrame_ends ..))))))

theorem parseDht_ends (s : State) : Ends (HeaderKept s) (HeaderKept s) (parseDht s) := by
  unfold parseDht
  refine .readSegment (.refl s) fun hfit => .afterHeader (headerKept_segment hfit) ?_
  dsimp only
  rcases parseDefinitions_result _ _ 0 { s with cursor := s.cursor + be16 s s.cursor } with ⟨ht, h⟩ | ⟨ht, k, h⟩ <;>
    rw [h] <;> exact ⟨rfl, id, id⟩

theorem parseDqt_ends (s : State) : Ends (HeaderKept s) (HeaderKept s) (parseDqt s) := by
  unfold parseDqt
  refine .readSegment (.refl s) fun hfit => .afterHeader (headerKept_segment hfit) ?_
  dsimp only
  rcases parseQuantGroups_result _ _ 0 { s with cursor := s.cursor + be16 s s.cursor } with ⟨q, l, h⟩ | ⟨q, l, h⟩ <;>
    rw [h] <;> exact ⟨rfl, id, id⟩

theorem be16_lt (s : State) (a : Nat) : be16 s a < 2 ^ 16 := by
  have h0 := (inRead s a).isLt
  have h1 := (inRead s (a + 1)).isLt
  unfold be16
  omega

theorem parseDri_ends (s : State) : Ends (HeaderKept s) (HeaderKept s) (parseDri s) := by
  unfold parseDri
  refine .readSegment (.refl s) fun hfit => .failIf (headerKept_segment hfit) ?_
  exact (headerKept_segment hfit).trans ⟨rfl, id, fun _ => be16_lt _ _⟩

theorem skipSegment_ends (s : State) : Ends (HeaderKept s) (HeaderKept s) (skipSegment s) := by
  unfold skipSegment
  exact .readSegment (.refl s) fun hfit => headerKept_segment hfit

/-- How a marker's handler goes on: in the header, or at the start of a scan at CURSOR (46_scan_decoder.md R330). -/
def HeaderDone (s t : State) : Prop := HeaderKept s t ∨ ∃ u, HeaderKept s u ∧ t = startScan u.cursor u

theorem parseSos_ends (s : State) : Ends (HeaderDone s) (HeaderKept s) (parseSos s) := by
  unfold parseSos
  refine .failIf (.refl s) (.readSegment (.refl s) fun hfit => ?_)
  have hg := headerKept_segment hfit
  refine .failIf hg (.failIf hg (.failIf hg ?_))
  refine (Ends.foldlM (fun u c hu => .afterHeader hu (selectTables_ends _ u c)) _ hg).bind fun u hu => ?_
  exact .failIf hu (.failIf hu (.inr ⟨u, hu, rfl⟩))

/-- Every marker's meaning settles a computation that keeps to the header's part of the state. -/
theorem exec_marker_settles {i : Instr} (hi : i.format = .marker) (s : State) :
    ∃ r, exec i s = settle r ∧ Ends (HeaderDone s) (HeaderKept s) r := by
  have header {r : Except Abort State} (h : Ends (HeaderKept s) (HeaderKept s) r) :
      Ends (HeaderDone s) (HeaderKept s) r := h.mono (fun _ => .inl) (fun _ => id)
  cases i <;> cases hi
  case sof0.refl => exact ⟨_, rfl, header (parseSof_ends s)⟩
  case dht.refl => exact ⟨_, rfl, header (parseDht_ends s)⟩
  case dqt.refl => exact ⟨_, rfl, header (parseDqt_ends s)⟩
  case dri.refl => exact ⟨_, rfl, header (parseDri_ends s)⟩
  case sos.refl => exact ⟨_, rfl, parseSos_ends s⟩
  case appn.refl n => exact ⟨_, rfl, header (skipSegment_ends s)⟩
  case com.refl => exact ⟨_, rfl, header (skipSegment_ends s)⟩
  case eoi.refl => exact ⟨.error ⟨.syntaxError, s⟩, rfl, HeaderKept.refl s⟩
  case markerOther.refl kk => exact ⟨.error ⟨.syntaxError, s⟩, rfl, HeaderKept.refl s⟩

/-! ### The bit reader -/

/-- RCUR is within the codestream (43_bitreader.md R245), and ACC holds at most 31 valid bits (R243). -/
structure ReaderFits (s : State) : Prop where
  rcur : s.reader.rcur ≤ s.len
  bits : s.reader.nb ≤ 31

/-- What an operation of the bit reader that goes on leaves as it was, its bounds among it. -/
structure ReaderKept (s t : State) : Prop where
  only : ReaderOnly s t
  fits : ReaderFits s → ReaderFits t

theorem ReaderKept.refl (s : State) : ReaderKept s s := ⟨.refl s, id⟩

theorem ReaderKept.trans {s t u : State} (h : ReaderKept s t) (h' : ReaderKept t u) : ReaderKept s u :=
  ⟨h.only.trans h'.only, fun hs => h'.fits (h.fits hs)⟩

theorem readerKept_skipBits (n : Nat) (s : State) : ReaderKept s (skipBits n s) :=
  ⟨readerOnly_skipBits n s, fun h => ⟨h.rcur, (Nat.sub_le s.reader.nb n).trans h.bits⟩⟩

theorem length_encode_ecsPair (x : Byte) : (encode (ecsPair x).toInstr).length = 2 := by
  unfold ecsPair
  repeat' split
  all_goals rfl

/-- A byte form is as long as its bytes, and takes at least one. -/
theorem length_decodeEcs {bytes rest : List Byte} {f : EcsForm} (h : decodeEcs bytes = .ok (f, rest)) :
    1 ≤ (encode f.toInstr).length ∧ (encode f.toInstr).length + rest.length = bytes.length := by
  rcases bytes with _ | ⟨b, rest'⟩
  · cases h
  · unfold decodeEcs at h
    dsimp only at h
    split at h
    · rcases rest' with _ | ⟨x, rest'⟩
      · cases h
      · cases h
        rw [length_encode_ecsPair, List.length_cons, List.length_cons]
        omega
    · cases h
      exact ⟨le_rfl, Nat.add_comm ..⟩

/-- A byte form lies below LEN, and RCUR moves past it. -/
theorem takeForm_ok {s t : State} {f : EcsForm} (h : takeForm s = .ok (f, t)) :
    t.reader.rcur ≤ t.len := by
  unfold takeForm at h
  split at h
  · cases h
  · next rest hd =>
    have hlen := length_decodeEcs hd
    rw [length_inBytes] at hlen
    cases h
    show s.reader.rcur + _ ≤ s.len
    omega

theorem ecsEffect_rcur (f : EcsForm) (s : State) :
    Ends (fun t => t.reader.rcur = s.reader.rcur ∧ t.len = s.len) (fun _ => True) (ecsEffect f s) := by
  cases f with
  | illegal x => trivial
  | _ => exact ⟨rfl, rfl⟩

theorem fetchByte_rcur {s : State} (hs : s.reader.rcur ≤ s.len) :
    Ends (fun t => t.reader.rcur ≤ t.len) (fun _ => True) (fetchByte s) := by
  unfold fetchByte
  split
  · exact hs
  · rcases ht : takeForm s with e | ⟨f, u⟩
    · trivial
    · refine (ecsEffect_rcur f u).mono (fun t h => ?_) (fun _ => id)
      rw [h.1, h.2]
      exact takeForm_ok ht

/-- A fetch made with fewer than 16 bits held keeps the reader's bounds: it adds at most 16. -/
theorem fetchByte_ends {s : State} (hn : s.reader.nb < 16) : Ends (ReaderKept s) (ReaderOnly s) (fetchByte s) := by
  rcases fetchByte_result s with ⟨t, ht, hst⟩ | ⟨t, ht, hst⟩
  · have hfits : ReaderFits s → ReaderFits t := by
      intro hs
      have hr := fetchByte_rcur hs.rcur
      rw [ht] at hr
      exact ⟨hr, by rcases fetchByte_bits ht with h | h <;> omega⟩
    rw [ht]
    exact ⟨hst, hfits⟩
  · rw [ht]
    exact hst

theorem fillBits_ends (fuel : Nat) {k : Nat} (hk : k ≤ 16) (s : State) :
    Ends (ReaderKept s) (ReaderOnly s) (fillBits fuel k s) := by
  induction fuel generalizing s with
  | zero => exact .refl s
  | succ fuel ih =>
    unfold fillBits
    split
    · exact (fetchByte_ends (by omega)).bind fun u hu => (ih u).mono (fun _ => hu.trans) (fun _ => hu.only.trans)
    · exact .refl s

theorem getBits_ends {k : Nat} (hk : k ≤ 16) (s : State) :
    Ends (fun p => ReaderKept s p.2) (ReaderOnly s) (getBits k s) := by
  have hshow : Ends (fun p => ReaderKept s p.2) (ReaderOnly s) (showBits k s) :=
    (fillBits_ends k hk s).bind fun u hu => hu
  exact hshow.bind fun p hp => hp.trans (readerKept_skipBits k p.2)

theorem receiveExtend_ends {size : Nat} (hk : size ≤ 16) (s : State) :
    Ends (fun p => ReaderKept s p.2) (ReaderOnly s) (receiveExtend size s) := by
  unfold receiveExtend
  split
  · exact .refl s
  · exact (getBits_ends hk s).bind fun p hp => hp

/-! ### Symbols -/

/-- What a symbol leaves as it was, whether it goes on or not: all but the reader, the predictors, the block and its
step, and RST_EVENTS. A symbol moves K by at most 16. -/
structure SymbolKept (s t : State) : Prop where
  only : { t with reader := s.reader, rstEvents := s.rstEvents, ch := s.ch, blk := s.blk, k := s.k,
                  scan := { t.scan with step := s.scan.step } } = s
  index : t.k ≤ s.k + 16

/-- The same of a symbol that goes on: the reader and K keep their bounds. -/
structure SymbolDone (s t : State) : Prop extends SymbolKept s t where
  fits : ReaderFits s → ReaderFits t
  placed : s.k ≤ 63 → t.k ≤ 63

theorem SymbolKept.phase_eq {s t : State} (h : SymbolKept s t) : t.phase = s.phase := (congrArg State.phase h.only :)

theorem ReaderOnly.symbolKept {s t : State} (h : ReaderOnly s t) : SymbolKept s t := by
  obtain ⟨r, e, rfl⟩ := h
  exact ⟨rfl, Nat.le_add_right ..⟩

theorem symbolDone_endBlock (s : State) : SymbolDone s (endBlock s) :=
  ⟨⟨rfl, Nat.le_add_right ..⟩, fun h => ⟨h.rcur, h.bits⟩, id⟩

theorem symbolDone_storeDc {s u : State} (d : Word) (hu : ReaderKept s u) : SymbolDone s (storeDc d u) := by
  obtain ⟨⟨r, e, rfl⟩, hfits⟩ := hu
  exact ⟨⟨rfl, Nat.zero_le _⟩, fun h => ⟨(hfits h).rcur, (hfits h).bits⟩, fun _ => Nat.zero_le _⟩

theorem symbolDone_storeAc {s u : State} {n : Nat} (v : Word) (hu : ReaderKept s u) (hn : n ≤ s.k + 16) (h63 : n ≤ 63) :
    SymbolDone s (storeAc v { u with k := n }) := by
  obtain ⟨⟨r, e, rfl⟩, hfits⟩ := hu
  unfold storeAc
  dsimp only
  split <;> exact ⟨⟨rfl, hn⟩, fun h => ⟨(hfits h).rcur, (hfits h).bits⟩, fun _ => h63⟩

/-- A symbol's value bits are read by the bit reader alone. -/
theorem receiveExtend_symbol {size : Nat} (hk : size ≤ 16) (s : State) :
    Ends (fun p => ReaderKept s p.2) (SymbolKept s) (receiveExtend size s) :=
  (receiveExtend_ends hk s).mono (fun _ => id) fun _ => ReaderOnly.symbolKept

theorem runValue_ends {run size : Nat} (hr : run ≤ 15) (hk : size ≤ 16) (s : State) :
    Ends (SymbolDone s) (SymbolKept s) (runValue run size s) := by
  unfold runValue
  refine (receiveExtend_symbol hk s).bind fun ⟨v, u⟩ hu => ?_
  have hku : u.k = s.k := by obtain ⟨⟨r, e, rfl⟩, -⟩ := hu; rfl
  have hn : u.k + run + 1 ≤ s.k + 16 := by omega
  dsimp only
  split
  · obtain ⟨⟨r, e, rfl⟩, -⟩ := hu
    exact ⟨rfl, hn⟩
  · next h63 => exact symbolDone_storeAc v hu hn (Nat.not_lt.1 h63)

theorem dcDiff_ends {size : Nat} (hk : size ≤ 16) (s : State) :
    Ends (SymbolDone s) (SymbolKept s) (receiveExtend size s >>= fun p => .ok (storeDc p.1 p.2)) :=
  (receiveExtend_symbol hk s).bind fun p hp => symbolDone_storeDc p.1 hp

/-- Every symbol's meaning settles a computation that keeps to the block's part of the state. -/
theorem exec_symbol_settles {i : Instr} (hi : i.format = .dcSym8 ∨ i.format = .acSym8) (s : State) :
    ∃ r, exec i s = settle r ∧ Ends (SymbolDone s) (SymbolKept s) r := by
  have nibble : ∀ n : BitVec 4, n.toNat ≤ 15 := fun n => Nat.le_of_lt_succ n.isLt
  rcases hi with hi | hi <;> cases i <;> cases hi
  case inl.dcDiff.refl size ignored => exact ⟨_, rfl, dcDiff_ends ((nibble size).trans (by decide)) s⟩
  case inr.acEob.refl => exact ⟨.ok (endBlock s), rfl, symbolDone_endBlock s⟩
  case inr.acZrl.refl => exact ⟨_, rfl, runValue_ends le_rfl (Nat.zero_le _) s⟩
  case inr.acRunVal.refl run size =>
    exact ⟨_, rfl, runValue_ends (nibble run) ((nibble size).trans (by decide)) s⟩
  case inr.acIllegal.refl run => exact ⟨.error ⟨.syntaxError, s⟩, rfl, (ReaderOnly.refl s).symbolKept⟩

end Sys2Proof.Machine
end

section
/-! PROOF. What the walk, the restart step, finishing, a spoiled decode's end and the host's accesses can change. -/

namespace Sys2Proof.Machine

/-! ### The walk over blocks -/

/-- The walk keeps the counters within their widths: K is 0 before a block's first symbol. -/
structure WalkBounded (s t : State) : Prop where
  countdown : t.scan.countdown ≤ s.scan.countdown
  nextRst : t.scan.nextRst = s.scan.nextRst
  index : t.k = 0 ∨ t.k = s.k ∧ t.phase ≠ .decodingMcu

theorem walkBounded_countMcu (s : State) : WalkBounded s (countMcu s) := by
  unfold countMcu
  split
  · exact ⟨le_rfl, rfl, .inl rfl⟩
  · dsimp only
    split
    · exact ⟨Nat.sub_le .., rfl, .inr ⟨rfl, nofun⟩⟩
    · exact ⟨Nat.sub_le .., rfl, .inl rfl⟩

theorem walkBounded_advanceMcu (s : State) : WalkBounded s (advanceMcu s) := by
  unfold advanceMcu
  split
  · dsimp only
    split
    · exact ⟨le_rfl, rfl, .inr ⟨rfl, nofun⟩⟩
    · obtain ⟨hc, hn, hk⟩ := walkBounded_countMcu { s with scan := { s.scan with mbx := 0, mby := s.scan.mby + 1 } }
      exact ⟨hc, hn, hk⟩
  · obtain ⟨hc, hn, hk⟩ := walkBounded_countMcu { s with scan := { s.scan with mbx := s.scan.mbx + 1 } }
    exact ⟨hc, hn, hk⟩

theorem walkBounded_advanceBlock (s : State) : WalkBounded s (advanceBlock s) := by
  unfold advanceBlock
  split
  · exact ⟨le_rfl, rfl, .inl rfl⟩
  · split
    · exact ⟨le_rfl, rfl, .inl rfl⟩
    · split
      · exact ⟨le_rfl, rfl, .inl rfl⟩
      · exact walkBounded_advanceMcu s

/-- The phases a block's end leads to (46_scan_decoder.md R340). -/
def Phase.afterBlock (p : Phase) : Prop := p = .decodingMcu ∨ p = .atRestartBoundary ∨ p = .finishing

theorem afterBlock_advanceBlock {s : State} (hp : s.phase = .decodingMcu) : (advanceBlock s).phase.afterBlock := by
  unfold advanceBlock
  split
  · exact .inl hp
  · split
    · exact .inl hp
    · split
      · exact .inl hp
      · exact phase_advanceMcu s

/-! ### The restart step -/

/-- What follows a restart marker accepted in `s` (R339): the predictors cleared, the counters set, a new MCU. -/
def afterRestart (s : State) : State :=
  beginMcu (clearPredictors
    { s with scan := { s.scan with nextRst := (s.scan.nextRst + 1) % 8, countdown := s.ri } })

theorem restartStep_ends (s : State) :
    Ends (fun t => ∃ u, ReaderKept s u ∧ t = afterRestart u) (ReaderOnly s) (restartStep s) := by
  unfold restartStep
  have halign : ReaderKept s (alignBits s) := readerKept_skipBits _ s
  refine ((getBits_ends le_rfl (alignBits s)).mono (fun _ => halign.trans) fun _ => halign.only.trans).bind
    fun ⟨m, u⟩ hu => ?_
  dsimp only
  split
  · exact hu.only
  · split
    · exact hu.only
    · exact ⟨u, hu, rfl⟩

/-! ### Finishing -/

/-- A part of finishing leaves all but the planes with their sizes, OUT_MEM and its own place. -/
def FinishOnly (s t : State) : Prop :=
  { t with ch := s.ch, planes := s.planes, live := s.live, fin := s.fin, outMem := s.outMem } = s

theorem finishOnly_afterUpsample (s : State) (c : Fin 3) : FinishOnly s (afterUpsample s c) := by
  unfold afterUpsample
  split <;> rfl

theorem finishOnly_upsampled (s : State) (c : Fin 3) : FinishOnly s (afterUpsample (replacePlane s c) c) := by
  unfold afterUpsample
  split <;> rfl

theorem finishStep_ends (s : State) : Ends (fun t => FinishOnly s t ∨ t = completeOk s) (· = s) (finishStep s) := by
  unfold finishStep
  split
  · next c _ =>
    unfold upsample
    split
    · exact .inl (finishOnly_afterUpsample s c)
    · split
      · exact rfl
      · exact .inl (finishOnly_upsampled s c)
  · exact .inl rfl
  · exact .inr rfl

/-! ### A spoiled decode -/

/-- A spoiled decode ends as one that went well or as one that failed, after RST_EVENTS, the frame, OUT_MEM and the
draws took drawn values (20_memory.md R81). -/
theorem spoiledEnd_cases (s : State) :
    ∃ u, { u with rstEvents := s.rstEvents, frame := s.frame, outMem := s.outMem, draws := s.draws } = s ∧
      (spoiledEnd s = completeOk u ∨ ∃ k, spoiledEnd s = raiseError k u) := by
  unfold spoiledEnd
  dsimp only
  generalize (if s.rstEvents.ule (Config.spoiledOutcome s.draws).events then (Config.spoiledOutcome s.draws).events
    else s.rstEvents) = events
  split
  · refine ⟨_, ?_, .inl rfl⟩
    rfl
  · refine ⟨_, ?_, .inr ⟨_, rfl⟩⟩
    rfl

/-! ### The host -/

/-- A host access leaves all but the value read, CTRL, IN_LEN, the two memories, the draws and the marks of writes made
while BUSY. -/
def AccessOnly (s t : State) : Prop :=
  { t with readData := s.readData, ctrl := s.ctrl, inLen := s.inLen, inMem := s.inMem, outMem := s.outMem,
           draws := s.draws, spoiled := s.spoiled, busyWrites := s.busyWrites } = s

theorem hostRead_accessOnly {s t : State} {addr : Nat} {size : AccessSize} (h : hostRead addr size s = .next t) :
    AccessOnly s t := by
  unfold hostRead at h
  split at h
  · cases h; rfl
  · cases h
  · cases h; rfl
  · cases h
    unfold readOutMem
    split <;> rfl
  · cases h

theorem regWrite_accessOnly (off : Nat) (v : Word) (s : State) : AccessOnly s (regWrite off v s) := by
  unfold regWrite
  repeat' split
  all_goals rfl

theorem hostWrite_accessOnly {s t : State} {addr : Nat} {size : AccessSize} {v : Word}
    (h : hostWrite addr size v s = .next t) : AccessOnly s t := by
  unfold hostWrite at h
  split at h
  · cases h; exact regWrite_accessOnly _ v s
  · cases h
  · cases h; rfl
  · cases h
    unfold writeOutMem
    split <;> rfl
  · cases h

/-- A command changes nothing while BUSY (40_host_commands.md R137) and for a reserved value (R136); on an idle core it
does what R133 to R135 say. -/
theorem exec_command_cases {i : Instr} {s t : State} (hi : i.format = .cmd32) (h : exec i s = .next t) :
    t = s ∨ s.status.busy = false ∧
      (t = loadImage s ∨ s.status.loaded = true ∧ t = startDecode s ∨ t = rejectDecode s ∨ t = flushImage s) := by
  have idle : ∀ act : State → State, t = whenIdle s act → t = s ∨ s.status.busy = false ∧ t = act s := by
    rintro act rfl
    unfold whenIdle
    split
    · exact .inl rfl
    · next hb => exact .inr ⟨Bool.not_eq_true _ ▸ hb, rfl⟩
  cases i <;> cases hi
  case load.refl =>
    cases h
    exact (idle loadImage rfl).imp_right fun ⟨hb, ht⟩ => ⟨hb, .inl ht⟩
  case decode.refl =>
    cases h
    refine (idle (fun s => if s.status.loaded then startDecode s else rejectDecode s) rfl).imp_right
      fun ⟨hb, ht⟩ => ⟨hb, ?_⟩
    rw [ht]
    split
    · next hl => exact .inr (.inl ⟨hl, rfl⟩)
    · exact .inr (.inr (.inl rfl))
  case flush.refl =>
    cases h
    exact (idle flushImage rfl).imp_right fun ⟨hb, ht⟩ => ⟨hb, .inr (.inr (.inr ht))⟩
  case cmdReserved.refl v => cases h; exact .inl rfl

end Sys2Proof.Machine
end

section
/-! PROOF. STATUS stays coherent with PHASE and ERRCODE (10_state.md R24, R34). -/

namespace Sys2Proof.Machine

/-- The registers `StatusCoherent` speaks of. -/
def resultRegisters (s : State) : Status × ErrCode × Word × Word × Word × Word :=
  (s.status, s.errcode, s.width, s.height, s.ncomp, s.outLen)

theorem StatusCoherent.of_registers {s t : State} (h : StatusCoherent s) (hr : resultRegisters t = resultRegisters s)
    (hp : t.phase.busy = s.phase.busy) : StatusCoherent t := by
  simp only [resultRegisters, Prod.mk.injEq] at hr
  obtain ⟨hst, herr, hw, hh, hn, ho⟩ := hr
  exact
    { busyPhase := by rw [hst, hp]; exact h.busyPhase
      busyLoaded := by rw [hst]; exact h.busyLoaded
      errCode := by rw [hst, herr]; exact h.errCode
      errDone := by rw [hst]; exact h.errDone
      busyResults := by rw [hst, hw, hh, hn, ho]; exact h.busyResults }

/-- The same through a frame, which says of `t` with some fields put back that it is `s`. -/
theorem StatusCoherent.of_frame {s t x : State} (h : StatusCoherent s) (hx : x = s)
    (hr : resultRegisters t = resultRegisters x) (hp : t.phase.busy = x.phase.busy) : StatusCoherent t := by
  subst hx
  exact h.of_registers hr hp

/-- The registers of a core that is not BUSY: only ERR has to fit. -/
theorem statusCoherent_of_idle {s : State} (hb : s.status.busy = false) (hp : s.phase.busy = false)
    (he : s.status.err = decide (s.errcode ≠ .ok)) (hd : s.status.err = true → s.status.done = true) :
    StatusCoherent s where
  busyPhase := hb.trans hp.symm
  busyLoaded h := absurd (h.symm.trans hb) (by decide)
  errCode := he
  errDone := hd
  busyResults h := absurd (h.symm.trans hb) (by decide)

theorem busy_ended (k : ErrCode) : (Phase.ended k).busy = false := by cases k <;> rfl

theorem statusCoherent_raiseError (k : ErrCode) (s : State) : StatusCoherent (raiseError k s) :=
  statusCoherent_of_idle rfl (busy_ended k) rfl fun _ => rfl

theorem statusCoherent_completeOk (s : State) : StatusCoherent (completeOk s) :=
  statusCoherent_of_idle rfl rfl rfl fun _ => rfl

/-- An operation that settles: only how it goes on has to be looked at, since an error leaves STATUS coherent. -/
theorem StatusCoherent.of_settle {Q : State → Prop} {E : State → Prop} {r : Except Abort State} {t : State}
    (hr : Ends Q E r) (hq : ∀ u, Q u → StatusCoherent u) (h : settle r = .next t) : StatusCoherent t :=
  (hr.mono hq fun u _ k => statusCoherent_raiseError k u).settle h

theorem resultRegisters_of_readerOnly {s t : State} (h : ReaderOnly s t) : resultRegisters t = resultRegisters s := by
  obtain ⟨r, e, rfl⟩ := h
  rfl

theorem resultRegisters_of_walkOnly {s t : State} (h : WalkOnly s t) : resultRegisters t = resultRegisters s := by
  obtain ⟨p, sc, b, k, l, f, rfl⟩ := h
  rfl

theorem statusCoherent_accessOnly {s t : State} (h : StatusCoherent s) (ha : AccessOnly s t) : StatusCoherent t :=
  h.of_frame ha rfl rfl

theorem statusCoherent_loadImage (s : State) : StatusCoherent (loadImage s) := by
  unfold loadImage
  dsimp only
  split
  · exact statusCoherent_of_idle rfl rfl rfl fun _ => rfl
  · exact statusCoherent_of_idle rfl rfl rfl nofun

theorem statusCoherent_command {i : Instr} {s t : State} (hs : StatusCoherent s) (hi : i.format = .cmd32)
    (h : exec i s = .next t) : StatusCoherent t := by
  rcases exec_command_cases hi h with rfl | ⟨hb, rfl | ⟨-, rfl⟩ | rfl | rfl⟩
  · exact hs
  · exact statusCoherent_loadImage s
  · exact ⟨rfl, fun _ => ⟨rfl, rfl, rfl⟩, rfl, nofun, fun _ => ⟨rfl, rfl, rfl, rfl⟩⟩
  · exact statusCoherent_of_idle rfl (hs.busyPhase.symm.trans hb) rfl fun _ => rfl
  · exact statusCoherent_of_idle rfl rfl rfl nofun

theorem statusCoherent_headerDone {s t : State} (hs : StatusCoherent s) (hp : s.phase = .parsingHeader)
    (h : HeaderDone s t) : StatusCoherent t := by
  rcases h with h | ⟨u, hu, rfl⟩
  · exact hs.of_frame h.only rfl rfl
  · have hu' : StatusCoherent u := hs.of_frame hu.only rfl rfl
    exact hu'.of_registers rfl (by rw [hu.phase_eq, hp]; rfl)

theorem statusCoherent_finishBlock {s : State} (hs : StatusCoherent s) (hp : s.phase = .decodingMcu) :
    StatusCoherent (finishBlock s) := by
  unfold finishBlock
  have hp' : (idctBlock s.scan.chan (blockRow s) (blockColumn s) s).phase = .decodingMcu := hp
  refine hs.of_registers ((resultRegisters_of_walkOnly (walkOnly_advanceBlock _)).trans rfl) ?_
  rw [hp]
  rcases afterBlock_advanceBlock hp' with h | h | h <;> rw [h] <;> rfl

theorem statusCoherent_afterRestart {s u : State} (hs : StatusCoherent s) (hp : s.phase = .atRestartBoundary)
    (hu : ReaderKept s u) : StatusCoherent (afterRestart u) :=
  hs.of_registers ((rfl : _ = resultRegisters u).trans (resultRegisters_of_readerOnly hu.only)) (by rw [hp]; rfl)

theorem statusCoherent_engineMove {s t : State} (hs : StatusCoherent s) (h : EngineMove s t) : StatusCoherent t := by
  cases h with
  | spoiled broken busy =>
    obtain ⟨u, -, h | ⟨k, h⟩⟩ := spoiledEnd_cases s <;> rw [h]
    · exact statusCoherent_completeOk u
    · exact statusCoherent_raiseError k u
  | hold idle => exact hs
  | reject busy => exact statusCoherent_raiseError _ s
  | framing phase done =>
    exact .of_settle (checkFraming_ends s) (fun u hu => statusCoherent_headerDone hs phase (.inl hu)) done
  | marker phase room format done =>
    obtain ⟨r, hr, hends⟩ := exec_marker_settles format { s with cursor := s.cursor + 2 }
    rw [hr] at done
    have hs' : StatusCoherent { s with cursor := s.cursor + 2 } := hs.of_registers rfl rfl
    exact .of_settle hends (fun u hu => statusCoherent_headerDone hs' phase hu) done
  | refill phase few done =>
    refine .of_settle (fetchByte_ends few) (fun u hu => hs.of_registers (resultRegisters_of_readerOnly hu.only) ?_) done
    obtain ⟨⟨r, e, rfl⟩, -⟩ := hu
    rfl
  | @symbol i n _ phase held format done =>
    obtain ⟨r, hr, hends⟩ := exec_symbol_settles (format.imp And.right And.right) (skipBits n s)
    rw [hr] at done
    have hs' : StatusCoherent (skipBits n s) := hs.of_registers rfl rfl
    exact .of_settle hends (fun u hu => hs'.of_frame hu.only rfl rfl) done
  | block phase step => exact statusCoherent_finishBlock hs phase
  | restart phase done =>
    refine .of_settle (restartStep_ends s) ?_ done
    rintro t ⟨u, hu, rfl⟩
    exact statusCoherent_afterRestart hs phase hu
  | finish phase done =>
    refine .of_settle (finishStep_ends s) ?_ done
    rintro u (hu | rfl)
    · exact hs.of_frame hu rfl rfl
    · exact statusCoherent_completeOk s

theorem statusCoherent_move {s t : State} (hs : StatusCoherent s) (h : Move s t) : StatusCoherent t := by
  cases h with
  | read done => exact statusCoherent_accessOnly hs (hostRead_accessOnly done)
  | write done => exact statusCoherent_accessOnly hs (hostWrite_accessOnly done)
  | command format done => exact statusCoherent_command hs format done
  | powerOn => exact statusCoherent_of_idle rfl rfl rfl nofun
  | engine move => exact statusCoherent_engineMove hs move

end Sys2Proof.Machine

open Sys2Proof Sys2Proof.Machine

/-- Settles O56: every kind of move keeps STATUS coherent, and the queue does not matter to it. -/
theorem stepKeepsStatusCoherent : Obligations.StepKeepsStatusCoherent := fun _ _ hs h =>
  step_keeps (fun _ _ hs => hs.of_registers rfl rfl) (fun _ _ => statusCoherent_move) hs h
end

section
/-! PROOF. The cursors, the accumulator and the counters stay bounded (10_state.md R33, R35, R41 to R44,
43_bitreader.md R243, R245). The bounds fall into those of the counters, which hold in every phase, and those of the phase:
the header's cursor, or the bit reader and K while a scan runs. -/

namespace Sys2Proof.Machine

/-- The bounds that hold in every phase. -/
structure CountersBounded (s : State) : Prop where
  len : s.len < 2 ^ 32
  interval : s.ri < 2 ^ 16
  countdown : s.scan.countdown < 2 ^ 16
  nextRst : s.scan.nextRst < 8
  index : s.k < 2 ^ 7

theorem CursorsBounded.counters {s : State} (h : CursorsBounded s) : CountersBounded s :=
  ⟨h.len, h.interval, h.countdown, h.nextRst, h.index.1⟩

theorem CursorsBounded.readerFits {s : State} (h : CursorsBounded s) (hp : s.phase.scanning) : ReaderFits s :=
  ⟨h.rcur hp, h.bits hp⟩

theorem CountersBounded.inHeader {s : State} (h : CountersBounded s) (hp : s.phase = .parsingHeader)
    (hc : s.cursor ≤ s.len) : CursorsBounded s where
  len := h.len
  cursor _ := hc
  rcur hs := by rw [hp] at hs; rcases hs with hs | hs <;> cases hs
  bits hs := by rw [hp] at hs; rcases hs with hs | hs <;> cases hs
  interval := h.interval
  countdown := h.countdown
  nextRst := h.nextRst
  index := ⟨h.index, fun hd => by rw [hp] at hd; cases hd⟩

theorem CountersBounded.inScan {s : State} (h : CountersBounded s) (hp : s.phase ≠ .parsingHeader) (hr : ReaderFits s)
    (hk : s.phase = .decodingMcu → s.k ≤ 63) : CursorsBounded s where
  len := h.len
  cursor hh := absurd hh hp
  rcur _ := hr.rcur
  bits _ := hr.bits
  interval := h.interval
  countdown := h.countdown
  nextRst := h.nextRst
  index := ⟨h.index, hk⟩

/-- While the engine does not work, the counters are all there is. -/
theorem CountersBounded.atRest {s : State} (h : CountersBounded s) (hp : s.phase.busy = false) : CursorsBounded s := by
  have hs : ¬ s.phase.scanning := by rintro (hs | hs) <;> rw [hs] at hp <;> cases hp
  exact
    { len := h.len
      cursor := fun hh => by rw [hh] at hp; cases hp
      rcur := fun hh => absurd hh hs
      bits := fun hh => absurd hh hs
      interval := h.interval
      countdown := h.countdown
      nextRst := h.nextRst
      index := ⟨h.index, fun hd => absurd (.inl hd) hs⟩ }

theorem cursorsBounded_raiseError {s : State} (h : CountersBounded s) (k : ErrCode) : CursorsBounded (raiseError k s) :=
  CountersBounded.atRest ⟨h.len, h.interval, h.countdown, h.nextRst, h.index⟩ (busy_ended k)

theorem cursorsBounded_completeOk {s : State} (h : CountersBounded s) : CursorsBounded (completeOk s) :=
  CountersBounded.atRest ⟨h.len, h.interval, h.countdown, h.nextRst, h.index⟩ rfl

/-- An operation that settles keeps the bounds if, going on, it keeps them and, raising, it keeps the counters'. -/
theorem CursorsBounded.of_settle {Q : State → Prop} {E : State → Prop} {r : Except Abort State} {t : State}
    (hr : Ends Q E r) (hq : ∀ u, Q u → CursorsBounded u) (he : ∀ u, E u → CountersBounded u)
    (h : settle r = .next t) : CursorsBounded t :=
  (hr.mono hq fun u hu k => cursorsBounded_raiseError (he u hu) k).settle h

/-! ### What the bounds look at -/

/-- The fields the counters' bounds speak of. -/
def counterFields (s : State) : Nat × Nat × Nat × Nat × Nat := (s.len, s.ri, s.scan.countdown, s.scan.nextRst, s.k)

/-- The fields all the bounds speak of. -/
def cursorFields (s : State) : (Nat × Nat × Nat × Nat × Nat) × Phase × Nat × Reader :=
  (counterFields s, s.phase, s.cursor, s.reader)

theorem CountersBounded.of_counters {s t : State} (h : CountersBounded s) (ht : counterFields t = counterFields s) :
    CountersBounded t := by
  simp only [counterFields, Prod.mk.injEq] at ht
  obtain ⟨hl, hr, hc, hn, hk⟩ := ht
  exact ⟨hl ▸ h.len, hr ▸ h.interval, hc ▸ h.countdown, hn ▸ h.nextRst, hk ▸ h.index⟩

theorem CursorsBounded.of_cursors {s t : State} (h : CursorsBounded s) (ht : cursorFields t = cursorFields s) :
    CursorsBounded t := by
  simp only [cursorFields, Prod.mk.injEq] at ht
  obtain ⟨hcounters, hp, hcur, hr⟩ := ht
  obtain ⟨hlen, hri, hcd, hn, hk⟩ := h.counters.of_counters hcounters
  simp only [counterFields, Prod.mk.injEq] at hcounters
  obtain ⟨hl, -, -, -, hk'⟩ := hcounters
  exact
    { len := hlen
      cursor := by rw [hp, hcur, hl]; exact h.cursor
      rcur := by rw [hp, hr, hl]; exact h.rcur
      bits := by rw [hp, hr]; exact h.bits
      interval := hri
      countdown := hcd
      nextRst := hn
      index := ⟨hk, by rw [hp, hk']; exact h.index.2⟩ }

/-- The same through a frame, which says of `t` with some fields put back that it is `s`. -/
theorem CursorsBounded.of_frame {s t x : State} (h : CursorsBounded s) (hx : x = s)
    (ht : cursorFields t = cursorFields x) : CursorsBounded t := by
  subst hx
  exact h.of_cursors ht

theorem CountersBounded.of_frame {s t x : State} (h : CountersBounded s) (hx : x = s)
    (ht : counterFields t = counterFields x) : CountersBounded t := by
  subst hx
  exact h.of_counters ht

theorem CountersBounded.readerOnly {s t : State} (h : CountersBounded s) (ho : ReaderOnly s t) : CountersBounded t := by
  obtain ⟨r, e, rfl⟩ := ho
  exact h.of_counters rfl

/-! ### Commands -/

theorem cursorsBounded_command {i : Instr} {s t : State} (hs : CursorsBounded s) (hi : i.format = .cmd32)
    (h : exec i s = .next t) : CursorsBounded t := by
  have hc := hs.counters
  rcases exec_command_cases hi h with rfl | ⟨-, rfl | ⟨-, rfl⟩ | rfl | rfl⟩
  · exact hs
  · unfold loadImage
    dsimp only
    split
    · exact CountersBounded.atRest ⟨Nat.two_pow_pos 32, Nat.two_pow_pos 16, hc.countdown, hc.nextRst, hc.index⟩ rfl
    · exact CountersBounded.atRest ⟨s.inLen.isLt, Nat.two_pow_pos 16, hc.countdown, hc.nextRst, hc.index⟩ rfl
  · exact CountersBounded.inHeader ⟨hc.len, Nat.two_pow_pos 16, hc.countdown, hc.nextRst, hc.index⟩ rfl (Nat.zero_le _)
  · exact hs.of_cursors rfl
  · exact CountersBounded.atRest ⟨Nat.two_pow_pos 32, Nat.two_pow_pos 16, hc.countdown, hc.nextRst, hc.index⟩ rfl

/-! ### The header -/

theorem CountersBounded.headerKept {s t : State} (h : CountersBounded s) (ho : HeaderKept s t) : CountersBounded t := by
  have hx : CountersBounded { t with ri := s.ri } := h.of_frame ho.only rfl
  exact ⟨hx.len, ho.interval h.interval, hx.countdown, hx.nextRst, hx.index⟩

/-- A scan starts with its reader at CURSOR, its counters reset and K at 0 (46_scan_decoder.md R330). -/
theorem cursorsBounded_startScan {s : State} (h : CountersBounded s) (hc : s.cursor ≤ s.len) :
    CursorsBounded (startScan s.cursor s) := by
  have hcounters : CountersBounded (startScan s.cursor s) :=
    ⟨h.len, h.interval, h.interval, Nat.zero_lt_succ 7, Nat.two_pow_pos 7⟩
  exact hcounters.inScan (show Phase.decodingMcu ≠ .parsingHeader by decide) ⟨hc, Nat.zero_le _⟩ fun _ => Nat.zero_le _

theorem cursorsBounded_headerDone {s t : State} (hc : CountersBounded s) (hp : s.phase = .parsingHeader)
    (hcur : s.cursor ≤ s.len) (h : HeaderDone s t) : CursorsBounded t := by
  rcases h with h | ⟨u, hu, rfl⟩
  · exact (hc.headerKept h).inHeader (h.phase_eq.trans hp) (h.cursor hcur)
  · exact cursorsBounded_startScan (hc.headerKept hu) (hu.cursor hcur)

/-! ### The scan -/

theorem CountersBounded.symbolKept {s t : State} (h : CountersBounded s) (hk : s.k ≤ 63) (ho : SymbolKept s t) :
    CountersBounded t := by
  have hx : CountersBounded { t with k := s.k } := h.of_frame ho.only rfl
  have hi := ho.index
  exact ⟨hx.len, hx.interval, hx.countdown, hx.nextRst, by omega⟩

theorem cursorsBounded_symbolDone {s t : State} (h : CountersBounded s) (hp : s.phase = .decodingMcu)
    (hr : ReaderFits s) (hk : s.k ≤ 63) (ho : SymbolDone s t) : CursorsBounded t := by
  refine (h.symbolKept hk ho.toSymbolKept).inScan ?_ (ho.fits hr) fun _ => ho.placed hk
  rw [ho.phase_eq, hp]
  decide

theorem cursorsBounded_refill {s t : State} (hs : CursorsBounded s) (hp : s.phase = .decodingMcu)
    (ho : ReaderKept s t) : CursorsBounded t := by
  have hr := ho.fits (hs.readerFits (.inl hp))
  obtain ⟨⟨r, e, rfl⟩, -⟩ := ho
  have hc : CountersBounded { s with reader := r, rstEvents := e } := hs.counters.of_counters rfl
  exact hc.inScan (show s.phase ≠ .parsingHeader by rw [hp]; decide) hr fun hd => hs.index.2 hd

theorem CountersBounded.walk {s t : State} (h : CountersBounded s) (ho : WalkOnly s t) (hb : WalkBounded s t) :
    CountersBounded t := by
  obtain ⟨p, sc, b, k, l, f, rfl⟩ := ho
  refine ⟨h.len, h.interval, Nat.lt_of_le_of_lt hb.countdown h.countdown, lt_of_eq_of_lt hb.nextRst h.nextRst, ?_⟩
  rcases hb.index with hk | ⟨hk, -⟩
  · exact lt_of_eq_of_lt hk (Nat.two_pow_pos 7)
  · exact lt_of_eq_of_lt hk h.index

theorem cursorsBounded_advanceBlock {s : State} (hs : CursorsBounded s) (hp : s.phase = .decodingMcu) :
    CursorsBounded (advanceBlock s) := by
  have hb := walkBounded_advanceBlock s
  have hw := walkOnly_advanceBlock s
  have hph : (advanceBlock s).phase ≠ .parsingHeader := by
    rcases afterBlock_advanceBlock hp with h | h | h <;> rw [h] <;> decide
  have hr : ReaderFits (advanceBlock s) := by
    obtain ⟨p, sc, b, k, l, f, h⟩ := hw
    rw [h]
    exact ⟨hs.rcur (.inl hp), hs.bits (.inl hp)⟩
  refine (hs.counters.walk hw hb).inScan hph hr fun hd => ?_
  rcases hb.index with hk | ⟨-, hn⟩
  · rw [hk]; exact Nat.zero_le _
  · exact absurd hd hn

theorem cursorsBounded_afterRestart {s u : State} (hs : CursorsBounded s) (hp : s.phase = .atRestartBoundary)
    (hu : ReaderKept s u) : CursorsBounded (afterRestart u) := by
  have hr := hu.fits (hs.readerFits (.inr hp))
  have hc := hs.counters.readerOnly hu.only
  have hcounters : CountersBounded (afterRestart u) :=
    ⟨hc.len, hc.interval, hc.interval, Nat.mod_lt _ (Nat.zero_lt_succ 7), Nat.two_pow_pos 7⟩
  exact hcounters.inScan (show Phase.decodingMcu ≠ .parsingHeader by decide) ⟨hr.rcur, hr.bits⟩ fun _ => Nat.zero_le _

/-! ### Every move -/

theorem cursorsBounded_engineMove {s t : State} (hs : CursorsBounded s) (h : EngineMove s t) : CursorsBounded t := by
  have hc := hs.counters
  cases h with
  | spoiled broken busy =>
    obtain ⟨u, hu, h⟩ := spoiledEnd_cases s
    have hcu : CountersBounded u := hc.of_frame hu rfl
    rcases h with h | ⟨k, h⟩ <;> rw [h]
    · exact cursorsBounded_completeOk hcu
    · exact cursorsBounded_raiseError hcu k
  | hold idle => exact hs
  | reject busy => exact cursorsBounded_raiseError hc _
  | framing phase done =>
    exact .of_settle (checkFraming_ends s) (fun u hu => cursorsBounded_headerDone hc phase (hs.cursor phase) (.inl hu))
      (fun u hu => hc.headerKept hu) done
  | marker phase room format done =>
    obtain ⟨r, hr, hends⟩ := exec_marker_settles format { s with cursor := s.cursor + 2 }
    rw [hr] at done
    have hc' : CountersBounded { s with cursor := s.cursor + 2 } := hc.of_counters rfl
    exact .of_settle hends (fun u hu => cursorsBounded_headerDone hc' phase room hu)
      (fun u hu => hc'.headerKept hu) done
  | refill phase few done =>
    exact .of_settle (fetchByte_ends few) (fun u hu => cursorsBounded_refill hs phase hu) (fun u hu => hc.readerOnly hu)
      done
  | @symbol i n _ phase held format done =>
    obtain ⟨r, hr, hends⟩ := exec_symbol_settles (format.imp And.right And.right) (skipBits n s)
    rw [hr] at done
    have hc' : CountersBounded (skipBits n s) := hc.of_counters rfl
    have hr' : ReaderFits (skipBits n s) := (readerKept_skipBits n s).fits (hs.readerFits (.inl phase))
    have hk : (skipBits n s).k ≤ 63 := hs.index.2 phase
    exact .of_settle hends (fun u hu => cursorsBounded_symbolDone hc' phase hr' hk hu)
      (fun u hu => hc'.symbolKept hk hu) done
  | block phase step => exact cursorsBounded_advanceBlock (hs.of_cursors rfl) phase
  | restart phase done =>
    refine .of_settle (restartStep_ends s) ?_ (fun u hu => hc.readerOnly hu) done
    rintro t ⟨u, hu, rfl⟩
    exact cursorsBounded_afterRestart hs phase hu
  | finish phase done =>
    refine .of_settle (finishStep_ends s) ?_ (fun u hu => hu ▸ hc) done
    rintro u (hu | rfl)
    · exact hs.of_frame hu rfl
    · exact cursorsBounded_completeOk hc

theorem cursorsBounded_move {s t : State} (hs : CursorsBounded s) (h : Move s t) : CursorsBounded t := by
  cases h with
  | read done => exact hs.of_frame (hostRead_accessOnly done) rfl
  | write done => exact hs.of_frame (hostWrite_accessOnly done) rfl
  | command format done => exact cursorsBounded_command hs format done
  | powerOn => exact cursorsBounded_reset.of_cursors rfl
  | engine move => exact cursorsBounded_engineMove hs move

end Sys2Proof.Machine

open Sys2Proof Sys2Proof.Machine

/-- Settles O57: every kind of move keeps the bounds, and the queue does not matter to them. -/
theorem stepKeepsCursorsBounded : Obligations.StepKeepsCursorsBounded := fun _ _ hs h =>
  step_keeps (fun _ _ hs => hs.of_cursors rfl) (fun _ _ => cursorsBounded_move) hs h
end

section
/-! PROOF. Two computations side by side: a relation on how each ends, carried through the shapes the handlers are built
from. -/

namespace Sys2Proof.Machine

/-- Both go on, with answers `R` relates, or both raise one error, of a kind other than OK, in states `E` relates. -/
def Alike {α β : Type} (R : α → β → Prop) (E : State → State → Prop) : Except Abort α → Except Abort β → Prop
  | .ok a, .ok b => R a b
  | .error e, .error e' => e.kind = e'.kind ∧ e.kind ≠ .ok ∧ E e.state e'.state
  | _, _ => False

variable {α β γ δ : Type} {R : α → β → Prop} {Q : γ → δ → Prop} {E : State → State → Prop} {s t : State} {k : ErrCode}

theorem Alike.raise (h : E s t) (hk : k ≠ .ok := by decide) : Alike R E (.error ⟨k, s⟩) (.error ⟨k, t⟩) := ⟨rfl, hk, h⟩

theorem Alike.cases {r : Except Abort α} {r' : Except Abort β} (h : Alike R E r r') :
    (∃ a b, r = .ok a ∧ r' = .ok b ∧ R a b) ∨
    (∃ k u v, r = .error ⟨k, u⟩ ∧ r' = .error ⟨k, v⟩ ∧ k ≠ .ok ∧ E u v) := by
  rcases r with ⟨k, u⟩ | a <;> rcases r' with ⟨k', v⟩ | b
  · obtain ⟨rfl, hk, he⟩ := h
    exact .inr ⟨_, _, _, rfl, rfl, hk, he⟩
  · exact h.elim
  · exact h.elim
  · exact .inl ⟨a, b, rfl, rfl, h⟩

theorem Alike.bind {r : Except Abort α} {r' : Except Abort β} {f : α → Except Abort γ} {f' : β → Except Abort δ}
    (hr : Alike R E r r') (hf : ∀ a b, R a b → Alike Q E (f a) (f' b)) : Alike Q E (r >>= f) (r' >>= f') := by
  rcases hr.cases with ⟨a, b, rfl, rfl, hab⟩ | ⟨k, u, v, rfl, rfl, hk, he⟩
  · exact hf a b hab
  · exact ⟨rfl, hk, he⟩

theorem Alike.ite {c c' : Prop} [Decidable c] [Decidable c'] {r q : Except Abort α} {r' q' : Except Abort β}
    (hc : c' ↔ c) (hr : c → Alike R E r r') (hq : ¬ c → Alike R E q q') :
    Alike R E (if c then r else q) (if c' then r' else q') := by
  by_cases h : c
  · rw [if_pos h, if_pos (hc.2 h)]
    exact hr h
  · rw [if_neg h, if_neg (mt hc.1 h)]
    exact hq h

/-- A check that raises when it fails. -/
theorem Alike.guard {c c' : Prop} [Decidable c] [Decidable c'] {q : Except Abort α} {q' : Except Abort β}
    (h : E s t) (hc : c' ↔ c) (hq : ¬ c → Alike R E q q') (hk : k ≠ .ok := by decide) :
    Alike R E (if c then .error ⟨k, s⟩ else q) (if c' then .error ⟨k, t⟩ else q') :=
  .ite hc (fun _ => .raise h hk) hq

theorem Alike.failIf {b b' : Bool} {f : State → Except Abort α} {f' : State → Except Abort β} (h : E s t) (hb : b' = b)
    (hf : b = false → Alike R E (f s) (f' t)) (hk : k ≠ .ok := by decide) :
    Alike R E (failIf b k s >>= f) (failIf b' k t >>= f') := by
  subst hb
  cases b' with
  | false => exact hf rfl
  | true => exact .raise h hk

/-- A loop over channels whose turns keep `P`. -/
theorem Alike.foldlM {P : State → State → Prop} {f f' : State → Fin 3 → Except Abort State} (l : List (Fin 3))
    (hf : ∀ c ∈ l, ∀ u v, P u v → Alike P E (f u c) (f' v c)) (h : P s t) :
    Alike P E (l.foldlM f s) (l.foldlM f' t) := by
  induction l generalizing s t with
  | nil => exact h
  | cons c rest ih =>
    have hrest : ∀ d ∈ rest, ∀ u v, P u v → Alike P E (f u d) (f' v d) := fun d hd =>
      hf d (List.mem_cons_of_mem c hd)
    exact (hf c List.mem_cons_self s t h).bind fun u v huv => ih hrest huv

/-- An error's kind is never OK. -/
theorem Alike.kind_ne_ok {r : Except Abort α} {r' : Except Abort β} {e : Abort} (h : Alike R E r r')
    (he : r = .error e) : e.kind ≠ .ok := by
  subst he
  rcases h.cases with ⟨a, b, hr, -, -⟩ | ⟨k, u, v, hr, -, hk, -⟩ <;> cases hr
  exact hk

end Sys2Proof.Machine
end

section
/-! PROOF. The engine with another IN_MEM that agrees below LEN (20_memory.md R72): every read of an operation lies
below LEN, so the operation ends the same, IN_MEM apart. Here the reads, the framing and the frame. -/

namespace Sys2Proof.Machine

/-- `t` is `s` with `m` as IN_MEM, which agrees with that of `s` below LEN. -/
structure SameBelow (m : Memory) (s t : State) : Prop where
  other : t = { s with inMem := m }
  bytes : ∀ a < s.len, m.read a = s.inMem.read a

variable {m : Memory} {s t : State} {g : Segment}

theorem SameBelow.self (s : State) : SameBelow s.inMem s s := ⟨rfl, fun _ _ => rfl⟩

theorem SameBelow.len_eq (h : SameBelow m s t) : t.len = s.len := by rw [h.other]

theorem SameBelow.cursor_eq (h : SameBelow m s t) : t.cursor = s.cursor := by rw [h.other]

/-- An operation that leaves IN_MEM and LEN alone and does not look at IN_MEM. -/
theorem SameBelow.map {f : State → State} (h : SameBelow m s t)
    (hf : f { s with inMem := m } = { f s with inMem := m }) (hm : (f s).inMem = s.inMem) (hl : (f s).len = s.len) :
    SameBelow m (f s) (f t) := by
  obtain ⟨rfl, hb⟩ := h
  exact ⟨hf, by rw [hm, hl]; exact hb⟩

/-! ### Reads -/

theorem SameBelow.inRead {a : Nat} (h : SameBelow m s t) (ha : a < s.len) : inRead t a = inRead s a := by
  obtain ⟨rfl, hb⟩ := h
  exact hb a ha

theorem SameBelow.be16 {a : Nat} (h : SameBelow m s t) (ha : a + 1 < s.len) : be16 t a = be16 s a := by
  unfold Machine.be16
  rw [h.inRead (Nat.lt_of_succ_lt ha), h.inRead ha]

/-- The bytes of the codestream end at LEN. -/
theorem SameBelow.inBytes (h : SameBelow m s t) (a n : Nat) : inBytes t a n = inBytes s a n := by
  obtain ⟨rfl, hb⟩ := h
  refine List.map_congr_left fun i hi => hb (a + i) ?_
  have hi := List.mem_range.1 hi
  dsimp only at hi
  omega

/-- The same, of two states in which a segment's payload lies below LEN. -/
structure SameSegment (m : Memory) (g : Segment) (s t : State) : Prop extends SameBelow m s t where
  inside : g.start + g.size ≤ s.len

theorem SameSegment.map {f : State → State} (h : SameSegment m g s t)
    (hf : f { s with inMem := m } = { f s with inMem := m }) (hm : (f s).inMem = s.inMem) (hl : (f s).len = s.len) :
    SameSegment m g (f s) (f t) := ⟨h.toSameBelow.map hf hm hl, by rw [hl]; exact h.inside⟩

theorem SameSegment.byte {i : Nat} (h : SameSegment m g s t) (hi : i < g.size) : g.byte t i = g.byte s i :=
  h.inRead (by have := h.inside; omega)

theorem SameSegment.be16 {i : Nat} (h : SameSegment m g s t) (hi : i + 1 < g.size) :
    be16 t (g.start + i) = be16 s (g.start + i) := h.toSameBelow.be16 (by have := h.inside; omega)

theorem SameBelow.be16_cursor (h : SameBelow m s t) (hroom : 2 ≤ s.len - s.cursor) :
    Machine.be16 t t.cursor = Machine.be16 s s.cursor := by
  rw [h.cursor_eq]
  exact h.be16 (by omega)

/-- The checks of 41_segment_parser.md R152 see nothing from LEN on. -/
theorem SameBelow.segmentFits_iff (h : SameBelow m s t) : SegmentFits t ↔ SegmentFits s := by
  constructor
  · rintro ⟨hroom, hlength, hinside⟩
    rw [h.len_eq, h.cursor_eq] at hroom
    rw [h.be16_cursor hroom] at hlength hinside
    rw [h.len_eq, h.cursor_eq] at hinside
    exact ⟨hroom, hlength, hinside⟩
  · rintro ⟨hroom, hlength, hinside⟩
    have hbe := h.be16_cursor hroom
    refine ⟨?_, ?_, ?_⟩
    · rwa [h.len_eq, h.cursor_eq]
    · rwa [hbe]
    · rwa [hbe, h.len_eq, h.cursor_eq]

theorem Alike.readSegment {α : Type} {R : α → α → Prop} {f f' : Segment × State → Except Abort α}
    (h : SameBelow m s t) (hf : ∀ g u v, SameSegment m g u v → Alike R (SameBelow m) (f (g, u)) (f' (g, v))) :
    Alike R (SameBelow m) (readSegment s >>= f) (readSegment t >>= f') := by
  by_cases hs : SegmentFits s
  · rw [readSegment_ok.2 ⟨hs, rfl, rfl⟩, readSegment_ok.2 ⟨h.segmentFits_iff.2 hs, rfl, rfl⟩, h.be16_cursor hs.room,
      h.cursor_eq]
    obtain ⟨-, hlength, hinside⟩ := hs
    obtain ⟨rfl, hb⟩ := h
    exact hf _ _ _ ⟨⟨rfl, hb⟩, by dsimp only; omega⟩
  · rw [readSegment_error hs, readSegment_error (mt h.segmentFits_iff.1 hs)]
    exact .raise h

/-! ### Framing and the frame -/

theorem checkFraming_alike (h : SameBelow m s t) :
    Alike (SameBelow m) (SameBelow m) (checkFraming s) (checkFraming t) := by
  refine .guard h (by rw [h.len_eq]) fun h6 => ?_
  refine .guard h (by rw [h.inRead (by omega), h.inRead (by omega)]) fun _ => ?_
  refine .guard h (by rw [h.len_eq, h.inRead (by omega), h.inRead (by omega)]) fun _ => ?_
  exact h.map (f := fun u => { u with cursor := 2 }) rfl rfl rfl

theorem val_lt_of_mem_liveChannels {c : Fin 3} {nc : Nat} (h : c ∈ liveChannels nc) : c.val < nc :=
  of_decide_eq_true (List.mem_filter.1 h).2

theorem factorError_ne_ok (n : Nat) : factorError n ≠ some .ok := by
  unfold factorError
  repeat' split
  all_goals nofun

theorem channelError_ne_ok (sf tq : Byte) : channelError sf tq ≠ some .ok := by
  unfold channelError
  split
  · next e he => rw [← he]; exact factorError_ne_ok _
  · split
    · next e he => rw [← he]; exact factorError_ne_ok _
    · split <;> nofun

theorem readChannel_alike {c : Fin 3} (h : SameSegment m g s t) (hc : 8 + 3 * c.val < g.size) :
    Alike (SameSegment m g) (SameBelow m) (readChannel g s c) (readChannel g t c) := by
  unfold readChannel
  rw [h.byte (i := 6 + 3 * c.val) (by omega), h.byte (i := 7 + 3 * c.val) (by omega), h.byte hc]
  dsimp only
  have hne := channelError_ne_ok (g.byte s (7 + 3 * c.val)) (g.byte s (8 + 3 * c.val))
  rcases hce : channelError (g.byte s (7 + 3 * c.val)) (g.byte s (8 + 3 * c.val)) with _ | e
  · obtain ⟨⟨rfl, hb⟩, hg⟩ := h
    exact ⟨⟨rfl, hb⟩, hg⟩
  · exact .raise h.toSameBelow (by rintro rfl; exact hne hce)

theorem forceGray_inMem (nc : Nat) (s : State) (m : Memory) :
    forceGray nc { s with inMem := m } = { forceGray nc s with inMem := m } := by
  unfold forceGray
  split <;> rfl

theorem allocate_alike (w h nc : Nat) (hs : SameBelow m s t) :
    Alike (SameBelow m) (SameBelow m) (allocate w h nc s) (allocate w h nc t) := by
  obtain ⟨rfl, hb⟩ := hs
  exact .guard ⟨rfl, hb⟩ Iff.rfl fun _ => .guard ⟨rfl, hb⟩ Iff.rfl fun _ => ⟨rfl, hb⟩

theorem parseFrame_alike (w h nc : Nat) (hs : SameSegment m g s t) (hsize : 6 + 3 * nc ≤ g.size) :
    Alike (SameBelow m) (SameBelow m) (parseFrame g w h nc s) (parseFrame g w h nc t) := by
  unfold parseFrame
  have hread : ∀ c ∈ liveChannels nc, ∀ u v, SameSegment m g u v →
      Alike (SameSegment m g) (SameBelow m) (readChannel g u c) (readChannel g v c) := fun c hc u v huv =>
    readChannel_alike huv (by have := val_lt_of_mem_liveChannels hc; omega)
  refine (Alike.foldlM _ hread hs).bind fun u v huv => ?_
  have hgray := headerKept_forceGray nc u
  have hgeo : SameBelow m (geometry w h nc (forceGray nc u)) (geometry w h nc (forceGray nc v)) :=
    (huv.toSameBelow.map (forceGray_inMem nc u m) (congrArg State.inMem hgray.only :)
      (congrArg State.len hgray.only :)).map (f := geometry w h nc) rfl rfl rfl
  obtain ⟨hother, hb⟩ := hgeo
  rw [hother]
  refine .failIf ⟨rfl, hb⟩ rfl fun _ => ?_
  exact (allocate_alike w h nc ⟨rfl, hb⟩).bind fun x y hxy =>
    hxy.map (f := fun x => { x with frame := { x.frame with width := w, height := h, channels := nc, seen := true } })
      rfl rfl rfl

theorem parseSof_alike (h : SameBelow m s t) : Alike (SameBelow m) (SameBelow m) (parseSof s) (parseSof t) := by
  unfold parseSof
  refine .failIf h (by rw [h.other]) fun _ => .readSegment h fun g u v hg => ?_
  refine .failIf hg.toSameBelow rfl fun hsize => ?_
  have hsize : ¬ g.size < 6 := of_decide_eq_false hsize
  refine .failIf hg.toSameBelow (by rw [hg.byte (by omega)]) fun _ => ?_
  dsimp only
  rw [hg.be16 (i := 1) (by omega), hg.be16 (i := 3) (by omega), hg.byte (i := 5) (by omega)]
  refine .failIf hg.toSameBelow rfl fun _ => .failIf hg.toSameBelow rfl fun _ => .failIf hg.toSameBelow rfl fun hn => ?_
  exact parseFrame_alike _ _ _ hg (Nat.not_lt.1 (of_decide_eq_false hn))

end Sys2Proof.Machine
end

section
/-! PROOF. The segments of the tables and of the scan with another IN_MEM that agrees below LEN: a handler reads its own
payload only. -/

namespace Sys2Proof.Machine

variable {m : Memory} {s t : State} {g : Segment}

/-! ### Tables -/

theorem SameSegment.map_byte {β : Type} {i n : Nat} (h : SameSegment m g s t) (hi : i + n ≤ g.size) (f : Byte → β) :
    ((List.range n).map fun j => f (g.byte t (i + j))) = (List.range n).map fun j => f (g.byte s (i + j)) :=
  List.map_congr_left fun j hj => by rw [h.byte (by have := List.mem_range.1 hj; omega)]

theorem buildCodes_alike (h : SameSegment m g s t) (counts : List Nat) (len remain i : Nat) (placed : HuffTable) :
    Alike (· = ·) (SameBelow m) (buildCodes g s counts len remain i placed)
      (buildCodes g t counts len remain i placed) := by
  induction counts generalizing len remain i placed with
  | nil => exact rfl
  | cons n rest ih =>
    unfold buildCodes
    refine .ite Iff.rfl (fun _ => ih ..) fun hn => .guard h.toSameBelow Iff.rfl fun hroom => ?_
    refine .guard h.toSameBelow Iff.rfl fun _ => ?_
    rw [h.map_byte (by omega) (HuffCode.mk len)]
    exact ih ..

theorem buildTable_alike (h : SameSegment m g s t) (slot : Fin 4) (counts : List Nat) (i : Nat) :
    Alike (fun p q => p.2 = q.2 ∧ SameSegment m g p.1 q.1) (SameBelow m) (buildTable slot counts g i s)
      (buildTable slot counts g i t) :=
  (buildCodes_alike h counts 1 65536 i []).bind fun p q hpq => by
    subst hpq
    exact ⟨rfl, h.map (f := fun u => { u with ht := u.ht.set slot p.1 }) rfl rfl rfl⟩

theorem parseDefinitions_alike (fuel i : Nat) (h : SameSegment m g s t) :
    Alike (SameBelow m) (SameBelow m) (parseDefinitions fuel g i s) (parseDefinitions fuel g i t) := by
  induction fuel generalizing i s t with
  | zero => exact h.toSameBelow
  | succ fuel ih =>
    unfold parseDefinitions
    refine .ite Iff.rfl (fun _ => h.toSameBelow) fun hi => .guard h.toSameBelow Iff.rfl fun h17 => ?_
    have hcounts : codeCounts g t i = codeCounts g s i := h.map_byte (i := i + 1) (by omega) BitVec.toNat
    dsimp only
    rw [h.byte (i := i) (by omega), hcounts]
    refine .guard h.toSameBelow Iff.rfl fun _ => .guard h.toSameBelow Iff.rfl fun _ => ?_
    refine (buildTable_alike h _ _ _).bind fun p q hpq => ?_
    obtain ⟨u, j⟩ := p
    obtain ⟨v, j'⟩ := q
    obtain ⟨rfl, huv⟩ := hpq
    exact ih j huv

theorem parseDht_alike (h : SameBelow m s t) : Alike (SameBelow m) (SameBelow m) (parseDht s) (parseDht t) := by
  unfold parseDht
  exact .readSegment h fun g u v hg => parseDefinitions_alike g.size 0 hg

theorem readQuantTable_eq {i : Nat} (h : SameSegment m g s t) (hi : i + 64 ≤ g.size) (old : Grid Byte) :
    readQuantTable g t i old = readQuantTable g s i old := by
  refine List.foldl_ext _ _ _ fun q k hk => ?_
  rw [h.byte (by have := List.mem_range.1 hk; omega)]

theorem parseQuantGroups_alike (fuel i : Nat) (h : SameSegment m g s t) :
    Alike (SameBelow m) (SameBelow m) (parseQuantGroups fuel g i s) (parseQuantGroups fuel g i t) := by
  induction fuel generalizing i s t with
  | zero => exact h.toSameBelow
  | succ fuel ih =>
    unfold parseQuantGroups
    refine .ite Iff.rfl (fun _ => h.toSameBelow) fun hi => .guard h.toSameBelow Iff.rfl fun h65 => ?_
    dsimp only
    rw [h.byte (i := i) (by omega), readQuantTable_eq h (by omega)]
    refine .guard h.toSameBelow Iff.rfl fun _ => ih (i + 65) ?_
    obtain ⟨⟨rfl, hb⟩, hg⟩ := h
    exact ⟨⟨rfl, hb⟩, hg⟩

theorem parseDqt_alike (h : SameBelow m s t) : Alike (SameBelow m) (SameBelow m) (parseDqt s) (parseDqt t) := by
  unfold parseDqt
  exact .readSegment h fun g u v hg => parseQuantGroups_alike g.size 0 hg

theorem parseDri_alike (h : SameBelow m s t) : Alike (SameBelow m) (SameBelow m) (parseDri s) (parseDri t) := by
  unfold parseDri
  refine .readSegment h fun g u v hg => .failIf hg.toSameBelow rfl fun hsize => ?_
  have hsize : ¬ g.size < 2 := of_decide_eq_false hsize
  have hri : be16 v g.start = be16 u g.start := hg.be16 (i := 0) (by omega)
  rw [hri]
  exact hg.toSameBelow.map (f := fun w => { w with ri := be16 u g.start }) rfl rfl rfl

theorem skipSegment_alike (h : SameBelow m s t) :
    Alike (SameBelow m) (SameBelow m) (skipSegment s) (skipSegment t) := by
  unfold skipSegment
  exact .readSegment h fun g u v hg => hg.toSameBelow

/-! ### The scan's header -/

theorem selectTables_alike {c : Fin 3} (h : SameSegment m g s t) (hc : 2 + 2 * c.val < g.size) :
    Alike (SameSegment m g) (SameBelow m) (selectTables g s c) (selectTables g t c) := by
  unfold selectTables
  rw [h.byte (i := 1 + 2 * c.val) (by omega), h.byte hc]
  obtain ⟨⟨rfl, hb⟩, hg⟩ := h
  exact .guard ⟨rfl, hb⟩ Iff.rfl fun _ => .guard ⟨rfl, hb⟩ Iff.rfl fun _ => ⟨⟨rfl, hb⟩, hg⟩

theorem baselineTrailer_eq {j : Nat} (h : SameSegment m g s t) (hj : j + 3 ≤ g.size) :
    baselineTrailer g t j = baselineTrailer g s j := by
  unfold baselineTrailer
  rw [h.byte (by omega), h.byte (by omega), h.byte (by omega)]

theorem parseSos_alike (h : SameBelow m s t) : Alike (SameBelow m) (SameBelow m) (parseSos s) (parseSos t) := by
  unfold parseSos
  refine .failIf h (by rw [h.other]) fun _ => .readSegment h fun g u v hg => ?_
  refine .failIf hg.toSameBelow rfl fun hone => ?_
  have hone : ¬ g.size < 1 := of_decide_eq_false hone
  have hnc : v.frame.channels = u.frame.channels := by rw [hg.other]
  dsimp only
  rw [hg.byte (by omega), hnc]
  refine .failIf hg.toSameBelow rfl fun _ => .failIf hg.toSameBelow rfl fun hsize => ?_
  have hsize : ¬ g.size < 4 + 2 * u.frame.channels := of_decide_eq_false hsize
  have hselect : ∀ c ∈ liveChannels u.frame.channels, ∀ x y, SameSegment m g x y →
      Alike (SameSegment m g) (SameBelow m) (selectTables g x c) (selectTables g y c) := fun c hc x y hxy =>
    selectTables_alike hxy (by have := val_lt_of_mem_liveChannels hc; omega)
  refine (Alike.foldlM _ hselect hg).bind fun x y hxy => ?_
  refine .failIf hxy.toSameBelow (by rw [baselineTrailer_eq hxy (by omega)]) fun _ => ?_
  obtain ⟨⟨rfl, hb⟩, -⟩ := hxy
  exact .failIf ⟨rfl, hb⟩ rfl fun _ => ⟨rfl, hb⟩

end Sys2Proof.Machine
end

section
/-! PROOF. The bit reader, the symbols, the walk and finishing with another IN_MEM that agrees below LEN. -/

namespace Sys2Proof.Machine

variable {m : Memory} {s t : State}

/-! ### The bit reader -/

theorem ecsEffect_alike (f : EcsForm) (h : SameBelow m s t) :
    Alike (SameBelow m) (SameBelow m) (ecsEffect f s) (ecsEffect f t) := by
  obtain ⟨rfl, hb⟩ := h
  cases f with
  | illegal x => exact .raise ⟨rfl, hb⟩
  | _ => exact ⟨rfl, hb⟩

/-- Two answers: the same value, and states that agree below LEN. -/
def SameValue {α : Type} (m : Memory) (p q : α × State) : Prop := p.1 = q.1 ∧ SameBelow m p.2 q.2

theorem takeForm_alike (h : SameBelow m s t) : Alike (SameValue m) (SameBelow m) (takeForm s) (takeForm t) := by
  have hbytes : inBytes t t.reader.rcur 2 = inBytes s s.reader.rcur 2 := by
    rw [h.inBytes, h.other]
  unfold takeForm
  rw [hbytes]
  obtain ⟨rfl, hb⟩ := h
  rcases decodeEcs (inBytes s s.reader.rcur 2) with e | ⟨f, rest⟩
  · exact .raise ⟨rfl, hb⟩
  · exact ⟨rfl, rfl, hb⟩

theorem fetchByte_alike (h : SameBelow m s t) : Alike (SameBelow m) (SameBelow m) (fetchByte s) (fetchByte t) := by
  unfold fetchByte
  refine .ite (by rw [h.other]; rfl) (fun _ => h.map (f := pushByte 0xFF) rfl rfl rfl) fun _ => ?_
  refine (takeForm_alike h).bind fun p q hpq => ?_
  obtain ⟨f, u⟩ := p
  obtain ⟨f', v⟩ := q
  obtain ⟨rfl, huv⟩ := hpq
  exact ecsEffect_alike f huv

theorem fillBits_alike (fuel k : Nat) (h : SameBelow m s t) :
    Alike (SameBelow m) (SameBelow m) (fillBits fuel k s) (fillBits fuel k t) := by
  induction fuel generalizing s t with
  | zero => exact h
  | succ fuel ih =>
    unfold fillBits
    exact .ite (by rw [h.other]) (fun _ => (fetchByte_alike h).bind fun u v huv => ih huv) fun _ => h

theorem getBits_alike (k : Nat) (h : SameBelow m s t) :
    Alike (SameValue m) (SameBelow m) (getBits k s) (getBits k t) := by
  have hshow : Alike (SameValue m) (SameBelow m) (showBits k s) (showBits k t) :=
    (fillBits_alike k k h).bind fun u v huv => ⟨by rw [huv.other], huv⟩
  exact hshow.bind fun p q hpq => ⟨hpq.1, hpq.2.map (f := skipBits k) rfl rfl rfl⟩

theorem receiveExtend_alike (size : Nat) (h : SameBelow m s t) :
    Alike (SameValue m) (SameBelow m) (receiveExtend size s) (receiveExtend size t) := by
  unfold receiveExtend
  exact .ite Iff.rfl (fun _ => ⟨rfl, h⟩) fun _ =>
    (getBits_alike size h).bind fun p q hpq => ⟨congrArg (extendValue size) hpq.1, hpq.2⟩

/-! ### Symbols -/

theorem huffTake_alike (slot : Fin 4) (h : SameBelow m s t) :
    Alike (SameValue m) (SameBelow m) (huffTake slot s) (huffTake slot t) := by
  obtain ⟨rfl, hb⟩ := h
  exact .guard ⟨rfl, hb⟩ Iff.rfl fun _ => ⟨rfl, rfl, hb⟩

theorem sameBelow_storeAc (v : Word) (h : SameBelow m s t) : SameBelow m (storeAc v s) (storeAc v t) := by
  obtain ⟨rfl, hb⟩ := h
  unfold storeAc
  dsimp only
  split <;> exact ⟨rfl, hb⟩

theorem runValue_alike (run size : Nat) (h : SameBelow m s t) :
    Alike (SameBelow m) (SameBelow m) (runValue run size s) (runValue run size t) := by
  unfold runValue
  refine (receiveExtend_alike size h).bind fun p q hpq => ?_
  obtain ⟨v, u⟩ := p
  obtain ⟨v', w⟩ := q
  obtain ⟨rfl, hb⟩ := hpq
  have hplaced := hb.map (f := fun u => { u with k := u.k + run + 1 }) rfl rfl rfl
  exact .guard hplaced (by rw [hplaced.other]) fun _ => sameBelow_storeAc v hplaced

theorem dcDiff_alike (size : Nat) (h : SameBelow m s t) :
    Alike (SameBelow m) (SameBelow m) (receiveExtend size s >>= fun p => .ok (storeDc p.1 p.2))
      (receiveExtend size t >>= fun p => .ok (storeDc p.1 p.2)) :=
  (receiveExtend_alike size h).bind fun p q hpq => by
    rw [← hpq.1]
    exact hpq.2.map (f := storeDc p.1) rfl rfl rfl

/-! ### The walk, the restart step and finishing -/

theorem countMcu_inMem (s : State) (m : Memory) : countMcu { s with inMem := m } = { countMcu s with inMem := m } := by
  unfold countMcu
  dsimp only
  split
  · rfl
  · split <;> rfl

theorem advanceMcu_inMem (s : State) (m : Memory) :
    advanceMcu { s with inMem := m } = { advanceMcu s with inMem := m } := by
  unfold advanceMcu
  dsimp only
  split
  · split
    · rfl
    · exact countMcu_inMem { s with scan := { s.scan with mbx := 0, mby := s.scan.mby + 1 } } m
  · exact countMcu_inMem { s with scan := { s.scan with mbx := s.scan.mbx + 1 } } m

theorem advanceBlock_inMem (s : State) (m : Memory) :
    advanceBlock { s with inMem := m } = { advanceBlock s with inMem := m } := by
  have hnext : nextChannel { s with inMem := m } s.scan.chan = nextChannel s s.scan.chan := rfl
  unfold advanceBlock
  dsimp only
  rw [hnext]
  split
  · rfl
  · split
    · rfl
    · split
      · rfl
      · exact advanceMcu_inMem s m

theorem finishBlock_inMem (s : State) (m : Memory) :
    finishBlock { s with inMem := m } = { finishBlock s with inMem := m } :=
  advanceBlock_inMem (idctBlock s.scan.chan (blockRow s) (blockColumn s) s) m

theorem restartStep_alike (h : SameBelow m s t) :
    Alike (SameBelow m) (SameBelow m) (restartStep s) (restartStep t) := by
  unfold restartStep
  have halign : SameBelow m (alignBits s) (alignBits t) := h.map (f := alignBits) rfl rfl rfl
  refine (getBits_alike 16 halign).bind fun p q hpq => ?_
  obtain ⟨n, u⟩ := p
  obtain ⟨n', v⟩ := q
  obtain ⟨rfl, ⟨rfl, hb⟩⟩ := hpq
  exact .guard ⟨rfl, hb⟩ Iff.rfl fun _ => .guard ⟨rfl, hb⟩ Iff.rfl fun _ => ⟨rfl, hb⟩

theorem sameBelow_afterUpsample (c : Fin 3) (h : SameBelow m s t) :
    SameBelow m (afterUpsample s c) (afterUpsample t c) := by
  have hnext : nextChannel t c = nextChannel s c := by rw [h.other]; rfl
  unfold afterUpsample
  rw [hnext]
  split <;> exact h.map (f := fun u => { u with fin := _ }) rfl rfl rfl

theorem finishStep_alike (h : SameBelow m s t) : Alike (SameBelow m) (SameBelow m) (finishStep s) (finishStep t) := by
  have hfin : t.fin = s.fin := by rw [h.other]
  unfold finishStep
  rw [hfin]
  cases s.fin with
  | upsample c =>
    obtain ⟨rfl, hb⟩ := h
    exact .ite Iff.rfl (fun _ => sameBelow_afterUpsample c ⟨rfl, hb⟩) fun _ =>
      .guard ⟨rfl, hb⟩ Iff.rfl fun _ => sameBelow_afterUpsample c ⟨rfl, hb⟩
  | output => exact h.map (f := writeOutput) rfl rfl rfl
  | complete => exact h.map (f := completeOk) rfl rfl rfl

/-! ### A spoiled decode -/

/-- A spoiled decode with RST_EVENTS as drawn, never less than before (40_host_commands.md R131). -/
def spoiledEvents (o : SpoiledOutcome) (s : State) : State :=
  { s with rstEvents := if s.rstEvents.ule o.events then o.events else s.rstEvents, draws := s.draws + 1 }

/-- The channels of the image drawn. -/
def spoiledChannels (o : SpoiledOutcome) : Nat := if o.colour then 3 else 1

/-- The bytes of the image drawn. -/
def spoiledSize (o : SpoiledOutcome) : Nat := o.width.toNat * o.height.toNat * spoiledChannels o

/-- The image drawn in place. -/
def spoiledImage (o : SpoiledOutcome) (s : State) : State :=
  { spoiledEvents o s with
    frame := { s.frame with
      seen := true, width := o.width.toNat, height := o.height.toNat, channels := spoiledChannels o }
    outMem := s.outMem.writeBytes 0 ((List.range (spoiledSize o)).map fun a => Config.freeByte (s.draws + 1) a)
    draws := s.draws + 1 + 1 }

/-- The two ends of a spoiled decode: the image drawn, or the error drawn. -/
theorem spoiledEnd_eq (s : State) (o : SpoiledOutcome) (ho : Config.spoiledOutcome s.draws = o) :
    spoiledEnd s =
      if spoiledFits s o then completeOk (spoiledImage o s) else raiseError (spoiledError o) (spoiledEvents o s) := by
  subst ho
  rfl

theorem spoiledEnd_inMem (s : State) (m : Memory) :
    spoiledEnd { s with inMem := m } = { spoiledEnd s with inMem := m } := by
  have hfits (o : SpoiledOutcome) : spoiledFits { s with inMem := m } o = spoiledFits s o := rfl
  rw [spoiledEnd_eq s _ rfl, spoiledEnd_eq { s with inMem := m } _ rfl, hfits]
  split <;> rfl

end Sys2Proof.Machine
end

section
/-! PROOF. A whole engine turn with another IN_MEM that agrees below LEN (20_memory.md R72, 43_bitreader.md R245). -/

namespace Sys2Proof.Machine

variable {m : Memory} {s t : State}

/-- Both steps go on, the second to the first's next state with `m` as IN_MEM. -/
def NextAlike (m : Memory) (o o' : Host.Outcome State Fault Refusal) : Prop :=
  ∃ t, o = .next t ∧ o' = .next { t with inMem := m }

theorem SameBelow.next (h : SameBelow m s t) : NextAlike m (.next s) (.next t) := ⟨s, rfl, by rw [h.other]⟩

theorem SameBelow.raised (h : SameBelow m s t) (k : ErrCode) :
    NextAlike m (.next (raiseError k s)) (.next (raiseError k t)) := (h.map (f := raiseError k) rfl rfl rfl).next

theorem Alike.settle {r r' : Except Abort State} (h : Alike (SameBelow m) (SameBelow m) r r') :
    NextAlike m (settle r) (settle r') := by
  rcases h.cases with ⟨u, v, rfl, rfl, huv⟩ | ⟨k, u, v, rfl, rfl, -, huv⟩
  · exact huv.next
  · exact huv.raised k

theorem whenIdle_alike {act : State → State} (h : SameBelow m s t)
    (hact : act { s with inMem := m } = { act s with inMem := m }) :
    NextAlike m (.next (whenIdle s act)) (.next (whenIdle t act)) := by
  obtain ⟨rfl, hb⟩ := h
  refine ⟨_, rfl, ?_⟩
  unfold whenIdle
  dsimp only
  rw [hact]
  split <;> rfl

theorem loadImage_inMem (s : State) (m : Memory) :
    loadImage { s with inMem := m } = { loadImage s with inMem := m } := by
  unfold loadImage
  dsimp only [discardImage]
  split <;> rfl

/-- Every instruction does the same, a command of the host among them. -/
theorem exec_alike (i : Instr) (h : SameBelow m s t) : NextAlike m (exec i s) (exec i t) := by
  cases i with
  | load => exact whenIdle_alike h (loadImage_inMem s m)
  | decode =>
    refine whenIdle_alike h ?_
    dsimp only
    split <;> rfl
  | flush => exact whenIdle_alike h rfl
  | cmdReserved v => exact h.next
  | soi => exact (checkFraming_alike h).settle
  | sof0 => exact (parseSof_alike h).settle
  | dht => exact (parseDht_alike h).settle
  | dqt => exact (parseDqt_alike h).settle
  | dri => exact (parseDri_alike h).settle
  | sos => exact (parseSos_alike h).settle
  | appn n => exact (skipSegment_alike h).settle
  | com => exact (skipSegment_alike h).settle
  | eoi => exact h.raised _
  | markerOther kk => exact h.raised _
  | ecsData b => exact (ecsEffect_alike (.data b) h).settle
  | ecsStuff => exact (ecsEffect_alike .stuff h).settle
  | ecsFill => exact (ecsEffect_alike .fill h).settle
  | ecsEnd => exact (ecsEffect_alike .endOfImage h).settle
  | ecsRst n => exact (ecsEffect_alike (.rst n) h).settle
  | ecsIllegal x => exact (ecsEffect_alike (.illegal x) h).settle
  | dcDiff size ignored => exact (dcDiff_alike size.toNat h).settle
  | acEob => exact (h.map (f := endBlock) rfl rfl rfl).next
  | acZrl => exact (runValue_alike 15 0 h).settle
  | acRunVal run size => exact (runValue_alike run.toNat size.toNat h).settle
  | acIllegal run => exact h.raised _

theorem runDecoded_alike (r : Except DecodeError (Instr × List Byte)) (h : SameBelow m s t) :
    NextAlike m (runDecoded r s).outcome (runDecoded r t).outcome := by
  rcases r with e | ⟨i, rest⟩
  · exact h.raised _
  · exact exec_alike i h

theorem fetchFraming_alike (h : SameBelow m s t) : NextAlike m (fetchFraming s).outcome (fetchFraming t).outcome := by
  unfold fetchFraming
  rw [h.len_eq, h.inBytes]
  split
  · exact h.raised _
  · exact runDecoded_alike _ h

theorem fetchMarker_alike (h : SameBelow m s t) : NextAlike m (fetchMarker s).outcome (fetchMarker t).outcome := by
  unfold fetchMarker
  rw [h.cursor_eq, h.inBytes]
  split
  · exact exec_alike _ (h.map (f := fun u => { u with cursor := s.cursor + 2 }) rfl rfl rfl)
  · exact h.raised _

theorem fetchSymbol_alike (f : Format) (slot : Fin 4) (h : SameBelow m s t) :
    NextAlike m (fetchSymbol f slot s).outcome (fetchSymbol f slot t).outcome := by
  have hnb : t.reader.nb = s.reader.nb := by rw [h.other]
  unfold fetchSymbol
  rw [hnb]
  split
  · rw [outcome_fetchForm, outcome_fetchForm]
    exact (fetchByte_alike h).settle
  · rcases (huffTake_alike slot h).cases with ⟨⟨sym, u⟩, ⟨sym', v⟩, hu, hv, rfl, huv⟩ | ⟨k, u, v, hu, hv, -, huv⟩ <;>
      rw [hu, hv]
    · exact runDecoded_alike _ huv
    · exact huv.raised k

theorem engineTurn_alike (h : SameBelow m s t) : NextAlike m (engineTurn s).outcome (engineTurn t).outcome := by
  have ht := h.other
  unfold engineTurn
  rw [show (t.spoiled && t.status.busy) = (s.spoiled && s.status.busy) by rw [ht], show t.phase = s.phase by rw [ht]]
  split
  · exact ⟨_, rfl, by rw [ht, ← spoiledEnd_inMem]; rfl⟩
  · cases s.phase with
    | idle | doneOk | doneErr => exact h.next
    | parsingHeader =>
      dsimp only
      rw [h.cursor_eq]
      split
      · exact fetchFraming_alike h
      · exact fetchMarker_alike h
    | decodingMcu =>
      dsimp only
      rw [show t.scan = s.scan by rw [ht], show t.ch = s.ch by rw [ht]]
      cases s.scan.step with
      | dc => exact fetchSymbol_alike _ _ h
      | ac => exact fetchSymbol_alike _ _ h
      | idct => exact ⟨_, rfl, by rw [ht, ← finishBlock_inMem]; rfl⟩
    | atRestartBoundary => exact (restartStep_alike h).settle
    | finishing => exact (finishStep_alike h).settle

end Sys2Proof.Machine

open Sys2Proof Sys2Proof.Machine

/-- Settles O46: with no host access waiting, a step is the engine's turn, and every read of it lies below LEN. -/
theorem engineIgnoresBytesFromLenOn : Obligations.EngineIgnoresBytesFromLenOn := by
  intro s t m hq hb hstep
  obtain ⟨u, hu, hv⟩ := engineTurn_alike (s := s) (t := { s with inMem := m }) ⟨rfl, hb⟩
  rw [step_eq, fetch_engine hq, hu] at hstep
  cases hstep
  rw [step_eq, fetch_engine (s := { s with inMem := m }) hq, hv]
end

section
/-! PROOF. What an engine turn leaves alone (20_memory.md R73, R83, 40_host_commands.md R140): IN_MEM always, OUT_MEM
outside finishing and the tables outside the header, unless the turn ends the decode with an error. -/

namespace Sys2Proof.Machine

variable {s t u : State}

/-- How a step that settles ends: it goes on to a state that meets `Q`, or raises an error in a state that meets `E`. -/
inductive Settled (Q E : State → Prop) : State → Prop
  | goesOn {t : State} (done : Q t) : Settled Q E t
  | raised {k : ErrCode} {u : State} (kind : k ≠ .ok) (kept : E u) : Settled Q E (raiseError k u)

variable {Q Q' E E' : State → Prop}

theorem Settled.mono (h : Settled Q E t) (hq : ∀ u, Q u → Q' u) (he : ∀ u, E u → E' u) : Settled Q' E' t := by
  cases h with
  | goesOn done => exact .goesOn (hq t done)
  | raised kind kept => exact .raised kind (he _ kept)

/-- Where a computation ends and that the kind it raises is never OK give how its step ends. -/
theorem Ends.settled {R F : State → State → Prop} {r r' : Except Abort State} (hr : Ends Q E r) (ha : Alike R F r r')
    (h : Machine.settle r = .next t) : Settled Q E t := by
  cases r with
  | ok u => cases h; exact .goesOn hr
  | error e => cases h; exact .raised (ha.kind_ne_ok rfl) hr

/-- A marker's handler goes on in the header or to the scan, or raises an error. -/
theorem exec_marker_settled {i : Instr} (hi : i.format = .marker) (h : exec i s = .next t) :
    Settled (HeaderDone s) (HeaderKept s) t := by
  have raised (k : ErrCode) (hk : k ≠ .ok) : Settled (HeaderDone s) (HeaderKept s) (raiseError k s) :=
    .raised hk (.refl s)
  have header {r : Except Abort State} (hr : Ends (HeaderKept s) (HeaderKept s) r)
      (ha : Alike (SameBelow s.inMem) (SameBelow s.inMem) r r) (h : settle r = .next t) :
      Settled (HeaderDone s) (HeaderKept s) t := (hr.settled ha h).mono (fun _ => .inl) fun _ => id
  cases i <;> cases hi
  case sof0.refl => exact header (parseSof_ends s) (parseSof_alike (.self s)) h
  case dht.refl => exact header (parseDht_ends s) (parseDht_alike (.self s)) h
  case dqt.refl => exact header (parseDqt_ends s) (parseDqt_alike (.self s)) h
  case dri.refl => exact header (parseDri_ends s) (parseDri_alike (.self s)) h
  case sos.refl => exact (parseSos_ends s).settled (parseSos_alike (.self s)) h
  case appn.refl n => exact header (skipSegment_ends s) (skipSegment_alike (.self s)) h
  case com.refl => exact header (skipSegment_ends s) (skipSegment_alike (.self s)) h
  case eoi.refl => cases h; exact raised .syntaxError nofun
  case markerOther.refl kk => cases h; exact raised .syntaxError nofun

/-- A symbol goes on with its block, or raises an error. -/
theorem exec_symbol_settled {i : Instr} (hi : i.format = .dcSym8 ∨ i.format = .acSym8) (h : exec i s = .next t) :
    Settled (SymbolDone s) (SymbolKept s) t := by
  have nibble (n : BitVec 4) : n.toNat ≤ 15 := Nat.le_of_lt_succ n.isLt
  rcases hi with hi | hi <;> cases i <;> cases hi
  case inl.dcDiff.refl size ignored =>
    exact (dcDiff_ends ((nibble size).trans (by decide)) s).settled (dcDiff_alike size.toNat (.self s)) h
  case inr.acEob.refl => cases h; exact .goesOn (symbolDone_endBlock s)
  case inr.acZrl.refl => exact (runValue_ends le_rfl (Nat.zero_le _) s).settled (runValue_alike 15 0 (.self s)) h
  case inr.acRunVal.refl run size =>
    exact (runValue_ends (nibble run) ((nibble size).trans (by decide)) s).settled
      (runValue_alike run.toNat size.toNat (.self s)) h
  case inr.acIllegal.refl run => cases h; exact .raised (k := .syntaxError) nofun (ReaderOnly.refl s).symbolKept

/-- The tables, RI and the frame metadata (10_state.md R36, R39 to R41). -/
def tables (s : State) : Quad (Grid Byte) × Quad Bool × Quad HuffTable × Nat × Frame :=
  (s.qt, s.qtLoaded, s.ht, s.ri, s.frame)

/-- What a turn from `s` that does not end the decode leaves in `u`. -/
structure TurnKept (s u : State) : Prop where
  inMem : u.inMem = s.inMem
  outMem : s.phase ≠ .finishing → u.outMem = s.outMem
  tables : s.phase ≠ .parsingHeader → tables u = tables s

theorem TurnKept.refl (s : State) : TurnKept s s := ⟨rfl, fun _ => rfl, fun _ => rfl⟩

theorem turnKept_header (hp : s.phase = .parsingHeader) (h : HeaderKept s u) : TurnKept s u :=
  ⟨(congrArg State.inMem h.only :), fun _ => (congrArg State.outMem h.only :), fun hne => absurd hp hne⟩

theorem turnKept_headerDone (hp : s.phase = .parsingHeader) (h : HeaderDone s u) : TurnKept s u := by
  rcases h with h | ⟨v, hv, rfl⟩
  · exact turnKept_header hp h
  · obtain ⟨hin, hout, -⟩ := turnKept_header hp hv
    exact ⟨hin, hout, fun hne => absurd hp hne⟩

theorem turnKept_reader (h : ReaderOnly s u) : TurnKept s u := by
  obtain ⟨r, e, rfl⟩ := h
  exact ⟨rfl, fun _ => rfl, fun _ => rfl⟩

theorem turnKept_symbol (h : SymbolKept s u) : TurnKept s u :=
  ⟨(congrArg State.inMem h.only :), fun _ => (congrArg State.outMem h.only :),
    fun _ => (congrArg Machine.tables h.only :)⟩

theorem turnKept_finishBlock (s : State) : TurnKept s (finishBlock s) := by
  obtain ⟨p, sc, b, k, l, f, h⟩ := walkOnly_advanceBlock (idctBlock s.scan.chan (blockRow s) (blockColumn s) s)
  unfold finishBlock
  rw [h]
  exact ⟨rfl, fun _ => rfl, fun _ => rfl⟩

theorem turnKept_finish (hp : s.phase = .finishing) (h : FinishOnly s u) : TurnKept s u := by
  unfold FinishOnly at h
  exact ⟨(congrArg State.inMem h :), fun hne => absurd hp hne, fun _ => (congrArg Machine.tables h :)⟩

/-- A turn goes on, or it is the last part of finishing. -/
def TurnDone (s u : State) : Prop := TurnKept s u ∨ (s.phase = .finishing ∧ u = completeOk s)

/-- Every turn of a decode the host kept to R81 in. -/
theorem EngineMove.settled (h : EngineMove s t) (hs : s.spoiled = false) : Settled (TurnDone s) (TurnKept s) t := by
  cases h with
  | spoiled broken busy => exact absurd (broken.symm.trans hs) nofun
  | hold idle => exact .goesOn (.inl (.refl s))
  | reject busy => exact .raised nofun (.refl s)
  | framing phase done =>
    exact ((checkFraming_ends s).settled (checkFraming_alike (.self s)) done).mono
      (fun _ hu => .inl (turnKept_header phase hu)) fun _ => turnKept_header phase
  | marker phase room format done =>
    have moved {u : State} (h : TurnKept { s with cursor := s.cursor + 2 } u) : TurnKept s u :=
      ⟨h.inMem, h.outMem, h.tables⟩
    exact (exec_marker_settled format done).mono (fun _ hu => .inl (moved (turnKept_headerDone phase hu)))
      fun _ hu => moved (turnKept_header phase hu)
  | refill phase few done =>
    exact ((fetchByte_ends few).settled (fetchByte_alike (.self s)) done).mono
      (fun _ hu => .inl (turnKept_reader hu.only)) fun _ => turnKept_reader
  | @symbol i n _ phase held format done =>
    have moved {u : State} (h : TurnKept (skipBits n s) u) : TurnKept s u := ⟨h.inMem, h.outMem, h.tables⟩
    exact (exec_symbol_settled (format.imp And.right And.right) done).mono
      (fun _ hu => .inl (moved (turnKept_symbol hu.toSymbolKept))) fun _ hu => moved (turnKept_symbol hu)
  | block phase step => exact .goesOn (.inl (turnKept_finishBlock s))
  | restart phase done =>
    refine ((restartStep_ends s).settled (restartStep_alike (.self s)) done).mono ?_ fun _ => turnKept_reader
    rintro _ ⟨u, hu, rfl⟩
    obtain ⟨hin, hout, htables⟩ := turnKept_reader hu.only
    exact .inl ⟨hin, hout, htables⟩
  | finish phase done =>
    exact ((finishStep_ends s).settled (finishStep_alike (.self s)) done).mono
      (fun _ => Or.imp (turnKept_finish phase) fun hu => ⟨phase, hu⟩) fun _ hu => hu ▸ .refl s

theorem phase_ended_error {k : ErrCode} (hk : k ≠ .ok) : Phase.ended k = .doneErr := if_neg hk

end Sys2Proof.Machine

namespace Sys2Proof.Claims

open Sys2Proof.Machine

/-- The engine's own step is a turn that settles. -/
theorem EngineMoves.settled {s t : State} (hm : EngineMoves s) (h : step s = .next t) :
    Settled (TurnDone s) (TurnKept s) t := by
  rw [step_eq, fetch_engine hm.quiet] at h
  exact (engineMove_of_engineTurn h).settled hm.kept

end Sys2Proof.Claims

open Sys2Proof Sys2Proof.Machine Sys2Proof.Claims

/-- Settles O43, by how a turn can end: only finishing writes OUT_MEM, and only an error redraws it. -/
theorem engineWritesOutMemOnlyInFinishing : Obligations.EngineWritesOutMemOnlyInFinishing := by
  intro s t hm h
  cases hm.settled h with
  | goesOn done =>
    rcases done with kept | ⟨phase, rfl⟩
    · exact ⟨kept.inMem, fun hp => .inl (kept.outMem hp)⟩
    · exact ⟨rfl, fun hp => absurd phase hp⟩
  | raised kind kept => exact ⟨kept.inMem, fun _ => .inr (phase_ended_error kind)⟩

/-- Settles O44, by how a turn can end: outside the header none writes a table, the last one of a decode included. -/
theorem tablesAreReadOnlyDuringTheScan : Obligations.TablesAreReadOnlyDuringTheScan := by
  intro s t hm hp h
  have htables : tables t = tables s := by
    cases hm.settled h with
    | goesOn done =>
      rcases done with kept | ⟨-, rfl⟩
      · exact kept.tables hp
      · rfl
    | raised kind kept => exact kept.tables hp
  simpa [tables] using htables
end

section
/-! PROOF. How a decode the host spoiled ends (20_memory.md R81, 70_reset_and_hazards.md R444, R445). -/

namespace Sys2Proof.Machine

theorem step_spoiled {s : State} (hq : s.host = []) (hs : s.spoiled = true) (hb : s.status.busy = true) :
    step s = .next (spoiledEnd s) := by
  rw [step_eq, fetch_engine hq, engineTurn, hs, hb]
  rfl

/-- The image of a drawn outcome that is taken for a success fits OUT_MEM. -/
theorem spoiledSize_le {s : State} {o : SpoiledOutcome} (h : spoiledFits s o = true) :
    spoiledSize o ≤ s.params.outMemSize :=
  of_decide_eq_true (Bool.and_eq_true_iff.1 h).2

/-- A drawn error is one of the codes 1 to 3. -/
theorem spoiledError_ne (o : SpoiledOutcome) : spoiledError o ≠ .ok ∧ spoiledError o ≠ .notReady := by
  unfold spoiledError
  split
  · exact ⟨nofun, nofun⟩
  · split <;> exact ⟨nofun, nofun⟩

/-- From W·H·NC on only the host's own writes reach OUT_MEM at the end of a decode. -/
theorem read_completeOk_above {s : State} {a : Nat} (h : s.frame.width * s.frame.height * s.frame.channels ≤ a) :
    (completeOk s).outMem.read a = (Claims.lastWrite s.busyWrites a).getD (s.outMem.read a) := by
  have hkept : ¬ (a < s.frame.width * s.frame.height * s.frame.channels && !Config.hostWriteWins s.draws a) = true := by
    simp [Nat.not_lt.2 h]
  exact (read_settleBusyWrites ..).trans (if_neg hkept)

theorem read_spoiledImage_above (o : SpoiledOutcome) (s : State) {a : Nat} (h : spoiledSize o ≤ a) :
    (spoiledImage o s).outMem.read a = s.outMem.read a :=
  Memory.read_writeBytes_other _ _ _ _ (.inr (by simpa using h))

end Sys2Proof.Machine

open Sys2Proof Sys2Proof.Machine Sys2Proof.Claims

/-- Settles O48: the next turn is the drawn end, the drawn image or the drawn error. -/
theorem spoiledDecodeStillEnds : Obligations.SpoiledDecodeStillEnds := by
  intro s hq hs hb hsize
  refine ⟨_, step_spoiled hq hs hb, ?_⟩
  rw [spoiledEnd_eq s _ rfl]
  generalize Config.spoiledOutcome s.draws = o
  split
  · next hfits =>
    have hle := spoiledSize_le hfits
    have hlen : (completeOk (spoiledImage o s)).outLen.toNat = spoiledSize o :=
      Nat.mod_eq_of_lt (hle.trans_lt hsize)
    rw [hlen]
    refine ⟨rfl, rfl, nofun, rfl, hle, fun _ a ha => ?_⟩
    rw [read_completeOk_above ha, read_spoiledImage_above o s ha]
    rfl
  · obtain ⟨hok, hready⟩ := spoiledError_ne o
    exact ⟨rfl, rfl, hready, rfl, Nat.zero_le _, fun h => absurd h hok⟩
end

section
/-! PROOF. The host's accesses (20_memory.md R70, R78, R80, R81, R85): where an address lies, and what an access to a
memory stores and returns. -/

namespace Sys2Proof.Machine

/-! ### Where an address lies -/

variable {p : Params} {a i : Nat} {size : AccessSize}

/-- The address is outside the register block. -/
def offRegisters (p : Params) (a : Nat) : Prop := a < p.regBase ∨ p.regBase + 0x100 ≤ a

/-- An access there has a byte outside the memory at `base` of `n` bytes. -/
def offMemory (base n a : Nat) (size : AccessSize) : Prop := a < base ∨ base + n < a + size.bytes

theorem placeOf_badRegister {off : Nat} (ha : a = p.regBase + off) (hoff : off < 0x100)
    (hbad : size ≠ .four ∨ a % 4 ≠ 0) : placeOf p a size = .badRegister := by
  have hin : p.regBase ≤ a ∧ a < p.regBase + 0x100 := by omega
  have hill : ¬ (size = .four ∧ a % 4 = 0 ∧ (a - p.regBase) % 4 = 0) := fun ⟨hf, hal, _⟩ =>
    hbad.elim (absurd hf) (absurd hal)
  rw [placeOf, if_pos hin, if_neg hill]

theorem placeOf_memory (hr : offRegisters p a) : placeOf p a size =
    if p.inBase ≤ a ∧ a + size.bytes ≤ p.inBase + p.inMemSize then .inMem (a - p.inBase)
    else if p.outBase ≤ a ∧ a + size.bytes ≤ p.outBase + p.outMemSize then .outMem (a - p.outBase)
    else .nowhere := if_neg (by unfold offRegisters at hr; omega)

theorem placeOf_inMem (hr : offRegisters p a) (ha : a = p.inBase + i) (hi : i + size.bytes ≤ p.inMemSize) :
    placeOf p a size = .inMem i := by
  subst ha
  rw [placeOf_memory hr, if_pos (by omega), Nat.add_sub_cancel_left]

theorem placeOf_outMem (hr : offRegisters p a) (hin : offMemory p.inBase p.inMemSize a size) (ha : a = p.outBase + i)
    (hi : i + size.bytes ≤ p.outMemSize) : placeOf p a size = .outMem i := by
  subst ha
  rw [placeOf_memory hr, if_neg (by unfold offMemory at hin; omega), if_pos (by omega), Nat.add_sub_cancel_left]

theorem placeOf_nowhere (hr : offRegisters p a) (hin : offMemory p.inBase p.inMemSize a size)
    (hout : offMemory p.outBase p.outMemSize a size) : placeOf p a size = .nowhere := by
  unfold offMemory at hin hout
  rw [placeOf_memory hr, if_neg (by omega), if_neg (by omega)]

/-! ### The step that takes an access -/

variable {s : State} {v : Word} {rest : List HostOp}

theorem step_hostRead (hs : s.host = .read a size :: rest) : step s = hostRead a size { s with host := rest } :=
  step_done (by rw [fetch, hs]; rfl)

/-- A write to anything but CMD. -/
theorem step_hostWrite (hs : s.host = .write a size v :: rest) (hp : placeOf s.params a size ≠ .register 0x04) :
    step s = hostWrite a size v { s with host := rest } := by
  have hc : isCommand s.params a size = false := beq_false_of_ne hp
  refine step_done ?_
  rw [fetch, hs]
  exact if_neg (by rw [hc]; nofun)

/-- An access that ends alike as a read and as a write, at a place other than CMD. -/
theorem step_of_access {q : Place} {o : Host.Outcome State Fault Refusal}
    (hs : s.host = .read a size :: rest ∨ s.host = .write a size v :: rest) (hp : placeOf s.params a size = q)
    (hq : q ≠ .register 0x04) (hr : hostRead a size { s with host := rest } = o)
    (hw : hostWrite a size v { s with host := rest } = o) : step s = o := by
  rcases hs with hs | hs
  · rw [step_hostRead hs, hr]
  · rw [step_hostWrite hs (by rw [hp]; exact hq), hw]

/-! ### Values and their bytes -/

@[simp] theorem length_valueBytes (size : AccessSize) (v : Word) : (valueBytes size v).length = size.bytes := by
  simp [valueBytes]

/-- The bytes of a value stored, lowest first. -/
theorem read_writeBytes_valueBytes (m : Memory) (i : Nat) (v : Word) {j : Nat} (hj : j < size.bytes) :
    (m.writeBytes i (valueBytes size v)).read (i + j) = v.extractLsb' (8 * j) 8 := by
  rw [Memory.read_writeBytes_same m i _ j (by rw [length_valueBytes]; exact hj)]
  simp [valueBytes]

theorem read_writeBytes_valueBytes_other (m : Memory) (v : Word) {b : Nat} (hb : b < i ∨ i + size.bytes ≤ b) :
    (m.writeBytes i (valueBytes size v)).read b = m.read b :=
  Memory.read_writeBytes_other _ _ _ _ (by rw [length_valueBytes]; exact hb)

theorem cellsFrom_map_range (f : Nat → Byte) (n a : Nat) :
    cellsFrom a ((List.range n).map f) = (List.range n).map fun j => (a + j, f j) := by
  induction n generalizing a f with
  | zero => rfl
  | succ n ih =>
    rw [List.range_succ_eq_map, List.map_cons, List.map_map, List.map_cons, List.map_map, cellsFrom, ih]
    simp [Function.comp_def, Nat.add_assoc, Nat.add_comm 1]

/-- A value of `n` bytes is below 256^n. -/
theorem littleEndian_lt (bytes : List Byte) : (littleEndian bytes).toNat < 2 ^ (8 * bytes.length) := by
  induction bytes with
  | nil => decide
  | cons b rest ih =>
    have hlow : (b.setWidth 32).toNat < 2 ^ (8 * (rest.length + 1)) := by
      rw [BitVec.toNat_setWidth]
      exact (Nat.mod_le _ _).trans_lt (b.isLt.trans_le (Nat.pow_le_pow_right (by decide) (by omega)))
    have hhigh : (littleEndian rest <<< 8).toNat < 2 ^ (8 * (rest.length + 1)) := by
      rw [BitVec.toNat_shiftLeft, Nat.shiftLeft_eq, Nat.mul_add, Nat.pow_add]
      exact (Nat.mod_le _ _).trans_lt ((Nat.mul_lt_mul_right (by decide)).2 ih)
    exact Nat.or_lt_two_pow hhigh hlow

/-- Byte `j` of the value of at most four bytes is the `j`th of them. -/
theorem extractLsb'_littleEndian (bytes : List Byte) (j : Nat) (hj : j < bytes.length) (h4 : bytes.length ≤ 4) :
    (littleEndian bytes).extractLsb' (8 * j) 8 = bytes[j] := by
  induction bytes generalizing j with
  | nil => exact absurd hj (Nat.not_lt_zero j)
  | cons b rest ih =>
    have heq : littleEndian (b :: rest) = (littleEndian rest <<< 8) ||| b.setWidth 32 := rfl
    rw [heq]
    cases j with
    | zero =>
      ext k hk
      have h32 : k < 32 := by omega
      simp [hk, h32]
    | succ j =>
      have hrest := ih j (Nat.lt_of_succ_lt_succ hj) ((Nat.le_succ _).trans h4)
      simp only [List.length_cons] at hj h4
      rw [List.getElem_cons_succ, ← hrest]
      ext k hk
      have hlow : ¬ 8 * (j + 1) + k < 8 := by omega
      have hb : b.getLsbD (8 * (j + 1) + k) = false := BitVec.getLsbD_of_ge _ _ (Nat.not_lt.1 hlow)
      have h32 : 8 * (j + 1) + k < 32 := by omega
      have hsub : 8 * (j + 1) + k - 8 = 8 * j + k := by omega
      simp [hlow, hb, h32, hsub, BitVec.getLsbD_eq_getElem (show 8 * j + k < 32 by omega)]

theorem AccessSize.bytes_le (size : AccessSize) : size.bytes ≤ 4 := by cases size <;> decide

/-- A read of a memory returns a value of its width. -/
theorem littleEndian_readBytes_lt (m : Memory) (i n : Nat) : (littleEndian (m.readBytes i n)).toNat < 2 ^ (8 * n) := by
  have h := littleEndian_lt (m.readBytes i n)
  rwa [Memory.length_readBytes] at h

/-- Its bytes are those of the memory, lowest first. -/
theorem extractLsb'_littleEndian_readBytes (m : Memory) (i : Nat) {j : Nat} (hj : j < size.bytes) :
    (littleEndian (m.readBytes i size.bytes)).extractLsb' (8 * j) 8 = m.read (i + j) := by
  have hlen := m.length_readBytes i size.bytes
  rw [extractLsb'_littleEndian _ j (by rw [hlen]; exact hj) (by rw [hlen]; exact size.bytes_le)]
  simp [Memory.readBytes]

/-! ### Accesses to the two memories -/

theorem step_write_inMem (hs : s.host = .write a size v :: rest) (hp : placeOf s.params a size = .inMem i) :
    step s = .next (writeInMem i (valueBytes size v) { s with host := rest }) := by
  rw [step_hostWrite hs (by rw [hp]; nofun)]
  simp only [hostWrite, hp]

theorem step_read_inMem (hs : s.host = .read a size :: rest) (hp : placeOf s.params a size = .inMem i) :
    step s = .next { s with host := rest, readData := littleEndian (s.inMem.readBytes i size.bytes) } := by
  rw [step_hostRead hs]
  simp only [hostRead, hp]

theorem step_write_outMem (hs : s.host = .write a size v :: rest) (hp : placeOf s.params a size = .outMem i) :
    step s = .next (writeOutMem i (valueBytes size v) { s with host := rest }) := by
  rw [step_hostWrite hs (by rw [hp]; nofun)]
  simp only [hostWrite, hp]

theorem step_read_outMem (hs : s.host = .read a size :: rest) (hp : placeOf s.params a size = .outMem i) :
    step s = .next (readOutMem i size.bytes { s with host := rest }) := by
  rw [step_hostRead hs]
  simp only [hostRead, hp]

theorem writeOutMem_busy (bytes : List Byte) (hb : s.status.busy = true) :
    writeOutMem i bytes s = { s with busyWrites := s.busyWrites ++ cellsFrom i bytes } := if_pos hb

theorem writeOutMem_idle (bytes : List Byte) (hb : s.status.busy = false) :
    writeOutMem i bytes s = { s with outMem := s.outMem.writeBytes i bytes } := if_neg (by rw [hb]; nofun)

/-- While BUSY a read of OUT_MEM returns drawn bytes: any value of its width. -/
theorem readOutMem_busy (n : Nat) (hb : s.status.busy = true) :
    ∃ x, readOutMem i n s = { s with readData := x, draws := s.draws + 1 } ∧ x.toNat < 2 ^ (8 * n) := by
  refine ⟨_, if_pos hb, ?_⟩
  simpa using littleEndian_lt ((List.range n).map fun j => Config.freeByte s.draws (i + j))

theorem readOutMem_idle (n : Nat) (hb : s.status.busy = false) :
    readOutMem i n s = { s with readData := littleEndian (s.outMem.readBytes i n) } := if_neg (by rw [hb]; nofun)

end Sys2Proof.Machine

open Sys2Proof Sys2Proof.Machine

/-- Settles O51, by the place of the address: no access to it is a command, and both kinds of access stop. -/
theorem badAccessesStop : Obligations.BadAccessesStop := by
  intro s a size v rest hs
  constructor
  · intro off ha hoff hbad
    have hp : placeOf s.params a size = .badRegister := placeOf_badRegister ha hoff hbad
    exact step_of_access hs hp nofun (by simp only [hostRead, hp]) (by simp only [hostWrite, hp])
  · intro hr hin hout
    have hp : placeOf s.params a size = .nowhere := placeOf_nowhere hr hin hout
    exact step_of_access hs hp nofun (by simp only [hostRead, hp]) (by simp only [hostWrite, hp])

/-- Settles O52, memory by memory: the access reaches its place, and what it stores or returns is read off there. -/
theorem memoryAccessesAreLittleEndian : Obligations.MemoryAccessesAreLittleEndian := by
  intro s a i size v rest hr
  constructor
  · intro ha hi
    have hp : placeOf s.params a size = .inMem i := placeOf_inMem hr ha hi
    constructor
    · intro hs
      exact ⟨_, step_write_inMem hs hp, fun j hj => read_writeBytes_valueBytes _ _ _ hj,
        fun b hb => read_writeBytes_valueBytes_other _ _ hb, rfl, rfl, rfl⟩
    · intro hs
      exact ⟨_, step_read_inMem hs hp, littleEndian_readBytes_lt ..,
        fun j hj => extractLsb'_littleEndian_readBytes _ _ hj⟩
  · intro hin ha hi
    have hp : placeOf s.params a size = .outMem i := placeOf_outMem hr hin ha hi
    refine ⟨fun hb => ⟨fun hs => ?_, fun hs => ?_⟩, fun hb hs => ?_, fun hb hs => ?_⟩
    · rw [step_write_outMem hs hp, writeOutMem_busy (s := { s with host := rest }) _ hb, valueBytes,
        cellsFrom_map_range]
    · obtain ⟨x, hx, hlt⟩ := readOutMem_busy (s := { s with host := rest }) (i := i) size.bytes hb
      exact ⟨x, by rw [step_read_outMem hs hp, hx], hlt⟩
    · refine ⟨_, step_write_outMem hs hp, ?_⟩
      rw [writeOutMem_idle (s := { s with host := rest }) _ hb]
      exact ⟨fun j hj => read_writeBytes_valueBytes _ _ _ hj, fun b hb => read_writeBytes_valueBytes_other _ _ hb,
        rfl, rfl⟩
    · refine ⟨_, ?_, littleEndian_readBytes_lt .., fun j hj => extractLsb'_littleEndian_readBytes _ _ hj⟩
      rw [step_read_outMem hs hp, readOutMem_idle (s := { s with host := rest }) _ hb]
end

section
/-! PROOF. The output of a three-channel image (20_memory.md R73, R74, 47_upsample_colour.md R365, R366, R368). -/

namespace Sys2Proof.Machine

/-! ### Concatenations of pieces of one length -/

/-- Element `j` of piece `i`. -/
theorem getElem?_flatMap_of_length {α β : Type} {f : α → List β} {k : Nat} (hf : ∀ a, (f a).length = k) (l : List α)
    (i : Nat) {j : Nat} (hj : j < k) : (l.flatMap f)[k * i + j]? = l[i]?.bind fun a => (f a)[j]? := by
  induction l generalizing i with
  | nil => simp
  | cons a rest ih =>
    have hlen := hf a
    cases i with
    | zero => simp [List.getElem?_append, hlen, hj]
    | succ i =>
      have hge : (f a).length ≤ k * (i + 1) + j := by rw [hlen, Nat.mul_succ]; omega
      have hsub : k * (i + 1) + j - (f a).length = k * i + j := by rw [hlen, Nat.mul_succ]; omega
      rw [List.flatMap_cons, List.getElem?_append_right hge, hsub, ih]
      rfl

theorem length_flatMap_of_length {α β : Type} {f : α → List β} {k : Nat} (hf : ∀ a, (f a).length = k) (l : List α) :
    (l.flatMap f).length = k * l.length := by
  simp [List.length_flatMap, hf, Nat.mul_comm]

/-! ### Pixels -/

theorem length_pixels (w h : Nat) : (pixels w h).length = w * h := by
  rw [pixels, length_flatMap_of_length (k := w) (fun _ => by simp), List.length_range]

/-- The pixels stand row by row. -/
theorem getElem?_pixels {w h y x : Nat} (hy : y < h) (hx : x < w) : (pixels w h)[y * w + x]? = some (y, x) := by
  rw [Nat.mul_comm, pixels, getElem?_flatMap_of_length (k := w) (fun _ => by simp) _ _ hx]
  simp [hy, hx]

/-- The statement's shift by an integer is the core library's shift by a natural number. -/
theorem shiftRight_eight (z : Int) : z >>> (8 : Int) = z >>> (8 : Nat) := Int.shiftRight_natCast_right z 8

theorem length_colourPixel (y cb cr : Byte) : (colourPixel y cb cr).length = 3 := rfl

theorem length_colourBytes (s : State) : (colourBytes s).length = 3 * (s.frame.width * s.frame.height) := by
  rw [colourBytes, length_flatMap_of_length fun _ => length_colourPixel .., length_pixels]

/-- The three bytes of a pixel stand at 3·(y·W + x). -/
theorem getElem?_colourBytes {s : State} {y x j : Nat} (hy : y < s.frame.height) (hx : x < s.frame.width) (hj : j < 3) :
    (colourBytes s)[3 * (y * s.frame.width + x) + j]? =
      (colourPixel (sampleAt s 0 y x) (sampleAt s 1 y x) (sampleAt s 2 y x))[j]? := by
  rw [colourBytes, getElem?_flatMap_of_length (fun _ => length_colourPixel ..) _ _ hj, getElem?_pixels hy hx]
  rfl

theorem sampleAt_eq {s : State} {c : Fin 3} {m : Memory} (h : s.planes.get c = some m) (y x : Nat) :
    sampleAt s c y x = m.read (y * (s.ch.get c).stride + x) := by
  rw [sampleAt, h]
  rfl

/-! ### The step -/

theorem Memory.read_writeBytes_getElem? {m : Memory} {bytes : List Byte} {a : Nat} {v : Byte} (h : bytes[a]? = some v) :
    (m.writeBytes 0 bytes).read a = v := by
  obtain ⟨ha, hv⟩ := List.getElem?_eq_some_iff.1 h
  rw [← hv, ← Memory.read_writeBytes_same m 0 bytes a ha, Nat.zero_add]

/-- The turn that writes the output. -/
theorem step_output {s : State} (hm : Claims.EngineMoves s) (hp : s.phase = .finishing) (hf : s.fin = .output) :
    step s = .next (writeOutput s) := by
  rw [step_eq, fetch_engine hm.quiet, engineTurn, hm.kept, hp]
  show settle (finishStep s) = _
  rw [finishStep, hf]
  rfl

/-- A byte of the output of a three-channel image. -/
theorem read_colourOutput {s : State} {y x j : Nat} {v : Byte} (hn : s.frame.channels = 3) (hy : y < s.frame.height)
    (hx : x < s.frame.width)
    (hv : (colourPixel (sampleAt s 0 y x) (sampleAt s 1 y x) (sampleAt s 2 y x))[j]? = some v) :
    (writeOutput s).outMem.read (3 * (y * s.frame.width + x) + j) = v := by
  have hj : j < 3 := (List.getElem?_eq_some_iff.1 hv).1
  have hout : (writeOutput s).outMem = s.outMem.writeBytes 0 (colourBytes s) := by rw [writeOutput, if_pos hn]
  rw [hout]
  exact Memory.read_writeBytes_getElem? ((getElem?_colourBytes hy hx hj).trans hv)

end Sys2Proof.Machine

open Sys2Proof Sys2Proof.Machine

/-- Settles O40: the output step writes `colourBytes`, of which pixel (x, y) is the three from 3·(y·W + x) on. -/
theorem colourOutputIsTheTransform : Obligations.ColourOutputIsTheTransform := by
  intro s p0 p1 p2 hm hp hf hn hplanes
  refine ⟨(writeOutput s).outMem, step_output hm hp hf, fun y hy x hx => ?_, fun a ha => ?_⟩
  · have h0 := sampleAt_eq (c := 0) (congrArg (Triple.get · 0) hplanes) y x
    have h1 := sampleAt_eq (c := 1) (congrArg (Triple.get · 1) hplanes) y x
    have h2 := sampleAt_eq (c := 2) (congrArg (Triple.get · 2) hplanes) y x
    refine ⟨read_colourOutput (j := 0) hn hy hx ?_, read_colourOutput (j := 1) hn hy hx ?_,
      read_colourOutput (j := 2) hn hy hx ?_⟩ <;>
      simp only [h0, h1, h2, shiftRight_eight, Int.shiftRight_eq_div_pow, Int.mul_comm 256] <;> rfl
  · rw [writeOutput, if_pos hn]
    refine Memory.read_writeBytes_other _ _ _ _ (.inr ?_)
    rw [length_colourBytes, Nat.zero_add, ← Nat.mul_assoc]
    exact ha
end

section
/-! PROOF. The words of each format written out from the spec (30_encoding.md R91, R93, R100, R102, R103). -/

/-- Settles O1, word by word: both sides are closed, and the decoder computes each word's instruction and rest. -/
theorem specWordsDecode : Obligations.SpecWordsDecode :=
  ⟨rfl, rfl, rfl, rfl, rfl, rfl, rfl, rfl, rfl, rfl, rfl, rfl⟩
end

section
/-! PROOF. The host's commands and its writes to the register block (40_host_commands.md R130, R132 to R137). -/

namespace Sys2Proof.Machine

variable {s : State} {v : Word} {rest : List HostOp}

/-! ### The step that takes a command -/

/-- The bytes of a command word, lowest first, are put together again. -/
theorem decode_wordBytes (v : Word) : decode .cmd32 (wordBytes v) = .ok (decodeCommand v, []) := by
  have hv : v.extractLsb' 24 8 ++ v.extractLsb' 16 8 ++ v.extractLsb' 8 8 ++ v.extractLsb' 0 8 = v := by
    rw [BitVec.extractLsb'_append_extractLsb'_eq_extractLsb' (show 24 = 16 + 8 from rfl),
      BitVec.extractLsb'_append_extractLsb'_eq_extractLsb' (show 16 = 8 + 8 from rfl),
      BitVec.extractLsb'_append_extractLsb'_eq_extractLsb' (show 8 = 0 + 8 from rfl)]
    exact BitVec.extractLsb'_eq_self
  exact congrArg (fun w => Except.ok (decodeCommand w, [])) hv

theorem isCommand_cmd {p : Params} (hb : p.regBase % 4 = 0) : isCommand p (p.regBase + 4) .four = true :=
  beq_iff_eq.2 (placeOf_register hb rfl (by decide))

theorem step_command {i : Instr} {tail : List Byte} (hb : s.params.regBase % 4 = 0)
    (hs : s.host = .write (s.params.regBase + 4) .four v :: rest) (hd : decode .cmd32 (wordBytes v) = .ok (i, tail)) :
    step s = exec i { s with host := rest } := by
  have hf : fetch s = runDecoded (decode .cmd32 (wordBytes v)) { s with host := rest } := by
    rw [fetch, hs]
    exact if_pos (isCommand_cmd hb)
  rw [step_eq, hf, outcome_runDecoded_ok _ hd]

/-! ### The commands -/

theorem whenIdle_idle (act : State → State) (hb : s.status.busy = false) : whenIdle s act = act s :=
  if_neg (by rw [hb]; nofun)

theorem whenIdle_busy (act : State → State) (hb : s.status.busy = true) : whenIdle s act = s := if_pos hb

theorem exec_load_idle (hb : s.status.busy = false) : exec .load s = .next (loadImage s) :=
  congrArg Host.Outcome.next (whenIdle_idle loadImage hb)

theorem exec_flush_idle (hb : s.status.busy = false) : exec .flush s = .next (flushImage s) :=
  congrArg Host.Outcome.next (whenIdle_idle flushImage hb)

theorem exec_decode_idle (hb : s.status.busy = false) :
    exec .decode s = .next (if s.status.loaded then startDecode s else rejectDecode s) :=
  congrArg Host.Outcome.next (whenIdle_idle _ hb)

/-- No command does anything while BUSY (R137). -/
theorem exec_command_busy {i : Instr} (hi : i.format = .cmd32) (hb : s.status.busy = true) : exec i s = .next s := by
  cases i <;> cases hi
  case load.refl => exact congrArg Host.Outcome.next (whenIdle_busy loadImage hb)
  case decode.refl => exact congrArg Host.Outcome.next (whenIdle_busy _ hb)
  case flush.refl => exact congrArg Host.Outcome.next (whenIdle_busy flushImage hb)
  case cmdReserved.refl v => rfl

/-- The values that name no command (R136). -/
theorem decodeCommand_reserved (h : v ≠ 1 ∧ v ≠ 2 ∧ v ≠ 3) : decodeCommand v = .cmdReserved v := by
  obtain ⟨h1, h2, h3⟩ := h
  exact (if_neg h1).trans ((if_neg h2).trans (if_neg h3))

/-! ### The other registers -/

/-- A write to a register but CMD. -/
theorem step_write_register {off : Nat} (hb : s.params.regBase % 4 = 0) (ho : off % 4 = 0) (hlt : off < 0x100)
    (hne : off ≠ 0x04) (hs : s.host = .write (s.params.regBase + off) .four v :: rest) :
    step s = .next (regWrite off v { s with host := rest }) := by
  have hp : placeOf s.params (s.params.regBase + off) .four = .register off := placeOf_register hb ho hlt
  rw [step_hostWrite hs (by rw [hp]; exact fun h => hne (Place.register.inj h))]
  simp only [hostWrite, hp]

/-- CTRL takes bit 0 and nothing else (10_state.md R22). -/
theorem and_one_eq (v : Word) : v &&& 1 = if v.getLsbD 0 then 1 else 0 := by
  refine BitVec.and_one_eq_setWidth_ofBool_getLsbD.trans ?_
  cases v.getLsbD 0 <;> rfl

theorem regWrite_ctrl (hb : s.status.busy = false) :
    regWrite 0x00 v s = { s with ctrl := if v.getLsbD 0 then 1 else 0 } := by
  rw [← and_one_eq, regWrite, if_pos rfl, hb]
  rfl

theorem regWrite_inLen (hb : s.status.busy = false) : regWrite 0x10 v s = { s with inLen := v } := by
  rw [regWrite, if_neg (by decide), if_pos rfl, hb]
  rfl

theorem regWrite_ignored {off : Nat} (h : (off ≠ 0x00 ∧ off ≠ 0x10) ∨ s.status.busy = true) : regWrite off v s = s := by
  unfold regWrite
  rcases h with ⟨h0, h10⟩ | hb
  · rw [if_neg h0, if_neg h10]
  · rw [if_pos hb, if_pos hb, ite_self, ite_self]

/-! ### Completion -/

/-- A byte the host did not write while BUSY is as the output left it. -/
theorem read_completeOk_unwritten {a : Nat} (h : Claims.lastWrite s.busyWrites a = none) :
    (completeOk s).outMem.read a = s.outMem.read a := by
  unfold Claims.lastWrite at h
  refine (read_settleBusyWrites ..).trans ?_
  rw [h, Option.getD_none, ite_self]

/-- A byte the host wrote while BUSY is its last one or as the output left it. -/
theorem read_completeOk_written {a : Nat} {v : Byte} (h : Claims.lastWrite s.busyWrites a = some v) :
    (completeOk s).outMem.read a = v ∨ (completeOk s).outMem.read a = s.outMem.read a := by
  unfold Claims.lastWrite at h
  have hread := read_settleBusyWrites s.draws (s.frame.width * s.frame.height * s.frame.channels) a s.busyWrites
    s.outMem
  rw [h, Option.getD_some] at hread
  split at hread
  · exact .inr hread
  · exact .inl hread

/-- A decode the host kept to R81 in leaves the mark as it was. -/
theorem completeOk_of_kept (hk : s.spoiled = false) : completeOk s = { completeOk s with spoiled := s.spoiled } := by
  rw [hk]
  rfl

/-- The turn that completes the decode. -/
theorem step_complete (hm : Claims.EngineMoves s) (hp : s.phase = .finishing) (hf : s.fin = .complete) :
    step s = .next (completeOk s) := by
  rw [step_eq, fetch_engine hm.quiet, engineTurn, hm.kept, hp]
  show settle (finishStep s) = _
  rw [finishStep, hf]
  rfl

end Sys2Proof.Machine

open Sys2Proof Sys2Proof.Machine

/-- Settles O4: an aligned 32-bit write at offset 4 is a command. -/
theorem stepRunsTheCommandWritten : Obligations.StepRunsTheCommandWritten := fun _ _ _ _ _ hb hs hd =>
  step_command hb hs hd

/-- Settles O9, on both sides of IN_MEM_SIZE. -/
theorem loadLatchesTheLength : Obligations.LoadLatchesTheLength := by
  intro s hb
  rw [exec_load_idle hb]
  exact ⟨fun h => congrArg Host.Outcome.next (if_neg (Nat.not_lt.2 h)), fun h => congrArg Host.Outcome.next (if_pos h)⟩

/-- Settles O10: the idle core starts the decode of a loaded image, and rejects it otherwise. -/
theorem decodeStartsFromTheResetList : Obligations.DecodeStartsFromTheResetList := by
  intro s hb
  rw [exec_decode_idle hb]
  constructor <;> intro hl <;> rw [hl] <;> rfl

/-- Settles O11: the idle core drops the image. -/
theorem flushDropsTheImage : Obligations.FlushDropsTheImage := fun _ hb => exec_flush_idle hb

/-- Settles O12: while BUSY no command acts, and a reserved value never names one. -/
theorem ignoredCommandsChangeNothing : Obligations.IgnoredCommandsChangeNothing := by
  intro s v rest hb
  refine ⟨fun hs hig => ?_, rfl, fun hbusy => ?_⟩
  · rw [step_command hb hs (decode_wordBytes v)]
    rcases hig with hbusy | hres
    · exact exec_command_busy (format_decodeCommand v) hbusy
    · rw [decodeCommand_reserved hres]
      rfl
  · exact ⟨exec_command_busy rfl hbusy, exec_command_busy rfl hbusy, exec_command_busy rfl hbusy⟩

/-- Settles O50: the write reaches `regWrite`, whose cases are the registers that take one. -/
theorem registerWritesReachCtrlAndInLen : Obligations.RegisterWritesReachCtrlAndInLen := by
  intro s off v rest hb ho hlt hne hs
  rw [step_write_register hb ho hlt hne hs]
  refine ⟨?_, ?_, fun h => congrArg Host.Outcome.next (regWrite_ignored (s := { s with host := rest }) h)⟩
  · rintro rfl hbusy
    exact congrArg Host.Outcome.next (regWrite_ctrl (s := { s with host := rest }) hbusy)
  · rintro rfl hbusy
    exact congrArg Host.Outcome.next (regWrite_inLen (s := { s with host := rest }) hbusy)

/-- Settles O42: completion is `completeOk`, and what a byte of OUT_MEM then reads is settled write by write. -/
theorem completionReportsTheImage : Obligations.CompletionReportsTheImage := by
  intro s hm hp hf
  refine ⟨(completeOk s).outMem, ?_, fun a => read_completeOk_unwritten, fun a v h => ⟨fun ha => ?_, fun _ => ?_⟩⟩
  · rw [step_complete hm hp hf, completeOk_of_kept hm.kept]
    rfl
  · rw [read_completeOk_above ha, h, Option.getD_some]
  · exact read_completeOk_written h
end

section
/-! PROOF. When two grids are equal, and what entries put into them determine. -/

namespace Sys2Proof

theorem Oct.ext_get {α : Type} {p q : Oct α} (h : ∀ i, p.get i = q.get i) : p = q := by
  obtain ⟨p0, p1, p2, p3, p4, p5, p6, p7⟩ := p
  obtain ⟨q0, q1, q2, q3, q4, q5, q6, q7⟩ := q
  congr 1
  exacts [h 0, h 1, h 2, h 3, h 4, h 5, h 6, h 7]

theorem Grid.ext_at {α : Type} {p q : Grid α} (h : ∀ j < 64, Grid.at p j = Grid.at q j) : p = q := by
  refine Oct.ext_get fun r => Oct.ext_get fun c => ?_
  have hrow : gridRow (8 * r.val + c.val) = r := Fin.ext (by simp only [gridRow, Fin.ofNat]; omega)
  have hcol : gridCol (8 * r.val + c.val) = c := Fin.ext (by simp only [gridCol, Fin.ofNat]; omega)
  have hat := h (8 * r.val + c.val) (by omega)
  unfold Grid.at at hat
  rwa [hrow, hcol] at hat

/-- Entries put into two grids at the same places: they agree where one was put, or where they did before. -/
theorem Grid.at_foldl_put {α : Type} (place : Nat → Nat) (value : Nat → α) (l : List Nat) {p q : Grid α} {j : Nat}
    (hl : ∀ k ∈ l, place k < 64) (hj : j < 64) (h : (∃ k ∈ l, place k = j) ∨ Grid.at p j = Grid.at q j) :
    Grid.at (l.foldl (fun g k => Grid.put g (place k) (value k)) p) j =
      Grid.at (l.foldl (fun g k => Grid.put g (place k) (value k)) q) j := by
  induction l generalizing p q with
  | nil => exact h.resolve_left (by simp)
  | cons k rest ih =>
    refine ih (fun k' hk' => hl k' (List.mem_cons_of_mem k hk')) ?_
    by_cases hkj : place k = j
    · right
      rw [← hkj, Grid.at_put_same, Grid.at_put_same]
    · rcases h with ⟨k', hk', hplace⟩ | heq
      · rcases List.mem_cons.1 hk' with rfl | hk'
        · exact absurd hplace hkj
        · exact .inl ⟨k', hk', hplace⟩
      · right
        have hk64 := hl k List.mem_cons_self
        rw [Grid.at_put_other p _ hk64 hj (Ne.symm hkj), Grid.at_put_other q _ hk64 hj (Ne.symm hkj), heq]

end Sys2Proof
end

section
/-! PROOF. Two decodes of one image (40_host_commands.md R142, 70_reset_and_hazards.md R443). A DECODE inherits fields
from the decode before (log entry 9), and the two cores may differ in one until a rule sets it. Here the relation that
holds while the header is parsed, and the handlers of the tables. -/

namespace Sys2Proof.Machine

/-- `s` with the fields of `x` that a running scan reads in part or not at all: the host's registers, OUT_MEM, the
channel records, the quantisation tables and the place of finishing. -/
def outer (x s : State) : State :=
  { s with ctrl := x.ctrl, inLen := x.inLen, readData := x.readData, outMem := x.outMem, ch := x.ch, qt := x.qt
           live := x.live, fin := x.fin }

/-- `s` with all the fields of `x` that a DECODE inherits: those, the frame, and the scan with its reader and block. -/
def inherited (x s : State) : State :=
  { outer x s with frame := x.frame, scan := x.scan, reader := x.reader, blk := x.blk, k := x.k }

/-- The host leaves the decode that started in `b` alone, and its codestream is as it was. -/
def Session (b s : State) : Prop := s.host = [] ∧ s.len = b.len ∧ s.inMem = b.inMem

/-- The decode that started in `b` is in phase `p`, so OUT_LEN reads 0 (R131). -/
def Working (b : State) (p : Phase) (s : State) : Prop :=
  Session b s ∧ s.phase = p ∧ s.spoiled = false ∧ s.outLen = 0

/-- The two states an error is raised in: it ends both decodes alike. -/
def Raised (b s t : State) : Prop := Session b s ∧ ∃ x, t = inherited x s

/-- The channels below `n` agree in the part `part` of their records. -/
def ChannelsAlike (part : Channel → Channel) (n : Nat) (ch ch' : Triple Channel) : Prop :=
  ∀ c : Fin 3, c.val < n → part (ch'.get c) = part (ch.get c)

/-- What the channel list of a SOF0 sets (41_segment_parser.md R155). -/
def listPart (r : Channel) : Channel :=
  { r with dcSlot := 0, acSlot := 0, pw := 0, ph := 0, stride := 0, rows := 0, pred := 0 }

/-- What an accepted SOF0 sets: the list and the geometry (R156). -/
def framePart (r : Channel) : Channel := { r with dcSlot := 0, acSlot := 0, pred := 0 }

/-- What an accepted scan header adds: the table slots (R162). -/
def slotPart (r : Channel) : Channel := { r with pred := 0 }

/-- Both decodes have accepted one frame. -/
structure FrameSame (f f' : Frame) (ch ch' : Triple Channel) : Prop where
  frame : f' = f
  count : f.channels = 1 ∨ f.channels = 3
  channels : ChannelsAlike framePart f.channels ch ch'

/-- Two decodes in the header: they agree on what it has set. -/
structure HeaderSame (b s t : State) : Prop where
  working : Working b .parsingHeader s
  other : ∃ x, t = inherited x s
  seen : t.frame.seen = s.frame.seen
  frame : s.frame.seen = true → FrameSame s.frame t.frame s.ch t.ch
  tables : ∀ i, s.qtLoaded.get i = true → t.qt.get i = s.qt.get i

variable {b s t : State} {g : Segment}

theorem HeaderSame.raised (h : HeaderSame b s t) : Raised b s t := ⟨h.working.1, h.other⟩

/-- What does not depend on a field a DECODE inherits. -/
theorem HeaderSame.field {α : Type} (h : HeaderSame b s t) (f : State → α) (hf : ∀ x, f (inherited x s) = f s) :
    f t = f s := by
  obtain ⟨x, rfl⟩ := h.other
  exact hf x

theorem HeaderSame.byte (h : HeaderSame b s t) (i : Nat) : g.byte t i = g.byte s i := h.field (g.byte · i) fun _ => rfl

theorem HeaderSame.be16 (h : HeaderSame b s t) (a : Nat) : be16 t a = be16 s a :=
  h.field (Machine.be16 · a) fun _ => rfl

theorem HeaderSame.inBytes (h : HeaderSame b s t) (a n : Nat) : inBytes t a n = inBytes s a n :=
  h.field (Machine.inBytes · a n) fun _ => rfl

/-- An operation that neither reads nor writes what a DECODE inherits. -/
theorem HeaderSame.map {f : State → State} (h : HeaderSame b s t) (hf : ∀ x, f (inherited x s) = inherited x (f s))
    (hw : Working b .parsingHeader (f s))
    (hk : (f s).frame = s.frame ∧ (f s).ch = s.ch ∧ (f s).qt = s.qt ∧ (f s).qtLoaded = s.qtLoaded) :
    HeaderSame b (f s) (f t) := by
  obtain ⟨-, ⟨x, rfl⟩, hseen, hframe, htables⟩ := h
  obtain ⟨hfr, hch, hqt, hql⟩ := hk
  rw [hf x]
  exact ⟨hw, ⟨x, rfl⟩, by rw [hfr]; exact hseen, by rw [hfr, hch]; exact hframe, by rw [hql, hqt]; exact htables⟩

theorem Alike.imp {α β : Type} {R R' : α → β → Prop} {E : State → State → Prop} {r : Except Abort α}
    {r' : Except Abort β} (h : Alike R E r r') (hR : ∀ a b, R a b → R' a b) : Alike R' E r r' := by
  rcases h.cases with ⟨a, b, rfl, rfl, hab⟩ | ⟨k, u, v, rfl, rfl, hk, he⟩
  · exact hR a b hab
  · exact ⟨rfl, hk, he⟩

/-! ### Segments and tables -/

theorem Alike.readHeaderSegment {α : Type} {R : α → α → Prop} {f f' : Segment × State → Except Abort α}
    (h : HeaderSame b s t)
    (hf : ∀ g u v, HeaderSame b u v → u.frame = s.frame → Alike R (Raised b) (f (g, u)) (f' (g, v))) :
    Alike R (Raised b) (Machine.readSegment s >>= f) (Machine.readSegment t >>= f') := by
  have hread : Alike (fun p q => p.1 = q.1 ∧ HeaderSame b p.2 q.2 ∧ p.2.frame = s.frame) (Raised b)
      (Machine.readSegment s) (Machine.readSegment t) := by
    have hmoved := h.map (f := fun u => { u with cursor := s.cursor + be16 s s.cursor }) (fun _ => rfl) h.working
      ⟨rfl, rfl, rfl, rfl⟩
    have hr := h.raised
    obtain ⟨x, rfl⟩ := h.other
    exact .guard hr Iff.rfl fun _ => .guard hr Iff.rfl fun _ => .guard hr Iff.rfl fun _ => ⟨rfl, hmoved, rfl⟩
  refine hread.bind fun p q hpq => ?_
  obtain ⟨g, u⟩ := p
  obtain ⟨g', v⟩ := q
  obtain ⟨rfl, huv, hframe⟩ := hpq
  exact hf g u v huv hframe

theorem checkFraming_same (h : HeaderSame b s t) :
    Alike (HeaderSame b) (Raised b) (checkFraming s) (checkFraming t) := by
  have hr := h.raised
  have hdone := h.map (f := fun u => { u with cursor := 2 }) (fun _ => rfl) h.working ⟨rfl, rfl, rfl, rfl⟩
  obtain ⟨x, rfl⟩ := h.other
  exact .guard hr Iff.rfl fun _ => .guard hr Iff.rfl fun _ => .guard hr Iff.rfl fun _ => hdone

theorem buildCodes_same (h : HeaderSame b s t) (counts : List Nat) (len remain i : Nat) (placed : HuffTable) :
    Alike (· = ·) (Raised b) (buildCodes g s counts len remain i placed)
      (buildCodes g t counts len remain i placed) := by
  induction counts generalizing len remain i placed with
  | nil => exact rfl
  | cons n rest ih =>
    unfold buildCodes
    refine .ite Iff.rfl (fun _ => ih ..) fun _ => .guard h.raised Iff.rfl fun _ => .guard h.raised Iff.rfl fun _ => ?_
    simp only [h.byte]
    exact ih ..

theorem parseDefinitions_same (fuel i : Nat) (h : HeaderSame b s t) :
    Alike (HeaderSame b) (Raised b) (parseDefinitions fuel g i s) (parseDefinitions fuel g i t) := by
  induction fuel generalizing i s t with
  | zero => exact h
  | succ fuel ih =>
    have hcounts : codeCounts g t i = codeCounts g s i := by simp only [codeCounts, h.byte]
    unfold parseDefinitions
    dsimp only
    rw [h.byte i, hcounts]
    refine .ite Iff.rfl (fun _ => h) fun _ => .guard h.raised Iff.rfl fun _ => ?_
    refine .guard h.raised Iff.rfl fun _ => .guard h.raised Iff.rfl fun _ => ?_
    have htable : Alike (fun p q => p.2 = q.2 ∧ HeaderSame b p.1 q.1) (Raised b)
        (buildTable (slotOf (g.byte s i)) (codeCounts g s i) g (i + 17) s)
        (buildTable (slotOf (g.byte s i)) (codeCounts g s i) g (i + 17) t) :=
      (buildCodes_same h _ _ _ _ _).bind fun p q hpq => by
        subst hpq
        exact ⟨rfl, h.map (f := fun u => { u with ht := u.ht.set (slotOf (g.byte s i)) p.1 }) (fun _ => rfl) h.working
          ⟨rfl, rfl, rfl, rfl⟩⟩
    refine htable.bind fun p q hpq => ?_
    obtain ⟨u, j⟩ := p
    obtain ⟨v, j'⟩ := q
    obtain ⟨rfl, huv⟩ := hpq
    exact ih j huv

theorem parseDht_same (h : HeaderSame b s t) : Alike (HeaderSame b) (Raised b) (parseDht s) (parseDht t) := by
  unfold parseDht
  exact .readHeaderSegment h fun g _ _ hg _ => parseDefinitions_same g.size 0 hg

theorem parseDri_same (h : HeaderSame b s t) : Alike (HeaderSame b) (Raised b) (parseDri s) (parseDri t) := by
  unfold parseDri
  refine .readHeaderSegment h fun g u v hg _ => .failIf hg.raised rfl fun _ => ?_
  rw [hg.be16]
  exact hg.map (f := fun w => { w with ri := be16 u g.start }) (fun _ => rfl) hg.working ⟨rfl, rfl, rfl, rfl⟩

theorem skipSegment_same (h : HeaderSame b s t) : Alike (HeaderSame b) (Raised b) (skipSegment s) (skipSegment t) := by
  unfold skipSegment
  exact .readHeaderSegment h fun _ _ _ hg _ => hg

/-! ### Quantisation tables -/

theorem zz_lt : ∀ k < 64, zz k < 64 := by decide

/-- The zig-zag order reaches every entry (44_block_decoder.md R263). -/
theorem zz_surjective {j : Nat} (hj : j < 64) : ∃ k < 64, zz k = j := by
  have hmem : ∀ j < 64, j ∈ zigzag := by decide
  obtain ⟨k, hk, hz⟩ := List.getElem_of_mem (hmem j hj)
  exact ⟨k, hk, (List.getD_eq_getElem _ _ hk).trans hz⟩

/-- A table read from a DQT does not depend on the one it replaces (41_segment_parser.md R160). -/
theorem readQuantTable_old (g : Segment) (s : State) (i : Nat) (p q : Grid Byte) :
    readQuantTable g s i p = readQuantTable g s i q :=
  Grid.ext_at fun j hj => by
    obtain ⟨k, hk, hz⟩ := zz_surjective hj
    exact Grid.at_foldl_put zz (fun k => g.byte s (i + k)) _ (fun k hk => zz_lt k (List.mem_range.1 hk)) hj
      (.inl ⟨k, List.mem_range.2 hk, hz⟩)

theorem parseQuantGroups_same (fuel i : Nat) (h : HeaderSame b s t) :
    Alike (HeaderSame b) (Raised b) (parseQuantGroups fuel g i s) (parseQuantGroups fuel g i t) := by
  induction fuel generalizing i s t with
  | zero => exact h
  | succ fuel ih =>
    have hr := h.raised
    unfold parseQuantGroups
    dsimp only
    rw [h.byte i]
    refine .ite Iff.rfl (fun _ => h) fun _ => .guard hr Iff.rfl fun _ => .guard hr Iff.rfl fun _ => ih (i + 65) ?_
    obtain ⟨hw, ⟨x, rfl⟩, hseen, hframe, htables⟩ := h
    refine ⟨hw, ⟨{ x with qt := _ }, rfl⟩, hseen, hframe, fun j hj => ?_⟩
    dsimp only at hj ⊢
    rw [Quad.get_set] at hj ⊢
    rw [Quad.get_set]
    split
    · exact readQuantTable_old ..
    · next hne =>
      rw [if_neg hne] at hj
      exact htables j hj

theorem parseDqt_same (h : HeaderSame b s t) : Alike (HeaderSame b) (Raised b) (parseDqt s) (parseDqt t) := by
  unfold parseDqt
  exact .readHeaderSegment h fun g _ _ hg _ => parseQuantGroups_same g.size 0 hg

end Sys2Proof.Machine
end

section
/-! PROOF. Two decodes of one image: the frame (41_segment_parser.md R155 to R158) and the scan's header (R162, R163),
which set every field of a live channel. -/

namespace Sys2Proof.Machine

variable {b s t : State} {g : Segment} {part part' : Channel → Channel} {m n nc : Nat} {ch ch' : Triple Channel}

/-! ### Channels -/

theorem ChannelsAlike.set {c : Fin 3} {r r' : Channel} (h : ChannelsAlike part n ch ch') (hr : part r' = part r)
    (hm : ∀ d : Fin 3, d.val < m → d = c ∨ d.val < n) : ChannelsAlike part m (ch.set c r) (ch'.set c r') := by
  intro d hd
  rw [Triple.get_set, Triple.get_set]
  split
  · exact hr
  · next hne => exact h d ((hm d hd).resolve_left hne)

/-- A loop over channels 0 to n - 1 that has set channel n too. -/
theorem ChannelsAlike.set_next {c : Fin 3} {r r' : Channel} (h : ChannelsAlike part c.val ch ch')
    (hr : part r' = part r) : ChannelsAlike part (c.val + 1) (ch.set c r) (ch'.set c r') :=
  h.set hr fun _ hd => (Nat.lt_succ_iff_lt_or_eq.1 hd).symm.imp_left Fin.ext

theorem ChannelsAlike.mapBelow {f f' : Channel → Channel} (h : ChannelsAlike part n ch ch')
    (hf : ∀ r r', part r' = part r → part' (f' r') = part' (f r)) :
    ChannelsAlike part' n (ch.mapBelow n fun _ => f) (ch'.mapBelow n fun _ => f') := by
  intro c hc
  rw [Triple.get_mapBelow, Triple.get_mapBelow, if_pos hc, if_pos hc]
  exact hf _ _ (h c hc)

theorem ChannelsAlike.field {α : Type} (h : ChannelsAlike part n ch ch') (f : Channel → α)
    (hf : ∀ r, f (part r) = f r) {c : Fin 3} (hc : c.val < n) : f (ch'.get c) = f (ch.get c) := by
  rw [← hf, h c hc, hf]

/-- A loop over the live channels that extends a relation by one channel a turn. -/
theorem Alike.foldlM_upTo {P : Nat → State → State → Prop} {E : State → State → Prop}
    {f f' : State → Fin 3 → Except Abort State} (hnc : nc = 1 ∨ nc = 3)
    (hf : ∀ c : Fin 3, c.val < nc → ∀ u v, P c.val u v → Alike (P (c.val + 1)) E (f u c) (f' v c)) (h : P 0 s t) :
    Alike (P nc) E ((liveChannels nc).foldlM f s) ((liveChannels nc).foldlM f' t) := by
  rcases hnc with rfl | rfl
  · exact (hf 0 (by decide) s t h).bind fun u v huv => huv
  · exact (hf 0 (by decide) s t h).bind fun u v huv => (hf 1 (by decide) u v huv).bind fun u v huv =>
      (hf 2 (by decide) u v huv).bind fun u v huv => huv

/-! ### The frame -/

/-- The channel list of a SOF0 is read up to channel n. -/
structure ListRead (b : State) (n : Nat) (s t : State) : Prop extends HeaderSame b s t where
  unseen : s.frame.seen = false
  channels : ChannelsAlike listPart n s.ch t.ch

/-- Without a frame a channel record may be set. -/
theorem HeaderSame.setChannel (h : HeaderSame b s t) (hs : s.frame.seen = false) (c : Fin 3) (r r' : Channel) :
    HeaderSame b (setChannel s c r) (setChannel t c r') := by
  obtain ⟨hw, ⟨x, rfl⟩, hseen, -, htables⟩ := h
  exact ⟨hw, ⟨Machine.setChannel x c r', rfl⟩, hseen, fun hs' => absurd (hs'.symm.trans hs) nofun, htables⟩

theorem readChannel_same {c : Fin 3} (h : ListRead b c.val s t) :
    Alike (ListRead b (c.val + 1)) (Raised b) (readChannel g s c) (readChannel g t c) := by
  unfold readChannel
  simp only [h.byte]
  have hne := channelError_ne_ok (g.byte s (7 + 3 * c.val)) (g.byte s (8 + 3 * c.val))
  rcases hce : channelError (g.byte s (7 + 3 * c.val)) (g.byte s (8 + 3 * c.val)) with _ | e
  · exact ⟨h.toHeaderSame.setChannel h.unseen c _ _, h.unseen, h.channels.set_next rfl⟩
  · exact .raise h.raised (by rintro rfl; exact hne hce)

theorem forceGray_same (h : ListRead b nc s t) : ListRead b nc (forceGray nc s) (forceGray nc t) := by
  unfold forceGray
  split
  · next hnc =>
    subst hnc
    refine ⟨h.toHeaderSame.setChannel h.unseen 0 _ _, h.unseen, h.channels.set ?_ fun d hd => .inr hd⟩
    have hr := h.channels 0 (by decide)
    exact congrArg (fun r : Channel => { r with hs := 1, vs := 1 }) hr
  · exact h

/-- A channel list and the geometry it gives (R156). -/
structure GeometryRead (b : State) (n : Nat) (s t : State) : Prop extends HeaderSame b s t where
  unseen : s.frame.seen = false
  grid : t.frame.hmax = s.frame.hmax ∧ t.frame.vmax = s.frame.vmax ∧ t.frame.mbw = s.frame.mbw ∧
    t.frame.mbh = s.frame.mbh
  channels : ChannelsAlike framePart n s.ch t.ch

theorem maxHs_same (h : ChannelsAlike listPart nc s.ch t.ch) : maxHs nc t = maxHs nc s :=
  List.foldl_ext _ _ _ fun a c hc => by
    rw [h.field Channel.hs (fun _ => rfl) (val_lt_of_mem_liveChannels hc)]

theorem maxVs_same (h : ChannelsAlike listPart nc s.ch t.ch) : maxVs nc t = maxVs nc s :=
  List.foldl_ext _ _ _ fun a c hc => by
    rw [h.field Channel.vs (fun _ => rfl) (val_lt_of_mem_liveChannels hc)]

theorem geometry_same (w h : Nat) (hl : ListRead b nc s t) :
    GeometryRead b nc (geometry w h nc s) (geometry w h nc t) := by
  have hmax := maxHs_same hl.channels
  have vmax := maxVs_same hl.channels
  have hgrid : (geometry w h nc t).frame.hmax = (geometry w h nc s).frame.hmax ∧
      (geometry w h nc t).frame.vmax = (geometry w h nc s).frame.vmax ∧
      (geometry w h nc t).frame.mbw = (geometry w h nc s).frame.mbw ∧
      (geometry w h nc t).frame.mbh = (geometry w h nc s).frame.mbh := by
    simp only [geometry, hmax, vmax, and_self]
  have hch : ChannelsAlike framePart nc (geometry w h nc s).ch (geometry w h nc t).ch := by
    refine hl.channels.mapBelow fun r r' hr => ?_
    have hg := congrArg (channelGeometry (geometry w h nc s).frame w h) hr
    have hframe : channelGeometry (geometry w h nc t).frame w h r' =
        channelGeometry (geometry w h nc s).frame w h r' := by
      simp only [channelGeometry, hgrid]
    exact (congrArg framePart hframe).trans hg
  obtain ⟨⟨hw, ⟨x, rfl⟩, hseen, -, htables⟩, hun, -⟩ := hl
  exact ⟨⟨hw, ⟨geometry w h nc (inherited x s), rfl⟩, hseen, fun hs => absurd (hs.symm.trans hun) nofun, htables⟩, hun,
    hgrid, hch⟩

theorem degenerate_same (h : GeometryRead b nc s t) :
    ((liveChannels nc).any fun c => degenerate t.frame (t.ch.get c)) =
      (liveChannels nc).any fun c => degenerate s.frame (s.ch.get c) := by
  obtain ⟨hmax, vmax, -, -⟩ := h.grid
  have hdeg : ∀ c ∈ liveChannels nc, degenerate t.frame (t.ch.get c) = degenerate s.frame (s.ch.get c) := fun c hc => by
    rw [← h.channels.field (degenerate s.frame) (fun _ => rfl) (val_lt_of_mem_liveChannels hc)]
    simp only [degenerate, hmax, vmax]
  rw [Bool.eq_iff_iff, List.any_eq_true, List.any_eq_true]
  exact exists_congr fun c => and_congr_right fun hc => by rw [hdeg c hc]

theorem planesNeed_same (h : ChannelsAlike framePart nc s.ch t.ch) : planesNeed nc t = planesNeed nc s :=
  congrArg List.sum (List.map_congr_left fun _ hc =>
    h.field (fun r => r.stride * r.rows) (fun _ => rfl) (val_lt_of_mem_liveChannels hc))

theorem allocate_same (w h : Nat) (hg : GeometryRead b nc s t) :
    Alike (GeometryRead b nc) (Raised b) (allocate w h nc s) (allocate w h nc t) := by
  have hr := hg.raised
  have hneed := planesNeed_same hg.channels
  unfold allocate
  rw [hneed]
  obtain ⟨⟨hw, ⟨x, rfl⟩, hseen, hframe, htables⟩, hun, hgrid, hch⟩ := hg
  exact .guard hr Iff.rfl fun _ => .guard hr Iff.rfl fun _ =>
    ⟨⟨hw, ⟨x, rfl⟩, hseen, hframe, htables⟩, hun, hgrid, hch⟩

theorem parseFrame_same (w h : Nat) (hnc : nc = 1 ∨ nc = 3) (hs : HeaderSame b s t) (hun : s.frame.seen = false) :
    Alike (HeaderSame b) (Raised b) (parseFrame g w h nc s) (parseFrame g w h nc t) := by
  unfold parseFrame
  have hstart : ListRead b 0 s t := ⟨hs, hun, fun c hc => absurd hc (Nat.not_lt_zero _)⟩
  refine (Alike.foldlM_upTo hnc (fun c _ u v huv => readChannel_same huv) hstart).bind fun u v huv => ?_
  have hgeo := geometry_same w h (forceGray_same huv)
  refine .failIf hgeo.raised (degenerate_same hgeo) fun _ => (allocate_same w h hgeo).bind fun y z hyz => ?_
  obtain ⟨⟨hw, ⟨x, rfl⟩, hseen, -, htables⟩, -, ⟨hmax, vmax, hmbw, hmbh⟩, hch⟩ := hyz
  have hframe : { (inherited x y).frame with width := w, height := h, channels := nc, seen := true } =
      { y.frame with width := w, height := h, channels := nc, seen := true } := by
    simp only [hmax, vmax, hmbw, hmbh]
  exact ⟨hw, ⟨{ x with frame := { x.frame with width := w, height := h, channels := nc, seen := true } }, rfl⟩, rfl,
    fun _ => ⟨hframe, hnc, hch⟩, htables⟩

theorem parseSof_same (h : HeaderSame b s t) : Alike (HeaderSame b) (Raised b) (parseSof s) (parseSof t) := by
  unfold parseSof
  refine .failIf h.raised h.seen fun hun => .readHeaderSegment h fun g u v hg hframe => ?_
  refine .failIf hg.raised rfl fun _ => .failIf hg.raised (by rw [hg.byte]) fun _ => ?_
  dsimp only
  rw [hg.be16, hg.be16, hg.byte]
  refine .failIf hg.raised rfl fun _ => .failIf hg.raised rfl fun hcount => .failIf hg.raised rfl fun _ => ?_
  exact parseFrame_same _ _ (by have := of_decide_eq_false hcount; omega) hg (by rw [hframe]; exact hun)

/-! ### The scan's header -/

/-- The live channels of an accepted frame agree, and so do the tables they use; channel `chan` is one of them. -/
structure LiveSame (f : Frame) (chan : Fin 3) (ch ch' : Triple Channel) (qt qt' : Quad (Grid Byte)) : Prop where
  count : f.channels = 1 ∨ f.channels = 3
  current : chan.val < f.channels
  channels : ChannelsAlike id f.channels ch ch'
  tables : ∀ c : Fin 3, c.val < f.channels → qt'.get (ch.get c).tq = qt.get (ch.get c).tq

/-- Two decodes in a scan or finishing. -/
structure ScanSame (b : State) (p : Phase) (s t : State) : Prop where
  working : Working b p s
  other : ∃ x, t = outer x s
  live : LiveSame s.frame s.scan.chan s.ch t.ch s.qt t.qt

/-- The channel list of a scan over nc channels is read up to channel n. -/
structure SlotsRead (b : State) (nc n : Nat) (s t : State) : Prop extends HeaderSame b s t where
  isSeen : s.frame.seen = true
  count : s.frame.channels = nc
  channels : ChannelsAlike slotPart n s.ch t.ch

/-- A channel record with the table slots a selector byte names (R162). -/
def withSlots (v : Byte) (r : Channel) : Channel :=
  { r with dcSlot := if v.getLsbD 4 then 1 else 0, acSlot := if v.getLsbD 0 then 3 else 2 }

/-- The frame and the selector byte set all of a record but the predictor. -/
theorem slotPart_withSlots {r r' : Channel} (v : Byte) (h : framePart r' = framePart r) :
    slotPart (withSlots v r') = slotPart (withSlots v r) := congrArg (withSlots v) h

theorem selectTables_same {c : Fin 3} (hc : c.val < nc) (h : SlotsRead b nc c.val s t) :
    Alike (SlotsRead b nc (c.val + 1)) (Raised b) (selectTables g s c) (selectTables g t c) := by
  have hr := h.raised
  have hframe := h.frame h.isSeen
  rw [← h.count] at hc
  have hcid := hframe.channels.field Channel.cid (fun _ => rfl) hc
  have hpart := hframe.channels c hc
  have hframes := hframe.channels.set (c := c) (r := withSlots (g.byte s (2 + 2 * c.val)) (s.ch.get c))
    (r' := withSlots (g.byte s (2 + 2 * c.val)) (t.ch.get c)) hpart fun _ hd => .inr hd
  have hslots := h.channels.set_next (slotPart_withSlots (g.byte s (2 + 2 * c.val)) hpart)
  unfold selectTables
  simp only [h.byte]
  refine .guard hr (by rw [hcid]) fun _ => .guard hr Iff.rfl fun _ => ?_
  obtain ⟨⟨hw, ⟨x, rfl⟩, hseen, -, htables⟩, his, hnc, -⟩ := h
  exact ⟨⟨hw, ⟨setChannel x c (withSlots (g.byte s (2 + 2 * c.val)) (x.ch.get c)), rfl⟩, hseen,
    fun _ => ⟨hframe.frame, hframe.count, hframes⟩, htables⟩, his, hnc, hslots⟩

theorem quantTablesLoaded_same (h : HeaderSame b s t) (hs : s.frame.seen = true) :
    quantTablesLoaded t = quantTablesLoaded s := by
  obtain ⟨hf, -, hch⟩ := h.frame hs
  have htq : ∀ c ∈ liveChannels s.frame.channels, (t.ch.get c).tq = (s.ch.get c).tq := fun c hc =>
    hch.field Channel.tq (fun _ => rfl) (val_lt_of_mem_liveChannels hc)
  have hloaded := h.field State.qtLoaded fun _ => rfl
  rw [quantTablesLoaded, quantTablesLoaded, hf, hloaded, Bool.eq_iff_iff, List.all_eq_true, List.all_eq_true]
  exact forall₂_congr fun c hc => by rw [htq c hc]

theorem tq_clear (n : Nat) (ch : Triple Channel) (c : Fin 3) :
    ((ch.mapBelow n fun _ => slotPart).get c).tq = (ch.get c).tq := by
  rw [Triple.get_mapBelow]
  split <;> rfl

/-- Clearing the predictors of channels that agree in all else. -/
theorem channelsAlike_clear (h : ChannelsAlike slotPart n ch ch') :
    ChannelsAlike id n (ch.mapBelow n fun _ => slotPart) (ch'.mapBelow n fun _ => slotPart) :=
  h.mapBelow fun _ _ hr => hr

/-- The scan's start sets all that a running scan reads (46_scan_decoder.md R330). -/
theorem startScan_same (h : SlotsRead b nc nc s t) (hq : quantTablesLoaded s = true) :
    ScanSame b .decodingMcu (startScan s.cursor s) (startScan t.cursor t) := by
  have hnc := h.count
  subst hnc
  obtain ⟨hf, hcount, -⟩ := h.frame h.isSeen
  have htables : ∀ c : Fin 3, c.val < s.frame.channels → t.qt.get (s.ch.get c).tq = s.qt.get (s.ch.get c).tq :=
    fun c hc => h.tables _ (List.all_eq_true.1 hq c (List.mem_filter.2 ⟨by fin_cases c <;> decide, decide_eq_true hc⟩))
  obtain ⟨⟨⟨hsession, -, hkept, hlen⟩, ⟨x, rfl⟩, -, -, -⟩, -, -, hch⟩ := h
  have hx : inherited x s = inherited { x with frame := s.frame } s := by
    rw [← (hf : x.frame = s.frame)]
    rfl
  rw [hx]
  refine ⟨⟨hsession, rfl, hkept, hlen⟩, ⟨startScan s.cursor (inherited { x with frame := s.frame } s), rfl⟩, hcount, ?_,
    channelsAlike_clear hch, fun c hc => ?_⟩
  · show 0 < s.frame.channels
    omega
  · rw [show (startScan s.cursor s).ch = s.ch.mapBelow s.frame.channels fun _ => slotPart from rfl, tq_clear]
    exact htables c hc

theorem parseSos_same (h : HeaderSame b s t) :
    Alike (ScanSame b .decodingMcu) (Raised b) (parseSos s) (parseSos t) := by
  unfold parseSos
  refine .failIf h.raised (by rw [h.seen]) fun hseen => .readHeaderSegment h fun g u v hg hframe => ?_
  have hs : u.frame.seen = true := by
    rw [hframe]
    simpa using hseen
  have hnc : v.frame.channels = u.frame.channels := by rw [(hg.frame hs).frame]
  refine .failIf hg.raised rfl fun _ => ?_
  dsimp only
  rw [hg.byte, hnc]
  refine .failIf hg.raised rfl fun _ => .failIf hg.raised rfl fun _ => ?_
  have hstart : SlotsRead b u.frame.channels 0 u v := ⟨hg, hs, rfl, fun c hc => absurd hc (Nat.not_lt_zero _)⟩
  refine (Alike.foldlM_upTo (hg.frame hs).count (fun _ hc _ _ hyz => selectTables_same hc hyz) hstart).bind
    fun y z hyz => ?_
  refine .failIf hyz.raised (by simp only [baselineTrailer, hyz.byte]) fun _ => ?_
  refine .failIf hyz.raised (by rw [quantTablesLoaded_same hyz.toHeaderSame hyz.isSeen]) fun hq => ?_
  exact startScan_same hyz (by simpa using hq)

end Sys2Proof.Machine
end

section
/-! PROOF. Two decodes of one image: the bit reader, the symbols and the walk over blocks. -/

namespace Sys2Proof.Machine

variable {b s t : State} {p : Phase}
variable {fr : Frame} {chan c : Fin 3} {ch ch' : Triple Channel} {qt qt' : Quad (Grid Byte)}

/-- Two choices made alike. -/
theorem ite_alike {α β : Type} {R : α → β → Prop} {c c' : Prop} [Decidable c] [Decidable c'] {x y : α} {x' y' : β}
    (hc : c' ↔ c) (hx : c → R x x') (hy : ¬ c → R y y') : R (if c then x else y) (if c' then x' else y') := by
  by_cases h : c
  · rw [if_pos h, if_pos (hc.2 h)]
    exact hx h
  · rw [if_neg h, if_neg (mt hc.1 h)]
    exact hy h

theorem ScanSame.raised (h : ScanSame b p s t) : Raised b s t := by
  obtain ⟨hw, ⟨x, rfl⟩, -⟩ := h
  exact ⟨hw.1, outer x s, rfl⟩

/-- What does not depend on an outer field. -/
theorem ScanSame.field {α : Type} (h : ScanSame b p s t) (f : State → α) (hf : ∀ x, f (outer x s) = f s) :
    f t = f s := by
  obtain ⟨x, rfl⟩ := h.other
  exact hf x

/-- An operation on nothing but the reader, RST_EVENTS, the block and the scan's counters. -/
theorem ScanSame.map {f : State → State} (h : ScanSame b p s t) (hf : ∀ x, f (outer x s) = outer x (f s))
    (hw : Working b p (f s))
    (hk : (f s).frame = s.frame ∧ (f s).scan.chan = s.scan.chan ∧ (f s).ch = s.ch ∧ (f s).qt = s.qt) :
    ScanSame b p (f s) (f t) := by
  obtain ⟨-, ⟨x, rfl⟩, hlive⟩ := h
  obtain ⟨hfr, hchan, hch, hqt⟩ := hk
  rw [hf x]
  exact ⟨hw, ⟨x, rfl⟩, by rw [hfr, hchan, hch, hqt]; exact hlive⟩

/-! ### The bit reader -/

/-- Two answers: the same value, and states that stay alike. -/
def ValueSame {α : Type} (b : State) (p : Phase) (q q' : α × State) : Prop := q.1 = q'.1 ∧ ScanSame b p q.2 q'.2

theorem ecsEffect_same (f : EcsForm) (h : ScanSame b p s t) :
    Alike (ScanSame b p) (Raised b) (ecsEffect f s) (ecsEffect f t) := by
  have hr : Raised b (pushByte 0xFF s) (pushByte 0xFF t) :=
    (h.map (f := pushByte 0xFF) (fun _ => rfl) h.working ⟨rfl, rfl, rfl, rfl⟩).raised
  obtain ⟨hw, ⟨x, rfl⟩, hlive⟩ := h
  cases f with
  | illegal y => exact .raise hr
  | _ => exact ⟨hw, ⟨x, rfl⟩, hlive⟩

theorem takeForm_same (h : ScanSame b p s t) : Alike (ValueSame b p) (Raised b) (takeForm s) (takeForm t) := by
  obtain ⟨hw, ⟨x, rfl⟩, hlive⟩ := h
  have hbytes : inBytes (outer x s) (outer x s).reader.rcur 2 = inBytes s s.reader.rcur 2 := rfl
  unfold takeForm
  rw [hbytes]
  rcases decodeEcs (inBytes s s.reader.rcur 2) with e | ⟨f, rest⟩
  · exact .raise (ScanSame.raised (p := p) ⟨hw, ⟨x, rfl⟩, hlive⟩)
  · exact ⟨rfl, hw, ⟨x, rfl⟩, hlive⟩

theorem fetchByte_same (h : ScanSame b p s t) : Alike (ScanSame b p) (Raised b) (fetchByte s) (fetchByte t) := by
  have hend := h.field readerAtEnd fun _ => rfl
  unfold fetchByte
  refine .ite (by rw [hend]) (fun _ => h.map (f := pushByte 0xFF) (fun _ => rfl) h.working ⟨rfl, rfl, rfl, rfl⟩)
    fun _ => (takeForm_same h).bind fun q q' hq => ?_
  obtain ⟨f, u⟩ := q
  obtain ⟨f', v⟩ := q'
  obtain ⟨rfl, huv⟩ := hq
  exact ecsEffect_same f huv

theorem ScanSame.reader_eq (h : ScanSame b p s t) : t.reader = s.reader := h.field State.reader fun _ => rfl

theorem ScanSame.scan_eq (h : ScanSame b p s t) : t.scan = s.scan := h.field State.scan fun _ => rfl

theorem fillBits_same (fuel k : Nat) (h : ScanSame b p s t) :
    Alike (ScanSame b p) (Raised b) (fillBits fuel k s) (fillBits fuel k t) := by
  induction fuel generalizing s t with
  | zero => exact h
  | succ fuel ih =>
    unfold fillBits
    exact .ite (by rw [h.reader_eq]) (fun _ => (fetchByte_same h).bind fun u v huv => ih huv) fun _ => h

theorem getBits_same (k : Nat) (h : ScanSame b p s t) :
    Alike (ValueSame b p) (Raised b) (getBits k s) (getBits k t) := by
  have hshow : Alike (ValueSame b p) (Raised b) (showBits k s) (showBits k t) :=
    (fillBits_same k k h).bind fun u v huv => ⟨by rw [huv.reader_eq], huv⟩
  exact hshow.bind fun q q' hq =>
    ⟨hq.1, hq.2.map (f := skipBits k) (fun _ => rfl) hq.2.working ⟨rfl, rfl, rfl, rfl⟩⟩

theorem receiveExtend_same (size : Nat) (h : ScanSame b p s t) :
    Alike (ValueSame b p) (Raised b) (receiveExtend size s) (receiveExtend size t) := by
  unfold receiveExtend
  exact .ite Iff.rfl (fun _ => ⟨rfl, h⟩) fun _ =>
    (getBits_same size h).bind fun q q' hq => ⟨congrArg (extendValue size) hq.1, hq.2⟩

/-! ### Symbols -/

theorem huffTake_same (slot : Fin 4) (h : ScanSame b p s t) :
    Alike (ValueSame b p) (Raised b) (huffTake slot s) (huffTake slot t) := by
  have hr := h.raised
  obtain ⟨hw, ⟨x, rfl⟩, hlive⟩ := h
  exact .guard hr Iff.rfl fun _ => ⟨rfl, hw, ⟨x, rfl⟩, hlive⟩

/-- The channel decoded is a live one. -/
theorem ScanSame.current_eq (h : ScanSame b p s t) : t.ch.get s.scan.chan = s.ch.get s.scan.chan :=
  h.live.channels _ h.live.current

/-- A live channel's table was loaded in both decodes. -/
theorem ScanSame.quantAt_eq (h : ScanSame b p s t) (j : Nat) : quantAt t j = quantAt s j := by
  rw [quantAt, quantAt, h.scan_eq, h.current_eq, h.live.tables _ h.live.current]

/-- A channel's record set alike, its quantisation table kept. -/
theorem LiveSame.set {r r' : Channel} (h : LiveSame fr chan ch ch' qt qt') (hr : r' = r) (htq : r.tq = (ch.get c).tq) :
    LiveSame fr chan (ch.set c r) (ch'.set c r') qt qt' := by
  refine ⟨h.count, h.current, h.channels.set hr fun _ hd => .inr hd, fun d hd => ?_⟩
  have htable := h.tables d hd
  rw [Triple.get_set]
  split
  · next hdc => rwa [htq, ← hdc]
  · exact htable

theorem storeDc_same (d : Word) (h : ScanSame b p s t) : ScanSame b p (storeDc d s) (storeDc d t) := by
  have hch := h.current_eq
  have hq := h.quantAt_eq 0
  obtain ⟨hw, ⟨x, rfl⟩, hlive⟩ := h
  have hother : storeDc d (outer x s) = outer (storeDc d (outer x s)) (storeDc d s) := by
    unfold storeDc
    dsimp only
    rw [hq, show (outer x s).scan = s.scan from rfl, hch]
    rfl
  exact ⟨hw, ⟨_, hother⟩, hlive.set (congrArg (fun r : Channel => { r with pred := r.pred + d }) hch) rfl⟩

theorem storeAc_same (v : Word) (h : ScanSame b p s t) : ScanSame b p (storeAc v s) (storeAc v t) := by
  have hq := h.quantAt_eq (zz s.k)
  obtain ⟨hw, ⟨x, rfl⟩, hlive⟩ := h
  unfold storeAc
  rw [show (outer x s).k = s.k from rfl, hq]
  exact ite_alike Iff.rfl (fun _ => ⟨hw, ⟨x, rfl⟩, hlive⟩) fun _ =>
    ⟨hw, ⟨x, rfl⟩, hlive⟩

theorem runValue_same (run size : Nat) (h : ScanSame b p s t) :
    Alike (ScanSame b p) (Raised b) (runValue run size s) (runValue run size t) := by
  unfold runValue
  refine (receiveExtend_same size h).bind fun q q' hq => ?_
  obtain ⟨v, u⟩ := q
  obtain ⟨v', w⟩ := q'
  obtain ⟨rfl, huw⟩ := hq
  have hk := huw.field State.k fun _ => rfl
  have hplaced := huw.map (f := fun u => { u with k := u.k + run + 1 }) (fun _ => rfl) huw.working ⟨rfl, rfl, rfl, rfl⟩
  exact .guard hplaced.raised (by rw [hk]) fun _ => storeAc_same v hplaced

theorem dcDiff_same (size : Nat) (h : ScanSame b p s t) :
    Alike (ScanSame b p) (Raised b) (receiveExtend size s >>= fun q => .ok (storeDc q.1 q.2))
      (receiveExtend size t >>= fun q => .ok (storeDc q.1 q.2)) :=
  (receiveExtend_same size h).bind fun q q' hq => by
    rw [← hq.1]
    exact storeDc_same q.1 hq.2

/-! ### The walk and the restart step -/

/-- Two decodes in finishing: at the same part of it and, once the output is written, with the same image. -/
structure FinishSame (b s t : State) : Prop extends ScanSame b .finishing s t where
  held : t.live = s.live
  place : t.fin = s.fin
  upsampled : ∀ c, s.fin = .upsample c → c.val < s.frame.channels
  written : s.fin = .complete → ∀ a < s.frame.width * s.frame.height * s.frame.channels,
    t.outMem.read a = s.outMem.read a

/-- How a block's end leaves two decodes. -/
inductive WalkSame (b s t : State) : Prop
  | block (same : ScanSame b .decodingMcu s t)
  | boundary (same : ScanSame b .atRestartBoundary s t)
  | finish (same : FinishSame b s t)

theorem LiveSame.moveTo (h : LiveSame fr chan ch ch' qt qt') (hc : c.val < fr.channels) : LiveSame fr c ch ch' qt qt' :=
  ⟨h.count, hc, h.channels, h.tables⟩

/-- An accepted frame has a channel. -/
theorem LiveSame.first (h : LiveSame fr chan ch ch' qt qt') : (0 : Fin 3).val < fr.channels := Nat.zero_lt_of_lt h.current

theorem beginMcu_same (h : ScanSame b p s t) : ScanSame b .decodingMcu (beginMcu s) (beginMcu t) := by
  obtain ⟨⟨hsession, -, hkept, hlen⟩, ⟨x, rfl⟩, hlive⟩ := h
  exact ⟨⟨hsession, rfl, hkept, hlen⟩, ⟨x, rfl⟩, hlive.moveTo hlive.first⟩

theorem countMcu_same (h : ScanSame b p s t) : WalkSame b (countMcu s) (countMcu t) := by
  obtain ⟨hw, ⟨x, rfl⟩, hlive⟩ := h
  unfold countMcu
  refine ite_alike Iff.rfl (fun _ => ?_) fun _ => ite_alike Iff.rfl (fun _ => ?_) fun _ => ?_
  · exact .block (beginMcu_same ⟨hw, ⟨x, rfl⟩, hlive⟩)
  · obtain ⟨hsession, -, hkept, hlen⟩ := hw
    exact .boundary ⟨⟨hsession, rfl, hkept, hlen⟩, ⟨x, rfl⟩, hlive⟩
  · exact .block (beginMcu_same (p := p) ⟨hw, ⟨x, rfl⟩, hlive⟩)

theorem planeBytes_same (h : ScanSame b p s t) : planeBytes t = planeBytes s := by
  have hch : ∀ c ∈ liveChannels s.frame.channels, t.ch.get c = s.ch.get c := fun c hc =>
    h.live.channels c (val_lt_of_mem_liveChannels hc)
  obtain ⟨x, rfl⟩ := h.other
  exact congrArg List.sum (List.map_congr_left fun c hc => by rw [hch c hc])

/-- Finishing starts with the first channel, which is live. -/
theorem startFinish_same (h : ScanSame b p s t) : FinishSame b (startFinish s) (startFinish t) := by
  have hheld := planeBytes_same h
  obtain ⟨⟨hsession, -, hkept, hlen⟩, ⟨x, rfl⟩, hlive⟩ := h
  refine ⟨⟨⟨hsession, rfl, hkept, hlen⟩, ⟨startFinish (outer x s), rfl⟩, hlive⟩, hheld, rfl, fun c hc => ?_, nofun⟩
  cases hc
  exact hlive.first

theorem advanceMcu_same (h : ScanSame b p s t) : WalkSame b (advanceMcu s) (advanceMcu t) := by
  obtain ⟨hw, ⟨x, rfl⟩, hlive⟩ := h
  unfold advanceMcu
  refine ite_alike Iff.rfl (fun _ => ite_alike Iff.rfl (fun _ => ?_) fun _ => ?_) fun _ => ?_
  · exact .finish (startFinish_same (p := p) ⟨hw, ⟨x, rfl⟩, hlive⟩)
  · exact countMcu_same (p := p) ⟨hw, ⟨x, rfl⟩, hlive⟩
  · exact countMcu_same (p := p) ⟨hw, ⟨x, rfl⟩, hlive⟩

theorem nextChannel_lt {c d : Fin 3} (h : nextChannel s c = some d) : d.val < s.frame.channels := by
  unfold nextChannel at h
  split at h
  · split at h <;> cases h
    assumption
  · split at h <;> cases h
    assumption
  · cases h

theorem beginBlock_same (h : ScanSame b p s t) : ScanSame b p (beginBlock s) (beginBlock t) :=
  h.map (f := beginBlock) (fun _ => rfl) h.working ⟨rfl, rfl, rfl, rfl⟩

theorem advanceBlock_same (h : ScanSame b .decodingMcu s t) : WalkSame b (advanceBlock s) (advanceBlock t) := by
  have hch := h.current_eq
  have hscan := h.scan_eq
  have hnext := h.field (nextChannel · s.scan.chan) fun _ => rfl
  have hmcu := advanceMcu_same h
  obtain ⟨hw, ⟨x, rfl⟩, hlive⟩ := h
  unfold advanceBlock
  refine ite_alike (by rw [hscan, hch]) (fun _ => ?_) fun _ => ite_alike (by rw [hscan, hch]) (fun _ => ?_) fun _ => ?_
  · exact .block (beginBlock_same ⟨hw, ⟨x, rfl⟩, hlive⟩)
  · exact .block (beginBlock_same ⟨hw, ⟨x, rfl⟩, hlive⟩)
  · rw [hscan, hnext]
    rcases hn : nextChannel s s.scan.chan with _ | c
    · exact hmcu
    · exact .block (beginBlock_same ⟨hw, ⟨x, rfl⟩, hlive.moveTo (nextChannel_lt hn)⟩)

theorem finishBlock_same (h : ScanSame b .decodingMcu s t) : WalkSame b (finishBlock s) (finishBlock t) := by
  have hch := h.current_eq
  obtain ⟨hw, ⟨x, rfl⟩, hlive⟩ := h
  have hscan : (outer x s).scan = s.scan := rfl
  have hrow : blockRow (outer x s) = blockRow s := by simp only [blockRow, hscan, hch]
  have hcolumn : blockColumn (outer x s) = blockColumn s := by simp only [blockColumn, hscan, hch]
  have hblock : idctBlock s.scan.chan (blockRow s) (blockColumn s) (outer x s) =
      outer x (idctBlock s.scan.chan (blockRow s) (blockColumn s) s) := by
    unfold idctBlock
    rw [hch]
    rfl
  unfold finishBlock
  rw [hrow, hcolumn, hscan, hblock]
  exact advanceBlock_same ⟨hw, ⟨x, rfl⟩, hlive⟩

theorem clearPredictors_same (h : ScanSame b p s t) : ScanSame b p (clearPredictors s) (clearPredictors t) := by
  obtain ⟨hw, ⟨x, rfl⟩, hcount, hcurrent, hchannels, htables⟩ := h
  have hch : (clearPredictors s).ch = s.ch.mapBelow s.frame.channels fun _ => slotPart := rfl
  exact ⟨hw, ⟨clearPredictors (outer x s), rfl⟩, hcount, hcurrent,
    channelsAlike_clear fun c hc => congrArg slotPart (hchannels c hc), fun c hc => by
      rw [hch, tq_clear]
      exact htables c hc⟩

theorem restartStep_same (h : ScanSame b p s t) :
    Alike (ScanSame b .decodingMcu) (Raised b) (restartStep s) (restartStep t) := by
  unfold restartStep
  have halign := h.map (f := alignBits) (fun _ => rfl) h.working ⟨rfl, rfl, rfl, rfl⟩
  refine (getBits_same 16 halign).bind fun q q' hq => ?_
  obtain ⟨n, u⟩ := q
  obtain ⟨n', v⟩ := q'
  obtain ⟨rfl, huv⟩ := hq
  have hr := huv.raised
  have hset := huv.map (f := fun u => { u with scan := { u.scan with
    nextRst := (u.scan.nextRst + 1) % 8, countdown := u.ri } }) (fun _ => rfl) huv.working ⟨rfl, rfl, rfl, rfl⟩
  have hdone := beginMcu_same (clearPredictors_same hset)
  obtain ⟨x, rfl⟩ := huv.other
  exact .guard hr Iff.rfl fun _ => .guard hr Iff.rfl fun _ => hdone

end Sys2Proof.Machine
end

section
/-! PROOF. Two decodes of one image: finishing (47_upsample_colour.md R360) and the end of a decode. -/

namespace Sys2Proof.Machine

variable {b s t : State} {p : Phase}

/-! ### Finishing -/

theorem afterUpsample_same {c : Fin 3} (h : ScanSame b .finishing s t) (hl : t.live = s.live) :
    FinishSame b (afterUpsample s c) (afterUpsample t c) := by
  have hnext := h.field (nextChannel · c) fun _ => rfl
  obtain ⟨hw, ⟨x, rfl⟩, hlive⟩ := h
  unfold afterUpsample
  rw [hnext]
  rcases hn : nextChannel s c with _ | d
  · exact ⟨⟨hw, ⟨{ x with fin := .output }, rfl⟩, hlive⟩, hl, rfl, nofun, nofun⟩
  · refine ⟨⟨hw, ⟨{ x with fin := .upsample d }, rfl⟩, hlive⟩, hl, rfl, fun e he => ?_,
      nofun⟩
    cases he
    exact nextChannel_lt hn

theorem ScanSame.shift_eq {c : Fin 3} (h : ScanSame b p s t) (hc : c.val < s.frame.channels) :
    shiftX t c = shiftX s c ∧ shiftY t c = shiftY s c := by
  have hch : t.ch.get c = s.ch.get c := h.live.channels c hc
  have hframe := h.field State.frame fun _ => rfl
  simp only [shiftX, shiftY, hch, hframe, and_self]

theorem replacePlane_same {c : Fin 3} (h : ScanSame b p s t) (hl : t.live = s.live) (hc : c.val < s.frame.channels) :
    ScanSame b p (replacePlane s c) (replacePlane t c) ∧ (replacePlane t c).live = (replacePlane s c).live := by
  have hch : t.ch.get c = s.ch.get c := h.live.channels c hc
  obtain ⟨hx, hy⟩ := h.shift_eq hc
  obtain ⟨hw, ⟨x, rfl⟩, hlive⟩ := h
  have hother : replacePlane (outer x s) c = outer (replacePlane (outer x s) c) (replacePlane s c) := by
    unfold replacePlane
    dsimp only
    rw [hx, hy, hch]
    rfl
  refine ⟨⟨hw, ⟨_, hother⟩, hlive.set ?_ rfl⟩, ?_⟩
  · exact congrArg (fun r : Channel => { r with
      pw := s.frame.width, stride := s.frame.width, ph := s.frame.height, rows := s.frame.height }) hch
  · show (outer x s).live - ((outer x s).ch.get c).stride * ((outer x s).ch.get c).rows + _ = _
    rw [hl, hch]
    rfl

theorem upsample_same {c : Fin 3} (h : FinishSame b s t) (hc : c.val < s.frame.channels) :
    Alike (FinishSame b) (Raised b) (upsample c s) (upsample c t) := by
  have hl := h.held
  have hr := h.raised
  obtain ⟨hx, hy⟩ := h.shift_eq hc
  obtain ⟨hplane, hlive⟩ := replacePlane_same h.toScanSame hl hc
  have hkept := afterUpsample_same (c := c) h.toScanSame hl
  have hdone := afterUpsample_same (c := c) hplane hlive
  obtain ⟨x, rfl⟩ := h.other
  exact .ite (by rw [hx, hy]) (fun _ => hkept) fun _ => .guard hr (by rw [hl]; rfl) fun _ => hdone

/-- The bytes of the output (R365, R367). -/
def outputBytes (s : State) : List Byte := if s.frame.channels = 3 then colourBytes s else grayBytes s

theorem ScanSame.sampleAt_eq (h : ScanSame b p s t) {c : Fin 3} (hc : c.val < s.frame.channels) (y x : Nat) :
    sampleAt t c y x = sampleAt s c y x := by
  have hch : t.ch.get c = s.ch.get c := h.live.channels c hc
  obtain ⟨z, rfl⟩ := h.other
  unfold sampleAt
  rw [hch]
  rfl

theorem outputBytes_same (h : ScanSame b p s t) : outputBytes t = outputBytes s := by
  have hframe := h.field State.frame fun _ => rfl
  have h0 := h.sampleAt_eq h.live.first
  unfold outputBytes colourBytes grayBytes
  rw [hframe]
  split
  · next h3 =>
    have h1 := h.sampleAt_eq (c := 1) (by rw [h3]; decide)
    have h2 := h.sampleAt_eq (c := 2) (by rw [h3]; decide)
    simp only [h0, h1, h2]
  · simp only [h0]

theorem length_outputBytes (h : s.frame.channels = 1 ∨ s.frame.channels = 3) :
    (outputBytes s).length = s.frame.width * s.frame.height * s.frame.channels := by
  unfold outputBytes
  rcases h with h | h <;> rw [h]
  · simp [grayBytes, length_pixels]
  · rw [if_pos rfl, length_colourBytes, Nat.mul_comm]

theorem writeOutput_same (h : FinishSame b s t) : FinishSame b (writeOutput s) (writeOutput t) := by
  have hbytes := outputBytes_same h.toScanSame
  have hlength := length_outputBytes h.live.count
  obtain ⟨⟨hw, ⟨x, rfl⟩, hlive⟩, hheld, hplace, -, -⟩ := h
  refine ⟨⟨hw, ⟨writeOutput (outer x s), rfl⟩, hlive⟩, hheld, rfl, nofun, fun _ a ha => ?_⟩
  show (x.outMem.writeBytes 0 (outputBytes (outer x s))).read a = (s.outMem.writeBytes 0 (outputBytes s)).read a
  have ha' : a < (outputBytes s).length := by rw [hlength]; exact ha
  rw [hbytes, ← Nat.zero_add a, Memory.read_writeBytes_same _ _ _ _ ha', Memory.read_writeBytes_same _ _ _ _ ha']

/-! ### The end of a decode -/

/-- Two decodes of one image, after the same number of turns. -/
inductive DecodeSame (b s t : State) : Prop
  | header (same : HeaderSame b s t)
  | block (same : ScanSame b .decodingMcu s t)
  | boundary (same : ScanSame b .atRestartBoundary s t)
  | finish (same : FinishSame b s t)
  | ended (idle : s.phase.busy = false) (phase : t.phase = s.phase) (unbusy : s.status.busy = false)
      (session : Session b s ∧ Session b t) (outcome : Claims.SameOutcome s t)

theorem WalkSame.decode (h : WalkSame b s t) : DecodeSame b s t := by
  cases h with
  | block same => exact .block same
  | boundary same => exact .boundary same
  | finish same => exact .finish same

/-- An error ends both decodes with one code, and RST_EVENTS as it was. -/
theorem Raised.ended (h : Raised b s t) (k : ErrCode) : DecodeSame b (raiseError k s) (raiseError k t) := by
  obtain ⟨hsession, x, rfl⟩ := h
  exact .ended (busy_ended k) rfl rfl ⟨hsession, hsession⟩
    ⟨rfl, rfl, ⟨rfl, rfl, rfl, rfl⟩, rfl, fun _ a ha => absurd ha (Nat.not_lt_zero a)⟩

/-- What a byte reads after the host's writes are settled depends on that byte of the output alone. -/
theorem read_settleBusyWrites_congr (d n : Nat) (l : List Host.Cell) {m m' : Memory} {a : Nat}
    (h : m.read a = m'.read a) : (settleBusyWrites d n l m).read a = (settleBusyWrites d n l m').read a := by
  rw [read_settleBusyWrites, read_settleBusyWrites, h]

/-- Completion reports one frame and one image: the host's writes are settled alike in both. -/
theorem completeOk_same (h : FinishSame b s t) (hf : s.fin = .complete) :
    DecodeSame b (completeOk s) (completeOk t) := by
  have hwritten := h.written hf
  obtain ⟨⟨⟨hsession, -⟩, ⟨x, rfl⟩, -⟩, -⟩ := h
  refine .ended rfl rfl rfl ⟨hsession, hsession⟩ ⟨rfl, rfl, ⟨rfl, rfl, rfl, rfl⟩, rfl, fun _ a ha => ?_⟩
  have hn : a < s.frame.width * s.frame.height * s.frame.channels := ha.trans_le (Nat.mod_le _ _)
  exact read_settleBusyWrites_congr _ _ _ (hwritten a hn).symm

theorem finishStep_same (h : FinishSame b s t) : Alike (DecodeSame b) (Raised b) (finishStep s) (finishStep t) := by
  unfold finishStep
  rw [h.place]
  rcases hf : s.fin with c | _ | _
  · exact (upsample_same h (h.upsampled c hf)).imp fun _ _ => .finish
  · exact .finish (writeOutput_same h)
  · exact completeOk_same h hf

end Sys2Proof.Machine
end

section
/-! PROOF. Whole turns of two decodes of one image, and runs of them. -/

namespace Sys2Proof.Machine

variable {b s t : State} {p : Phase} {m : Memory}

/-- Both steps go on, to states of two decodes of one image. -/
def BothGo (b : State) (o o' : Host.Outcome State Fault Refusal) : Prop :=
  ∃ u v, o = .next u ∧ o' = .next v ∧ DecodeSame b u v

theorem DecodeSame.go (h : DecodeSame b s t) : BothGo b (.next s) (.next t) := ⟨s, t, rfl, rfl, h⟩

theorem Alike.go {r r' : Except Abort State} {R : State → State → Prop} (h : Alike R (Raised b) r r')
    (hR : ∀ u v, R u v → DecodeSame b u v) : BothGo b (Machine.settle r) (Machine.settle r') := by
  rcases h.cases with ⟨u, v, rfl, rfl, huv⟩ | ⟨k, u, v, rfl, rfl, -, huv⟩
  · exact (hR u v huv).go
  · exact (huv.ended k).go

/-! ### The header -/

theorem exec_marker_same {i : Instr} (hi : i.format = .marker) (h : HeaderSame b s t) :
    BothGo b (exec i s) (exec i t) := by
  have header {r r' : Except Abort State} (h : Alike (HeaderSame b) (Raised b) r r') :
      BothGo b (settle r) (settle r') := h.go fun _ _ => .header
  cases i <;> cases hi
  case sof0.refl => exact header (parseSof_same h)
  case dht.refl => exact header (parseDht_same h)
  case dqt.refl => exact header (parseDqt_same h)
  case dri.refl => exact header (parseDri_same h)
  case sos.refl => exact (parseSos_same h).go fun _ _ => .block
  case appn.refl n => exact header (skipSegment_same h)
  case com.refl => exact header (skipSegment_same h)
  case eoi.refl => exact (h.raised.ended _).go
  case markerOther.refl kk => exact (h.raised.ended _).go

theorem fetchFraming_same (h : HeaderSame b s t) : BothGo b (fetchFraming s).outcome (fetchFraming t).outcome := by
  have hlen := h.field State.len fun _ => rfl
  have hraised := (h.raised.ended .syntaxError).go
  unfold fetchFraming
  rw [hlen, h.inBytes]
  split
  · exact hraised
  · rcases inBytes s 0 2 with _ | ⟨b0, _ | ⟨b1, rest⟩⟩
    · exact hraised
    · exact hraised
    · rw [decode]
      split
      · exact (checkFraming_same h).go fun _ _ => .header
      · exact hraised

theorem fetchMarker_same (h : HeaderSame b s t) : BothGo b (fetchMarker s).outcome (fetchMarker t).outcome := by
  have hcursor := h.field State.cursor fun _ => rfl
  have hraised := (h.raised.ended .syntaxError).go
  unfold fetchMarker
  rw [hcursor, h.inBytes]
  rcases inBytes s s.cursor 2 with _ | ⟨b0, _ | ⟨b1, rest⟩⟩
  · exact hraised
  · exact hraised
  · rw [decode]
    by_cases hff : b0 = 0xFF#8
    · rw [if_pos hff]
      exact exec_marker_same (format_decodeMarkerKind b1)
        (h.map (f := fun u => { u with cursor := s.cursor + 2 }) (fun _ => rfl) h.working ⟨rfl, rfl, rfl, rfl⟩)
    · rw [if_neg hff]
      exact hraised

/-! ### The scan -/

theorem exec_symbol_same {i : Instr} (hi : i.format = .dcSym8 ∨ i.format = .acSym8)
    (h : ScanSame b .decodingMcu s t) : BothGo b (exec i s) (exec i t) := by
  rcases hi with hi | hi <;> cases i <;> cases hi
  case inl.dcDiff.refl size ignored => exact (dcDiff_same size.toNat h).go fun _ _ => .block
  case inr.acEob.refl =>
    exact (DecodeSame.block (h.map (f := endBlock) (fun _ => rfl) h.working ⟨rfl, rfl, rfl, rfl⟩)).go
  case inr.acZrl.refl => exact (runValue_same 15 0 h).go fun _ _ => .block
  case inr.acRunVal.refl run size => exact (runValue_same run.toNat size.toNat h).go fun _ _ => .block
  case inr.acIllegal.refl run => exact (h.raised.ended _).go

/-- A turn that needs a symbol of format `f`, all of whose words are symbols. -/
theorem fetchSymbol_same {f : Format} (slot : Fin 4) (read : Byte → Instr)
    (hf : ∀ sym, decode f [sym] = .ok (read sym, []))
    (hi : ∀ sym, (read sym).format = .dcSym8 ∨ (read sym).format = .acSym8) (h : ScanSame b .decodingMcu s t) :
    BothGo b (fetchSymbol f slot s).outcome (fetchSymbol f slot t).outcome := by
  unfold fetchSymbol
  rw [h.reader_eq]
  split
  · rw [outcome_fetchForm, outcome_fetchForm]
    exact (fetchByte_same h).go fun _ _ => .block
  · rcases (huffTake_same slot h).cases with ⟨⟨sym, u⟩, ⟨sym', v⟩, hu, hv, rfl, huv⟩ | ⟨k, u, v, hu, hv, -, huv⟩ <;>
      rw [hu, hv]
    · dsimp only
      rw [outcome_runDecoded_ok _ (hf sym), outcome_runDecoded_ok _ (hf sym)]
      exact exec_symbol_same (hi sym) huv
    · exact (huv.ended k).go

/-! ### Every turn -/

theorem engineTurn_header (hw : Working b .parsingHeader s) :
    engineTurn s = if s.cursor = 0 then fetchFraming s else fetchMarker s := by
  obtain ⟨-, hp, hk, -⟩ := hw
  rw [engineTurn, hk, hp]
  rfl

theorem engineTurn_dc (hw : Working b .decodingMcu s) (hs : s.scan.step = .dc) :
    engineTurn s = fetchSymbol .dcSym8 (s.ch.get s.scan.chan).dcSlot s := by
  obtain ⟨-, hp, hk, -⟩ := hw
  rw [engineTurn, hk, hp, hs]
  rfl

theorem engineTurn_ac (hw : Working b .decodingMcu s) (hs : s.scan.step = .ac) :
    engineTurn s = fetchSymbol .acSym8 (s.ch.get s.scan.chan).acSlot s := by
  obtain ⟨-, hp, hk, -⟩ := hw
  rw [engineTurn, hk, hp, hs]
  rfl

theorem engineTurn_idct (hw : Working b .decodingMcu s) (hs : s.scan.step = .idct) :
    engineTurn s = .done (.next (finishBlock s)) := by
  obtain ⟨-, hp, hk, -⟩ := hw
  rw [engineTurn, hk, hp, hs]
  rfl

theorem engineTurn_boundary (hw : Working b .atRestartBoundary s) :
    engineTurn s = .done (settle (restartStep s)) := by
  obtain ⟨-, hp, hk, -⟩ := hw
  rw [engineTurn, hk, hp]
  rfl

theorem engineTurn_finish (hw : Working b .finishing s) : engineTurn s = .done (settle (finishStep s)) := by
  obtain ⟨-, hp, hk, -⟩ := hw
  rw [engineTurn, hk, hp]
  rfl

/-- An idle engine holds its state (60_exceptions.md R415). -/
theorem engineTurn_idle (hp : s.phase.busy = false) (hb : s.status.busy = false) : engineTurn s = .done (.next s) := by
  rw [engineTurn, hb, Bool.and_false]
  cases hph : s.phase with
  | idle | doneOk | doneErr => rfl
  | parsingHeader | decodingMcu | atRestartBoundary | finishing => rw [hph] at hp; cases hp

theorem HeaderSame.working_other (h : HeaderSame b s t) : Working b .parsingHeader t := by
  obtain ⟨x, rfl⟩ := h.other
  exact h.working

theorem headerTurn_same (h : HeaderSame b s t) : BothGo b (engineTurn s).outcome (engineTurn t).outcome := by
  have hcursor := h.field State.cursor fun _ => rfl
  rw [engineTurn_header h.working, engineTurn_header h.working_other, hcursor]
  split
  · exact fetchFraming_same h
  · exact fetchMarker_same h

theorem ScanSame.working_other (h : ScanSame b p s t) : Working b p t := by
  obtain ⟨x, rfl⟩ := h.other
  exact h.working

theorem blockTurn_same (h : ScanSame b .decodingMcu s t) : BothGo b (engineTurn s).outcome (engineTurn t).outcome := by
  have hw := h.working_other
  have hscan := h.scan_eq
  have hch := h.current_eq
  cases hs : s.scan.step with
  | dc =>
    rw [engineTurn_dc h.working hs, engineTurn_dc hw (by rw [hscan, hs]), hscan, hch]
    exact fetchSymbol_same _ decodeDcSymbol (fun _ => rfl) (fun _ => .inl rfl) h
  | ac =>
    rw [engineTurn_ac h.working hs, engineTurn_ac hw (by rw [hscan, hs]), hscan, hch]
    exact fetchSymbol_same _ decodeAcSymbol (fun _ => rfl) (fun sym => .inr (format_decodeAcSymbol sym)) h
  | idct =>
    rw [engineTurn_idct h.working hs, engineTurn_idct hw (by rw [hscan, hs])]
    exact (finishBlock_same h).decode.go

theorem engineTurn_same (h : DecodeSame b s t) : BothGo b (engineTurn s).outcome (engineTurn t).outcome := by
  cases h with
  | header same => exact headerTurn_same same
  | block same => exact blockTurn_same same
  | boundary same =>
    rw [engineTurn_boundary same.working, engineTurn_boundary same.working_other]
    exact (restartStep_same same).go fun _ _ => .block
  | finish same =>
    rw [engineTurn_finish same.working, engineTurn_finish same.working_other]
    exact (finishStep_same same).go fun _ _ => id
  | ended idle phase unbusy session outcome =>
    have hbusy : t.status.busy = false := by rw [← outcome.status, unbusy]
    rw [engineTurn_idle idle unbusy, engineTurn_idle (by rw [phase, idle]) hbusy]
    exact (DecodeSame.ended idle phase unbusy session outcome).go

/-! ### Runs -/

theorem DecodeSame.session (h : DecodeSame b s t) : Session b s ∧ Session b t := by
  cases h with
  | header same => exact ⟨same.working.1, same.working_other.1⟩
  | block same | boundary same => exact ⟨same.working.1, same.working_other.1⟩
  | finish same => exact ⟨same.working.1, same.working_other.1⟩
  | ended idle phase unbusy session outcome => exact session

/-- A decode of the same image, then with `m` as IN_MEM, which agrees below LEN. -/
def DecodeAlike (b : State) (m : Memory) (s t : State) : Prop := ∃ u, DecodeSame b s u ∧ t = { u with inMem := m }

theorem step_same (hm : ∀ a < b.len, m.read a = b.inMem.read a) (h : DecodeAlike b m s t) :
    ∃ s' t', step s = .next s' ∧ step t = .next t' ∧ DecodeAlike b m s' t' := by
  obtain ⟨u, hu, rfl⟩ := h
  obtain ⟨⟨hs, -, -⟩, hq, hlen, hin⟩ := hu.session
  have hbelow : SameBelow m u { u with inMem := m } := ⟨rfl, by rw [hlen, hin]; exact hm⟩
  obtain ⟨s', u', hs', hu', hsame⟩ := engineTurn_same hu
  obtain ⟨v, hv, ht⟩ := engineTurn_alike hbelow
  rw [hu'] at hv
  cases hv
  refine ⟨s', _, ?_, ?_, u', hsame, rfl⟩
  · rw [step_eq, fetch_engine hs, hs']
  · rw [step_eq, fetch_engine (s := { u with inMem := m }) hq, ht]

/-- A run's first step, of any machine. -/
theorem run_succ (M : Host.Core) {n : Nat} {s s' : M.State} (h : M.step s = .next s') :
    M.run (n + 1) s = M.run n s' := by
  simp only [Host.Core.run, h]

theorem run_same (hm : ∀ a < b.len, m.read a = b.inMem.read a) (n : Nat) {s t u v : State} (h : DecodeAlike b m s t)
    (hu : core.run n s = .next u) (hv : core.run n t = .next v) : DecodeAlike b m u v := by
  induction n generalizing s t with
  | zero =>
    cases hu
    cases hv
    exact h
  | succ n ih =>
    obtain ⟨s', t', hs, ht, hst⟩ := step_same hm h
    exact ih hst ((run_succ core hs).symm.trans hu) ((run_succ core ht).symm.trans hv)

/-- While a decode runs the result registers read 0, so no image is claimed yet. -/
theorem outcome_of_working {x : State} (hw : Working b p s) : Claims.SameOutcome s (inherited x s) := by
  obtain ⟨-, -, -, hlen⟩ := hw
  exact ⟨rfl, rfl, ⟨rfl, rfl, rfl, rfl⟩, rfl, fun _ a ha => by rw [hlen] at ha; exact absurd ha (Nat.not_lt_zero a)⟩

theorem ScanSame.outcome (h : ScanSame b p s t) : Claims.SameOutcome s t := by
  obtain ⟨-, x, rfl⟩ := h.raised
  exact outcome_of_working h.working

theorem DecodeSame.outcome (h : DecodeSame b s t) : Claims.SameOutcome s t := by
  cases h with
  | header same =>
    obtain ⟨x, rfl⟩ := same.other
    exact outcome_of_working same.working
  | block same | boundary same => exact same.outcome
  | finish same => exact same.outcome
  | ended idle phase unbusy session outcome => exact outcome

theorem DecodeAlike.outcome (h : DecodeAlike b m s t) : Claims.SameOutcome s t := by
  obtain ⟨u, hu, rfl⟩ := h
  obtain ⟨status, errcode, size, events, image⟩ := hu.outcome
  exact ⟨status, errcode, size, events, image⟩

/-- Two cores with the same inputs start decodes of one image: nothing is set yet. -/
theorem startDecode_same {s s' : State} (h : Claims.SameInputs s s') :
    DecodeAlike (startDecode s) s'.inMem (startDecode s) (startDecode s') := by
  obtain ⟨-, -, ⟨hq, hq'⟩, hparams, hlen, -, hstrict, hdraws⟩ := h
  have hother : { startDecode s' with inMem := s.inMem } =
      inherited { startDecode s' with inMem := s.inMem } (startDecode s) := by
    simp only [startDecode, inherited, outer, hq, hq', hparams, hlen, hstrict, hdraws]
  refine ⟨{ startDecode s' with inMem := s.inMem }, .header ⟨⟨⟨hq, rfl, rfl⟩, rfl, rfl, rfl⟩, ⟨_, hother⟩, rfl, nofun,
    fun i hi => ?_⟩, rfl⟩
  rw [startDecode, Quad.get_fill] at hi
  cases hi

end Sys2Proof.Machine

open Sys2Proof Sys2Proof.Machine Sys2Proof.Claims

/-- Settles O47: both decodes start with nothing set, and every turn keeps them alike up to what DECODE inherits. -/
theorem decodeDependsOnlyOnItsInputs : Obligations.DecodeDependsOnlyOnItsInputs := by
  intro s s' t t' u u' n h ht ht' hu hu'
  rw [exec_decode_idle h.idle.1, h.loaded.1] at ht
  rw [exec_decode_idle h.idle.2, h.loaded.2] at ht'
  cases ht
  cases ht'
  have hm : ∀ a < (startDecode s).len, s'.inMem.read a = (startDecode s).inMem.read a := fun a ha => (h.bytes a ha).symm
  exact (run_same hm n (startDecode_same h) hu hu').outcome
end

section
/-! PROOF. Segments and errors as the statements write them (41_segment_parser.md R150, R152, 60_exceptions.md R401),
and the markers whose meaning is one check: SOI, DRI, APPn, COM, EOI and the markers outside the map. -/

namespace Sys2Proof.Machine

open Sys2Proof.Claims

variable {s t u : State} {len : Nat} {i : Instr} {k : ErrCode}

/-! ### Errors -/

/-- The core's end of a failed decode is the statements' one (R401, 40_host_commands.md R139). -/
theorem raiseError_eq_errorEnd (hk : k ≠ .ok) (s : State) : raiseError k s = errorEnd k s := by
  cases k with
  | ok => exact absurd rfl hk
  | _ => rfl

theorem exec_raises {r : Except Abort State} (he : exec i s = settle r) (hr : r = .error ⟨k, u⟩)
    (hk : k ≠ .ok := by decide) : exec i s = .next (errorEnd k u) := by
  rw [he, hr, settle_error, raiseError_eq_errorEnd hk]

theorem exec_goes_on {r : Except Abort State} (he : exec i s = settle r) (hr : r = .ok u) : exec i s = .next u := by
  rw [he, hr, settle_ok]

/-- An error raised with IN_MEM as it was is one the host sees. -/
theorem endsWith_of_raises {r : Except Abort State} (he : exec i s = settle r) (hr : r = .error ⟨k, u⟩)
    (hm : u.inMem = s.inMem) (hk : k ≠ .ok := by decide) : EndsWith i s k :=
  ⟨errorEnd k u, exec_raises he hr hk, rfl, (by decide : Status.word ⟨true, false, true, true⟩ = 0xD), rfl, hm⟩

/-- A check that fails ends the handler, and one that passes lets it go on. -/
theorem failIf_bind {α : Type} (b : Bool) (k : ErrCode) (s : State) (f : State → Except Abort α) :
    (failIf b k s >>= f) = if b then .error ⟨k, s⟩ else f s := by
  cases b <;> rfl

/-! ### Segments -/

/-- The payload of a segment of length `len` at CURSOR (30_encoding.md R92). -/
def payloadAt (s : State) (len : Nat) : Segment := ⟨s.cursor + 2, len - 2⟩

theorem toNat_byte_payloadAt (ht : t.inMem = s.inMem) (j : Nat) :
    ((payloadAt s len).byte t j).toNat = payload s j := by
  rw [Segment.byte, inRead, ht]
  rfl

theorem be16_eq_byteAt (s : State) (a : Nat) : be16 s a = 256 * byteAt s a + byteAt s (a + 1) := rfl

theorem readSegment_at (h : SegmentAt s len) :
    readSegment s = .ok (payloadAt s len, pastSegment s len) := by
  obtain ⟨hfield, hlength, hinside⟩ := h
  rw [← be16_eq_byteAt] at hfield
  subst hfield
  exact readSegment_ok.2 ⟨⟨by omega, hlength, hinside⟩, rfl, rfl⟩

theorem readSegment_at_bind {α : Type} (h : SegmentAt s len) (f : Segment × State → Except Abort α) :
    (readSegment s >>= f) = f (payloadAt s len, pastSegment s len) := by
  rw [readSegment_at h]
  rfl

theorem readSegment_of_broken (h : SegmentBroken s) : readSegment s = .error ⟨.syntaxError, s⟩ := by
  refine readSegment_error fun ⟨hroom, hlength, hinside⟩ => ?_
  rw [be16_eq_byteAt] at hlength hinside
  rcases h with h | h | h <;> omega

/-- A handler that reads its segment first ends with what a broken one raises. -/
theorem readSegment_bind_of_broken {α : Type} (h : SegmentBroken s) (f : Segment × State → Except Abort α) :
    (readSegment s >>= f) = .error ⟨.syntaxError, s⟩ := by
  rw [readSegment_of_broken h]
  rfl

theorem parseSof_unseen (hs : s.frame.seen = false) :
    ∃ f, parseSof s = readSegment s >>= f := by
  unfold parseSof
  rw [hs]
  exact ⟨_, rfl⟩

theorem parseSos_seen (hs : s.frame.seen = true) :
    ∃ f, parseSos s = readSegment s >>= f := by
  unfold parseSos
  rw [hs]
  exact ⟨_, rfl⟩

/-- What a handler that reads its segment first does is read it and go on. -/
theorem exec_of_readsSegmentFirst (h : readsSegmentFirst i s) :
    ∃ f : Segment × State → Except Abort State, exec i s = settle (readSegment s >>= f) := by
  rcases h with rfl | rfl | rfl | rfl | ⟨n, rfl⟩ | ⟨rfl, hs⟩ | ⟨rfl, hs⟩
  · exact ⟨_, rfl⟩
  · exact ⟨_, rfl⟩
  · exact ⟨_, rfl⟩
  · exact ⟨_, rfl⟩
  · exact ⟨_, rfl⟩
  · obtain ⟨f, hf⟩ := parseSof_unseen hs
    exact ⟨f, congrArg settle hf⟩
  · obtain ⟨f, hf⟩ := parseSos_seen hs
    exact ⟨f, congrArg settle hf⟩

/-! ### The small handlers -/

theorem byteAt_eq_iff (s : State) (a : Nat) {v : Nat} (hv : v < 256) :
    byteAt s a = v ↔ inRead s a = BitVec.ofNat 8 v := by
  rw [byteAt, BitVec.toNat_eq, BitVec.toNat_ofNat, Nat.mod_eq_of_lt hv]
  rfl

/-- The framing check is one condition (R150). -/
theorem checkFraming_eq (s : State) : checkFraming s =
    if 6 ≤ s.len ∧ byteAt s 0 = 0xFF ∧ byteAt s 1 = 0xD8 ∧ byteAt s (s.len - 2) = 0xFF ∧ byteAt s (s.len - 1) = 0xD9
    then .ok { s with cursor := 2 } else .error ⟨.syntaxError, s⟩ := by
  simp only [byteAt_eq_iff s _ (show 0xFF < 256 by decide), byteAt_eq_iff s _ (show 0xD8 < 256 by decide),
    byteAt_eq_iff s _ (show 0xD9 < 256 by decide)]
  unfold checkFraming
  split
  · next hlen => rw [if_neg (by omega)]
  · next hlen =>
    split
    · next hsoi => rw [if_neg (by tauto)]
    · next hsoi =>
      split
      · next heoi => rw [if_neg (by tauto)]
      · next heoi => rw [if_pos ⟨by omega, by tauto⟩]

theorem parseDri_at (h : SegmentAt s len) : parseDri s =
    if len < 4 then .error ⟨.syntaxError, pastSegment s len⟩
    else .ok { s with cursor := s.cursor + len, ri := 256 * payload s 0 + payload s 1 } := by
  have hsize : decide ((payloadAt s len).size < 2) = decide (len < 4) :=
    decide_eq_decide.2 (show len - 2 < 2 ↔ len < 4 by omega)
  unfold parseDri
  rw [readSegment_at_bind h]
  dsimp only
  rw [failIf_bind, hsize]
  simp only [decide_eq_true_eq]
  rfl

theorem skipSegment_at (h : SegmentAt s len) : skipSegment s = .ok (pastSegment s len) :=
  readSegment_at_bind h _

end Sys2Proof.Machine

open Sys2Proof Sys2Proof.Machine

/-- Settles O14: every such handler begins with the read that raises. -/
theorem brokenSegmentIsSyntaxError : Obligations.BrokenSegmentIsSyntaxError := fun _ _ hi hb => by
  obtain ⟨f, hf⟩ := exec_of_readsSegmentFirst hi
  exact exec_raises hf (readSegment_bind_of_broken hb f)

/-- Settles O13: the framing check is the condition the statement names. -/
theorem soiChecksTheFraming : Obligations.SoiChecksTheFraming := fun s =>
  ⟨fun h => exec_goes_on (i := .soi) rfl ((checkFraming_eq s).trans (if_pos h)),
    fun h => exec_raises (i := .soi) rfl ((checkFraming_eq s).trans (if_neg h))⟩

/-- Settles O21: DRI's one check is on the length of its payload. -/
theorem driSetsTheRestartInterval : Obligations.DriSetsTheRestartInterval := fun _ len hseg =>
  ⟨fun h => exec_goes_on (i := .dri) rfl ((parseDri_at hseg).trans (if_neg (by omega))),
    fun h => exec_raises (i := .dri) rfl ((parseDri_at hseg).trans (if_pos h))⟩

/-- Settles O24: the segment is read and nothing else done. -/
theorem appnAndComSkipTheirSegment : Obligations.AppnAndComSkipTheirSegment := fun _ _ n hseg =>
  ⟨exec_goes_on (i := .appn n) rfl (skipSegment_at hseg), exec_goes_on (i := .com) rfl (skipSegment_at hseg)⟩

/-- Settles O25: each is an error raised at once, the last with its `FF` pushed. -/
theorem unacceptedMarkersAreSyntaxErrors : Obligations.UnacceptedMarkersAreSyntaxErrors := fun s kk =>
  ⟨exec_raises (i := .eoi) (r := .error ⟨.syntaxError, s⟩) rfl rfl,
    exec_raises (i := .markerOther kk) (r := .error ⟨.syntaxError, s⟩) rfl rfl,
    exec_raises (i := .ecsIllegal kk) (r := ecsIllegalEffect s) rfl rfl⟩
end

section
/-! PROOF. The turn of the marker loop (41_segment_parser.md R150, R151): which instruction stands at CURSOR. -/

namespace Sys2Proof.Machine

open Sys2Proof.Claims

variable {s : State} {a : Nat}

/-- With two bytes left below LEN both are read. -/
theorem inBytes_pair (h : a + 2 ≤ s.len) : inBytes s a 2 = [s.inMem.read a, s.inMem.read (a + 1)] := by
  rw [inBytes, Nat.min_eq_left (by omega)]
  rfl

/-- The engine's own step in the header is a turn of the framing check or of the marker loop (R150, R151). -/
theorem step_header (hm : EngineMoves s) (hp : s.phase = .parsingHeader) :
    step s = (if s.cursor = 0 then fetchFraming s else fetchMarker s).outcome := by
  rw [step_eq, fetch_engine hm.quiet, engineTurn, hm.kept, hp]
  rfl

theorem outcome_fetchMarker_ok {i : Instr} {tail : List Byte}
    (h : decode .marker (inBytes s s.cursor 2) = .ok (i, tail)) :
    (fetchMarker s).outcome = exec i { s with cursor := s.cursor + 2 } := by
  rw [fetchMarker, h]
  rfl

theorem outcome_fetchMarker_error {e : DecodeError} (h : decode .marker (inBytes s s.cursor 2) = .error e) :
    (fetchMarker s).outcome = .next (errorEnd .syntaxError s) := by
  rw [fetchMarker, h]
  rfl

/-- Fewer than two bytes left, or another byte than `FF`, is no marker (R151). -/
theorem decode_marker_error (h : s.len < a + 2 ∨ s.inMem.read a ≠ 0xFF) :
    ∃ e, decode .marker (inBytes s a 2) = .error e := by
  by_cases hroom : a + 2 ≤ s.len
  · have hff : s.inMem.read a ≠ 0xFF#8 := h.resolve_left (by omega)
    rw [inBytes_pair hroom, decode, if_neg hff]
    exact ⟨_, rfl⟩
  · have hlen := length_inBytes s a 2
    rcases hb : inBytes s a 2 with _ | ⟨b0, _ | ⟨b1, rest⟩⟩
    · exact ⟨_, rfl⟩
    · exact ⟨_, rfl⟩
    · rw [hb, List.length_cons, List.length_cons] at hlen
      omega

theorem outcome_fetchFraming_soi (hlen : 6 ≤ s.len) (h0 : s.inMem.read 0 = 0xFF) (h1 : s.inMem.read 1 = 0xD8) :
    (fetchFraming s).outcome = exec .soi s := by
  rw [fetchFraming, if_neg (by omega), inBytes_pair (by omega), h0, h1]
  rfl

theorem outcome_fetchFraming_error (h : s.len < 6 ∨ s.inMem.read 0 ≠ 0xFF ∨ s.inMem.read 1 ≠ 0xD8) :
    (fetchFraming s).outcome = .next (errorEnd .syntaxError s) := by
  unfold fetchFraming
  split
  · rfl
  · next hlen =>
    have hsoi : ¬ (s.inMem.read 0 = 0xFF#8 ∧ s.inMem.read 1 = 0xD8#8) :=
      not_and_or.2 (h.resolve_left hlen)
    rw [inBytes_pair (by omega), decode, if_neg hsoi]
    rfl

end Sys2Proof.Machine

open Sys2Proof Sys2Proof.Machine

/-- Settles O5: by CURSOR the turn is the framing check's or the marker loop's, and each case its decoder's answer. -/
theorem stepRunsTheMarkerAtCursor : Obligations.StepRunsTheMarkerAtCursor := by
  intro s hm hp
  have hstep := step_header hm hp
  refine ⟨fun i tail hc hroom hd => ?_, fun hc h => ?_, fun hc hlen h0 h1 => ?_, fun hc h => ?_⟩
  · rw [hstep, if_neg hc]
    exact outcome_fetchMarker_ok (by rw [inBytes_pair hroom, hd])
  · obtain ⟨e, he⟩ := decode_marker_error h
    rw [hstep, if_neg hc, outcome_fetchMarker_error he]
  · rw [hstep, if_pos hc, outcome_fetchFraming_soi hlen h0 h1]
  · rw [hstep, if_pos hc, outcome_fetchFraming_error h]
end

section
/-! PROOF. The loop over a segment's channel list (41_segment_parser.md R155, R162): the record of every channel is
replaced in turn, up to the first one that fails. -/

namespace Sys2Proof.Machine

/-! ### The channels below NC -/

theorem mem_liveChannels {c : Fin 3} {n : Nat} : c ∈ liveChannels n ↔ c.val < n :=
  ⟨val_lt_of_mem_liveChannels, fun h => List.mem_filter.2 ⟨by fin_cases c <;> decide, decide_eq_true h⟩⟩

theorem channels_le_three {n : Nat} (hn : n = 1 ∨ n = 3) : n ≤ 3 := by omega

theorem liveChannels_succ {n : Nat} (hn : n < 3) : liveChannels (n + 1) = liveChannels n ++ [⟨n, hn⟩] := by
  interval_cases n <;> rfl

theorem liveChannels_split {c : Fin 3} {n : Nat} (hn : n ≤ 3) (hc : c.val < n) :
    ∃ rest, liveChannels n = liveChannels c.val ++ c :: rest := by
  induction n with
  | zero => exact absurd hc (Nat.not_lt_zero _)
  | succ n ih =>
    rw [liveChannels_succ hn]
    rcases Nat.lt_succ_iff_lt_or_eq.1 hc with hlt | rfl
    · obtain ⟨rest, hrest⟩ := ih (by omega) hlt
      exact ⟨rest ++ [⟨n, hn⟩], by rw [hrest, List.append_assoc, List.cons_append]⟩
    · exact ⟨[], rfl⟩

end Sys2Proof.Machine

namespace Sys2Proof

theorem Triple.set_mapBelow {α : Type} (t : Triple α) (c : Fin 3) (f : Fin 3 → α → α) :
    (t.mapBelow c.val f).set c (f c (t.get c)) = t.mapBelow (c.val + 1) f := by
  fin_cases c <;> rfl

theorem Triple.mapBelow_mapBelow {α : Type} (t : Triple α) (n : Nat) (f g : Fin 3 → α → α) :
    (t.mapBelow n f).mapBelow n g = t.mapBelow n fun c x => g c (f c x) := by
  simp only [Triple.mapBelow]
  congr 1 <;> split <;> rfl

end Sys2Proof

namespace Sys2Proof.Machine

/-! ### The loop -/

/-- The state with other channel records. -/
def withChannels (u : State) (ch : Triple Channel) : State := { u with ch := ch }

variable {f : State → Fin 3 → Except Abort State} {load : Fin 3 → Channel → Channel} {u : State} {n : Nat} {k : ErrCode}

/-- The turn of channel `c` replaces its record, whatever the records of the others. -/
def Loads (f : State → Fin 3 → Except Abort State) (load : Fin 3 → Channel → Channel) (u : State) (c : Fin 3) : Prop :=
  ∀ ch : Triple Channel, ch.get c = u.ch.get c →
    f (withChannels u ch) c = .ok (withChannels u (ch.set c (load c (u.ch.get c))))

/-- The turn of channel `c` raises an error, whatever the records of the others. -/
def Raises (f : State → Fin 3 → Except Abort State) (k : ErrCode) (u : State) (c : Fin 3) : Prop :=
  ∀ ch : Triple Channel, ch.get c = u.ch.get c → f (withChannels u ch) c = .error ⟨k, withChannels u ch⟩

/-- The records of the channels from `n` on are not yet read. -/
theorem get_mapBelow_self (c : Fin 3) (load : Fin 3 → Channel → Channel) (ch : Triple Channel) :
    (ch.mapBelow c.val load).get c = ch.get c := by
  rw [Triple.get_mapBelow, if_neg (Nat.lt_irrefl _)]

theorem foldlM_channels (hn : n ≤ 3) (hf : ∀ c : Fin 3, c.val < n → Loads f load u c) :
    (liveChannels n).foldlM f u = .ok (withChannels u (u.ch.mapBelow n load)) := by
  induction n with
  | zero => rfl
  | succ n ih =>
    have hturn := hf ⟨n, hn⟩ (Nat.lt_succ_self n) (u.ch.mapBelow n load) (get_mapBelow_self ⟨n, hn⟩ load u.ch)
    rw [Triple.set_mapBelow u.ch ⟨n, hn⟩ load] at hturn
    rw [liveChannels_succ hn, List.foldlM_append, ih (by omega) fun c hc => hf c (by omega)]
    exact (congrArg (· >>= pure) hturn :)

theorem foldlM_channels_error {c : Fin 3} (hn : n ≤ 3) (hc : c.val < n)
    (hf : ∀ d : Fin 3, d.val < c.val → Loads f load u d) (he : Raises f k u c) :
    (liveChannels n).foldlM f u = .error ⟨k, withChannels u (u.ch.mapBelow c.val load)⟩ := by
  obtain ⟨rest, hrest⟩ := liveChannels_split hn hc
  have hturn := he (u.ch.mapBelow c.val load) (get_mapBelow_self c load u.ch)
  rw [hrest, List.foldlM_append, foldlM_channels (by omega) hf]
  exact (congrArg (· >>= fun v => rest.foldlM f v) hturn :)

end Sys2Proof.Machine
end

section
/-! PROOF. SOF0 (41_segment_parser.md R155 to R158): the checks before the channel list, what a channel's sampling byte
and table byte raise, and the frame, the channels and the planes an accepted header gives. -/

namespace Sys2Proof.Machine

open Sys2Proof.Claims

variable {s u : State} {len w h nc : Nat} {k : ErrCode}

/-! ### Nibbles, masks and sampling factors -/

theorem toNat_high (b : Byte) : (b.extractLsb' 4 4).toNat = b.toNat / 16 := by
  have hlt := b.isLt
  rw [BitVec.extractLsb'_toNat, Nat.shiftRight_eq_div_pow]
  omega

theorem toNat_low (b : Byte) : (b.extractLsb' 0 4).toNat = b.toNat % 16 := by
  rw [BitVec.extractLsb'_toNat, Nat.shiftRight_zero]

/-- A table id byte is legal exactly up to 3 (R155, R160). -/
theorem and_fc_eq_zero : ∀ b : Byte, b &&& 0xFC = 0 ↔ b.toNat ≤ 3 := by decide

theorem factorError_good {f : Nat} (hf : goodFactor f) : factorError f = none := by
  rcases hf with rfl | rfl | rfl <;> rfl

theorem factorError_syntax {f : Nat} (hf : f = 0 ∨ f = 8) : factorError f = some .syntaxError := by
  rcases hf with rfl | rfl <;> rfl

theorem factorError_unsupported {f : Nat} (hf : f < 16) (hs : ¬ (f = 0 ∨ f = 8)) (hg : ¬ goodFactor f) :
    factorError f = some .unsupportedError := by
  have nibbles : ∀ f < 16, ¬ (f = 0 ∨ f = 8) → ¬ (f = 1 ∨ f = 2 ∨ f = 4) → factorError f = some .unsupportedError := by
    decide
  exact nibbles f hf hs hg

/-! ### The header -/

/-- The checks before the channel list, in their order (R155). -/
theorem parseSof_at (hs : s.frame.seen = false) (hseg : SegmentAt s len) : parseSof s =
    if len < 8 then .error ⟨.syntaxError, pastSegment s len⟩
    else if payload s 0 ≠ 8 then .error ⟨.unsupportedError, pastSegment s len⟩
    else if 256 * payload s 3 + payload s 4 = 0 ∨ 256 * payload s 1 + payload s 2 = 0 then
      .error ⟨.syntaxError, pastSegment s len⟩
    else if payload s 5 ≠ 1 ∧ payload s 5 ≠ 3 then .error ⟨.unsupportedError, pastSegment s len⟩
    else if len < 8 + 3 * payload s 5 then .error ⟨.syntaxError, pastSegment s len⟩
    else parseFrame (payloadAt s len) (256 * payload s 3 + payload s 4) (256 * payload s 1 + payload s 2) (payload s 5)
      (pastSegment s len) := by
  have hsize (n : Nat) : (payloadAt s len).size < 6 + n ↔ len < 8 + n := by
    show len - 2 < 6 + n ↔ len < 8 + n
    omega
  have hprecision : (((payloadAt s len).byte (pastSegment s len) 0 != 8) = true) ↔ payload s 0 ≠ 8 :=
    bne_iff_ne.trans BitVec.toNat_eq.not
  unfold parseSof
  rw [failIf_bind, hs, if_neg Bool.false_ne_true, readSegment_at_bind hseg]
  dsimp only
  simp only [failIf_bind, hprecision, decide_eq_true_eq, hsize, hsize 0]
  rfl

theorem parseSof_seen_raises (hs : s.frame.seen = true) : parseSof s = .error ⟨.syntaxError, s⟩ := by
  rw [parseSof, failIf_bind, if_pos hs]

/-- An accepted header goes on with its channel list. -/
theorem parseSof_of_header (hd : SofHeader s len w h nc) :
    parseSof s = parseFrame (payloadAt s len) w h nc (pastSegment s len) := by
  obtain ⟨hunseen, hseg, hprecision, rfl, rfl, hnonzero, rfl, hchannels, hsize⟩ := hd
  rw [parseSof_at hunseen hseg, if_neg (by omega), if_neg (not_not.2 hprecision), if_neg (by omega), if_neg (by omega),
    if_neg (by omega)]

/-! ### The channel list -/

/-- What the sampling byte and the table byte of channel `i` raise (R155). -/
def channelAnswer (s : State) (i : Nat) : Option ErrCode :=
  channelError (s.inMem.read (s.cursor + 2 + (7 + 3 * i))) (s.inMem.read (s.cursor + 2 + (8 + 3 * i)))

/-- Channel `c`'s record with its entry of the list read. -/
def listedChannel (s : State) (c : Fin 3) (r : Channel) : Channel :=
  { r with
    cid := s.inMem.read (s.cursor + 2 + (6 + 3 * c.val))
    hs := highNibble s (7 + 3 * c.val)
    vs := lowNibble s (7 + 3 * c.val)
    tq := Fin.ofNat 4 (payload s (8 + 3 * c.val)) }

/-- The horizontal factor is checked first, then the vertical one, then the table id. -/
theorem channelAnswer_eq (s : State) (i : Nat) : channelAnswer s i =
    (factorError (highNibble s (7 + 3 * i))).or ((factorError (lowNibble s (7 + 3 * i))).or
      (if payload s (8 + 3 * i) ≤ 3 then none else some .syntaxError)) := by
  unfold channelAnswer channelError
  rw [toNat_high, toNat_low]
  simp only [ne_eq, and_fc_eq_zero, ite_not]
  unfold highNibble lowNibble payload byteAt
  cases factorError ((s.inMem.read (s.cursor + 2 + (7 + 3 * i))).toNat / 16)
  · cases factorError ((s.inMem.read (s.cursor + 2 + (7 + 3 * i))).toNat % 16) <;> rfl
  · rfl

theorem channelAnswer_none {i : Nat} (h : channelPasses s i) : channelAnswer s i = none := by
  obtain ⟨hhigh, hlow, htable⟩ := h
  rw [channelAnswer_eq, factorError_good hhigh, factorError_good hlow, if_pos htable]
  rfl

theorem loads_readChannel {c : Fin 3} (h : channelPasses s c.val) :
    Loads (readChannel (payloadAt s len)) (listedChannel s) (pastSegment s len) c := by
  intro ch hch
  have hnone := channelAnswer_none h
  unfold channelAnswer at hnone
  simp only [readChannel, Segment.byte, inRead, payloadAt, withChannels, pastSegment, hnone, toNat_high, toNat_low, hch]
  rfl

theorem raises_readChannel {c : Fin 3} (h : channelAnswer s c.val = some k) :
    Raises (readChannel (payloadAt s len)) k (pastSegment s len) c := by
  intro ch hch
  unfold channelAnswer at h
  simp only [readChannel, Segment.byte, inRead, payloadAt, withChannels, pastSegment, h]

/-- An error raised in the channel list ends the parse. -/
theorem parseFrame_of_error {g : Segment} {e : Abort} (he : (liveChannels nc).foldlM (readChannel g) u = .error e) :
    parseFrame g w h nc u = .error e := by
  rw [parseFrame, he]
  rfl

/-- The first channel that fails ends the decode with what its bytes raise. -/
theorem endsWith_of_channelAnswer {i : Nat} (hd : SofHeader s len w h nc) (hi : i < nc)
    (hlist : ∀ j < i, channelPasses s j) (ha : channelAnswer s i = some k) (hk : k ≠ .ok) : EndsWith .sof0 s k := by
  have hnc := channels_le_three hd.channels
  have hloop := foldlM_channels_error (c := ⟨i, by omega⟩) (f := readChannel (payloadAt s len)) hnc hi
    (fun d hdi => loads_readChannel (hlist d hdi)) (raises_readChannel ha)
  exact endsWith_of_raises (i := .sof0) rfl ((parseSof_of_header hd).trans (parseFrame_of_error hloop)) rfl hk

/-! ### The geometry -/

/-- The frame R156 gives. -/
def sofFrame (s : State) (w h nc : Nat) : Frame :=
  { s.frame with hmax := hmaxOf s nc, vmax := vmaxOf s nc, mbw := mbwOf s w nc, mbh := mbhOf s h nc }

/-- Channel `c`'s record with the factors the frame gives it. -/
def factoredChannel (s : State) (nc : Nat) (c : Fin 3) (r : Channel) : Channel :=
  { listedChannel s c r with hs := hsOf s nc c.val, vs := vsOf s nc c.val }

/-- Channel `c`'s record as R155 and R156 give it. -/
def sofChannel (s : State) (w h nc : Nat) (c : Fin 3) (r : Channel) : Channel :=
  channelGeometry (sofFrame s w h nc) w h (factoredChannel s nc c r)

/-- The state in which the guard and the room for the planes are checked. -/
def sofGeometry (s : State) (len w h nc : Nat) : State :=
  withChannels { pastSegment s len with frame := sofFrame s w h nc } (s.ch.mapBelow nc (sofChannel s w h nc))

/-- A single channel's factors are 1, whatever its sampling byte says (R155). -/
theorem forceGray_listed (hnc : nc = 1 ∨ nc = 3) :
    forceGray nc (withChannels (pastSegment s len) (s.ch.mapBelow nc (listedChannel s))) =
      withChannels (pastSegment s len) (s.ch.mapBelow nc (factoredChannel s nc)) := by
  rcases hnc with rfl | rfl <;> rfl

/-- The largest factor of the live channels, when each has the one named. -/
theorem foldl_max_liveChannels (hnc : nc = 1 ∨ nc = 3) {f g : Fin 3 → Nat} (hfg : ∀ c : Fin 3, c.val < nc → f c = g c) :
    (liveChannels nc).foldl (fun m c => max m (f c)) 0 = if nc = 1 then g 0 else max (max (g 0) (g 1)) (g 2) := by
  rcases hnc with rfl | rfl
  · exact (Nat.zero_max _).trans (hfg 0 (by decide))
  · show max (max (max 0 (f 0)) (f 1)) (f 2) = _
    rw [hfg 0 (by decide), hfg 1 (by decide), hfg 2 (by decide), Nat.zero_max]
    rfl

theorem maxHs_listed (hnc : nc = 1 ∨ nc = 3) {ch : Triple Channel}
    (hch : ∀ c : Fin 3, c.val < nc → (ch.get c).hs = hsOf s nc c.val) : maxHs nc (withChannels u ch) = hmaxOf s nc :=
  (foldl_max_liveChannels hnc hch).trans (by rcases hnc with rfl | rfl <;> rfl)

theorem maxVs_listed (hnc : nc = 1 ∨ nc = 3) {ch : Triple Channel}
    (hch : ∀ c : Fin 3, c.val < nc → (ch.get c).vs = vsOf s nc c.val) : maxVs nc (withChannels u ch) = vmaxOf s nc :=
  (foldl_max_liveChannels hnc hch).trans (by rcases hnc with rfl | rfl <;> rfl)

/-- The geometry with the largest factors named. -/
theorem geometry_of_max {hm vm : Nat} (hh : maxHs nc u = hm) (hv : maxVs nc u = vm) : geometry w h nc u =
    let f := { u.frame with hmax := hm, vmax := vm, mbw := ceilDiv w (8 * hm), mbh := ceilDiv h (8 * vm) }
    withChannels { u with frame := f } (u.ch.mapBelow nc fun _ r => channelGeometry f w h r) := by
  subst hh hv
  rfl

theorem geometry_listed (hnc : nc = 1 ∨ nc = 3) :
    geometry w h nc (forceGray nc (withChannels (pastSegment s len) (s.ch.mapBelow nc (listedChannel s)))) =
      sofGeometry s len w h nc := by
  rw [forceGray_listed hnc,
    geometry_of_max (maxHs_listed (s := s) hnc fun c hc => ?_) (maxVs_listed (s := s) hnc fun c hc => ?_)]
  · exact congrArg (withChannels { pastSegment s len with frame := sofFrame s w h nc })
      (Triple.mapBelow_mapBelow s.ch nc (factoredChannel s nc) fun _ r => channelGeometry (sofFrame s w h nc) w h r)
  all_goals
    rw [Triple.get_mapBelow, if_pos hc]
    rfl

theorem get_sofGeometry {c : Fin 3} (hc : c.val < nc) :
    (sofGeometry s len w h nc).ch.get c = sofChannel s w h nc c (s.ch.get c) :=
  (Triple.get_mapBelow ..).trans (if_pos hc)

/-- The guard of R157 stops the frame exactly when a channel does not pass it. -/
theorem degenerate_sofChannel (c : Fin 3) (r : Channel) :
    degenerate (sofFrame s w h nc) (sofChannel s w h nc c r) = true ↔ ¬ guardPasses s w h nc c.val := by
  simp only [degenerate, Bool.or_eq_true, Bool.and_eq_true, decide_eq_true_eq, guardPasses]
  show (ceiling (w * hsOf s nc c.val) (hmaxOf s nc) < 3 ∧ hsOf s nc c.val ≠ hmaxOf s nc ∨
    ceiling (h * vsOf s nc c.val) (vmaxOf s nc) < 3 ∧ vsOf s nc c.val ≠ vmaxOf s nc) ↔ _
  omega

theorem any_degenerate :
    ((liveChannels nc).any fun c => degenerate (sofGeometry s len w h nc).frame ((sofGeometry s len w h nc).ch.get c)) =
      true ↔ ∃ c : Fin 3, c.val < nc ∧ ¬ guardPasses s w h nc c.val := by
  rw [List.any_eq_true]
  refine exists_congr fun c => ?_
  rw [mem_liveChannels]
  refine and_congr_right fun hc => ?_
  rw [get_sofGeometry hc]
  exact degenerate_sofChannel c _

/-- The planes' bytes are the statements' (R158). -/
theorem planesNeed_sofGeometry (hnc : nc = 1 ∨ nc = 3) :
    planesNeed nc (sofGeometry s len w h nc) = planeOf s w h nc 0 + planeOf s w h nc 1 + planeOf s w h nc 2 := by
  rcases hnc with rfl | rfl
  · rfl
  · show planeOf s w h 3 0 + (planeOf s w h 3 1 + (planeOf s w h 3 2 + 0)) = _
    omega

/-- With its channel list read, the frame has the guard and then the room of WORK and OUT_MEM to pass (R157, R158). -/
theorem parseSof_of_list (hd : SofHeader s len w h nc) (hlist : ∀ i < nc, channelPasses s i) : parseSof s =
    (failIf ((liveChannels nc).any fun c =>
      degenerate (sofGeometry s len w h nc).frame ((sofGeometry s len w h nc).ch.get c)) .unsupportedError
      (sofGeometry s len w h nc) >>= fun u => allocate w h nc u >>= fun u =>
        .ok { u with frame := { u.frame with width := w, height := h, channels := nc, seen := true } }) := by
  have hnc := channels_le_three hd.channels
  have hloop := foldlM_channels (f := readChannel (payloadAt s len)) (u := pastSegment s len) hnc
    fun c hc => loads_readChannel (hlist c.val hc)
  rw [parseSof_of_header hd, parseFrame, hloop, ← geometry_listed hd.channels]
  rfl

theorem parseSof_of_degenerate (hd : SofHeader s len w h nc) (hlist : ∀ i < nc, channelPasses s i)
    (hguard : ∃ i < nc, ¬ guardPasses s w h nc i) :
    parseSof s = .error ⟨.unsupportedError, sofGeometry s len w h nc⟩ := by
  obtain ⟨i, hi, hg⟩ := hguard
  have hnc := channels_le_three hd.channels
  rw [parseSof_of_list hd hlist, failIf_bind, if_pos (any_degenerate.2 ⟨⟨i, by omega⟩, hi, hg⟩)]

theorem parseSof_of_guard (hd : SofHeader s len w h nc) (hlist : ∀ i < nc, channelPasses s i)
    (hguard : ∀ i < nc, guardPasses s w h nc i) : parseSof s =
    (allocate w h nc (sofGeometry s len w h nc) >>= fun u =>
      .ok { u with frame := { u.frame with width := w, height := h, channels := nc, seen := true } }) := by
  rw [parseSof_of_list hd hlist, failIf_bind, if_neg fun hany => ?_]
  obtain ⟨c, hc, hg⟩ := any_degenerate.1 hany
  exact hg (hguard c.val hc)

theorem allocate_sofGeometry_error (hnc : nc = 1 ∨ nc = 3) (hfit : ¬ imageFits s w h nc) :
    allocate w h nc (sofGeometry s len w h nc) = .error ⟨.outOfMemory, sofGeometry s len w h nc⟩ := by
  unfold allocate
  rw [planesNeed_sofGeometry hnc]
  split
  · rfl
  · next hwork =>
    exact if_pos (Nat.lt_of_not_le fun hout => hfit ⟨Nat.le_of_not_lt hwork, hout⟩)

theorem allocate_sofGeometry_ok (hnc : nc = 1 ∨ nc = 3) (hfit : imageFits s w h nc) :
    allocate w h nc (sofGeometry s len w h nc) = .ok (allocatePlanes nc (sofGeometry s len w h nc)) := by
  obtain ⟨hwork, hout⟩ := hfit
  unfold allocate
  rw [planesNeed_sofGeometry hnc]
  exact (if_neg (Nat.not_lt.2 hwork)).trans (if_neg (Nat.not_lt.2 hout))

theorem parseSof_of_tooLarge (hd : SofHeader s len w h nc) (hlist : ∀ i < nc, channelPasses s i)
    (hguard : ∀ i < nc, guardPasses s w h nc i) (hfit : ¬ imageFits s w h nc) :
    parseSof s = .error ⟨.outOfMemory, sofGeometry s len w h nc⟩ := by
  rw [parseSof_of_guard hd hlist hguard, allocate_sofGeometry_error hd.channels hfit]
  rfl

/-! ### The accepted frame -/

/-- The accepted frame's state (R155). -/
def sofLoaded (s : State) (len w h nc : Nat) : State :=
  { s with
    cursor := s.cursor + len
    frame := { sofFrame s w h nc with width := w, height := h, channels := nc, seen := true }
    ch := s.ch.mapBelow nc (sofChannel s w h nc)
    planes := s.planes.mapBelow nc fun c _ => some { draw := s.draws + c.val, cells := [] }
    draws := s.draws + 3 }

theorem parseSof_of_accepted (ha : SofAccepted s len w h nc) : parseSof s = .ok (sofLoaded s len w h nc) := by
  obtain ⟨hd, hlist, hguard, hfit⟩ := ha
  rw [parseSof_of_guard hd hlist hguard, allocate_sofGeometry_ok hd.channels hfit]
  rfl

theorem get_sofLoaded {c : Fin 3} (hc : c.val < nc) :
    (sofLoaded s len w h nc).ch.get c = sofChannel s w h nc c (s.ch.get c) :=
  (Triple.get_mapBelow ..).trans (if_pos hc)

theorem get_planes_sofLoaded {c : Fin 3} (hc : c.val < nc) :
    (sofLoaded s len w h nc).planes.get c = some { draw := s.draws + c.val, cells := [] } :=
  (Triple.get_mapBelow ..).trans (if_pos hc)

theorem get_sofLoaded_above {c : Fin 3} (hc : nc ≤ c.val) :
    (sofLoaded s len w h nc).ch.get c = s.ch.get c ∧ (sofLoaded s len w h nc).planes.get c = s.planes.get c :=
  ⟨(Triple.get_mapBelow ..).trans (if_neg (Nat.not_lt.2 hc)), (Triple.get_mapBelow ..).trans (if_neg (Nat.not_lt.2 hc))⟩

end Sys2Proof.Machine

open Sys2Proof Sys2Proof.Machine Sys2Proof.Claims

/-- Settles O15: the accepted frame's state is written out, and each field is read off it. -/
theorem sofLoadsTheFrame : Obligations.SofLoadsTheFrame := by
  intro s len w h nc ha
  refine ⟨sofLoaded s len w h nc, exec_goes_on (i := .sof0) rfl (parseSof_of_accepted ha), rfl, rfl, fun c hc => ?_,
    fun c hc => get_sofLoaded_above hc, rfl⟩
  obtain ⟨-, -, hid⟩ := ha.list c.val hc
  have htable : payload s (8 + 3 * c.val) % 4 = payload s (8 + 3 * c.val) := Nat.mod_eq_of_lt (Nat.lt_succ_of_le hid)
  rw [get_sofLoaded hc]
  exact ⟨rfl, rfl, rfl, htable, rfl, rfl, rfl, rfl, rfl, rfl, rfl, _, get_planes_sofLoaded hc⟩

/-- Settles O16: each case is the first check of the parse that fails. -/
theorem sofRejectsTheHeader : Obligations.SofRejectsTheHeader := by
  intro s
  refine ⟨fun hseen => exec_raises (i := .sof0) rfl (parseSof_seen_raises hseen), fun len hs hseg => ?_⟩
  have heq := parseSof_at hs hseg
  refine ⟨fun h8 => ?_, fun h8 hp => ?_, fun h8 hp hz => ?_, fun h8 hp hz h1 h3 => ?_, fun h8 hp hz hc hlen => ?_⟩ <;>
    refine exec_raises (i := .sof0) rfl (heq.trans ?_)
  · rw [if_pos h8]
  · rw [if_neg (by omega), if_pos hp]
  · rw [if_neg (by omega), if_neg (not_not.2 hp), if_pos (by omega)]
  · rw [if_neg (by omega), if_neg (not_not.2 hp), if_neg (by omega), if_pos ⟨h1, h3⟩]
  · rw [if_neg (by omega), if_neg (not_not.2 hp), if_neg (by omega), if_neg (by omega), if_pos hlen]

/-- Settles O17: the first channel whose bytes raise, then the guard, then the room of WORK and OUT_MEM. -/
theorem sofRejectsTheChannels : Obligations.SofRejectsTheChannels := by
  intro s len w h nc hd
  refine ⟨fun i hi hlist => ?_, fun hlist => ⟨fun hguard => ?_, fun hguard hfit => ?_⟩⟩
  · have hraise {k : ErrCode} (hk : k ≠ .ok) (ha : channelAnswer s i = some k) : EndsWith .sof0 s k :=
      endsWith_of_channelAnswer hd hi hlist ha hk
    have hhigh : highNibble s (7 + 3 * i) < 16 := Nat.div_lt_of_lt_mul (BitVec.isLt _)
    have hlow : lowNibble s (7 + 3 * i) < 16 := Nat.mod_lt _ (by decide)
    have hanswer := channelAnswer_eq s i
    refine ⟨fun hbad => ?_, fun hn hbad => ?_, fun hg hbad => ?_, fun hg hn hbad => ?_, fun hg hg' hbad => ?_⟩ <;>
      refine hraise (by decide) (hanswer.trans ?_)
    · rw [factorError_syntax hbad]
      rfl
    · rw [factorError_unsupported hhigh hn hbad]
      rfl
    · rw [factorError_good hg, factorError_syntax hbad]
      rfl
    · rw [factorError_good hg, factorError_unsupported hlow hn hbad]
      rfl
    · rw [factorError_good hg, factorError_good hg', if_neg (by omega)]
      rfl
  · exact endsWith_of_raises (i := .sof0) rfl (parseSof_of_degenerate hd hlist hguard) rfl
  · exact endsWith_of_raises (i := .sof0) rfl (parseSof_of_tooLarge hd hlist hguard hfit) rfl
end

section
/-! PROOF. SOS (41_segment_parser.md R162, R163): the checks of a scan header in their order, and the scan it starts. -/

namespace Sys2Proof.Machine

open Sys2Proof.Claims

variable {s u : State} {len : Nat}

/-! ### The header -/

/-- `ParseSOS()` from the channel list on (R162, R163). -/
def parseScanList (g : Segment) (s : State) : Except Abort State :=
  (liveChannels s.frame.channels).foldlM (selectTables g) s >>= fun u =>
    failIf (!baselineTrailer g u (1 + 2 * s.frame.channels)) .unsupportedError u >>= fun u =>
      failIf (!quantTablesLoaded u) .syntaxError u >>= fun u => .ok (startScan u.cursor u)

theorem parseSos_unseen_raises (hs : s.frame.seen = false) : parseSos s = .error ⟨.syntaxError, s⟩ := by
  rw [parseSos, failIf_bind, hs]
  rfl

/-- The checks before the channel list, in their order (R162). -/
theorem parseSos_at (hs : s.frame.seen = true) (hseg : SegmentAt s len) : parseSos s =
    if len < 3 then .error ⟨.syntaxError, pastSegment s len⟩
    else if payload s 0 ≠ s.frame.channels then .error ⟨.unsupportedError, pastSegment s len⟩
    else if len < 6 + 2 * s.frame.channels then .error ⟨.syntaxError, pastSegment s len⟩
    else parseScanList (payloadAt s len) (pastSegment s len) := by
  have hempty : (payloadAt s len).size < 1 ↔ len < 3 := by
    show len - 2 < 1 ↔ len < 3
    omega
  have hsize (n : Nat) : (payloadAt s len).size < 4 + n ↔ len < 6 + n := by
    show len - 2 < 4 + n ↔ len < 6 + n
    omega
  unfold parseSos
  rw [failIf_bind, hs, Bool.not_true, if_neg Bool.false_ne_true, readSegment_at_bind hseg]
  dsimp only
  simp only [parseScanList, failIf_bind, decide_eq_true_eq, hempty, hsize]
  rfl

theorem parseSos_of_header (hh : SosHeader s len) :
    parseSos s = parseScanList (payloadAt s len) (pastSegment s len) := by
  obtain ⟨hseen, hseg, hchannels, hcount, hsize⟩ := hh
  rw [parseSos_at hseen hseg, if_neg (by omega), if_neg (not_not.2 hcount), if_neg (by omega)]

/-! ### The channel list -/

/-- A selector byte is legal exactly with both nibbles 0 or 1 (R162). -/
theorem and_ee_eq_zero : ∀ b : Byte, b &&& 0xEE = 0 ↔ b.toNat / 16 ≤ 1 ∧ b.toNat % 16 ≤ 1 := by decide

/-- The slots a legal selector byte names: 0 or 1 for DC, 2 or 3 for AC (R162). -/
theorem slots_of_selector : ∀ b : Byte, b.toNat / 16 ≤ 1 ∧ b.toNat % 16 ≤ 1 →
    (if b.getLsbD 4 then 1 else 0 : Fin 4).val = b.toNat / 16 ∧
    (if b.getLsbD 0 then 3 else 2 : Fin 4).val = 2 + b.toNat % 16 := by decide

/-- Channel `c`'s record with the slots its selector byte names. -/
def scanChannel (s : State) (c : Fin 3) (r : Channel) : Channel :=
  withSlots (s.inMem.read (s.cursor + 2 + (2 + 2 * c.val))) r

/-- A scan channel passes when its id is the frame's and its selector byte is legal. -/
theorem selectorPasses_iff (s : State) (c : Fin 3) : selectorPasses s c ↔
    s.inMem.read (s.cursor + 2 + (1 + 2 * c.val)) = (s.ch.get c).cid ∧
    s.inMem.read (s.cursor + 2 + (2 + 2 * c.val)) &&& 0xEE = 0 := by
  rw [and_ee_eq_zero, BitVec.toNat_eq]
  rfl

theorem loads_selectTables {c : Fin 3} (h : selectorPasses s c) :
    Loads (selectTables (payloadAt s len)) (scanChannel s) (pastSegment s len) c := by
  intro ch hch
  obtain ⟨hid, hselector⟩ := (selectorPasses_iff s c).1 h
  unfold selectTables
  have hcid : s.inMem.read (s.cursor + 2 + (1 + 2 * c.val)) = (ch.get c).cid :=
    hid.trans (congrArg Channel.cid hch.symm)
  rw [← hch]
  exact (if_neg (not_not.2 hcid)).trans (if_neg (not_not.2 hselector))

theorem raises_selectTables {c : Fin 3} (h : ¬ selectorPasses s c) :
    Raises (selectTables (payloadAt s len)) .syntaxError (pastSegment s len) c := by
  intro ch hch
  rw [selectorPasses_iff, not_and] at h
  unfold selectTables
  dsimp only
  split
  · rfl
  · next hid => exact if_pos (h ((not_not.1 hid).trans (congrArg Channel.cid hch)))

theorem parseSos_of_selector {c : Fin 3} (hh : SosHeader s len) (hc : c.val < s.frame.channels)
    (hlist : ∀ d : Fin 3, d.val < c.val → selectorPasses s d) (h : ¬ selectorPasses s c) :
    parseSos s = .error ⟨.syntaxError, withChannels (pastSegment s len) (s.ch.mapBelow c.val (scanChannel s))⟩ := by
  have hloop := foldlM_channels_error (f := selectTables (payloadAt s len)) (u := pastSegment s len)
    (channels_le_three hh.channels) hc (fun d hd => loads_selectTables (hlist d hd)) (raises_selectTables h)
  exact (parseSos_of_header hh).trans (congrArg (· >>= _) hloop)

/-! ### The trailer and the quantisation tables -/

/-- The state in which the trailer and the quantisation tables are checked. -/
def sosSelected (s : State) (len : Nat) : State :=
  withChannels (pastSegment s len) (s.ch.mapBelow s.frame.channels (scanChannel s))

theorem baselineTrailer_sosSelected : baselineTrailer (payloadAt s len) (sosSelected s len) (1 + 2 * s.frame.channels) =
    true ↔ trailerPasses s := by
  have hbyte (j : Nat) (v : Byte) :
      ((payloadAt s len).byte (sosSelected s len) j == v) = true ↔ payload s j = v.toNat :=
    beq_iff_eq.trans BitVec.toNat_eq
  rw [baselineTrailer, Bool.and_eq_true, Bool.and_eq_true, hbyte, hbyte, hbyte, trailerPasses, and_assoc,
    show 1 + 2 * s.frame.channels + 1 = 2 + 2 * s.frame.channels by omega,
    show 1 + 2 * s.frame.channels + 2 = 3 + 2 * s.frame.channels by omega]
  rfl

theorem quantTablesLoaded_sosSelected : quantTablesLoaded (sosSelected s len) = true ↔
    ∀ c : Fin 3, c.val < s.frame.channels → s.qtLoaded.get (s.ch.get c).tq = true := by
  rw [quantTablesLoaded, List.all_eq_true]
  refine forall_congr' fun c => ?_
  rw [mem_liveChannels]
  refine forall_congr' fun hc => ?_
  have hget : (sosSelected s len).ch.get c = scanChannel s c (s.ch.get c) := (Triple.get_mapBelow ..).trans (if_pos hc)
  rw [hget]
  rfl

/-- With its channel list read, the scan has the trailer and then the tables to pass (R162, R163). -/
theorem parseSos_of_list (hh : SosHeader s len) (hlist : ∀ c : Fin 3, c.val < s.frame.channels → selectorPasses s c) :
    parseSos s =
      if !baselineTrailer (payloadAt s len) (sosSelected s len) (1 + 2 * s.frame.channels) then
        .error ⟨.unsupportedError, sosSelected s len⟩
      else if !quantTablesLoaded (sosSelected s len) then .error ⟨.syntaxError, sosSelected s len⟩
      else .ok (startScan (s.cursor + len) (sosSelected s len)) := by
  have hloop := foldlM_channels (f := selectTables (payloadAt s len)) (u := pastSegment s len)
    (channels_le_three hh.channels) fun c hc => loads_selectTables (hlist c hc)
  have hlist' : parseScanList (payloadAt s len) (pastSegment s len) = _ := congrArg (· >>= _) hloop
  rw [parseSos_of_header hh, hlist']
  exact (failIf_bind ..).trans (if_congr Iff.rfl rfl (failIf_bind ..))

theorem parseSos_of_trailer (hh : SosHeader s len) (hlist : ∀ c : Fin 3, c.val < s.frame.channels → selectorPasses s c)
    (ht : ¬ trailerPasses s) : parseSos s = .error ⟨.unsupportedError, sosSelected s len⟩ := by
  rw [parseSos_of_list hh hlist, Bool.eq_false_iff.2 (mt baselineTrailer_sosSelected.1 ht)]
  rfl

/-! ### The scan's start -/

/-- The state at the start of the scan (43_bitreader.md R230, 44_block_decoder.md R262, 46_scan_decoder.md R330). -/
def scanStarted (s : State) (len : Nat) : State :=
  { s with
    phase := .decodingMcu
    cursor := s.cursor + len
    reader := readerStart (s.cursor + len)
    scan := { mbx := 0, mby := 0, countdown := s.ri, nextRst := 0, chan := 0, sby := 0, sbx := 0, step := .dc }
    blk := Oct.fill (Oct.fill 0)
    k := 0
    ch := s.ch.mapBelow s.frame.channels fun c r => { scanChannel s c r with pred := 0 } }

theorem startScan_sosSelected : startScan (s.cursor + len) (sosSelected s len) = scanStarted s len :=
  congrArg (withChannels (scanStarted s len))
    (Triple.mapBelow_mapBelow s.ch s.frame.channels (scanChannel s) fun _ r => { r with pred := 0 })

/-- The rest passed, the tables decide whether the scan starts (R163). -/
theorem parseSos_of_tables (hh : SosHeader s len) (hlist : ∀ c : Fin 3, c.val < s.frame.channels → selectorPasses s c)
    (ht : trailerPasses s) : parseSos s =
      if !quantTablesLoaded (sosSelected s len) then .error ⟨.syntaxError, sosSelected s len⟩
      else .ok (scanStarted s len) := by
  rw [parseSos_of_list hh hlist, baselineTrailer_sosSelected.2 ht, startScan_sosSelected]
  rfl

theorem parseSos_of_accepted (ha : SosAccepted s len) : parseSos s = .ok (scanStarted s len) := by
  obtain ⟨hh, hlist, ht, htables⟩ := ha
  rw [parseSos_of_tables hh hlist ht, quantTablesLoaded_sosSelected.2 htables]
  rfl

theorem parseSos_of_unloaded (hh : SosHeader s len) (hlist : ∀ c : Fin 3, c.val < s.frame.channels → selectorPasses s c)
    (ht : trailerPasses s) {c : Fin 3} (hc : c.val < s.frame.channels) (hq : s.qtLoaded.get (s.ch.get c).tq = false) :
    parseSos s = .error ⟨.syntaxError, sosSelected s len⟩ := by
  have hloaded : quantTablesLoaded (sosSelected s len) = false := Bool.eq_false_iff.2 fun htrue =>
    Bool.false_ne_true (hq.symm.trans (quantTablesLoaded_sosSelected.1 htrue c hc))
  rw [parseSos_of_tables hh hlist ht, hloaded]
  rfl

end Sys2Proof.Machine

open Sys2Proof Sys2Proof.Machine Sys2Proof.Claims

/-- Settles O22: the state at the start of the scan is written out, and each field is read off it. -/
theorem sosStartsTheScan : Obligations.SosStartsTheScan := by
  intro s len ha
  refine ⟨scanStarted s len, exec_goes_on (i := .sos) rfl (parseSos_of_accepted ha), rfl, rfl, rfl, rfl,
    fun j _ => Grid.at_fill 0 j, rfl, fun c hc => ?_, fun c hc => ?_, rfl⟩
  · have hget : (scanStarted s len).ch.get c = { scanChannel s c (s.ch.get c) with pred := 0 } :=
      (Triple.get_mapBelow ..).trans (if_pos hc)
    obtain ⟨-, hhigh, hlow⟩ := ha.list c hc
    obtain ⟨hdc, hac⟩ := slots_of_selector _ ⟨hhigh, hlow⟩
    rw [hget]
    exact ⟨hdc, hac, rfl, rfl⟩
  · exact (Triple.get_mapBelow ..).trans (if_neg (Nat.not_lt.2 hc))

/-- Settles O23: each case is the first check of the parse that fails. -/
theorem sosRejectsBadHeaders : Obligations.SosRejectsBadHeaders := by
  intro s
  refine ⟨fun hs => exec_raises (i := .sos) rfl (parseSos_unseen_raises hs), fun len hs hseg => ?_, fun len hh => ?_⟩
  · have heq := parseSos_at hs hseg
    refine ⟨fun h2 => ?_, fun h2 hcount => ?_, fun h2 hcount hsize => ?_⟩ <;>
      refine exec_raises (i := .sos) rfl (heq.trans ?_)
    · rw [if_pos (by omega)]
    · rw [if_neg (by omega), if_pos hcount]
    · rw [if_neg (by omega), if_neg (not_not.2 hcount), if_pos hsize]
  · refine ⟨fun c hc hlist hsel => ?_, fun hlist => ⟨fun ht => ?_, fun ht ⟨c, hc, hq⟩ => ?_⟩⟩
    · exact endsWith_of_raises (i := .sos) rfl (parseSos_of_selector hh hc hlist hsel) rfl
    · exact endsWith_of_raises (i := .sos) rfl (parseSos_of_trailer hh hlist ht) rfl
    · exact endsWith_of_raises (i := .sos) rfl (parseSos_of_unloaded hh hlist ht hc hq) rfl
end

section
/-! PROOF. DQT (41_segment_parser.md R160): the tables after any number of whole groups, and how a payload ends. -/

namespace Sys2Proof.Machine

open Sys2Proof.Claims

variable {s u : State} {g : Segment} {len m i k fuel : Nat}

/-! ### One group -/

theorem zz_inj {j : Nat} (hk : k < 64) (hj : j < 64) (h : zz k = zz j) : k = j := by
  have hnodup : zigzag.Nodup := by decide
  have hlength : zigzag.length = 64 := rfl
  rw [zz, zz, List.getD_eq_getElem _ _ (by omega), List.getD_eq_getElem _ _ (by omega)] at h
  exact (hnodup.getElem_inj_iff).1 h

/-- Entries put at the first zig-zag places stand there. -/
theorem at_foldl_put_zz (value : Nat → Byte) (old : Grid Byte) {n : Nat} (hn : n ≤ 64) (hk : k < n) :
    Grid.at ((List.range n).foldl (fun q k => Grid.put q (zz k) (value k)) old) (zz k) = value k := by
  induction n with
  | zero => exact absurd hk (Nat.not_lt_zero k)
  | succ n ih =>
    rw [List.range_succ, List.foldl_append, List.foldl_cons, List.foldl_nil]
    rcases Nat.lt_succ_iff_lt_or_eq.1 hk with hlt | rfl
    · have hne : zz k ≠ zz n := fun h => absurd (zz_inj (by omega) hn h) (Nat.ne_of_lt hlt)
      rw [Grid.at_put_other _ _ (zz_lt n hn) (zz_lt k (by omega)) hne]
      exact ih (Nat.le_of_succ_le hn) hlt
    · rw [Grid.at_put_same]

/-- Byte `k` of a group is the entry at natural position `zz k` (44_block_decoder.md R263). -/
theorem at_readQuantTable (g : Segment) (s : State) (i : Nat) (old : Grid Byte) (hk : k < 64) :
    Grid.at (readQuantTable g s i old) (zz k) = g.byte s (i + k) :=
  at_foldl_put_zz (fun k => g.byte s (i + k)) old (Nat.le_refl 64) hk

/-! ### Whole groups -/

/-- The table that group `m` names. -/
def groupSlot (s : State) (m : Nat) : Fin 4 := Fin.ofNat 4 (groupId s m)

/-- The quantisation tables after `m` groups. -/
def quantAfter (s : State) (g : Segment) : Nat → Quad (Grid Byte)
  | 0 => s.qt
  | m + 1 => (quantAfter s g m).set (groupSlot s m)
      (readQuantTable g s (65 * m + 1) ((quantAfter s g m).get (groupSlot s m)))

/-- Which tables are loaded after `m` groups. -/
def loadedAfter (s : State) : Nat → Quad Bool
  | 0 => s.qtLoaded
  | m + 1 => (loadedAfter s m).set (groupSlot s m) true

/-- CURSOR past the segment, and `m` groups read. -/
def quantRead (s : State) (len m : Nat) : State :=
  { s with cursor := s.cursor + len, qt := quantAfter s (payloadAt s len) m, qtLoaded := loadedAfter s m }

theorem parseQuantGroups_group (hroom : 65 * m + 65 ≤ len - 2) (hid : groupId s m ≤ 3) :
    parseQuantGroups (fuel + 1) (payloadAt s len) (65 * m) (quantRead s len m) =
      parseQuantGroups fuel (payloadAt s len) (65 * (m + 1)) (quantRead s len (m + 1)) := by
  have hmask : (payloadAt s len).byte (quantRead s len m) (65 * m) &&& 0xFC = 0 := (and_fc_eq_zero _).2 hid
  have hsize : (payloadAt s len).size = len - 2 := rfl
  rw [parseQuantGroups, if_neg (by omega), if_neg (by omega)]
  exact if_neg (not_not.2 hmask)

theorem parseQuantGroups_groups (hroom : 65 * m ≤ len - 2) (hid : ∀ n < m, groupId s n ≤ 3) :
    parseQuantGroups (m + fuel) (payloadAt s len) 0 (pastSegment s len) =
      parseQuantGroups fuel (payloadAt s len) (65 * m) (quantRead s len m) := by
  induction m generalizing fuel with
  | zero => rw [Nat.zero_add]; rfl
  | succ m ih =>
    rw [Nat.add_right_comm, Nat.add_assoc, ih (by omega) fun n hn => hid n (by omega)]
    exact parseQuantGroups_group (by omega) (hid m (Nat.lt_succ_self m))

/-! ### The end of the payload -/

theorem parseQuantGroups_end (h : g.size ≤ i) : parseQuantGroups fuel g i u = .ok u := by
  cases fuel with
  | zero => rfl
  | succ fuel => rw [parseQuantGroups, if_pos h]

/-- A partial group, or an id byte above 3, is a SyntaxError (R160). -/
theorem parseQuantGroups_bad (hi : i < g.size) (hbad : g.size < i + 65 ∨ 3 < (g.byte u i).toNat) :
    parseQuantGroups (fuel + 1) g i u = .error ⟨.syntaxError, u⟩ := by
  rw [parseQuantGroups, if_neg (by omega)]
  split
  · rfl
  · have hid : ¬ (g.byte u i).toNat ≤ 3 := Nat.not_le.2 (hbad.resolve_left (by omega))
    exact if_pos (mt (and_fc_eq_zero _).1 hid)

theorem parseDqt_at (hseg : SegmentAt s len) (hroom : 65 * m ≤ len - 2) (hid : ∀ n < m, groupId s n ≤ 3) :
    parseDqt s = parseQuantGroups (len - 2 - m) (payloadAt s len) (65 * m) (quantRead s len m) := by
  rw [parseDqt, readSegment_at_bind hseg, ← parseQuantGroups_groups hroom hid, Nat.add_sub_of_le (by omega)]
  rfl

/-! ### What the groups load -/

theorem groupSlot_eq_iff (hid : groupId s m ≤ 3) (id : Fin 4) : groupSlot s m = id ↔ groupId s m = id.val := by
  rw [Fin.ext_iff, groupSlot, Fin.val_ofNat, Nat.mod_eq_of_lt (by omega)]

/-- A table no group names is as before. -/
theorem get_quantRead_unnamed {id : Fin 4} (hid : ∀ n < m, groupSlot s n ≠ id) :
    (loadedAfter s m).get id = s.qtLoaded.get id ∧ (quantAfter s g m).get id = s.qt.get id := by
  induction m with
  | zero => exact ⟨rfl, rfl⟩
  | succ m ih =>
    have hne := (hid m (Nat.lt_succ_self m)).symm
    rw [loadedAfter, quantAfter, Quad.get_set_other _ _ hne, Quad.get_set_other _ _ hne]
    exact ih fun n hn => hid n (by omega)

/-- A table holds the last group that names it. -/
theorem get_quantRead_last {n : Nat} (hn : n < m) (hlast : ∀ n', n < n' → n' < m → groupSlot s n' ≠ groupSlot s n) :
    (loadedAfter s m).get (groupSlot s n) = true ∧
      ∀ k < 64, Grid.at ((quantAfter s g m).get (groupSlot s n)) (zz k) = g.byte s (65 * n + 1 + k) := by
  induction m with
  | zero => exact absurd hn (Nat.not_lt_zero n)
  | succ m ih =>
    rw [loadedAfter, quantAfter]
    rcases Nat.lt_succ_iff_lt_or_eq.1 hn with hlt | rfl
    · have hne := (hlast m hlt (Nat.lt_succ_self m)).symm
      rw [Quad.get_set_other _ _ hne, Quad.get_set_other _ _ hne]
      exact ih hlt fun n' hn' hm => hlast n' hn' (by omega)
    · rw [Quad.get_set_same, Quad.get_set_same]
      exact ⟨rfl, fun k hk => at_readQuantTable _ _ _ _ hk⟩

end Sys2Proof.Machine

open Sys2Proof Sys2Proof.Machine Sys2Proof.Claims

/-- Settles O20: the loop over whole groups, by induction on their number, and the group it ends at. -/
theorem dqtLoadsEveryGroup : Obligations.DqtLoadsEveryGroup := by
  intro s len m hseg hroom hid
  have hparse := parseDqt_at hseg hroom hid
  refine ⟨fun hend => ⟨quantRead s len m, ?_, rfl, fun n hn hlast id hname => ?_, fun id hun => ?_, rfl⟩,
    fun hmore hbad => ?_⟩
  · exact exec_goes_on (i := .dqt) rfl (hparse.trans (parseQuantGroups_end (Nat.le_of_eq hend)))
  · have hslot := (groupSlot_eq_iff (hid n hn) id).2 hname.symm
    subst hslot
    exact get_quantRead_last hn fun n' hlt hlt' heq =>
      hlast n' hlt hlt' (((groupSlot_eq_iff (hid n' hlt') _).1 heq).trans hname)
  · exact get_quantRead_unnamed fun n hn heq => hun n hn ((groupSlot_eq_iff (hid n hn) id).1 heq)
  · obtain ⟨fuel, hfuel⟩ : ∃ fuel, len - 2 - m = fuel + 1 := ⟨len - 2 - m - 1, by omega⟩
    rw [hfuel] at hparse
    exact endsWith_of_raises (i := .dqt) rfl (hparse.trans (parseQuantGroups_bad hmore hbad)) rfl
end

section
/-! PROOF. The canonical table of one DHT definition (42_huffman_tables.md R202, R203, R205, R206): the codes the
builder lists, and the entry each 16-bit index looks up among them. -/

namespace Sys2Proof.Machine

open Sys2Proof.Claims

variable {s u : State} {len d l m n r x : Nat}

/-! ### Sums over the lengths -/

theorem symbolsBefore_succ (s : State) (d l : Nat) :
    symbolsBefore s d (l + 1) = symbolsBefore s d l + countOf s d (l + 1) := by
  rw [symbolsBefore, List.range_succ, List.map_append, List.sum_append, List.map_singleton, List.sum_singleton]
  rfl

theorem entriesBefore_succ (s : State) (d l : Nat) :
    entriesBefore s d (l + 1) = entriesBefore s d l + countOf s d (l + 1) * 2 ^ (15 - l) := by
  rw [entriesBefore, List.range_succ, List.map_append, List.sum_append, List.map_singleton, List.sum_singleton]
  rfl

theorem symbolsBefore_mono (h : l ≤ m) : symbolsBefore s d l ≤ symbolsBefore s d m :=
  monotone_nat_of_le_succ (fun l => symbolsBefore_succ s d l ▸ Nat.le_add_right ..) h

theorem entriesBefore_mono (h : l ≤ m) : entriesBefore s d l ≤ entriesBefore s d m :=
  monotone_nat_of_le_succ (fun l => entriesBefore_succ s d l ▸ Nat.le_add_right ..) h

theorem span_succ (l : Nat) : span (l + 1) = 2 ^ (15 - l) := congrArg (2 ^ ·) (Nat.add_sub_add_right 15 1 l)

/-- The code word of R202, filled up to 16 bits, is the number of entries the shorter codes fill (R206). -/
theorem firstCode_mul (h : l ≤ 15) : firstCode s d l * 2 ^ (15 - l) = entriesBefore s d l := by
  induction l with
  | zero => exact Nat.zero_mul _
  | succ l ih =>
    have hpow : 2 ^ (15 - l) = 2 * 2 ^ (15 - (l + 1)) := by
      rw [← Nat.pow_succ', Nat.succ_eq_add_one, show 15 - (l + 1) + 1 = 15 - l by omega]
    rw [entriesBefore_succ, ← ih (by omega), ← Nat.add_mul, hpow, ← Nat.mul_assoc, firstCode, Nat.mul_comm 2]

/-! ### The codes of a definition -/

/-- The codes of length `l + 1`, in order. -/
def codesOfLength (s : State) (d l : Nat) : HuffTable :=
  (List.range (countOf s d (l + 1))).map fun j =>
    ⟨l + 1, s.inMem.read (s.cursor + 2 + (d + 17 + symbolsBefore s d l + j))⟩

/-- The codes of length at most `l`, shorter ones first. -/
def codesBefore (s : State) (d : Nat) : Nat → HuffTable
  | 0 => []
  | l + 1 => codesBefore s d l ++ codesOfLength s d l

theorem codesBefore_prefix (h : l ≤ m) : codesBefore s d l <+: codesBefore s d m := by
  induction m, h using Nat.le_induction with
  | base => exact List.prefix_rfl
  | succ m _ ih => exact ih.trans (List.prefix_append ..)

/-- The builder, from length `l + 1` on, with the shorter codes placed (R203). -/
theorem buildCodes_from (hu : u.inMem = s.inMem) (hsymbols : definitionEnd s d ≤ len - 2)
    (hbudget : entriesBefore s d 16 ≤ 65536) (h : l + n = 16) :
    buildCodes (payloadAt s len) u ((List.range' l n).map fun j => countOf s d (j + 1)) (l + 1)
      (65536 - entriesBefore s d l) (d + 17 + symbolsBefore s d l) (codesBefore s d l) =
      .ok (codesBefore s d 16, definitionEnd s d) := by
  induction n generalizing l with
  | zero =>
    obtain rfl : l = 16 := h
    rfl
  | succ n ih =>
    have hnext := ih (l := l + 1) (by omega)
    have hsym : symbolsBefore s d (l + 1) ≤ symbolsBefore s d 16 := symbolsBefore_mono (by omega)
    have hent : entriesBefore s d (l + 1) ≤ entriesBefore s d 16 := entriesBefore_mono (by omega)
    have hsize : (payloadAt s len).size = len - 2 := rfl
    rw [definitionEnd] at hsymbols
    rw [symbolsBefore_succ, ← Nat.add_assoc] at hnext
    rw [symbolsBefore_succ] at hsym
    rw [entriesBefore_succ] at hnext hent
    rw [List.range'_succ, List.map_cons, buildCodes]
    split
    · next hzero =>
      rw [codesBefore, codesOfLength, hzero, List.range_zero, List.map_nil, List.append_nil, Nat.zero_mul] at hnext
      exact hnext
    · rw [if_neg (by omega), span_succ, if_neg (by omega), Nat.sub_sub]
      have hcodes : (List.range (countOf s d (l + 1))).map (fun j =>
          (⟨l + 1, (payloadAt s len).byte u (d + 17 + symbolsBefore s d l + j)⟩ : HuffCode)) = codesOfLength s d l := by
        simp only [Segment.byte, inRead, hu]
        rfl
      rw [hcodes]
      exact hnext

/-- A definition that fits is built (R203). -/
theorem buildCodes_definition (hu : u.inMem = s.inMem) (hf : DefinitionFits s (len - 2) d) :
    buildCodes (payloadAt s len) u (codeCounts (payloadAt s len) u d) 1 65536 (d + 17) [] =
      .ok (codesBefore s d 16, definitionEnd s d) := by
  have hcounts : codeCounts (payloadAt s len) u d = (List.range' 0 16).map fun j => countOf s d (j + 1) := by
    rw [codeCounts, List.range_eq_range']
    refine List.map_congr_left fun j _ => ?_
    rw [toNat_byte_payloadAt hu, countOf, Nat.add_assoc, Nat.add_comm 1]
  rw [hcounts]
  exact buildCodes_from hu hf.symbols hf.budget rfl

/-! ### Looking up -/

/-- The entries of the flat table that codes fill. -/
def entriesOf (t : HuffTable) : Nat := (t.map fun c => span c.len).sum

theorem entriesOf_append (t t' : HuffTable) : entriesOf (t ++ t') = entriesOf t + entriesOf t' := by
  rw [entriesOf, List.map_append, List.sum_append]
  rfl

theorem entriesOf_codesBefore : entriesOf (codesBefore s d l) = entriesBefore s d l := by
  induction l with
  | zero => rfl
  | succ l ih =>
    have hlength : entriesOf (codesOfLength s d l) = countOf s d (l + 1) * 2 ^ (15 - l) := by
      rw [entriesOf, codesOfLength, List.map_map, ← span_succ]
      show ((List.range (countOf s d (l + 1))).map fun _ => span (l + 1)).sum = _
      rw [List.map_const', List.length_range, List.sum_replicate, smul_eq_mul]
    rw [codesBefore, entriesOf_append, ih, hlength, entriesBefore_succ]

/-- An index past the entries some codes fill is looked up among the codes after them. -/
theorem lookupEntry_append {t : HuffTable} (t' : HuffTable) (h : entriesOf t ≤ x) :
    lookupEntry (t ++ t') x = lookupEntry t' (x - entriesOf t) := by
  induction t generalizing x with
  | nil => rfl
  | cons c rest ih =>
    have hsum : entriesOf (c :: rest) = span c.len + entriesOf rest := List.sum_cons
    rw [hsum] at h
    rw [List.cons_append, lookupEntry, if_neg (by omega), ih (by omega), hsum, Nat.sub_sub]

/-- Among codes of one length the index's quotient by their span picks the code. -/
theorem lookupEntry_uniform (sym : Nat → Byte) (t : HuffTable) (hr : r < n) (hx : x / span l = r) :
    lookupEntry ((List.range n).map (fun j => ⟨l, sym j⟩) ++ t) x = (l, sym r) := by
  have hspan : 0 < span l := Nat.two_pow_pos _
  induction n generalizing r x sym with
  | zero => exact absurd hr (Nat.not_lt_zero r)
  | succ n ih =>
    rw [List.range_succ_eq_map, List.map_cons, List.map_map, List.cons_append, lookupEntry]
    cases r with
    | zero => rw [if_pos ((Nat.div_eq_zero_iff_lt hspan).1 hx)]
    | succ r =>
      have hle : span l ≤ x := by
        refine Nat.le_of_not_lt fun hlt => ?_
        rw [Nat.div_eq_of_lt hlt] at hx
        exact absurd hx nofun
      rw [if_neg (Nat.not_lt.2 hle)]
      refine ih (sym ∘ Nat.succ) (Nat.lt_of_succ_lt_succ hr) ?_
      rw [Nat.div_eq_sub_div hspan hle] at hx
      exact Nat.succ.inj hx

/-- An index that begins with the r-th code word of a length holds that length and that symbol (R205, R206). -/
theorem lookupEntry_codesBefore (hl : l < 16) (hr : r < countOf s d (l + 1))
    (hx : x / 2 ^ (15 - l) = firstCode s d l + r) : lookupEntry (codesBefore s d 16) x =
      (l + 1, s.inMem.read (s.cursor + 2 + (d + 17 + symbolsBefore s d l + r))) := by
  obtain ⟨rest, hrest⟩ := codesBefore_prefix (s := s) (d := d) (show l + 1 ≤ 16 from hl)
  have hfirst : 2 ^ (15 - l) * firstCode s d l = entriesBefore s d l := by
    rw [Nat.mul_comm, firstCode_mul (by omega)]
  have hle : entriesBefore s d l ≤ x := by
    rw [← hfirst, Nat.mul_comm]
    exact Nat.mul_le_of_le_div _ _ _ (by omega)
  rw [← hrest, codesBefore, List.append_assoc, lookupEntry_append _ (entriesOf_codesBefore.trans_le hle),
    entriesOf_codesBefore]
  refine lookupEntry_uniform (fun j => s.inMem.read (s.cursor + 2 + (d + 17 + symbolsBefore s d l + j))) rest hr ?_
  rw [span_succ, ← hfirst, Nat.sub_mul_div, hx, Nat.add_sub_cancel_left]

/-- Every index past the last code word is invalid (R203). -/
theorem lookupEntry_past (h : entriesBefore s d 16 ≤ x) : lookupEntry (codesBefore s d 16) x = (0, 0) := by
  rw [← List.append_nil (codesBefore s d 16), lookupEntry_append [] (entriesOf_codesBefore.trans_le h)]
  rfl

end Sys2Proof.Machine
end

section
/-! PROOF. DHT (41_segment_parser.md R159): the slots after any number of whole definitions. -/

namespace Sys2Proof.Machine

open Sys2Proof.Claims

variable {s : State} {g : Segment} {u : State} {len d i j n fuel : Nat} {ds : List Nat}

/-! ### The definitions one after another -/

/-- The slot the definition at payload position `d` names (R200). -/
def slotAt (s : State) (d : Nat) : Fin 4 := slotOf (s.inMem.read (s.cursor + 2 + d))

/-- The four legal control bytes pass the checks of R159 and name the slots of R200. -/
theorem control_legal : ∀ v : Byte, v.toNat = 0x00 ∨ v.toNat = 0x01 ∨ v.toNat = 0x10 ∨ v.toNat = 0x11 →
    v &&& 0xEC = 0 ∧ v &&& 0x02 = 0 ∧ (slotOf v).val = 2 * (v.toNat / 16) + v.toNat % 2 := by decide

theorem val_slotAt (h : legalControl (payload s d)) : (slotAt s d).val = slotNumber (payload s d) := by
  obtain ⟨-, -, hslot⟩ := control_legal _ h
  exact hslot

/-- The slots with a definition's table in its place, the whole slot replaced (R203). -/
def withTable (s : State) (ht : Quad HuffTable) (d : Nat) : Quad HuffTable := ht.set (slotAt s d) (codesBefore s d 16)

/-- CURSOR past the segment, with these slots. -/
def withSlotTables (s : State) (len : Nat) (ht : Quad HuffTable) : State :=
  { s with cursor := s.cursor + len, ht := ht }

theorem parseDefinitions_definition (ht : Quad HuffTable) (hf : DefinitionFits s (len - 2) d) :
    parseDefinitions (fuel + 1) (payloadAt s len) d (withSlotTables s len ht) =
      parseDefinitions fuel (payloadAt s len) (definitionEnd s d) (withSlotTables s len (withTable s ht d)) := by
  obtain ⟨hreserved, hunsupported, -⟩ := control_legal (s.inMem.read (s.cursor + 2 + d)) hf.control
  have hheader := hf.header
  have hsize : (payloadAt s len).size = len - 2 := rfl
  have hbuild := buildCodes_definition (s := s) (u := withSlotTables s len ht) rfl hf
  rw [parseDefinitions, if_neg (by omega), if_neg (by omega)]
  refine (if_neg (not_not.2 hreserved)).trans ((if_neg (not_not.2 hunsupported)).trans ?_)
  rw [buildTable, hbuild]
  rfl

theorem parseDefinitions_definitions (ht : Quad HuffTable) (hds : Definitions s (len - 2) i ds j) :
    parseDefinitions (ds.length + fuel) (payloadAt s len) i (withSlotTables s len ht) =
      parseDefinitions fuel (payloadAt s len) j (withSlotTables s len (ds.foldl (withTable s) ht)) := by
  induction ds generalizing i ht with
  | nil =>
    obtain rfl : i = j := hds
    rw [List.length_nil, Nat.zero_add, List.foldl_nil]
  | cons d rest ih =>
    obtain ⟨rfl, hf, hrest⟩ := hds
    rw [List.length_cons, Nat.add_right_comm, parseDefinitions_definition ht hf, ih _ hrest, List.foldl_cons]

/-- Each definition takes at least its header's bytes. -/
theorem definitions_length_le (hds : Definitions s n i ds j) : i + 17 * ds.length ≤ j := by
  induction ds generalizing i with
  | nil => exact Nat.le_of_eq hds
  | cons d rest ih =>
    obtain ⟨rfl, -, hrest⟩ := hds
    have hle := ih hrest
    rw [definitionEnd] at hle
    rw [List.length_cons]
    omega

theorem definitions_legal (hds : Definitions s n i ds j) : ∀ d ∈ ds, legalControl (payload s d) := by
  induction ds generalizing i with
  | nil => exact nofun
  | cons d rest ih =>
    obtain ⟨rfl, hf, hrest⟩ := hds
    exact List.forall_mem_cons.2 ⟨hf.control, ih hrest⟩

theorem parseDht_at (hseg : SegmentAt s len) (hds : Definitions s (len - 2) 0 ds j) (hj : j ≤ len - 2) : parseDht s =
    parseDefinitions (len - 2 - ds.length) (payloadAt s len) j
      (withSlotTables s len (ds.foldl (withTable s) s.ht)) := by
  have hlength := definitions_length_le hds
  rw [parseDht, readSegment_at_bind hseg, ← parseDefinitions_definitions s.ht hds, Nat.add_sub_of_le (by omega)]
  rfl

theorem parseDefinitions_end (h : g.size ≤ i) : parseDefinitions fuel g i u = .ok u := by
  cases fuel with
  | zero => rfl
  | succ fuel => rw [parseDefinitions, if_pos h]

/-! ### What the slots hold -/

/-- A slot no definition names is as before. -/
theorem get_foldl_withTable_unnamed {slot : Fin 4} (ht : Quad HuffTable) (h : ∀ d ∈ ds, slot ≠ slotAt s d) :
    (ds.foldl (withTable s) ht).get slot = ht.get slot := by
  induction ds generalizing ht with
  | nil => rfl
  | cons d rest ih =>
    obtain ⟨hd, hrest⟩ := List.forall_mem_cons.1 h
    rw [List.foldl_cons, ih _ hrest, withTable, Quad.get_set_other _ _ hd]

/-- A slot holds the table of the last definition that names it. -/
theorem get_foldl_withTable_last (pre post : List Nat) (ht : Quad HuffTable)
    (h : ∀ d' ∈ post, slotAt s d ≠ slotAt s d') :
    ((pre ++ d :: post).foldl (withTable s) ht).get (slotAt s d) = codesBefore s d 16 := by
  rw [List.foldl_append, List.foldl_cons, get_foldl_withTable_unnamed _ h, withTable, Quad.get_set_same]

end Sys2Proof.Machine

open Sys2Proof Sys2Proof.Machine Sys2Proof.Claims

/-- Settles O18: the definitions are built one after another, and a slot's last table answers as its code words say. -/
theorem dhtBuildsTheCanonicalTables : Obligations.DhtBuildsTheCanonicalTables := by
  intro s len ds hseg hds
  have hlegal := definitions_legal hds
  have hparse := (parseDht_at hseg hds (Nat.le_refl _)).trans (parseDefinitions_end (Nat.le_refl _))
  refine ⟨_, exec_goes_on (i := .dht) rfl hparse, rfl, fun pre d post hsplit hlast slot hslot => ?_,
    fun slot hun => ?_, rfl⟩
  · subst hsplit
    have hmem : d ∈ pre ++ d :: post := List.mem_append_right pre List.mem_cons_self
    obtain rfl : slot = slotAt s d := Fin.ext (hslot.trans (val_slotAt (hlegal d hmem)).symm)
    have hget := get_foldl_withTable_last pre post s.ht fun d' hd' heq => hlast d' hd' <| by
      have hmem' : d' ∈ pre ++ d :: post := List.mem_append_right pre (List.mem_cons_of_mem d hd')
      rw [← val_slotAt (hlegal d' hmem'), ← heq, hslot]
    refine ⟨fun l r x hl hr _ hx => ?_, fun x hx _ => ?_⟩
    · exact (congrArg (lookupEntry · x) hget).trans (lookupEntry_codesBefore hl hr hx)
    · exact (congrArg (lookupEntry · x) hget).trans (lookupEntry_past hx)
  · exact get_foldl_withTable_unnamed s.ht fun d hd heq =>
      hun d hd ((congrArg Fin.val heq).trans (val_slotAt (hlegal d hd)))
end

section
/-! PROOF. DHT (41_segment_parser.md R159, 42_huffman_tables.md R203, R204): the definition at which the payload goes wrong,
after any number of whole ones. -/

namespace Sys2Proof.Machine

open Sys2Proof.Claims

variable {s u : State} {g : Segment} {k : ErrCode} {len d i l n fuel : Nat} {ds : List Nat}

/-! ### A definition the builder refuses -/

theorem codeCounts_payloadAt (hu : u.inMem = s.inMem) :
    codeCounts (payloadAt s len) u d = (List.range' 0 16).map fun j => countOf s d (j + 1) := by
  rw [codeCounts, List.range_eq_range']
  refine List.map_congr_left fun j _ => ?_
  rw [toNat_byte_payloadAt hu, countOf, Nat.add_right_comm, Nat.add_assoc]

/-- If the builder places the codes from length `l + 1` on, all symbols lie in the payload and all codes in the table:
each length it places passes both checks of R203, and one without codes needs neither. -/
theorem fits_of_buildCodes_from {placed : HuffTable} {p : HuffTable × Nat}
    (hsymbols : d + 17 + symbolsBefore s d l ≤ len - 2) (hbudget : entriesBefore s d l ≤ 65536) (h : l + n = 16)
    (hok : buildCodes (payloadAt s len) u ((List.range' l n).map fun j => countOf s d (j + 1)) (l + 1)
      (65536 - entriesBefore s d l) (d + 17 + symbolsBefore s d l) placed = .ok p) :
    definitionEnd s d ≤ len - 2 ∧ entriesBefore s d 16 ≤ 65536 := by
  induction n generalizing l placed with
  | zero =>
    obtain rfl : l = 16 := h
    exact ⟨hsymbols, hbudget⟩
  | succ n ih =>
    have hnext := @ih (l + 1)
    have hsize : (payloadAt s len).size = len - 2 := rfl
    rw [symbolsBefore_succ, entriesBefore_succ, ← Nat.add_assoc] at hnext
    rw [List.range'_succ, List.map_cons, buildCodes, span_succ] at hok
    split at hok
    · next hzero =>
      rw [hzero, Nat.zero_mul] at hnext
      exact hnext hsymbols hbudget (by omega) hok
    · split at hok
      · cases hok
      · split at hok
        · cases hok
        · rw [Nat.sub_sub] at hok
          exact hnext (by omega) (by omega) (by omega) hok

/-- Symbols that run past the payload, or an over-subscribed code set, are a SyntaxError (R203, R204). -/
theorem buildCodes_bad (hu : u.inMem = s.inMem) (hroom : d + 17 ≤ len - 2)
    (hbad : len - 2 < definitionEnd s d ∨ 65536 < entriesBefore s d 16) :
    buildCodes (payloadAt s len) u (codeCounts (payloadAt s len) u d) 1 65536 (d + 17) [] =
      .error ⟨.syntaxError, u⟩ := by
  rcases hb : buildCodes (payloadAt s len) u (codeCounts (payloadAt s len) u d) 1 65536 (d + 17) [] with e | p
  · rw [buildCodes_error hb]
  · rw [codeCounts_payloadAt hu] at hb
    obtain ⟨hsymbols, hbudget⟩ := fits_of_buildCodes_from (l := 0) hroom (Nat.zero_le _) rfl hb
    omega

/-! ### The checks of one definition -/

theorem parseDefinitions_short (hi : i < g.size) (hshort : g.size < i + 17) :
    parseDefinitions (fuel + 1) g i u = .error ⟨.syntaxError, u⟩ := by
  rw [parseDefinitions, if_neg (by omega), if_pos (by omega)]

/-- With its 17 bytes there, a definition has its control byte and then its codes to pass (R159). -/
theorem parseDefinitions_of_room (hroom : i + 17 ≤ g.size) : parseDefinitions (fuel + 1) g i u =
    if g.byte u i &&& 0xEC ≠ 0 then .error ⟨.syntaxError, u⟩
    else if g.byte u i &&& 0x02 ≠ 0 then .error ⟨.unsupportedError, u⟩
    else buildTable (slotOf (g.byte u i)) (codeCounts g u i) g (i + 17) u >>= fun p =>
      parseDefinitions fuel g p.2 p.1 := by
  rw [parseDefinitions, if_neg (by omega), if_neg (by omega)]

/-- A mask clears the control byte exactly when it clears the number the statements read. -/
theorem and_byte_payloadAt (hu : u.inMem = s.inMem) (mask : Byte) :
    (payloadAt s len).byte u i &&& mask = 0 ↔ payload s i &&& mask.toNat = 0 := by
  rw [BitVec.toNat_eq, BitVec.toNat_and, toNat_byte_payloadAt hu]
  rfl

theorem parseDefinitions_reserved (hu : u.inMem = s.inMem) (hroom : i + 17 ≤ len - 2)
    (hreserved : payload s i &&& 0xEC ≠ 0) :
    parseDefinitions (fuel + 1) (payloadAt s len) i u = .error ⟨.syntaxError, u⟩ := by
  rw [parseDefinitions_of_room hroom, if_pos (mt (and_byte_payloadAt hu _).1 hreserved)]

theorem parseDefinitions_unsupported (hu : u.inMem = s.inMem) (hroom : i + 17 ≤ len - 2)
    (hclear : payload s i &&& 0xEC = 0) (hbit : payload s i &&& 0x02 ≠ 0) :
    parseDefinitions (fuel + 1) (payloadAt s len) i u = .error ⟨.unsupportedError, u⟩ := by
  rw [parseDefinitions_of_room hroom, if_neg (not_not.2 ((and_byte_payloadAt hu _).2 hclear)),
    if_pos (mt (and_byte_payloadAt hu _).1 hbit)]

theorem parseDefinitions_refused (hu : u.inMem = s.inMem) (hroom : i + 17 ≤ len - 2)
    (hlegal : legalControl (payload s i)) (hbad : len - 2 < definitionEnd s i ∨ 65536 < entriesBefore s i 16) :
    parseDefinitions (fuel + 1) (payloadAt s len) i u = .error ⟨.syntaxError, u⟩ := by
  rw [← toNat_byte_payloadAt (len := len) hu] at hlegal
  obtain ⟨hreserved, hunsupported, -⟩ := control_legal _ hlegal
  rw [parseDefinitions_of_room hroom, if_neg (not_not.2 hreserved), if_neg (not_not.2 hunsupported), buildTable,
    buildCodes_bad hu hroom hbad]
  rfl

/-! ### After whole definitions -/

/-- What the definition after whole ones raises, whatever they left in the slots, ends the decode. -/
theorem endsWith_of_parseDefinitions (hseg : SegmentAt s len) (hds : Definitions s (len - 2) 0 ds i)
    (hi : i < len - 2)
    (he : ∀ (fuel : Nat) (u : State), u.inMem = s.inMem →
      parseDefinitions (fuel + 1) (payloadAt s len) i u = .error ⟨k, u⟩)
    (hk : k ≠ .ok := by decide) : EndsWith .dht s k := by
  have hlength := definitions_length_le hds
  obtain ⟨fuel, hfuel⟩ : ∃ fuel, len - 2 - ds.length = fuel + 1 := ⟨len - 2 - ds.length - 1, by omega⟩
  have hparse := parseDht_at hseg hds (Nat.le_of_lt hi)
  rw [hfuel] at hparse
  exact endsWith_of_raises (i := .dht) rfl (hparse.trans (he fuel _ rfl)) rfl hk

end Sys2Proof.Machine

open Sys2Proof Sys2Proof.Machine Sys2Proof.Claims

/-- Settles O19: each case is the first check that the definition after the whole ones fails. -/
theorem dhtRejectsBadDefinitions : Obligations.DhtRejectsBadDefinitions := by
  intro s len i ds hseg hds hi
  refine ⟨fun hshort => ?_, fun hroom hreserved => ?_, fun hroom hclear hbit => ?_, fun hroom hlegal hbad => ?_⟩ <;>
    refine endsWith_of_parseDefinitions hseg hds hi fun fuel u hu => ?_
  · exact parseDefinitions_short hi hshort
  · exact parseDefinitions_reserved hu hroom hreserved
  · exact parseDefinitions_unsupported hu hroom hclear hbit
  · exact parseDefinitions_refused hu hroom hlegal hbad
end

section
/-! PROOF. The bit reader (43_bitreader.md): what a byte form adds, what `get(k)` reads, and the byte form a step of a
lookahead runs. -/

namespace Sys2Proof.Machine

open Sys2Proof.Claims

variable {s u : State} {fuel k a : Nat}

/-! ### The refill -/

/-- More fuel changes nothing where the fuel is enough: each fetch adds at least eight bits (R239). -/
theorem fillBits_succ_fuel (hk : k ≤ s.reader.nb + 8 * fuel) : fillBits (fuel + 1) k s = fillBits fuel k s := by
  induction fuel generalizing s with
  | zero => rw [fillBits_of_held (by omega), fillBits_of_held (by omega)]
  | succ fuel ih =>
    rw [fillBits, fillBits]
    split
    · rcases hf : fetchByte s with e | u
      · rfl
      · have hbits := fetchByte_bits hf
        exact ih (by omega)
    · rfl

/-- A refill with too few bits held is a fetch and the same refill after it. -/
theorem fillBits_fetches_first (hk : s.reader.nb < k) : fillBits k k s = fetchByte s >>= fillBits k k := by
  obtain ⟨fuel, rfl⟩ : ∃ fuel, k = fuel + 1 := ⟨k - 1, by omega⟩
  rw [fillBits, if_pos hk]
  rcases hf : fetchByte s with e | u
  · rfl
  · have hbits := fetchByte_bits hf
    exact (fillBits_succ_fuel (s := u) (by omega)).symm

theorem getBits_fetches_first (hk : s.reader.nb < k) : getBits k s = fetchByte s >>= getBits k := by
  rw [getBits, showBits, fillBits_fetches_first hk]
  cases fetchByte s <;> rfl

/-! ### The fetch -/

theorem fetchByte_of_end (h : readerAtEnd s = true) : fetchByte s = .ok (pushByte 0xFF s) := by
  rw [fetchByte, if_pos h]

theorem fetchByte_of_not_end (h : readerAtEnd s = false) : fetchByte s = takeForm s >>= fun p => ecsEffect p.1 p.2 := by
  rw [fetchByte, h]
  rfl

theorem readerAtEnd_iff : readerAtEnd s = true ↔ s.reader.exhausted = true ∨ s.len ≤ s.reader.rcur := by
  rw [readerAtEnd, Bool.or_eq_true, decide_eq_true_eq]

theorem readerAtEnd_of_below (hx : s.reader.exhausted = false) (h : s.reader.rcur < s.len) : readerAtEnd s = false := by
  rw [readerAtEnd, hx, decide_eq_false (by omega)]
  rfl

/-- Below LEN the first byte is read. -/
theorem inBytes_head (h : a < s.len) : ∃ rest, inBytes s a 2 = s.inMem.read a :: rest := by
  obtain ⟨n, hn⟩ : ∃ n, min 2 (s.len - a) = n + 1 := ⟨min 2 (s.len - a) - 1, by omega⟩
  rw [inBytes, hn, Memory.readBytes, List.range_succ_eq_map]
  exact ⟨_, rfl⟩

theorem inBytes_last (h : a + 1 = s.len) : inBytes s a 2 = [s.inMem.read a] := by
  rw [inBytes, show min 2 (s.len - a) = 1 by omega]
  rfl

/-- Any byte but `FF` is a form of one byte (R231). -/
theorem takeForm_byte (h : s.reader.rcur < s.len) (hff : s.inMem.read s.reader.rcur ≠ 0xFF) : takeForm s =
    .ok (.data (s.inMem.read s.reader.rcur), { s with reader := { s.reader with rcur := s.reader.rcur + 1 } }) := by
  obtain ⟨rest, hb⟩ := inBytes_head h
  have hd : decodeEcs (inBytes s s.reader.rcur 2) = .ok (.data (s.inMem.read s.reader.rcur), rest) := by
    rw [hb]
    exact if_neg hff
  rw [takeForm, hd]
  rfl

/-- An `FF` with a byte after it below LEN is a form of two bytes (R233 to R237). -/
theorem takeForm_pair (h : s.reader.rcur + 1 < s.len) (hff : s.inMem.read s.reader.rcur = 0xFF) :
    takeForm s = .ok (ecsPair (s.inMem.read (s.reader.rcur + 1)),
      { s with reader := { s.reader with rcur := s.reader.rcur + 2 } }) := by
  have hd : decodeEcs (inBytes s s.reader.rcur 2) = .ok (ecsPair (s.inMem.read (s.reader.rcur + 1)), []) := by
    rw [inBytes_pair (by omega), hff]
    rfl
  rw [takeForm, hd]
  dsimp only
  rw [length_encode_ecsPair]

/-- An `FF` at LEN - 1 is no form (R238). -/
theorem takeForm_last (h : s.reader.rcur + 1 = s.len) (hff : s.inMem.read s.reader.rcur = 0xFF) :
    ∃ e, takeForm s = .error e := by
  have hd : decodeEcs (inBytes s s.reader.rcur 2) = .error .truncated := by
    rw [inBytes_last h, hff]
    rfl
  rw [takeForm, hd]
  exact ⟨_, rfl⟩

/-! ### The turn of a lookahead -/

/-- With fewer than 16 bits held a symbol's turn is one fetch, before DC and AC symbols alike (R239). -/
theorem step_lookahead (hm : EngineMoves s) (hp : s.phase = .decodingMcu) (hs : s.scan.step ≠ .idct)
    (hn : s.reader.nb < 16) : step s = settle (fetchByte s) := by
  have hsymbol (f : Format) (slot : Fin 4) : (fetchSymbol f slot s).outcome = settle (fetchByte s) := by
    rw [fetchSymbol, if_pos hn, outcome_fetchForm]
  rw [step_eq, fetch_engine hm.quiet, engineTurn, hm.kept, hp]
  cases hstep : s.scan.step with
  | dc => exact hsymbol ..
  | ac => exact hsymbol ..
  | idct => exact absurd hstep hs

/-- The fetch of a byte form is the form's instruction run past its bytes. -/
theorem settle_fetchByte_form {f : EcsForm} (h : readerAtEnd s = false) (hf : takeForm s = .ok (f, u)) :
    settle (fetchByte s) = exec f.toInstr u := by
  rw [fetchByte_of_not_end h, hf, exec_form]
  rfl

/-- A fetch raises only SyntaxError, and the error ends the decode. -/
theorem settle_fetchByte_error {e : Abort} (h : fetchByte s = .error e) :
    settle (fetchByte s) = .next (errorEnd e.kind e.state) ∧ e.kind = .syntaxError := by
  have hkind : e.kind = .syntaxError := by
    rcases fetchByte_result s with ⟨t, ht, -⟩ | ⟨t, ht, -⟩
    · rw [h] at ht; cases ht
    · rw [h] at ht; cases ht; rfl
  rw [h, settle_error, raiseError_eq_errorEnd (by rw [hkind]; decide)]
  exact ⟨rfl, hkind⟩

/-! ### The bytes of a restart marker -/

/-- The second byte of `FF Dn` as a number (R236). -/
theorem rst_byte_eq : ∀ n : BitVec 3, 0b11010#5 ++ n = BitVec.ofNat 8 (0xD0 + n.toNat) := by decide

end Sys2Proof.Machine

open Sys2Proof Sys2Proof.Machine

/-- Settles O27: bits held are read at once, and otherwise the refill begins with the fetch. -/
theorem getReadsTheNextBits : Obligations.GetReadsTheNextBits := by
  intro s k _
  refine ⟨getBits_of_held, fun hk => ⟨fun u hu => ?_, fun e he => ?_⟩⟩
  · rw [getBits_fetches_first hk, hu]
    rfl
  · rw [getBits_fetches_first hk, he]
    rfl

/-- Settles O6: the turn is one fetch, and each case is the form the fetch takes. -/
theorem stepRunsTheByteFormAtRcur : Obligations.StepRunsTheByteFormAtRcur := by
  intro s hm hp hs hn
  rw [step_lookahead hm hp hs hn]
  refine ⟨fun hend => ?_, fun hx hlt hff => ?_, fun f hx hlt hff hf => ?_, fun hx hlast hff => ?_, fun u hu => ?_,
    fun e he => (settle_fetchByte_error he).1⟩
  · rw [fetchByte_of_end (readerAtEnd_iff.2 hend)]
    rfl
  · exact settle_fetchByte_form (readerAtEnd_of_below hx hlt) (takeForm_byte hlt hff)
  · subst hf
    exact settle_fetchByte_form (readerAtEnd_of_below hx (by omega)) (takeForm_pair hlt hff)
  · obtain ⟨e, he⟩ := takeForm_last hlast hff
    have hfetch : fetchByte s = .error e := by
      rw [fetchByte_of_not_end (readerAtEnd_of_below hx (by omega)), he]
      rfl
    obtain ⟨hsettle, hkind⟩ := settle_fetchByte_error hfetch
    exact ⟨_, hsettle, hkind, (by decide : Status.word ⟨true, false, true, true⟩ = 0xD)⟩
  · rw [hu, settle_ok]

/-- Settles O26: each form goes on with its bytes pushed; a restart marker's second byte is the one of its number. -/
theorem byteFormsFillTheAccumulator : Obligations.ByteFormsFillTheAccumulator := by
  intro s b n
  refine ⟨exec_goes_on (i := .ecsData b) rfl rfl, exec_goes_on (i := .ecsStuff) rfl rfl,
    exec_goes_on (i := .ecsFill) rfl rfl, exec_goes_on (i := .ecsEnd) rfl rfl, ?_⟩
  rw [← rst_byte_eq n]
  exact exec_goes_on (i := .ecsRst n) (r := ecsRstEffect n s) rfl rfl
end

section
/-! PROOF. The symbols of a block (44_block_decoder.md): 32-bit words as wrapped integers, the value bits that follow a
symbol, the coefficient a symbol places, and the symbol a step looks up. -/

namespace Sys2Proof.Machine

open Sys2Proof.Claims

variable {s u : State} {i : Instr} {run size n : Nat} {sym : Byte} {slot : Fin 4} {f : Format}

/-! ### Words as wrapped integers -/

/-- A sum of words is the sum of the integers modulo 2^32 (00_scope.md R9, R265). -/
theorem add_wrap32 (w : Word) (x : Int) : w + wrap32 x = wrap32 (w.toInt + x) := by
  rw [wrap32, wrap32, BitVec.ofInt_add, BitVec.ofInt_toInt]

/-- The signed value of raw bits, which the core keeps as a word, wraps the integer of R261. -/
theorem extendValue_eq_wrap32 (size raw : Nat) : extendValue size raw = wrap32 (signedValue size raw) := by
  unfold extendValue signedValue
  split
  · rfl
  · split
    · rfl
    · exact (BitVec.ofInt_natCast ..).symm

theorem quantAt_eq_wrap32 (s : State) (j : Nat) : quantAt s j = wrap32 (factor s j) := by
  rw [wrap32, BitVec.ofInt_natCast, factor, BitVec.ofNat_toNat]
  rfl

/-- Dequantisation is the product of the integers modulo 2^32 (R266, R274). -/
theorem wrap32_mul_quantAt (x : Int) (s : State) (j : Nat) : wrap32 x * quantAt s j = wrap32 (x * factor s j) := by
  rw [quantAt_eq_wrap32, wrap32, wrap32, wrap32, BitVec.ofInt_mul]

theorem mul_quantAt (w : Word) (s : State) (j : Nat) : w * quantAt s j = wrap32 (w.toInt * factor s j) := by
  rw [← wrap32_mul_quantAt, wrap32, BitVec.ofInt_toInt]

/-- No value bits stand for 0, whatever it is multiplied by (R261, R269). -/
theorem wrap32_no_value_bits (raw : Nat) (q : Int) : wrap32 (signedValue 0 raw * q) = 0 := by
  rw [signedValue, if_pos rfl, zero_mul]
  rfl

/-! ### Value bits -/

theorem receiveExtend_of_held (h : size ≤ s.reader.nb) : receiveExtend size s =
    .ok (wrap32 (signedValue size (heldBits s.reader size)), { s with reader := consumed s.reader size }) := by
  unfold receiveExtend
  split
  · next hz =>
    subst hz
    rfl
  · rw [getBits_of_held h, ← extendValue_eq_wrap32]
    rfl

theorem receiveExtend_fetches_first (h : s.reader.nb < size) :
    receiveExtend size s = fetchByte s >>= receiveExtend size := by
  have hz : size ≠ 0 := by omega
  unfold receiveExtend
  simp only [if_neg hz]
  rw [getBits_fetches_first h, bind_assoc]

/-- The instruction reads `size` value bits first, and what it goes on to depends on its state only through them. -/
def ReadsValueBits (i : Instr) (size : Nat) : Prop :=
  ∃ rest : Word × State → Except Abort State, ∀ s, exec i s = settle (receiveExtend size s >>= rest)

theorem readsValueBits_dcDiff (size ignored : BitVec 4) : ReadsValueBits (.dcDiff size ignored) size.toNat :=
  ⟨_, fun _ => rfl⟩

theorem readsValueBits_acRunVal (run size : BitVec 4) : ReadsValueBits (.acRunVal run size) size.toNat :=
  ⟨_, fun _ => rfl⟩

/-- With too few bits held such an instruction does what it does after the fetch (43_bitreader.md R239). -/
theorem exec_fetches_first (hi : ReadsValueBits i size) (h : s.reader.nb < size) (hu : fetchByte s = .ok u) :
    exec i s = exec i u := by
  obtain ⟨rest, hrest⟩ := hi
  rw [hrest, hrest, receiveExtend_fetches_first h, hu]
  rfl

theorem exec_raises_fetch_error (hi : ReadsValueBits i size) (h : s.reader.nb < size)
    (hu : fetchByte s = .error ⟨.syntaxError, u⟩) : exec i s = .next (errorEnd .syntaxError u) := by
  obtain ⟨rest, hrest⟩ := hi
  refine exec_raises (hrest s) ?_
  rw [receiveExtend_fetches_first h, hu]
  rfl

/-! ### The coefficients -/

/-- DC_DIFF stores the predictor after the difference, and its product with q[0] (R265, R266). -/
theorem storeDc_wrap32 (x : Int) (s : State) : storeDc (wrap32 x) s = { s with
    ch := s.ch.set s.scan.chan { current s with pred := wrap32 ((current s).pred.toInt + x) }
    blk := Grid.put s.blk 0 (wrap32 ((wrap32 ((current s).pred.toInt + x)).toInt * factor s 0))
    k := 0
    scan := { s.scan with step := .ac } } := by
  rw [← mul_quantAt, ← add_wrap32]
  rfl

/-- A coefficient goes to its natural place, and the one at index 63 ends the block (R273, R274). -/
theorem storeAc_wrap32 (x : Int) (s : State) : storeAc (wrap32 x) s = { s with
    blk := Grid.put s.blk (zz s.k) (wrap32 (x * factor s (zz s.k)))
    scan := { s.scan with step := if s.k = 63 then .idct else s.scan.step } } := by
  rw [← wrap32_mul_quantAt]
  unfold storeAc
  dsimp only
  split <;> rfl

/-- The index past the run decides: a coefficient placed there, or an error once the value bits are read (R272). -/
theorem runValue_of_held (h : size ≤ s.reader.nb) : runValue run size s =
    if 63 < s.k + run + 1 then
      .error ⟨.syntaxError, { s with reader := consumed s.reader size, k := s.k + run + 1 }⟩
    else .ok (storeAc (wrap32 (signedValue size (heldBits s.reader size)))
      { s with reader := consumed s.reader size, k := s.k + run + 1 }) := by
  rw [runValue, receiveExtend_of_held h]
  rfl

theorem runValue_places (h : size ≤ s.reader.nb) (hk : s.k + run + 1 ≤ 63) : runValue run size s = .ok { s with
    reader := consumed s.reader size
    k := s.k + run + 1
    blk := Grid.put s.blk (zz (s.k + run + 1))
      (wrap32 (signedValue size (heldBits s.reader size) * factor s (zz (s.k + run + 1))))
    scan := { s.scan with step := if s.k + run + 1 = 63 then .idct else s.scan.step } } := by
  rw [runValue_of_held h, if_neg (Nat.not_lt.2 hk), storeAc_wrap32]
  rfl

theorem runValue_overflows (h : size ≤ s.reader.nb) (hk : 63 < s.k + run + 1) : runValue run size s =
    .error ⟨.syntaxError, { s with reader := consumed s.reader size, k := s.k + run + 1 }⟩ := by
  rw [runValue_of_held h, if_pos hk]

/-! ### The symbol looked up -/

/-- The engine's own step inside a block looks in the current channel's slot for the part it is in (R260). -/
theorem step_dc (hm : EngineMoves s) (hp : s.phase = .decodingMcu) (hs : s.scan.step = .dc) :
    step s = (fetchSymbol .dcSym8 (current s).dcSlot s).outcome := by
  rw [step_eq, fetch_engine hm.quiet, engineTurn, hm.kept, hp, hs]
  rfl

theorem step_ac (hm : EngineMoves s) (hp : s.phase = .decodingMcu) (hs : s.scan.step = .ac) :
    step s = (fetchSymbol .acSym8 (current s).acSlot s).outcome := by
  rw [step_eq, fetch_engine hm.quiet, engineTurn, hm.kept, hp, hs]
  rfl

theorem huffTake_eq (h : lookupEntry (s.ht.get slot) (heldBits s.reader 16) = (n, sym)) : huffTake slot s =
    if n = 0 then .error ⟨.syntaxError, s⟩ else .ok (sym, { s with reader := consumed s.reader n }) := by
  have htop : lookupEntry (s.ht.get slot) (topBits s.reader 16) = (n, sym) := h
  rw [huffTake, htop]
  rfl

/-- A valid entry's symbol runs past its code word. -/
theorem outcome_fetchSymbol_found {tail : List Byte} (hb : 16 ≤ s.reader.nb)
    (h : lookupEntry (s.ht.get slot) (heldBits s.reader 16) = (n, sym)) (hn : n ≠ 0)
    (hd : decode f [sym] = .ok (i, tail)) :
    (fetchSymbol f slot s).outcome = exec i { s with reader := consumed s.reader n } := by
  rw [fetchSymbol, if_neg (Nat.not_lt.2 hb), huffTake_eq h, if_neg hn]
  exact outcome_runDecoded_ok _ hd

theorem outcome_fetchSymbol_invalid (hb : 16 ≤ s.reader.nb)
    (h : lookupEntry (s.ht.get slot) (heldBits s.reader 16) = (n, sym)) (hn : n = 0) :
    (fetchSymbol f slot s).outcome = .next (errorEnd .syntaxError s) := by
  rw [fetchSymbol, if_neg (Nat.not_lt.2 hb), huffTake_eq h, if_pos hn]
  rfl

end Sys2Proof.Machine

open Sys2Proof Sys2Proof.Machine

/-- Settles O28: the value bits held are the wrapped difference, which the DC's store takes. -/
theorem dcDiffUpdatesThePredictor : Obligations.DcDiffUpdatesThePredictor := by
  intro s size ignored h
  refine exec_goes_on (r := receiveExtend size.toNat s >>= fun p => .ok (storeDc p.1 p.2)) rfl ?_
  rw [receiveExtend_of_held h]
  exact congrArg Except.ok (storeDc_wrap32 ..)

/-- Settles O29: by the index past the run, the coefficient is placed or the block overflows. -/
theorem acRunValPlacesACoefficient : Obligations.AcRunValPlacesACoefficient := by
  intro s run size _ h
  refine ⟨fun hk => ?_, fun hk => ?_⟩
  · exact exec_goes_on rfl (runValue_places h hk)
  · exact exec_raises rfl (runValue_overflows h hk)

/-- Settles O30: both symbols read their value bits first, and that reading begins with the fetch. -/
theorem symbolsFetchTheirValueBits : Obligations.SymbolsFetchTheirValueBits := by
  intro s u run size ignored h
  have hdc := readsValueBits_dcDiff size ignored
  have hac := readsValueBits_acRunVal run size
  exact ⟨fun hu => ⟨exec_fetches_first hdc h hu, exec_fetches_first hac h hu⟩,
    fun hu => ⟨exec_raises_fetch_error hdc h hu, exec_raises_fetch_error hac h hu⟩⟩

/-- Settles O31: AC_ZRL is a run of fifteen zeros before a coefficient of no value bits, which is 0. -/
theorem acSymbolsWithoutAValue : Obligations.AcSymbolsWithoutAValue := by
  intro s run
  refine ⟨fun hk => exec_goes_on (r := runValue 15 0 s) rfl ?_,
    fun hk => exec_raises (r := runValue 15 0 s) rfl (runValue_overflows (Nat.zero_le _) hk), rfl, rfl⟩
  rw [runValue_places (Nat.zero_le _) hk, wrap32_no_value_bits]
  rfl

/-- Settles O7: the turn is a lookup in the slot of its part, and each case the entry found. -/
theorem stepRunsTheSymbolLookedUp : Obligations.StepRunsTheSymbolLookedUp := by
  intro s n sym hm hp hb
  refine ⟨fun hs h => ⟨fun hn => ?_, fun hn => ?_⟩, fun hs h => ⟨fun i tail hn hd => ?_, fun hn => ?_⟩⟩
  · exact (step_dc hm hp hs).trans (outcome_fetchSymbol_found hb h hn rfl)
  · exact (step_dc hm hp hs).trans (outcome_fetchSymbol_invalid hb h hn)
  · exact (step_ac hm hp hs).trans (outcome_fetchSymbol_found hb h hn hd)
  · exact (step_ac hm hp hs).trans (outcome_fetchSymbol_invalid hb h hn)
end

section
/-! PROOF. The inverse DCT of a DC term alone (45_idct.md R301 (c), R303, R305, R309, R310): NJ_CHEN_WANG's full paths give
what its fast exits give, and under every kernel the row fast exit leaves one flat row and the column fast exit one value. -/

namespace Sys2Proof

theorem Oct.map_fill {α β : Type} (f : α → β) (x : α) : (Oct.fill x).map f = Oct.fill (f x) := rfl

theorem Oct.getElem_toList {α : Type} (t : Oct α) {i : Nat} (h : i < t.toList.length) :
    t.toList[i] = t.get (Fin.ofNat 8 i) := by
  have hi : i < 8 := h
  interval_cases i <;> rfl

theorem Grid.column_fill {α : Type} (v : α) (x : Fin 8) : Grid.column (Oct.fill (Oct.fill v)) x = Oct.fill v := by
  rw [Grid.column, Oct.map_fill, Oct.get_fill]

end Sys2Proof

namespace Sys2Proof.Machine

open Sys2Proof.Claims

/-! ### Words as wrapped integers -/

theorem wrap32_add_ofInt (x y : Int) : wrap32 x + BitVec.ofInt 32 y = wrap32 (x + y) := (BitVec.ofInt_add ..).symm

theorem wrap32_shiftLeft (x : Int) (n : Nat) : wrap32 x <<< n = wrap32 (2 ^ n * x) := by
  have hpow : BitVec.twoPow 32 n = BitVec.ofInt 32 (2 ^ n) := by
    apply BitVec.eq_of_toNat_eq
    rw [BitVec.toNat_twoPow, show (2 ^ n : Int) = ((2 ^ n : Nat) : Int) by simp, BitVec.ofInt_natCast, BitVec.toNat_ofNat]
  rw [BitVec.shiftLeft_eq_mul_twoPow, hpow, BitVec.mul_comm, wrap32, wrap32, BitVec.ofInt_mul]

/-- An integer that fits its word is shifted right as an integer (00_scope.md R9). -/
theorem shr_wrap32 {x : Int} (h : -2 ^ 31 ≤ x ∧ x < 2 ^ 31) (n : Nat) : shr (wrap32 x) n = wrap32 (x / 2 ^ n) := by
  show BitVec.ofInt 32 ((wrap32 x).toInt >>> n) = wrap32 (x / 2 ^ n)
  rw [wrap32, toInt_ofInt_small h, Int.shiftRight_eq_div_pow, wrap32]
  simp

/-! ### The full paths of NJ_CHEN_WANG -/

/-- With no odd part the outputs are the even part, mirrored (R304, R306). -/
theorem butterflyOut_even (x7 x8 x3 x0 : Word) :
    butterflyOut x7 x8 x3 x0 0#32 0#32 0#32 0#32 = ⟨x7, x3, x0, x8, x8, x0, x3, x7⟩ := by
  simp [butterflyOut, shr]

/-- A DC term alone gives four equal even parts and no odd part (R304, R309). -/
theorem rowFull_dc (dc : Word) : rowFull ⟨dc, 0, 0, 0, 0, 0, 0, 0⟩ = Oct.fill (shr (dc <<< 11 + 128) 8) := by
  simp [rowFull, butterflyOut_even, Oct.map, Oct.fill]

/-- The same of a column, where the rounding 4 of each product is shifted out (R306, R309). -/
theorem colFull_dc (dc : Word) : colFull ⟨dc, 0, 0, 0, 0, 0, 0, 0⟩ = Oct.fill (shr (dc <<< 8 + 8192) 14) := by
  have hround : shr 4#32 3 = 0#32 := by decide
  simp [colFull, hround, butterflyOut_even, Oct.map, Oct.fill]

theorem levelShift_wrap32 {x : Int} (h : -2 ^ 30 ≤ x ∧ x < 2 ^ 30) : levelShift (wrap32 x) = clip (x + 128) := by
  rw [levelShift, show (128 : Word) = BitVec.ofInt 32 128 from rfl, wrap32_add_ofInt, wrap32, toInt_ofInt_small (by omega)]

/-! ### A block with a DC coefficient alone -/

theorem kernelRowFlat_zero (kn : Kernel) : kernelRowFlat kn 0 = 0 := by
  cases kn with
  | njChenWang => rfl
  | other net => rw [kernelRowFlat, if_pos rfl]

theorem rowPass_dc (kn : Kernel) (dc : Word) :
    rowPass kn ⟨dc, 0, 0, 0, 0, 0, 0, 0⟩ = Oct.fill (kernelRowFlat kn dc) := if_pos rfl

theorem colPass_dc (kn : Kernel) (dc : Word) :
    colPass kn ⟨dc, 0, 0, 0, 0, 0, 0, 0⟩ = Oct.fill (levelShift (kernelColumnFlat kn dc)) := if_pos rfl

/-- Row 0 of a flat value, the other rows zero: what the row fast exit makes of such a block (R301). -/
def flatTopRow (v : Word) : Grid Word :=
  ⟨Oct.fill v, Oct.fill 0, Oct.fill 0, Oct.fill 0, Oct.fill 0, Oct.fill 0, Oct.fill 0, Oct.fill 0⟩

theorem column_flatTopRow (v : Word) (x : Fin 8) : Grid.column (flatTopRow v) x = ⟨v, 0, 0, 0, 0, 0, 0, 0⟩ := by
  simp [Grid.column, flatTopRow, Oct.map]

theorem rowPasses_dcBlock (kn : Kernel) (dc : Word) :
    rowPasses kn (Grid.put (Oct.fill (Oct.fill 0)) 0 dc) = flatTopRow (kernelRowFlat kn dc) := by
  have hblock : Grid.put (Oct.fill (Oct.fill 0)) 0 dc = ⟨⟨dc, 0, 0, 0, 0, 0, 0, 0⟩, Oct.fill 0, Oct.fill 0, Oct.fill 0,
    Oct.fill 0, Oct.fill 0, Oct.fill 0, Oct.fill 0⟩ := rfl
  have hzero : rowPass kn (Oct.fill 0) = Oct.fill 0 := (rowPass_dc kn 0).trans (by rw [kernelRowFlat_zero])
  simp only [hblock, rowPasses, Oct.map, rowPass_dc, hzero, flatTopRow]

theorem idctSamples_dcBlock (kn : Kernel) (dc : Word) :
    idctSamples kn (Grid.put (Oct.fill (Oct.fill 0)) 0 dc) = Oct.fill (Oct.fill (flatBlockSample kn dc)) := by
  have hout : columnPasses kn (flatTopRow (kernelRowFlat kn dc)) = Oct.fill (Oct.fill (flatBlockSample kn dc)) := by
    simp only [columnPasses, column_flatTopRow, colPass_dc]
    rfl
  simp only [idctSamples, rowPasses_dcBlock, hout, Grid.column_fill]
  rfl

end Sys2Proof.Machine

open Sys2Proof Sys2Proof.Machine Sys2Proof.Claims

/-- Settles O33: the full paths of a DC term alone, whose sums fit their words at R309's bounds. -/
theorem fastExitsAgreeWithTheFullPaths : Obligations.FastExitsAgreeWithTheFullPaths := by
  intro d
  refine ⟨fun hlow hhigh => ?_, fun hlow hhigh => ?_⟩
  · rw [rowFull_dc, wrap32_shiftLeft, show (128 : Word) = BitVec.ofInt 32 128 from rfl, wrap32_add_ofInt,
      shr_wrap32 (by omega), show (2 ^ 11 * d + 128) / 2 ^ 8 = 8 * d by omega]
  · rw [colFull_dc, wrap32_shiftLeft, show (8192 : Word) = BitVec.ofInt 32 8192 from rfl, wrap32_add_ofInt,
      shr_wrap32 (by omega), show (2 ^ 8 * d + 8192) / 2 ^ 14 = (d + 32) / 64 by omega, Oct.map_fill,
      levelShift_wrap32 (by omega)]

/-- Settles O32: the samples of such a block are all the flat one, whose value under NJ_CHEN_WANG and whose error under an
accurate kernel are known. -/
theorem dcOnlyBlocksAreFlat : Obligations.DcOnlyBlocksAreFlat := by
  have hflat (kn : Kernel) (d : Word) (j : Nat) :
      Grid.at (idctSamples kn (Grid.put (Oct.fill (Oct.fill 0)) 0 d)) j = flatBlockSample kn d := by
    rw [idctSamples_dcBlock, Grid.at_fill]
  refine ⟨fun kn d => ⟨_, fun j _ => hflat kn d j⟩, fun d hlow hhigh j _ => ?_, fun kn v q n hkn hv hq hq' hdc j _ => ?_⟩
  · exact (hflat ..).trans (flatBlockSample_njChenWang d ⟨hlow, hhigh⟩)
  · rw [hflat]
    exact hkn v q n hv hq hq' hdc
end

section
/-! PROOF. The end of a block (45_idct.md R300, R308, 46_scan_decoder.md R333): the samples a plane takes, and the planes a
step leaves. -/

namespace Sys2Proof.Machine

open Sys2Proof.Claims

variable {s : State} {m : Memory} {stride r0 x0 : Nat}

/-! ### Rows written one after another -/

/-- The fold of `placeBlock`, for any rows: the bytes of each row at its own address. -/
def writeRows (base : Nat → Nat) (bytes : Nat → List Byte) (rows : List Nat) (m : Memory) : Memory :=
  rows.foldl (fun m r => m.writeBytes (base r) (bytes r)) m

variable {base : Nat → Nat} {bytes : Nat → List Byte} {rows : List Nat}

theorem writeRows_concat (r : Nat) :
    writeRows base bytes (rows ++ [r]) m = (writeRows base bytes rows m).writeBytes (base r) (bytes r) :=
  List.foldl_concat ..

theorem read_writeRows_other {a : Nat} (h : ∀ r ∈ rows, a < base r ∨ base r + (bytes r).length ≤ a) :
    (writeRows base bytes rows m).read a = m.read a := by
  induction rows generalizing m with
  | nil => rfl
  | cons r rows ih =>
    rw [List.forall_mem_cons] at h
    exact (ih h.2).trans (Memory.read_writeBytes_other _ _ _ _ h.1)

theorem read_writeRows_same {r i : Nat} (hr : r ∈ rows) (hi : i < (bytes r).length)
    (h : ∀ r' ∈ rows, r' ≠ r → base r + i < base r' ∨ base r' + (bytes r').length ≤ base r + i) :
    (writeRows base bytes rows m).read (base r + i) = (bytes r)[i] := by
  induction rows using List.reverseRecOn with
  | nil => cases hr
  | append_singleton rows r' ih =>
    rw [writeRows_concat]
    by_cases he : r' = r
    · subst he
      exact Memory.read_writeBytes_same _ _ _ _ hi
    · have hmem : r ∈ rows := by simpa [Ne.symm he] using hr
      rw [Memory.read_writeBytes_other _ _ _ _ (h r' (by simp) he)]
      exact ih hmem fun r'' hr'' => h r'' (List.mem_append_left _ hr'')

/-! ### A block in a plane -/

theorem placeBlock_eq_writeRows (samples : Grid Byte) : placeBlock m stride r0 x0 samples =
    writeRows (fun r => (r0 + r) * stride + x0) (fun r => (Oct.get samples (Fin.ofNat 8 r)).toList) (List.range 8) m := rfl

/-- In a plane of `stride` columns, a sample in another row than a block's, or in none of its columns, is outside the
bytes of that row of the block. -/
theorem sample_outside_row {row col row' : Nat} (hcol : col < stride) (hfit : x0 + 8 ≤ stride)
    (h : row ≠ row' ∨ col < x0 ∨ x0 + 8 ≤ col) :
    row * stride + col < row' * stride + x0 ∨ row' * stride + x0 + 8 ≤ row * stride + col := by
  rcases lt_trichotomy row row' with hlt | rfl | hgt
  · have hrow := Nat.mul_le_mul_right stride (Nat.succ_le_of_lt hlt)
    rw [Nat.succ_mul] at hrow
    omega
  · omega
  · have hrow := Nat.mul_le_mul_right stride (Nat.succ_le_of_lt hgt)
    rw [Nat.succ_mul] at hrow
    omega

theorem read_placeBlock_inside (samples : Grid Byte) (hfit : x0 + 8 ≤ stride) {r x : Nat} (hr : r < 8) (hx : x < 8) :
    (placeBlock m stride r0 x0 samples).read ((r0 + r) * stride + (x0 + x)) = Grid.at samples (8 * r + x) := by
  have hrow : gridRow (8 * r + x) = Fin.ofNat 8 r := by
    rw [gridRow, show (8 * r + x) / 8 = r by omega]
  have hcol : gridCol (8 * r + x) = Fin.ofNat 8 x := by
    simp only [gridCol, Fin.ext_iff, Fin.ofNat]
    omega
  have hread := read_writeRows_same (m := m) (base := fun r => (r0 + r) * stride + x0)
    (bytes := fun r => (Oct.get samples (Fin.ofNat 8 r)).toList) (List.mem_range.2 hr) (i := x) hx fun r' _ hne => by
      have hout := sample_outside_row (row := r0 + r) (row' := r0 + r') (col := x0 + x) (by omega) hfit (.inl (by omega))
      simpa [Nat.add_assoc] using hout
  rw [placeBlock_eq_writeRows, ← Nat.add_assoc, hread, Grid.at, hrow, hcol]
  exact Oct.getElem_toList _ _

theorem read_placeBlock_outside (samples : Grid Byte) (hfit : x0 + 8 ≤ stride) {row col : Nat} (hcol : col < stride)
    (h : ¬ (r0 ≤ row ∧ row < r0 + 8 ∧ x0 ≤ col ∧ col < x0 + 8)) :
    (placeBlock m stride r0 x0 samples).read (row * stride + col) = m.read (row * stride + col) := by
  rw [placeBlock_eq_writeRows]
  refine read_writeRows_other fun r hr => ?_
  have hr' := List.mem_range.1 hr
  exact sample_outside_row hcol hfit (by omega)

/-! ### The step -/

theorem planes_advanceBlock (s : State) : (advanceBlock s).planes = s.planes := by
  obtain ⟨p, sc, b, k, l, f, h⟩ := walkOnly_advanceBlock s
  rw [h]

theorem planes_finishBlock (s : State) : (finishBlock s).planes = s.planes.set s.scan.chan
    ((s.planes.get s.scan.chan).map fun m =>
      placeBlock m (current s).stride (blockRow s) (blockColumn s) (idctSamples s.params.kernel s.blk)) :=
  planes_advanceBlock _

theorem step_idct (hm : EngineMoves s) (hp : s.phase = .decodingMcu) (hs : s.scan.step = .idct) :
    step s = .next (finishBlock s) := by
  rw [step_eq, fetch_engine hm.quiet, engineTurn, hm.kept, hp, hs]
  rfl

end Sys2Proof.Machine

open Sys2Proof Sys2Proof.Machine Sys2Proof.Claims

/-- Settles O34: the step places the block in its channel's plane and leaves the other planes, and of that plane it writes
the samples of the block's rows and columns. -/
theorem blockEndWritesItsSamples : Obligations.BlockEndWritesItsSamples := by
  intro s m hm hp hs hplane hfit
  refine ⟨finishBlock s, placeBlock m (current s).stride (blockRow s) (blockColumn s) (idctSamples s.params.kernel s.blk),
    step_idct hm hp hs, ?_, fun c hc => ?_, fun r hr x hx => ?_, fun row col hcol hout => ?_⟩
  · rw [planes_finishBlock, Triple.get_set_same, hplane]
    rfl
  · rw [planes_finishBlock, Triple.get_set_other _ _ hc]
  · exact read_placeBlock_inside _ hfit hr hx
  · exact read_placeBlock_outside _ hfit hcol hout
end

section
/-! PROOF. The walk over blocks and MCUs (46_scan_decoder.md R331 to R335): what a block's end does, by whether its MCU
and the scan end with it. -/

namespace Sys2Proof.Machine

open Sys2Proof.Claims

variable {s : State}

/-! ### Within an MCU -/

theorem nextChannel_eq_some {c d : Fin 3} (hd : d.val = c.val + 1) (hlive : d.val < s.frame.channels) :
    nextChannel s c = some d := by
  match c, hd with
  | 0, hd => obtain rfl : d = 1 := Fin.ext hd; exact if_pos hlive
  | 1, hd => obtain rfl : d = 2 := Fin.ext hd; exact if_pos hlive
  | 2, hd => exact absurd d.isLt (by rw [hd]; decide)

theorem nextChannel_eq_none {c : Fin 3} (h : s.frame.channels ≤ c.val + 1) : nextChannel s c = none := by
  match c with
  | 0 => exact if_neg (Nat.not_lt.2 h)
  | 1 => exact if_neg (Nat.not_lt.2 h)
  | 2 => rfl

/-- The next block of the sample row. -/
theorem advanceBlock_alongRow (h : s.scan.sbx + 1 < (current s).hs) :
    advanceBlock s = beginBlock { s with scan := { s.scan with sbx := s.scan.sbx + 1 } } := if_pos h

/-- The first block of the next sample row. -/
theorem advanceBlock_nextRow (hx : (current s).hs ≤ s.scan.sbx + 1) (hy : s.scan.sby + 1 < (current s).vs) :
    advanceBlock s = beginBlock { s with scan := { s.scan with sbx := 0, sby := s.scan.sby + 1 } } :=
  (if_neg (Nat.not_lt.2 hx)).trans (if_pos hy)

/-- The first block of the next channel. -/
theorem advanceBlock_nextChannel {d : Fin 3} (hx : (current s).hs ≤ s.scan.sbx + 1)
    (hy : (current s).vs ≤ s.scan.sby + 1) (hn : nextChannel s s.scan.chan = some d) :
    advanceBlock s = beginBlock { s with scan := { s.scan with chan := d, sbx := 0, sby := 0 } } := by
  refine (if_neg (Nat.not_lt.2 hx)).trans ((if_neg (Nat.not_lt.2 hy)).trans ?_)
  rw [hn]

/-- The end of the MCU. -/
theorem advanceBlock_mcuEnd (hx : (current s).hs ≤ s.scan.sbx + 1) (hy : (current s).vs ≤ s.scan.sby + 1)
    (hn : nextChannel s s.scan.chan = none) : advanceBlock s = advanceMcu s := by
  refine (if_neg (Nat.not_lt.2 hx)).trans ((if_neg (Nat.not_lt.2 hy)).trans ?_)
  rw [hn]

/-- The state in which the walk goes on: the block's samples stand in their plane. -/
def blockPlaced (s : State) : State := idctBlock s.scan.chan (blockRow s) (blockColumn s) s

theorem finishBlock_eq (s : State) : finishBlock s = advanceBlock (blockPlaced s) := rfl

/-- A block's end leaves all but its plane, the walk's own fields and the start of finishing. -/
theorem finishBlock_frame (s : State) : { finishBlock s with
    phase := s.phase, scan := s.scan, blk := s.blk, k := s.k, planes := s.planes, live := s.live, fin := s.fin } = s := by
  obtain ⟨p, sc, b, k, l, f, h⟩ := walkOnly_advanceBlock (blockPlaced s)
  rw [finishBlock_eq, h]
  rfl

/-- A block that begins has no coefficients yet. -/
theorem at_beginBlock_blk (s : State) (j : Nat) : Grid.at (beginBlock s).blk j = 0 := Grid.at_fill 0 j

/-! ### From one MCU to the next -/

theorem startsMcu_beginMcu (s : State) : StartsMcu (beginMcu s) :=
  ⟨rfl, ⟨rfl, rfl, rfl⟩, rfl, fun j _ => Grid.at_fill 0 j, rfl⟩

/-- The scan moved to the MCU after the current one in raster order (R331). -/
def nextMcu (s : State) : State :=
  if s.scan.mbx + 1 = s.frame.mbw then { s with scan := { s.scan with mbx := 0, mby := s.scan.mby + 1 } }
  else { s with scan := { s.scan with mbx := s.scan.mbx + 1 } }

/-- After the last MCU the decode finishes, with no restart step (R334). -/
theorem advanceMcu_last (hx : s.scan.mbx + 1 = s.frame.mbw) (hy : s.scan.mby + 1 = s.frame.mbh) :
    advanceMcu s = startFinish { s with scan := { s.scan with mbx := 0, mby := s.scan.mby + 1 } } :=
  (if_pos hx).trans (if_pos hy)

/-- After any other MCU the countdown decides at the next one's position (R335). -/
theorem advanceMcu_notLast (h : ¬ (s.scan.mbx + 1 = s.frame.mbw ∧ s.scan.mby + 1 = s.frame.mbh)) :
    advanceMcu s = countMcu (nextMcu s) := by
  rw [advanceMcu, nextMcu]
  split
  · next hx => exact if_neg fun hy => h ⟨hx, hy⟩
  · rfl

/-- The next MCU lies in the grid, one further in raster order. -/
theorem nextMcu_place (hx : s.scan.mbx < s.frame.mbw) (hy : s.scan.mby < s.frame.mbh)
    (h : ¬ (s.scan.mbx + 1 = s.frame.mbw ∧ s.scan.mby + 1 = s.frame.mbh)) :
    (nextMcu s).scan.mby * s.frame.mbw + (nextMcu s).scan.mbx = s.scan.mby * s.frame.mbw + s.scan.mbx + 1 ∧
      (nextMcu s).scan.mbx < s.frame.mbw ∧ (nextMcu s).scan.mby < s.frame.mbh := by
  rw [nextMcu]
  split
  · next hend =>
    refine ⟨?_, Nat.zero_lt_of_lt hx, show s.scan.mby + 1 < s.frame.mbh by omega⟩
    calc (s.scan.mby + 1) * s.frame.mbw + 0 = s.scan.mby * s.frame.mbw + s.frame.mbw := by rw [Nat.succ_mul]; rfl
      _ = s.scan.mby * s.frame.mbw + s.scan.mbx + 1 := by rw [← hend]; rfl
  · next hend => exact ⟨rfl, show s.scan.mbx + 1 < s.frame.mbw by omega, hy⟩

theorem nextMcu_kept (s : State) : nextMcu s =
    { s with scan := { s.scan with mbx := (nextMcu s).scan.mbx, mby := (nextMcu s).scan.mby } } := by
  rw [nextMcu]
  split <;> rfl

/-- The countdown does not move the position, nor the number of the next marker. -/
theorem countMcu_place (s : State) : (countMcu s).scan.mbx = s.scan.mbx ∧ (countMcu s).scan.mby = s.scan.mby ∧
    (countMcu s).scan.nextRst = s.scan.nextRst := by
  rw [countMcu]
  split
  · exact ⟨rfl, rfl, rfl⟩
  · dsimp only
    split <;> exact ⟨rfl, rfl, rfl⟩

theorem startsMcu_countMcu_off (h : s.ri = 0) : StartsMcu (countMcu s) := by
  rw [countMcu, if_pos h]
  exact startsMcu_beginMcu s

/-- A countdown in use goes down by one, to the restart boundary at 0 and to the next MCU before (R335). -/
theorem countMcu_on (hri : 0 < s.ri) (hc : 1 ≤ s.scan.countdown) :
    (countMcu s).scan.countdown = s.scan.countdown - 1 ∧
      (s.scan.countdown = 1 → (countMcu s).phase = .atRestartBoundary) ∧
      (s.scan.countdown ≠ 1 → StartsMcu (countMcu s)) := by
  rw [countMcu, if_neg (Nat.ne_of_gt hri)]
  dsimp only
  split
  · next h => exact ⟨rfl, fun _ => rfl, fun hne => absurd h (by omega)⟩
  · next h => exact ⟨rfl, fun h1 => absurd (by omega) h, fun _ => startsMcu_beginMcu _⟩

theorem sum_map_filter {α : Type} (p : α → Bool) (f : α → Nat) (l : List α) :
    ((l.filter p).map f).sum = (l.map fun a => if p a then f a else 0).sum := by
  induction l with
  | nil => rfl
  | cons a l ih =>
    rw [List.filter_cons, List.map_cons, List.sum_cons]
    split
    · rw [List.map_cons, List.sum_cons, ih]
    · rw [ih, Nat.zero_add]

/-- The bytes counted at the start of finishing are those of the live channels' planes. -/
theorem planeBytes_eq_workHeld (s : State) : planeBytes s = workHeld s := by
  rw [planeBytes, liveChannels, sum_map_filter, workHeld]
  simp [Triple.get, Nat.add_assoc]

end Sys2Proof.Machine

open Sys2Proof Sys2Proof.Machine Sys2Proof.Claims

/-- Settles O35: the step is the block's end, and each of the three moves begins a cleared block at its place. -/
theorem blocksOfAnMcuInOrder : Obligations.BlocksOfAnMcuInOrder := by
  intro s hm hp hs
  have hframe := finishBlock_frame s
  refine ⟨finishBlock s, step_idct hm hp hs, fun hx => ?_, fun hx hy => ?_, fun d hx hy hd hlive => ?_,
    (congrArg State.ch hframe :), (congrArg State.reader hframe :), (congrArg State.inMem hframe :),
    (congrArg State.outMem hframe :)⟩
  · rw [finishBlock_eq, advanceBlock_alongRow (s := blockPlaced s) hx]
    exact ⟨rfl, rfl, fun j _ => at_beginBlock_blk _ j⟩
  · rw [finishBlock_eq, advanceBlock_nextRow (s := blockPlaced s) hx hy]
    exact ⟨rfl, rfl, fun j _ => at_beginBlock_blk _ j⟩
  · rw [finishBlock_eq, advanceBlock_nextChannel (s := blockPlaced s) hx hy (nextChannel_eq_some hd hlive)]
    exact ⟨rfl, rfl, fun j _ => at_beginBlock_blk _ j⟩

/-- Settles O36: the step ends the MCU, and either the scan ends with it or the countdown decides at the next position. -/
theorem mcusInRasterOrder : Obligations.McusInRasterOrder := by
  intro s hm hp hs hx hy hchan hmbx hmby
  have hend : finishBlock s = advanceMcu (blockPlaced s) :=
    (finishBlock_eq s).trans (advanceBlock_mcuEnd (s := blockPlaced s) hx hy (nextChannel_eq_none hchan))
  refine ⟨finishBlock s, step_idct hm hp hs, fun hlastx hlasty => ?_, fun hmore => ?_, finishBlock_frame s⟩
  · rw [hend, advanceMcu_last (s := blockPlaced s) hlastx hlasty]
    exact ⟨rfl, rfl, planeBytes_eq_workHeld s⟩
  · rw [hend, advanceMcu_notLast (s := blockPlaced s) hmore]
    obtain ⟨hraster, hinx, hiny⟩ := nextMcu_place (s := blockPlaced s) hmbx hmby hmore
    have hkept := nextMcu_kept (blockPlaced s)
    generalize nextMcu (blockPlaced s) = u at *
    have hri : u.ri = s.ri := (congrArg State.ri hkept :)
    have hrst : u.scan.nextRst = s.scan.nextRst := (congrArg (·.scan.nextRst) hkept :)
    have hcount : u.scan.countdown = s.scan.countdown := (congrArg (·.scan.countdown) hkept :)
    obtain ⟨hcx, hcy, hcrst⟩ := countMcu_place u
    rw [hcx, hcy, hcrst, ← hri, ← hcount]
    exact ⟨hraster, hinx, hiny, hrst, startsMcu_countMcu_off, countMcu_on⟩
end

section
/-! PROOF. The restart step (46_scan_decoder.md R336 to R339): what it reads, and how it ends by the value read. -/

namespace Sys2Proof.Machine

open Sys2Proof.Claims

variable {s u : State}

/-! ### The turn -/

theorem step_restart (hm : EngineMoves s) (hp : s.phase = .atRestartBoundary) : step s = settle (restartStep s) := by
  rw [step_eq, fetch_engine hm.quiet, engineTurn, hm.kept, hp]
  rfl

/-- The state with the bits of the partial byte dropped (43_bitreader.md R242). -/
theorem alignBits_eq (s : State) : alignBits s = { s with reader := consumed s.reader (s.reader.nb % 8) } := rfl

/-- A whole number of bytes held is aligned already. -/
theorem alignBits_of_whole (h : s.reader.nb % 8 = 0) : alignBits s = s := by
  rw [alignBits_eq, h]
  rfl

/-- A fetch keeps the reader aligned. -/
theorem alignBits_of_fetch (hu : fetchByte (alignBits s) = .ok u) : alignBits u = u := by
  have hbits : u.reader.nb = s.reader.nb - s.reader.nb % 8 + 8 ∨ u.reader.nb = s.reader.nb - s.reader.nb % 8 + 16 :=
    fetchByte_bits hu
  exact alignBits_of_whole (by omega)

/-- What the restart step does with the value read (R337 to R339). -/
def checkRestart (p : Nat × State) : Except Abort State :=
  if p.1 / 8 ≠ 0xFFD0 / 8 then .error ⟨.syntaxError, p.2⟩
  else if !sequenceOk p.2 (p.1 % 8) then .error ⟨.syntaxError, p.2⟩
  else .ok (afterRestart p.2)

theorem restartStep_eq (s : State) : restartStep s = getBits 16 (alignBits s) >>= checkRestart := rfl

/-! ### Fetching -/

/-- With too few bits held the step is a fetch and the same step after it. -/
theorem restartStep_fetches_first (hn : (alignBits s).reader.nb < 16) (hu : fetchByte (alignBits s) = .ok u) :
    restartStep s = restartStep u := by
  rw [restartStep_eq, restartStep_eq, alignBits_of_fetch hu, getBits_fetches_first hn, hu]
  rfl

theorem restartStep_raises_fetch_error {e : Abort} (hn : (alignBits s).reader.nb < 16)
    (he : fetchByte (alignBits s) = .error e) : restartStep s = .error e := by
  rw [restartStep_eq, getBits_fetches_first hn, he]
  rfl

/-- A fetch leaves the next step the engine's, in the same phase. -/
theorem engineMoves_of_fetch (hm : EngineMoves s) (hu : fetchByte (alignBits s) = .ok u) :
    EngineMoves u ∧ u.phase = s.phase := by
  obtain ⟨t, ht, r, e, rfl⟩ | ⟨t, ht, -⟩ := fetchByte_result (alignBits s)
  · rw [hu] at ht
    cases ht
    exact ⟨⟨hm.quiet, hm.kept⟩, rfl⟩
  · rw [hu] at ht
    cases ht

/-! ### The value read -/

/-- The state past the 16 bits read. -/
def restartRead (s : State) : State := { s with reader := consumed (alignBits s).reader 16 }

theorem restartStep_held (hn : 16 ≤ (alignBits s).reader.nb) :
    restartStep s = checkRestart (heldBits (alignBits s).reader 16, restartRead s) := by
  rw [restartStep_eq, getBits_of_held hn]
  rfl

theorem sequenceOk_iff (s : State) (n : Nat) : sequenceOk s n = true ↔ s.strict = false ∨ n = s.scan.nextRst := by
  simp [sequenceOk]

variable {n : Nat}

/-- The marker of number `n` is checked against the sequence alone. -/
theorem checkRestart_marker (hn : n < 8) : checkRestart (0xFFD0 + n, u) =
    if sequenceOk u n then .ok (afterRestart u) else .error ⟨.syntaxError, u⟩ := by
  have hkind : (0xFFD0 + n) / 8 = 0xFFD0 / 8 := by omega
  have hnumber : (0xFFD0 + n) % 8 = n := by omega
  simp only [checkRestart, hkind, hnumber, ne_eq, not_true, if_false]
  cases sequenceOk u n <;> rfl

/-- A value that is no restart marker is an error. -/
theorem checkRestart_other {m : Nat} (hm : ∀ n < 8, m ≠ 0xFFD0 + n) : checkRestart (m, u) = .error ⟨.syntaxError, u⟩ := by
  have hkind : m / 8 ≠ 0xFFD0 / 8 := fun h => hm (m % 8) (Nat.mod_lt _ (by decide)) (by omega)
  exact if_pos hkind

/-- An accepted marker changes the reader, the scan, the predictors and the block only. -/
theorem afterRestart_frame (s : State) (r : Reader) : { afterRestart { s with reader := r } with
    phase := s.phase, reader := s.reader, scan := s.scan, ch := s.ch, blk := s.blk, k := s.k } = s := rfl

/-- A step that raises SyntaxError reports it (60_exceptions.md R401). -/
theorem reports_syntaxError (hstep : step s = settle (.error ⟨.syntaxError, u⟩)) :
    ∃ t, step s = .next t ∧ t.errcode = .syntaxError ∧ t.status.word = 0xD :=
  ⟨_, hstep, rfl, (by decide : Status.word ⟨true, false, true, true⟩ = 0xD)⟩

/-- The predictors of the live channels are cleared, and nothing else of any channel (R339). -/
theorem get_clearPredictors (s : State) (c : Fin 3) : (clearPredictors s).ch.get c =
    if c.val < s.frame.channels then { s.ch.get c with pred := 0 } else s.ch.get c :=
  Triple.get_mapBelow ..

end Sys2Proof.Machine

open Sys2Proof Sys2Proof.Machine Sys2Proof.Claims

/-- Settles O37: the step reads 16 bits past the partial byte, fetching first where they are not held, and what it read
decides between the restart and the error. -/
theorem restartStepChecksAndResets : Obligations.RestartStepChecksAndResets := by
  intro s hm hp
  have hstep := step_restart hm hp
  refine ⟨fun hfew => ⟨fun u hu => ?_, fun e he => ?_⟩, fun hheld => ?_⟩
  · obtain ⟨hmu, hpu⟩ := engineMoves_of_fetch hm hu
    rw [hstep, step_restart hmu (hpu.trans hp), restartStep_fetches_first hfew hu]
  · rw [hstep, restartStep_raises_fetch_error hfew he, ← (settle_fetchByte_error he).1, he]
  · rw [restartStep_held hheld] at hstep
    refine ⟨fun n hn hbits hpass => ?_, fun n hn hbits hstrict hne => ?_, fun hother => ?_⟩
    · have hok : sequenceOk (restartRead s) n = true := (sequenceOk_iff _ n).2 hpass
      rw [alignBits_eq, hbits, checkRestart_marker hn, if_pos hok] at hstep
      refine ⟨_, hstep, startsMcu_beginMcu _, rfl, rfl, fun c hc => ?_, fun c hc => ?_, afterRestart_frame s _⟩
      · exact (get_clearPredictors _ c).trans (if_pos hc)
      · exact (get_clearPredictors _ c).trans (if_neg (Nat.not_lt.2 hc))
    · have hbad : ¬ sequenceOk (restartRead s) n = true := fun h =>
        ((sequenceOk_iff _ n).1 h).elim (fun hf => absurd (hf.symm.trans hstrict) nofun) hne
      rw [alignBits_eq, hbits, checkRestart_marker hn, if_neg hbad] at hstep
      exact reports_syntaxError hstep
    · rw [alignBits_eq, checkRestart_other hother] at hstep
      exact reports_syntaxError hstep
end

section
/-! PROOF. How PHASE changes (46_scan_decoder.md R340): by an engine turn, by a command, and by no other access. -/

namespace Sys2Proof.Machine

open Sys2Proof.Claims

variable {s t : State}

/-! ### The engine's rows -/

theorem Phase.busy_eq_false_iff {p : Phase} : p.busy = false ↔ p = .idle ∨ p = .doneOk ∨ p = .doneErr := by
  cases p <;> simp [Phase.busy]

/-- "Any raise Error" of R340: every working phase has a row to DONE_ERR. -/
theorem engineRow_doneErr {p : Phase} (h : p.busy = true) : EngineRow p .doneErr := by
  cases p with
  | parsingHeader => exact .inl ⟨rfl, .inr rfl⟩
  | decodingMcu => exact .inr (.inl ⟨rfl, .inr (.inr rfl)⟩)
  | atRestartBoundary => exact .inr (.inr (.inl ⟨rfl, .inr rfl⟩))
  | finishing => exact .inr (.inr (.inr ⟨rfl, .inr rfl⟩))
  | idle | doneOk | doneErr => cases h

/-- PHASE stays, or moves by an engine's row. -/
def PhaseFollows (a b : Phase) : Prop := b = a ∨ EngineRow a b

theorem phaseFollows_raiseError {k : ErrCode} (hk : k ≠ .ok) (hb : s.phase.busy = true) (u : State) :
    PhaseFollows s.phase (raiseError k u).phase := by
  refine .inr ?_
  rw [raiseError_phase, phase_ended_error hk]
  exact engineRow_doneErr hb

/-- A turn that settles follows the table where it goes on by the table. -/
theorem Settled.phaseFollows {Q E : State → Prop} (h : Settled Q E t) (hb : s.phase.busy = true)
    (hq : ∀ u, Q u → PhaseFollows s.phase u.phase) : PhaseFollows s.phase t.phase := by
  cases h with
  | goesOn done => exact hq t done
  | raised kind kept => exact phaseFollows_raiseError kind hb _

theorem HeaderDone.phaseFollows (hp : s.phase = .parsingHeader) (h : HeaderDone s t) :
    PhaseFollows s.phase t.phase := by
  rcases h with h | ⟨u, -, rfl⟩
  · exact .inl h.phase_eq
  · exact .inr (.inl ⟨hp, .inl rfl⟩)

theorem phaseFollows_finishBlock (hp : s.phase = .decodingMcu) : PhaseFollows s.phase (finishBlock s).phase := by
  rcases afterBlock_advanceBlock (s := blockPlaced s) hp with h | h | h
  · exact .inl (h.trans hp.symm)
  · exact .inr (.inr (.inl ⟨hp, .inl h⟩))
  · exact .inr (.inr (.inl ⟨hp, .inr (.inl h)⟩))

/-- Every turn of a decode the host kept to 20_memory.md R81 in follows the table. -/
theorem EngineMove.phaseFollows (h : EngineMove s t) (hs : s.spoiled = false) : PhaseFollows s.phase t.phase := by
  have working {p : Phase} (hp : s.phase = p) (hb : p.busy = true) : s.phase.busy = true := hp ▸ hb
  cases h with
  | spoiled broken busy => exact absurd (broken.symm.trans hs) nofun
  | hold idle => exact .inl rfl
  | reject busy => exact phaseFollows_raiseError (k := .syntaxError) nofun busy s
  | framing phase done =>
    exact ((checkFraming_ends s).settled (checkFraming_alike (.self s)) done).phaseFollows (working phase rfl)
      fun u hu => .inl hu.phase_eq
  | marker phase room format done =>
    exact (exec_marker_settled format done).phaseFollows (working phase rfl)
      fun u hu => hu.phaseFollows (s := { s with cursor := s.cursor + 2 }) phase
  | refill phase few done =>
    refine ((fetchByte_ends few).settled (fetchByte_alike (.self s)) done).phaseFollows (working phase rfl) ?_
    rintro _ ⟨⟨r, e, rfl⟩, -⟩
    exact .inl rfl
  | symbol phase held format done =>
    exact (exec_symbol_settled (format.imp And.right And.right) done).phaseFollows (working phase rfl)
      fun u hu => .inl hu.phase_eq
  | block phase step => exact phaseFollows_finishBlock phase
  | restart phase done =>
    refine ((restartStep_ends s).settled (restartStep_alike (.self s)) done).phaseFollows (working phase rfl) ?_
    rintro _ ⟨u, -, rfl⟩
    exact .inr (.inr (.inr (.inl ⟨phase, .inl rfl⟩)))
  | finish phase done =>
    refine ((finishStep_ends s).settled (finishStep_alike (.self s)) done).phaseFollows (working phase rfl) ?_
    rintro u (hu | rfl)
    · exact .inl (congrArg State.phase hu :)
    · exact .inr (.inr (.inr (.inr ⟨phase, .inl rfl⟩)))

/-! ### An engine turn -/

/-- The engine's turn is taken with the queue's entry for it, if any, gone. -/
theorem step_engineTurn (h : EngineTurn s) : step s = (engineTurn { s with host := s.host.tail }).outcome := by
  rw [step_eq]
  rcases h with hq | ⟨rest, hq⟩
  · have hs : { s with host := s.host.tail } = s := by rw [hq, List.tail_nil, ← hq]
    rw [hs, fetch_engine hq]
  · rw [fetch, hq]
    rfl

theorem step_powerOn {rest : List HostOp} (hq : s.host = .powerOn :: rest) :
    step s = .next (powerOnReset { s with host := rest }) :=
  step_done (by rw [fetch, hq]; rfl)

/-- A decode the host spoiled ends at its next turn (log entry 7). -/
theorem phase_spoiledEnd (s : State) : (spoiledEnd s).phase = .doneOk ∨ (spoiledEnd s).phase = .doneErr := by
  obtain ⟨u, -, h | ⟨k, h⟩⟩ := spoiledEnd_cases s <;> rw [h]
  · exact .inl rfl
  · exact ite_eq_or_eq ..

theorem engineTurn_spoiled (hs : s.spoiled = true) (hb : s.status.busy = true) :
    engineTurn s = .done (.next (spoiledEnd s)) := by
  rw [engineTurn, hs, hb]
  rfl

theorem phase_engineTurn (hc : StatusCoherent s) (h : (engineTurn s).outcome = .next t) :
    t.phase = s.phase ∨ (s.spoiled = false ∧ EngineRow s.phase t.phase) ∨
      (s.spoiled = true ∧ s.phase.busy = true ∧ (t.phase = .doneOk ∨ t.phase = .doneErr)) := by
  cases hs : s.spoiled with
  | false => exact ((engineMove_of_engineTurn h).phaseFollows hs).imp_right fun hrow => .inl ⟨rfl, hrow⟩
  | true =>
    cases hb : s.status.busy with
    | false =>
      rw [engineTurn_idle (hc.busyPhase ▸ hb) hb] at h
      cases h
      exact .inl rfl
    | true =>
      rw [engineTurn_spoiled hs hb] at h
      cases h
      exact .inr (.inr ⟨rfl, hc.busyPhase ▸ hb, phase_spoiledEnd s⟩)

/-! ### A command -/

/-- The host accesses that reach CMD are its 32-bit writes to the register's own address. -/
theorem isCommand_place {p : Params} {addr : Nat} {size : AccessSize} (h : isCommand p addr size = true) :
    addr = p.regBase + 4 ∧ size = .four ∧ p.regBase % 4 = 0 := by
  have hplace : placeOf p addr size = .register 0x04 := eq_of_beq h
  unfold placeOf at hplace
  split at hplace
  · split at hplace
    · next haligned =>
      obtain ⟨hsize, haddr, -⟩ := haligned
      have hoff : addr - p.regBase = 4 := Place.register.inj hplace
      exact ⟨by omega, hsize, by omega⟩
    · cases hplace
  · split at hplace
    · cases hplace
    · split at hplace <;> cases hplace

theorem phase_loadImage (s : State) : (loadImage s).phase = .idle := by
  unfold loadImage
  dsimp only
  split <;> rfl

/-- On an idle core DECODE of a loaded image goes to PARSING_HEADER, and LOAD and FLUSH go to IDLE; no other command moves
PHASE. -/
theorem phase_command {v : Word} (h : exec (decodeCommand v) s = .next t) :
    t.phase = s.phase ∨ (v = 2 ∧ s.status.loaded = true ∧ s.status.busy = false ∧ t.phase = .parsingHeader) ∨
      ((v = 1 ∨ v = 3) ∧ s.status.busy = false ∧ t.phase = .idle) := by
  cases hb : s.status.busy with
  | true =>
    rw [exec_command_busy (format_decodeCommand v) hb] at h
    cases h
    exact .inl rfl
  | false =>
    by_cases h1 : v = 1
    · subst h1
      cases (exec_load_idle hb).symm.trans h
      exact .inr (.inr ⟨.inl rfl, rfl, phase_loadImage s⟩)
    · by_cases h3 : v = 3
      · subst h3
        cases (exec_flush_idle hb).symm.trans h
        exact .inr (.inr ⟨.inr rfl, rfl, rfl⟩)
      · by_cases h2 : v = 2
        · subst h2
          have ht := Host.Outcome.next.inj ((exec_decode_idle hb).symm.trans h)
          cases hl : s.status.loaded with
          | false => exact .inl (by rw [← ht, hl]; rfl)
          | true => exact .inr (.inl ⟨rfl, rfl, rfl, by rw [← ht, hl]; rfl⟩)
        · rw [decodeCommand_reserved ⟨h1, h2, h3⟩] at h
          cases h
          exact .inl rfl

end Sys2Proof.Machine

open Sys2Proof Sys2Proof.Machine Sys2Proof.Claims

/-- Settles O45, by who moves: the engine by its rows or to a spoiled decode's end, the host by a command or a power-on
reset, and no other access moves PHASE. -/
theorem phasesFollowTheTable : Obligations.PhasesFollowTheTable := by
  intro s t hc h
  have idle (hb : s.status.busy = false) : s.phase = .idle ∨ s.phase = .doneOk ∨ s.phase = .doneErr :=
    Phase.busy_eq_false_iff.1 (hc.busyPhase ▸ hb)
  by_cases hturn : EngineTurn s
  · rw [step_engineTurn hturn] at h
    have hc' : StatusCoherent { s with host := s.host.tail } := hc.of_registers rfl rfl
    rcases phase_engineTurn hc' h with hkept | ⟨hs, hrow⟩ | ⟨hs, hb, hend⟩
    · exact .inl hkept
    · exact .inr (.inl ⟨hturn, hs, hrow⟩)
    · have hworking : ¬ (s.phase = .idle ∨ s.phase = .doneOk ∨ s.phase = .doneErr) := fun hi =>
        absurd (hb.symm.trans (Phase.busy_eq_false_iff.2 hi)) nofun
      exact .inr (.inr (.inr (.inr (.inr ⟨hturn, hs, hworking, hend⟩))))
  · cases hq : s.host with
    | nil => exact absurd (.inl hq) hturn
    | cons op rest =>
      cases op with
      | engine => exact absurd (.inr ⟨rest, hq⟩) hturn
      | powerOn =>
        rw [step_powerOn hq] at h
        cases h
        exact .inr (.inr (.inr (.inr (.inl ⟨rest, rfl, rfl⟩))))
      | read addr size =>
        rw [step_hostRead hq] at h
        exact .inl (congrArg State.phase (hostRead_accessOnly h) :)
      | write addr size v =>
        by_cases hcmd : isCommand s.params addr size = true
        · obtain ⟨rfl, rfl, hbase⟩ := isCommand_place hcmd
          rw [step_command hbase hq (decode_wordBytes v)] at h
          rcases phase_command h with hkept | ⟨rfl, hloaded, hb, hp⟩ | ⟨hv, hb, hp⟩
          · exact .inl hkept
          · exact .inr (.inr (.inl ⟨⟨rest, hq⟩, hloaded, idle hb, hp⟩))
          · have hwritten : CommandWritten s 1 ∨ CommandWritten s 3 := by
              rcases hv with rfl | rfl
              · exact .inl ⟨rest, hq⟩
              · exact .inr ⟨rest, hq⟩
            exact .inr (.inr (.inr (.inl ⟨hwritten, idle hb, hp⟩)))
        · rw [step_hostWrite hq fun hp => hcmd (beq_iff_eq.2 hp)] at h
          exact .inl (congrArg State.phase (hostWrite_accessOnly h) :)
end

section
/-! PROOF. The shifts of the upsampling (47_upsample_colour.md R361): the least ones, and for a channel that passed the
degenerate guard the logarithms of the factor ratios (R370). -/

namespace Sys2Proof.Machine

variable {size full k : Nat}

/-! ### The least shift -/

/-- A shift of 16 takes any size but 0 past 65535, and a size of 0 reaches nothing but 0. -/
theorem isLeast_shift_lt (h : IsLeast { k : Nat | full ≤ size * 2 ^ k } k) (hfull : full ≤ 65535) : k < 17 := by
  rcases Nat.eq_zero_or_pos size with rfl | hsize
  · have hreach : full ≤ 0 * 2 ^ k := h.1
    have hleast : k ≤ 0 := h.2 (show full ≤ 0 * 2 ^ 0 by omega)
    omega
  · have hleast : k ≤ 16 := h.2 (show full ≤ size * 2 ^ 16 by omega)
    omega

/-- The search stops at the least shift that reaches the size: it tries every shift that a size of 16 bits can need. -/
theorem leastShift_eq_of_isLeast (h : IsLeast { k : Nat | full ≤ size * 2 ^ k } k) (hfull : full ≤ 65535) :
    leastShift size full = k := by
  have hfind : (List.range 17).find? (fun s => decide (full ≤ size <<< s)) = some k := by
    refine List.find?_range_eq_some.2 ⟨?_, List.mem_range.2 (isLeast_shift_lt h hfull), fun j hj => ?_⟩
    · simpa [Nat.shiftLeft_eq] using h.1
    · simpa [Nat.shiftLeft_eq] using fun hreach => Nat.not_le.2 hj (h.2 hreach)
  rw [leastShift, hfind, Option.getD_some]

/-! ### The size of a subsampled channel -/

theorem ceilDiv_mul_mul (w n : Nat) {b : Nat} (hb : 0 < b) : ceilDiv (w * b) (b * n) = ceilDiv w n := by
  rcases Nat.eq_zero_or_pos n with rfl | hn
  · rw [Nat.mul_zero, ceilDiv, ceilDiv, Nat.div_zero, Nat.div_zero]
  · have hsum : w * b + b * n - 1 = b * (w + n - 1) + (b - 1) := by
      have hpred : b * (w + n - 1) + b = b * (w + n) := by
        rw [← Nat.mul_succ, Nat.succ_eq_add_one, Nat.sub_add_cancel (by omega)]
      rw [Nat.mul_add, Nat.mul_comm b w] at hpred
      omega
    rw [ceilDiv, hsum, ← Nat.div_div_eq_div_mul, Nat.mul_add_div hb, Nat.div_eq_of_lt (Nat.sub_lt hb Nat.one_pos),
      Nat.add_zero, ceilDiv]

/-- Rounding up adds less than one divisor. -/
theorem ceilDiv_mul_bounds (w : Nat) {n : Nat} (hn : 0 < n) : w ≤ ceilDiv w n * n ∧ ceilDiv w n * n < w + n := by
  have hdiv := Nat.div_add_mod' (w + n - 1) n
  have hmod := Nat.mod_lt (w + n - 1) hn
  rw [ceilDiv]
  omega

/-- A subsampled channel of two samples or more stays short of the image at half its ratio, and so at any shift below. -/
theorem isLeast_ceilDiv {w a : Nat} (hwide : a ≠ 0 → 2 ≤ ceilDiv w (2 ^ a)) :
    IsLeast { k : Nat | w ≤ ceilDiv w (2 ^ a) * 2 ^ k } a := by
  obtain ⟨hreach, hexcess⟩ := ceilDiv_mul_bounds w (Nat.two_pow_pos a)
  generalize ceilDiv w (2 ^ a) = size at *
  refine ⟨hreach, fun k (hk : w ≤ size * 2 ^ k) => Nat.not_lt.1 fun hlt => ?_⟩
  obtain ⟨d, rfl⟩ := Nat.exists_eq_add_one.2 (Nat.zero_lt_of_lt hlt)
  have hhalf : w ≤ size * 2 ^ d :=
    hk.trans (Nat.mul_le_mul_left _ (Nat.pow_le_pow_right Nat.two_pos (Nat.le_of_lt_succ hlt)))
  have htwo := Nat.mul_le_mul_right (2 ^ d) (hwide d.succ_ne_zero)
  rw [Nat.pow_succ, ← Nat.mul_assoc] at hexcess
  omega

end Sys2Proof.Machine

open Sys2Proof Sys2Proof.Machine Sys2Proof.Claims

/-- Settles O39: the channel's size is the image's over the factor ratio, rounded up, and the ratio is the least shift. -/
theorem shiftIsTheFactorRatio : Obligations.ShiftIsTheFactorRatio := by
  intro w hmax hs a _ hle _ hlegal hratio hguard
  have hpos : 0 < hs := by
    rcases hlegal with rfl | rfl | rfl <;> decide
  have hsize : ceilDiv (w * hs) hmax = ceilDiv w (2 ^ a) := by rw [hratio, ceilDiv_mul_mul w _ hpos]
  rw [hsize] at hguard ⊢
  have hsmaller (ha : a ≠ 0) : hs ≠ hmax := hratio ▸ (lt_mul_of_one_lt_right hpos (Nat.one_lt_two_pow ha)).ne
  have hwide (ha : a ≠ 0) : 2 ≤ ceilDiv w (2 ^ a) := Nat.le_of_succ_le (hguard (hsmaller ha))
  exact leastShift_eq_of_isLeast (isLeast_ceilDiv hwide) hle
end

section
/-! PROOF. The upsampling of a channel (47_upsample_colour.md R360 to R364): what its plane then holds, and what follows. -/

namespace Sys2Proof.Machine

open Sys2Proof.Claims

variable {s : State} {c : Fin 3} {m : Memory}

/-! ### The replicated plane -/

theorem Memory.read_cellsFrom_zero {d : Nat} {bytes : List Byte} {a : Nat} {v : Byte} (h : bytes[a]? = some v) :
    Memory.read { draw := d, cells := cellsFrom 0 bytes } a = v := by
  simp [Memory.read, findCell_cellsFrom, h]

/-- The replicated samples of a plane `w` wide and `h` high, row by row with no padding (R363). -/
def replicatedPlane (m : Memory) (stride xs ys w h : Nat) : Memory :=
  { m with cells := cellsFrom 0 (replicate m stride xs ys w h) }

/-- Pixel (x, y) is the sample at the shifted position. -/
theorem read_replicatedPlane (m : Memory) (stride xs ys : Nat) {w h x y : Nat} (hy : y < h) (hx : x < w) :
    (replicatedPlane m stride xs ys w h).read (y * w + x) = m.read ((y >>> ys) * stride + (x >>> xs)) := by
  refine Memory.read_cellsFrom_zero ?_
  rw [replicate, List.getElem?_map, getElem?_pixels hy hx]
  rfl

/-! ### What the upsampling leaves and what follows it -/

theorem planes_replacePlane (hplane : s.planes.get c = some m) : (replacePlane s c).planes.get c =
    some (replicatedPlane m (s.ch.get c).stride (shiftX s c) (shiftY s c) s.frame.width s.frame.height) := by
  rw [replacePlane, Triple.get_set_same, hplane]
  rfl

/-- Every other channel keeps its plane and its record. -/
theorem replacePlane_other {d : Fin 3} (h : d ≠ c) :
    (replacePlane s c).planes.get d = s.planes.get d ∧ (replacePlane s c).ch.get d = s.ch.get d :=
  ⟨Triple.get_set_other _ _ h, Triple.get_set_other _ _ h⟩

/-- Only finishing's place moves, to the next live channel or to the output. -/
theorem afterUpsample_eq (s : State) (c : Fin 3) :
    ∃ f, FollowsChannel s c f ∧ afterUpsample s c = { s with fin := f } := by
  refine ⟨(afterUpsample s c).fin, ⟨fun d hd hlive => ?_, fun hlast => ?_⟩, ?_⟩
  · rw [afterUpsample, nextChannel_eq_some hd hlive]
  · rw [afterUpsample, nextChannel_eq_none hlast]
  · unfold afterUpsample
    split <;> rfl

/-! ### The turn -/

theorem step_upsample (hm : EngineMoves s) (hp : s.phase = .finishing) (hf : s.fin = .upsample c) :
    step s = settle (upsample c s) := by
  rw [step_eq, fetch_engine hm.quiet, engineTurn, hm.kept, hp]
  show settle (finishStep s) = _
  rw [finishStep, hf]

/-- A channel of the image's size is left as it is. -/
theorem upsample_fullSize (hx : shiftX s c = 0) (hy : shiftY s c = 0) : upsample c s = .ok (afterUpsample s c) :=
  if_pos ⟨hx, hy⟩

variable (hsmall : shiftX s c ≠ 0 ∨ shiftY s c ≠ 0)

include hsmall

/-- A smaller channel is replaced if WORK has the room (R362). -/
theorem upsample_fits (hroom : s.live + s.frame.width * s.frame.height ≤ s.params.workMemSize) :
    upsample c s = .ok (afterUpsample (replacePlane s c) c) := by
  rw [upsample, if_neg (Decidable.not_and_iff_not_or_not.2 hsmall), if_neg (Nat.not_lt.2 hroom)]

theorem upsample_noRoom (hroom : s.params.workMemSize < s.live + s.frame.width * s.frame.height) :
    upsample c s = .error ⟨.outOfMemory, s⟩ := by
  rw [upsample, if_neg (Decidable.not_and_iff_not_or_not.2 hsmall), if_pos hroom]

end Sys2Proof.Machine

open Sys2Proof Sys2Proof.Machine Sys2Proof.Claims

/-- Settles O38, by whether the channel is smaller than the image and whether WORK has the room. -/
theorem upsamplingReplicatesSamples : Obligations.UpsamplingReplicatesSamples := by
  intro s c m xs ys hm hp hf hplane hw hh hxs hys
  have hstep := step_upsample hm hp hf
  obtain rfl : shiftX s c = xs := leastShift_eq_of_isLeast hxs hw
  obtain rfl : shiftY s c = ys := leastShift_eq_of_isLeast hys hh
  refine ⟨fun hx hy => ?_, fun hsmall hroom => ?_, fun hsmall hroom => ?_⟩
  · obtain ⟨f, hfollows, hafter⟩ := afterUpsample_eq s c
    rw [upsample_fullSize hx hy, hafter] at hstep
    exact ⟨_, hstep, hfollows, rfl⟩
  · obtain ⟨f, hfollows, hafter⟩ := afterUpsample_eq (replacePlane s c) c
    rw [upsample_fits hsmall hroom, hafter] at hstep
    exact ⟨_, _, hstep, hfollows, planes_replacePlane hplane, fun y hy x hx => read_replicatedPlane _ _ _ _ hy hx,
      Triple.get_set_same .., fun d hd => replacePlane_other hd, rfl, rfl⟩
  · rw [hstep, upsample_noRoom hsmall hroom, settle_error, raiseError_eq_errorEnd (k := .outOfMemory) nofun]
end

section
/-! PROOF. The output of a one-channel image (20_memory.md R73, R74, 47_upsample_colour.md R367). -/

namespace Sys2Proof.Machine

theorem length_grayBytes (s : State) : (grayBytes s).length = s.frame.width * s.frame.height := by
  rw [grayBytes, List.length_map, length_pixels]

/-- The byte of a pixel stands at y·W + x. -/
theorem getElem?_grayBytes {s : State} {y x : Nat} (hy : y < s.frame.height) (hx : x < s.frame.width) :
    (grayBytes s)[y * s.frame.width + x]? = some (sampleAt s 0 y x) := by
  rw [grayBytes, List.getElem?_map, getElem?_pixels hy hx]
  rfl

/-- A one-channel image is written as its samples alone. -/
theorem outMem_writeOutput_gray {s : State} (hn : s.frame.channels = 1) :
    (writeOutput s).outMem = s.outMem.writeBytes 0 (grayBytes s) := by
  rw [writeOutput, if_neg (by rw [hn]; decide)]

end Sys2Proof.Machine

open Sys2Proof Sys2Proof.Machine

/-- Settles O41: the output step writes `grayBytes`, of which pixel (x, y) is the one at y·W + x. -/
theorem grayOutputIsThePlane : Obligations.GrayOutputIsThePlane := by
  intro s p hm hp hf hn hplane
  refine ⟨(writeOutput s).outMem, step_output hm hp hf, fun y hy x hx => ?_, fun a ha => ?_⟩ <;>
    rw [outMem_writeOutput_gray hn]
  · exact (Memory.read_writeBytes_getElem? (getElem?_grayBytes hy hx)).trans (sampleAt_eq hplane y x)
  · refine Memory.read_writeBytes_other _ _ _ _ (.inr ?_)
    rw [length_grayBytes, Nat.zero_add]
    exact ha
end

section
/-! PROOF. Decode of encode and encode of decode (30_encoding.md R90 to R103): in each format a word that is read gives
a well-formed instruction that encodes to it, and the word of a well-formed instruction is read as that instruction. -/

namespace Sys2Proof

/-! ### Pieces of a word -/

theorem nibbles_append (b : Byte) : b.extractLsb' 4 4 ++ b.extractLsb' 0 4 = b :=
  (BitVec.extractLsb'_append_extractLsb'_eq_extractLsb' (show 4 = 0 + 4 from rfl)).trans BitVec.extractLsb'_eq_self

theorem restartBits_append (b : Byte) : b.extractLsb' 3 5 ++ b.extractLsb' 0 3 = b :=
  (BitVec.extractLsb'_append_extractLsb'_eq_extractLsb' (show 3 = 0 + 3 from rfl)).trans BitVec.extractLsb'_eq_self

/-- Four bytes put together, highest first, are taken apart again (20_memory.md R78). -/
theorem wordBytes_append (b3 b2 b1 b0 : Byte) : wordBytes (b3 ++ b2 ++ b1 ++ b0) = [b0, b1, b2, b3] := by
  have tail {n : Nat} (hi : BitVec n) (lo : Byte) (start : Nat) (h : 8 ≤ start) :
      (hi ++ lo).extractLsb' start 8 = hi.extractLsb' (start - 8) 8 := BitVec.extractLsb'_append_eq_of_le h
  have head {n : Nat} (hi : BitVec n) (lo : Byte) : (hi ++ lo).extractLsb' 0 8 = lo :=
    BitVec.extractLsb'_append_eq_right
  have h1 := tail (b3 ++ b2 ++ b1) b0 8 (by decide)
  have h2 := tail (b3 ++ b2 ++ b1) b0 16 (by decide)
  have h3 := tail (b3 ++ b2 ++ b1) b0 24 (by decide)
  rw [head] at h1
  rw [tail (b3 ++ b2) b1 8 (by decide), head] at h2
  rw [tail (b3 ++ b2) b1 16 (by decide), tail b3 b2 8 (by decide), BitVec.extractLsb'_eq_self] at h3
  unfold wordBytes
  exact congrArg₂ List.cons (head _ _) (congrArg₂ List.cons h1 (congrArg₂ List.cons h2 (congrArg (· :: []) h3)))

/-! ### The words of a format -/

/-- `word` is the encoding of `i`, a well-formed instruction of format `f`. -/
structure Instr.IsWord (i : Instr) (f : Format) (word : List Byte) : Prop where
  wellFormed : i.wellFormed = true
  format : i.format = f
  encode : encode i = word

/-- R91: three values are commands, and every other one is reserved. -/
theorem decodeCommand_isWord (v : Word) : (decodeCommand v).IsWord .cmd32 (wordBytes v) := by
  by_cases h : v = 1#32 ∨ v = 2#32 ∨ v = 3#32
  · rcases h with rfl | rfl | rfl <;> exact ⟨rfl, rfl, rfl⟩
  · simp only [not_or] at h
    rw [Machine.decodeCommand_reserved h]
    exact ⟨by simp [Instr.wellFormed, h], rfl, rfl⟩

/-- R93, `FF En`. -/
theorem decodeMarkerKind_appn : ∀ n : BitVec 4, decodeMarkerKind (0xE#4 ++ n) = .appn n := by decide

/-- A byte outside the map of R93 is read as it stands. -/
theorem decodeMarkerKind_unmapped {kk : Byte} (h : mappedMarker kk = false) :
    decodeMarkerKind kk = .markerOther kk := by
  simp only [mappedMarker, Bool.or_eq_false_iff, beq_eq_false_iff_ne] at h
  simp [decodeMarkerKind, h]

theorem decodeMarkerKind_isWord (kk : Byte) : (decodeMarkerKind kk).IsWord .marker [0xFF#8, kk] := by
  cases h : mappedMarker kk with
  | false =>
    rw [decodeMarkerKind_unmapped h]
    exact ⟨by rw [Instr.wellFormed, h]; rfl, rfl, rfl⟩
  | true =>
    simp only [mappedMarker, Bool.or_eq_true, beq_iff_eq] at h
    rcases h with hfixed | happ
    · rcases hfixed with (((((rfl | rfl) | rfl) | rfl) | rfl) | rfl) | rfl <;> exact ⟨rfl, rfl, rfl⟩
    · rw [← nibbles_append kk, happ, decodeMarkerKind_appn]
      exact ⟨rfl, rfl, rfl⟩

/-- R100, `FF Dn`. -/
theorem ecsPair_rst : ∀ n : BitVec 3, ecsPair (0b11010#5 ++ n) = .rst n := by decide

/-- A second byte that R100 gives no form is illegal. -/
theorem ecsPair_illegal {x : Byte} (h : legalFollower x = false) : ecsPair x = .illegal x := by
  simp only [legalFollower, Bool.or_eq_false_iff, beq_eq_false_iff_ne] at h
  simp [ecsPair, h]

theorem ecsPair_isWord (x : Byte) : (ecsPair x).toInstr.IsWord .ecsByte [0xFF#8, x] := by
  cases h : legalFollower x with
  | false =>
    rw [ecsPair_illegal h]
    exact ⟨by rw [EcsForm.toInstr, Instr.wellFormed, h]; rfl, rfl, rfl⟩
  | true =>
    simp only [legalFollower, Bool.or_eq_true, beq_iff_eq] at h
    rcases h with hfixed | hrst
    · rcases hfixed with (rfl | rfl) | rfl <;> exact ⟨rfl, rfl, rfl⟩
    · rw [← restartBits_append x, hrst, ecsPair_rst]
      exact ⟨rfl, rfl, rfl⟩

/-- A byte other than `FF` is a data byte. -/
theorem decodeEcs_data {b : Byte} (h : b ≠ 0xFF#8) (rest : List Byte) : decodeEcs (b :: rest) = .ok (.data b, rest) :=
  if_neg h

theorem ecsData_isWord {b : Byte} (h : b ≠ 0xFF#8) : (EcsForm.data b).toInstr.IsWord .ecsByte [b] :=
  ⟨bne_iff_ne.2 h, rfl, rfl⟩

/-- R102: every symbol of a DC slot is one instruction. -/
theorem decodeDcSymbol_append (high low : BitVec 4) : decodeDcSymbol (high ++ low) = .dcDiff low high := by
  rw [decodeDcSymbol, BitVec.extractLsb'_append_eq_right, BitVec.extractLsb'_append_eq_left]

theorem decodeDcSymbol_isWord (sym : Byte) : (decodeDcSymbol sym).IsWord .dcSym8 [sym] :=
  ⟨rfl, rfl, congrArg (· :: []) (nibbles_append sym)⟩

/-- R103, a symbol with a size. -/
theorem decodeAcSymbol_runVal {run size : BitVec 4} (h : size ≠ 0#4) :
    decodeAcSymbol (run ++ size) = .acRunVal run size := by
  revert run size
  decide

/-- R103, a symbol with no size that is neither AC_EOB nor AC_ZRL. -/
theorem decodeAcSymbol_illegal {run : BitVec 4} (h0 : run ≠ 0x0#4) (hF : run ≠ 0xF#4) :
    decodeAcSymbol (run ++ 0x0#4) = .acIllegal run := by
  revert run
  decide

theorem decodeAcSymbol_isWord (sym : Byte) : (decodeAcSymbol sym).IsWord .acSym8 [sym] := by
  rw [← nibbles_append sym]
  generalize sym.extractLsb' 4 4 = run, sym.extractLsb' 0 4 = size
  by_cases hs : size = 0#4
  · subst hs
    by_cases hr : run = 0x0#4 ∨ run = 0xF#4
    · rcases hr with rfl | rfl <;> exact ⟨rfl, rfl, rfl⟩
    · simp only [not_or] at hr
      rw [decodeAcSymbol_illegal hr.1 hr.2]
      exact ⟨by simp [Instr.wellFormed, hr], rfl, rfl⟩
  · rw [decodeAcSymbol_runVal hs]
    exact ⟨bne_iff_ne.2 hs, rfl, rfl⟩

/-! ### Words followed by other bytes -/

theorem decodeEcs_isWord {bytes rest : List Byte} {form : EcsForm} (h : decodeEcs bytes = .ok (form, rest)) :
    ∃ word, form.toInstr.IsWord .ecsByte word ∧ bytes = word ++ rest := by
  rcases bytes with _ | ⟨b, tail⟩
  · cases h
  · by_cases hb : b = 0xFF#8
    · subst hb
      rcases tail with _ | ⟨x, tail⟩ <;> cases h
      exact ⟨_, ecsPair_isWord x, rfl⟩
    · rw [decodeEcs_data hb] at h
      cases h
      exact ⟨_, ecsData_isWord hb, rfl⟩

/-- What the decoder reads is a word of the format, at the front of the bytes. -/
theorem decode_isWord {f : Format} {bytes rest : List Byte} {i : Instr} (h : decode f bytes = .ok (i, rest)) :
    ∃ word, i.IsWord f word ∧ bytes = word ++ rest := by
  cases f with
  | cmd32 =>
    rcases bytes with _ | ⟨b0, _ | ⟨b1, _ | ⟨b2, _ | ⟨b3, tail⟩⟩⟩⟩ <;> cases h
    exact ⟨_, decodeCommand_isWord _, by rw [wordBytes_append]; rfl⟩
  | framing =>
    rcases bytes with _ | ⟨b0, _ | ⟨b1, tail⟩⟩
    · cases h
    · cases h
    · by_cases hsoi : b0 = 0xFF#8 ∧ b1 = 0xD8#8
      · rw [decode, if_pos hsoi] at h
        obtain ⟨rfl, rfl⟩ := hsoi
        cases h
        exact ⟨_, ⟨rfl, rfl, rfl⟩, rfl⟩
      · rw [decode, if_neg hsoi] at h
        cases h
  | marker =>
    rcases bytes with _ | ⟨b0, _ | ⟨kk, tail⟩⟩
    · cases h
    · cases h
    · by_cases hff : b0 = 0xFF#8
      · rw [decode, if_pos hff] at h
        subst hff
        cases h
        exact ⟨_, decodeMarkerKind_isWord kk, rfl⟩
      · rw [decode, if_neg hff] at h
        cases h
  | ecsByte =>
    rw [decode] at h
    rcases hd : decodeEcs bytes with e | ⟨form, tail⟩ <;> rw [hd] at h <;> cases h
    exact decodeEcs_isWord hd
  | dcSym8 =>
    rcases bytes with _ | ⟨sym, tail⟩ <;> cases h
    exact ⟨_, decodeDcSymbol_isWord sym, rfl⟩
  | acSym8 =>
    rcases bytes with _ | ⟨sym, tail⟩ <;> cases h
    exact ⟨_, decodeAcSymbol_isWord sym, rfl⟩

variable (rest : List Byte)

theorem decode_wordBytes_append (v : Word) : decode .cmd32 (wordBytes v ++ rest) = .ok (decodeCommand v, rest) := by
  have hv := congrArg Prod.fst (Except.ok.inj (Machine.decode_wordBytes v))
  exact congrArg (fun i => Except.ok (i, rest)) hv

theorem decode_ecsPair (x : Byte) : decode .ecsByte (0xFF#8 :: x :: rest) = .ok ((ecsPair x).toInstr, rest) := rfl

theorem decode_ecsData {b : Byte} (h : b ≠ 0xFF#8) : decode .ecsByte (b :: rest) = .ok (.ecsData b, rest) := by
  rw [decode, decodeEcs_data h]
  rfl

/-- The word of a well-formed instruction is read as it: the rows that name a whole word by computation, and the rows
with open fields because their conditions keep them off the others. -/
theorem decode_encode {i : Instr} (h : i.wellFormed = true) : decode i.format (encode i ++ rest) = .ok (i, rest) := by
  have read {f : Format} {bytes : List Byte} {j : Instr} (hd : decode f bytes = .ok (j, rest)) (hj : j = i) :
      decode f bytes = .ok (i, rest) := hj ▸ hd
  cases i with
  | cmdReserved v =>
    have hv : (v ≠ 1 ∧ v ≠ 2) ∧ v ≠ 3 := by simpa [Instr.wellFormed] using h
    exact read (decode_wordBytes_append rest v) (Machine.decodeCommand_reserved ⟨hv.1.1, hv.1.2, hv.2⟩)
  | appn n => exact read (j := decodeMarkerKind (0xE#4 ++ n)) rfl (decodeMarkerKind_appn n)
  | markerOther kk =>
    have hkk : mappedMarker kk = false := by simpa [Instr.wellFormed] using h
    exact read (j := decodeMarkerKind kk) rfl (decodeMarkerKind_unmapped hkk)
  | ecsData b => exact decode_ecsData rest (bne_iff_ne.1 h)
  | ecsRst n => exact read (decode_ecsPair rest _) (congrArg EcsForm.toInstr (ecsPair_rst n))
  | ecsIllegal x =>
    have hx : legalFollower x = false := by simpa [Instr.wellFormed] using h
    exact read (decode_ecsPair rest x) (congrArg EcsForm.toInstr (ecsPair_illegal hx))
  | dcDiff size ignored => exact read (j := decodeDcSymbol (ignored ++ size)) rfl (decodeDcSymbol_append ignored size)
  | acRunVal run size =>
    exact read (j := decodeAcSymbol (run ++ size)) rfl (decodeAcSymbol_runVal (bne_iff_ne.1 h))
  | acIllegal run =>
    obtain ⟨h0, hF⟩ := Bool.and_eq_true_iff.1 h
    exact read (j := decodeAcSymbol (run ++ 0x0#4)) rfl (decodeAcSymbol_illegal (bne_iff_ne.1 h0) (bne_iff_ne.1 hF))
  | _ => rfl

end Sys2Proof

open Sys2Proof

/-- Settles O2, instruction by instruction. -/
theorem decodeOfEncodeIsTheInstruction : Obligations.DecodeOfEncodeIsTheInstruction := fun _ rest h =>
  decode_encode rest h

/-- Settles O3, format by format. -/
theorem encodeOfDecodeIsTheBytes : Obligations.EncodeOfDecodeIsTheBytes := by
  intro f bytes rest i h
  obtain ⟨word, hword, rfl⟩ := decode_isWord h
  exact ⟨hword.wellFormed, hword.format, by rw [hword.encode]⟩
end

section
/-! PROOF. No instruction stops the machine (60_exceptions.md R401, R408), and a power-on reset in any state
(70_reset_and_hazards.md R440, R441). -/

namespace Sys2Proof.Machine

/-- An instruction either ends in one way or settles a computation, whose error ends the decode only. -/
theorem exec_next (i : Instr) (s : State) : ∃ t, exec i s = .next t := by
  cases i with
  | load | decode | flush | cmdReserved | eoi | markerOther | acEob | acIllegal => exact ⟨_, rfl⟩
  | ecsData | ecsStuff | ecsFill | ecsEnd | ecsRst | ecsIllegal => exact ⟨_, rfl⟩
  | _ => exact settle_next _

/-- The registers hold what the reset state's do. -/
theorem regRead_powerOnReset (s : State) (off : Nat) : regRead (powerOnReset s) off = 0 :=
  (rfl : _ = regRead State.reset off).trans (regRead_reset off)

theorem lookupEntry_powerOnReset (s : State) (slot : Fin 4) (x : Nat) :
    lookupEntry ((powerOnReset s).ht.get slot) x = (0, 0) :=
  congrArg (lookupEntry · x) (ht_reset slot)

end Sys2Proof.Machine

open Sys2Proof Sys2Proof.Machine

/-- Settles O8: an error is a next state (log entry 23). -/
theorem everyInstructionGoesOn : Obligations.EveryInstructionGoesOn := exec_next

/-- Settles O54: the state after the step is `powerOnReset`, whose fields but the parameters, the queue and the memories
are the reset state's. -/
theorem powerOnAbandonsTheDecode : Obligations.PowerOnAbandonsTheDecode := fun _ _ hs =>
  ⟨_, step_powerOn hs, rfl, rfl, regRead_powerOnReset _, rfl, rfl, rfl, rfl, rfl, fun q => Quad.get_fill false q,
    lookupEntry_powerOnReset _, rfl, rfl⟩
end

section
/-! PROOF. What a marker's handler that goes on does to the frame, the channels and the planes (41_segment_parser.md
R150 to R164): nothing, or it loads an accepted frame, or it starts a scan. -/

namespace Sys2Proof.Machine

open Sys2Proof.Claims

variable {s t u : State} {w h nc len : Nat} {g : Segment} {k : ErrCode}

/-! ### A frame that is accepted -/

/-- A segment that is read stands whole at CURSOR (R152). -/
theorem segmentAt_of_readSegment (h : readSegment s = .ok (g, t)) : SegmentAt s (be16 s s.cursor) := by
  obtain ⟨⟨-, hlength, hinside⟩, -, -⟩ := readSegment_ok.1 h
  exact ⟨rfl, hlength, hinside⟩

/-- A sampling byte or table byte that does not pass raises an error (R155). -/
theorem channelAnswer_some {i : Nat} (hp : ¬ channelPasses s i) : ∃ k, channelAnswer s i = some k := by
  have hnibble {f : Nat} (hf : f < 16) (hn : factorError f = none) : goodFactor f := by
    by_contra hbad
    by_cases hs : f = 0 ∨ f = 8
    · rw [factorError_syntax hs] at hn; cases hn
    · rw [factorError_unsupported hf hs hbad] at hn; cases hn
  refine Option.ne_none_iff_exists'.1 fun hnone => hp ?_
  rw [channelAnswer_eq, Option.or_eq_none_iff, Option.or_eq_none_iff] at hnone
  obtain ⟨hhigh, hlow, htable⟩ := hnone
  refine ⟨hnibble (Nat.div_lt_of_lt_mul (BitVec.isLt _)) hhigh, hnibble (Nat.mod_lt _ (by decide)) hlow, ?_⟩
  by_contra hlarge
  rw [if_neg hlarge] at htable
  cases htable

/-- The first channel that does not pass ends the parse. -/
theorem parseSof_of_channelAnswer {i : Nat} (hd : SofHeader s len w h nc) (hi : i < nc)
    (hlist : ∀ j < i, channelPasses s j) (ha : channelAnswer s i = some k) : ∃ u, parseSof s = .error ⟨k, u⟩ := by
  have hnc := channels_le_three hd.channels
  have hloop := foldlM_channels_error (c := ⟨i, by omega⟩) (f := readChannel (payloadAt s len)) hnc hi
    (fun d hdi => loads_readChannel (hlist d hdi)) (raises_readChannel ha)
  exact ⟨_, (parseSof_of_header hd).trans (parseFrame_of_error hloop)⟩

/-- A parse that goes on has a header that passes its checks (R155). -/
theorem sofHeader_of_ok (hok : parseSof s = .ok t) : ∃ len w h nc, SofHeader s len w h nc := by
  cases hseen : s.frame.seen with
  | true =>
    rw [parseSof_seen_raises hseen] at hok
    cases hok
  | false =>
    obtain ⟨f, hf⟩ := parseSof_unseen hseen
    rcases hread : readSegment s with e | ⟨g, v⟩
    · rw [hf, hread] at hok
      cases hok
    · have hseg := segmentAt_of_readSegment hread
      rw [parseSof_at hseen hseg] at hok
      split_ifs at hok with h8 hprec hzero hcount hsize
      exact ⟨_, _, _, _, hseen, hseg, not_not.1 hprec, rfl, rfl, by omega, rfl, by omega, by omega⟩

/-- A parse that goes on has accepted its frame (R155, R157, R158). -/
theorem sofAccepted_of_ok (hok : parseSof s = .ok t) :
    ∃ len w h nc, SofAccepted s len w h nc ∧ t = sofLoaded s len w h nc := by
  obtain ⟨len, w, h, nc, hd⟩ := sofHeader_of_ok hok
  have hlist : ∀ i < nc, channelPasses s i := by
    intro i
    induction i using Nat.strong_induction_on with
    | _ i ih =>
      intro hi
      by_contra hp
      obtain ⟨k, ha⟩ := channelAnswer_some hp
      obtain ⟨u, hu⟩ := parseSof_of_channelAnswer hd hi (fun j hj => ih j hj (hj.trans hi)) ha
      rw [hu] at hok
      cases hok
  have hguard : ∀ i < nc, guardPasses s w h nc i := by
    intro i hi
    by_contra hg
    rw [parseSof_of_degenerate hd hlist ⟨i, hi, hg⟩] at hok
    cases hok
  have hfits : imageFits s w h nc := by
    by_contra hf
    rw [parseSof_of_tooLarge hd hlist hguard hf] at hok
    cases hok
  have ha : SofAccepted s len w h nc := ⟨hd, hlist, hguard, hfits⟩
  rw [parseSof_of_accepted ha] at hok
  exact ⟨len, w, h, nc, ha, (Except.ok.inj hok).symm⟩

/-! ### The other handlers -/

/-- The fields of a channel record that place its blocks: HS, VS, STRIDE and ROWS (10_state.md R37). -/
def Channel.shape (r : Channel) : Nat × Nat × Nat × Nat := (r.hs, r.vs, r.stride, r.rows)

/-- Every channel has the shape it had. -/
def ShapesKept (s t : State) : Prop := ∀ c, (t.ch.get c).shape = (s.ch.get c).shape

theorem ShapesKept.refl (s : State) : ShapesKept s s := fun _ => rfl

theorem ShapesKept.trans (h : ShapesKept s t) (h' : ShapesKept t u) : ShapesKept s u := fun c => (h' c).trans (h c)

theorem shapesKept_setChannel {c : Fin 3} {r : Channel} (hr : r.shape = (s.ch.get c).shape) :
    ShapesKept s (setChannel s c r) := by
  intro d
  rw [setChannel_ch, Triple.get_set]
  split
  · next hd => rw [hr, hd]
  · rfl

/-- A handler that keeps the frame, the channels' shapes and the planes, and moves CURSOR forward only. -/
structure FrameKept (s t : State) : Prop extends HeaderKept s t where
  frame : t.frame = s.frame
  planes : t.planes = s.planes
  shapes : ShapesKept s t
  forward : s.cursor ≤ t.cursor

theorem FrameKept.refl (s : State) : FrameKept s s := ⟨.refl s, rfl, rfl, .refl s, le_rfl⟩

theorem FrameKept.trans (h : FrameKept s t) (h' : FrameKept t u) : FrameKept s u :=
  ⟨h.toHeaderKept.trans h'.toHeaderKept, h'.frame.trans h.frame, h'.planes.trans h.planes, h.shapes.trans h'.shapes,
    h.forward.trans h'.forward⟩

theorem frameKept_segment (hfit : SegmentFits s) : FrameKept s { s with cursor := s.cursor + be16 s s.cursor } :=
  ⟨headerKept_segment hfit, rfl, rfl, .refl s, Nat.le_add_right ..⟩

/-- What follows a part of a handler that keeps the frame. -/
theorem Ends.afterFrame {r : Except Abort State} (hu : FrameKept s u) (hr : Ends (FrameKept u) (HeaderKept u) r) :
    Ends (FrameKept s) (HeaderKept s) r :=
  hr.mono (fun _ => hu.trans) fun _ => hu.toHeaderKept.trans

theorem selectTables_frameKept (g : Segment) (s : State) (c : Fin 3) :
    Ends (FrameKept s) (HeaderKept s) (selectTables g s c) := by
  unfold selectTables
  dsimp only
  split
  · exact .refl s
  · split
    · exact .refl s
    · exact ⟨⟨rfl, id, id⟩, rfl, rfl, shapesKept_setChannel rfl, le_rfl⟩

theorem parseDht_frameKept (s : State) : Ends (FrameKept s) (HeaderKept s) (parseDht s) := by
  unfold parseDht
  refine .readSegment (.refl s) fun hfit => .afterFrame (frameKept_segment hfit) ?_
  dsimp only
  rcases parseDefinitions_result _ _ 0 { s with cursor := s.cursor + be16 s s.cursor } with ⟨ht, h⟩ | ⟨ht, k, h⟩ <;>
    rw [h]
  · exact ⟨⟨rfl, id, id⟩, rfl, rfl, .refl _, le_rfl⟩
  · exact ⟨rfl, id, id⟩

theorem parseDqt_frameKept (s : State) : Ends (FrameKept s) (HeaderKept s) (parseDqt s) := by
  unfold parseDqt
  refine .readSegment (.refl s) fun hfit => .afterFrame (frameKept_segment hfit) ?_
  dsimp only
  rcases parseQuantGroups_result _ _ 0 { s with cursor := s.cursor + be16 s s.cursor } with ⟨q, l, h⟩ | ⟨q, l, h⟩ <;>
    rw [h]
  · exact ⟨⟨rfl, id, id⟩, rfl, rfl, .refl _, le_rfl⟩
  · exact ⟨rfl, id, id⟩

theorem parseDri_frameKept (s : State) : Ends (FrameKept s) (HeaderKept s) (parseDri s) := by
  unfold parseDri
  refine .readSegment (.refl s) fun hfit => .failIf (headerKept_segment hfit) ?_
  exact (frameKept_segment hfit).trans ⟨⟨rfl, id, fun _ => be16_lt _ _⟩, rfl, rfl, .refl _, le_rfl⟩

theorem skipSegment_frameKept (s : State) : Ends (FrameKept s) (HeaderKept s) (skipSegment s) := by
  unfold skipSegment
  exact .readSegment (.refl s) fun hfit => frameKept_segment hfit

/-! ### Every handler -/

/-- How a marker's handler goes on: with the frame as it was, with an accepted one, or at the start of a scan of the
frame (46_scan_decoder.md R330). -/
inductive HeaderTurn (s : State) : State → Prop
  | kept {t : State} (same : FrameKept s t) : HeaderTurn s t
  | framed {len w h nc : Nat} (accepted : SofAccepted s len w h nc) : HeaderTurn s (sofLoaded s len w h nc)
  | scan {u : State} (seen : s.frame.seen = true) (same : FrameKept s u) : HeaderTurn s (startScan u.cursor u)

theorem parseSof_turn (s : State) : Ends (HeaderTurn s) (HeaderKept s) (parseSof s) := by
  have hends := parseSof_ends s
  rcases hr : parseSof s with e | t
  · rw [hr] at hends
    exact hends
  · obtain ⟨len, w, h, nc, ha, rfl⟩ := sofAccepted_of_ok hr
    exact .framed ha

theorem parseSos_turn (s : State) : Ends (HeaderTurn s) (HeaderKept s) (parseSos s) := by
  unfold parseSos
  cases hseen : s.frame.seen with
  | false => exact HeaderKept.refl s
  | true =>
    refine .readSegment (.refl s) fun hfit => ?_
    have hg := frameKept_segment hfit
    have hg' := hg.toHeaderKept
    refine .failIf hg' (.failIf hg' (.failIf hg' ?_))
    refine (Ends.foldlM (fun u c hu => .afterFrame hu (selectTables_frameKept _ u c)) _ hg).bind fun u hu => ?_
    exact .failIf hu.toHeaderKept (.failIf hu.toHeaderKept (.scan hseen hu))

theorem exec_marker_turn {i : Instr} (hi : i.format = .marker) (s : State) :
    ∃ r, exec i s = settle r ∧ Ends (HeaderTurn s) (HeaderKept s) r := by
  have same {r : Except Abort State} (h : Ends (FrameKept s) (HeaderKept s) r) :
      Ends (HeaderTurn s) (HeaderKept s) r := h.mono (fun _ => .kept) fun _ => id
  cases i <;> cases hi
  case sof0.refl => exact ⟨_, rfl, parseSof_turn s⟩
  case dht.refl => exact ⟨_, rfl, same (parseDht_frameKept s)⟩
  case dqt.refl => exact ⟨_, rfl, same (parseDqt_frameKept s)⟩
  case dri.refl => exact ⟨_, rfl, same (parseDri_frameKept s)⟩
  case sos.refl => exact ⟨_, rfl, parseSos_turn s⟩
  case appn.refl n => exact ⟨_, rfl, same (skipSegment_frameKept s)⟩
  case com.refl => exact ⟨_, rfl, same (skipSegment_frameKept s)⟩
  case eoi.refl => exact ⟨.error ⟨.syntaxError, s⟩, rfl, HeaderKept.refl s⟩
  case markerOther.refl kk => exact ⟨.error ⟨.syntaxError, s⟩, rfl, HeaderKept.refl s⟩

/-- The framing check moves CURSOR past SOI and does nothing else (R150). -/
theorem checkFraming_turn (s : State) : Ends (· = { s with cursor := 2 }) (· = s) (checkFraming s) := by
  rw [checkFraming_eq]
  split <;> rfl

end Sys2Proof.Machine
end

section
/-! PROOF. What the turns of a scan and of finishing do to the place they are at: a symbol moves K or the block's step,
a block's end moves to the next block (46_scan_decoder.md R331 to R335), and finishing to its next part
(47_upsample_colour.md R360). -/

namespace Sys2Proof.Machine

open Sys2Proof.Claims

variable {s t u : State} {c : Fin 3}

/-! ### Symbols -/

/-- The symbols a block can still hold, its end among them: K moves at every symbol and stays below 64. -/
def symbolsLeft (s : State) : Nat :=
  match s.scan.step with
  | .dc => 65
  | .ac => 64 - s.k
  | .idct => 0

/-- A symbol that goes on keeps the channels' shapes, and the block comes nearer to its end. -/
structure SymbolTurn (s t : State) : Prop extends SymbolKept s t where
  shapes : ShapesKept s t
  nearer : s.k ≤ 63 → symbolsLeft t < symbolsLeft s

theorem ReaderOnly.ch_k_scan (h : ReaderOnly s t) : t.ch = s.ch ∧ t.k = s.k ∧ t.scan = s.scan := by
  obtain ⟨r, e, rfl⟩ := h
  exact ⟨rfl, rfl, rfl⟩

theorem shapesKept_storeDc (d : Word) (s : State) : ShapesKept s (storeDc d s) :=
  shapesKept_setChannel (r := { current s with pred := (current s).pred + d }) rfl

/-- A DC symbol: the AC coefficients are next, from index 0. -/
theorem dcDiff_turn {size : Nat} (hk : size ≤ 16) (hs : s.scan.step = .dc) :
    Ends (SymbolTurn s) (SymbolKept s) (receiveExtend size s >>= fun p => .ok (storeDc p.1 p.2)) := by
  refine (receiveExtend_symbol hk s).bind fun ⟨d, u⟩ hu => ⟨(symbolDone_storeDc d hu).toSymbolKept, ?_, fun _ => ?_⟩
  · obtain ⟨⟨r, e, rfl⟩, -⟩ := hu
    exact shapesKept_storeDc d _
  · rw [symbolsLeft, symbolsLeft, hs]
    exact Nat.lt_succ_self 64

theorem storeAc_ch_k_step (v : Word) (s : State) : (storeAc v s).ch = s.ch ∧ (storeAc v s).k = s.k ∧
    ((storeAc v s).scan.step = s.scan.step ∨ (storeAc v s).scan.step = .idct) := by
  unfold storeAc
  dsimp only
  split
  · exact ⟨rfl, rfl, .inr rfl⟩
  · exact ⟨rfl, rfl, .inl rfl⟩

/-- An AC coefficient: K moves up, and not past 63. -/
theorem runValue_turn {run size : Nat} (hr : run ≤ 15) (hk : size ≤ 16) (hs : s.scan.step = .ac) :
    Ends (SymbolTurn s) (SymbolKept s) (runValue run size s) := by
  unfold runValue
  refine (receiveExtend_symbol hk s).bind fun ⟨v, u⟩ hu => ?_
  replace hu : ReaderKept s u := hu
  obtain ⟨hch, hku, hscan⟩ := hu.only.ch_k_scan
  have hn : u.k + run + 1 ≤ s.k + 16 := by omega
  dsimp only
  split
  · obtain ⟨⟨r, e, rfl⟩, -⟩ := hu
    exact ⟨rfl, hn⟩
  · next h63 =>
    obtain ⟨hch', hk', hstep⟩ := storeAc_ch_k_step v { u with k := u.k + run + 1 }
    have h63' : u.k + run + 1 ≤ 63 := Nat.not_lt.1 h63
    refine ⟨(symbolDone_storeAc v hu hn h63').toSymbolKept, fun c => by rw [hch', hch], fun _ => ?_⟩
    rw [symbolsLeft, symbolsLeft, hs, hk']
    dsimp only at hstep ⊢
    rcases hstep with hstep | hstep <;> rw [hstep]
    · rw [hscan, hs]
      dsimp only
      omega
    · dsimp only
      omega

theorem endBlock_turn (hs : s.scan.step = .ac) : SymbolTurn s (endBlock s) where
  toSymbolKept := (symbolDone_endBlock s).toSymbolKept
  shapes := .refl s
  nearer hk := by
    rw [symbolsLeft, symbolsLeft, hs]
    exact Nat.sub_pos_of_lt (Nat.lt_succ_of_le hk)

theorem exec_symbol_turn {i : Instr}
    (hi : s.scan.step = .dc ∧ i.format = .dcSym8 ∨ s.scan.step = .ac ∧ i.format = .acSym8) :
    ∃ r, exec i s = settle r ∧ Ends (SymbolTurn s) (SymbolKept s) r := by
  have nibble : ∀ n : BitVec 4, n.toNat ≤ 15 := fun n => Nat.le_of_lt_succ n.isLt
  rcases hi with ⟨hs, hi⟩ | ⟨hs, hi⟩ <;> cases i <;> cases hi
  case inl.dcDiff.refl size ignored => exact ⟨_, rfl, dcDiff_turn ((nibble size).trans (by decide)) hs⟩
  case inr.acEob.refl => exact ⟨.ok (endBlock s), rfl, endBlock_turn hs⟩
  case inr.acZrl.refl => exact ⟨_, rfl, runValue_turn le_rfl (Nat.zero_le _) hs⟩
  case inr.acRunVal.refl run size =>
    exact ⟨_, rfl, runValue_turn (nibble run) ((nibble size).trans (by decide)) hs⟩
  case inr.acIllegal.refl run => exact ⟨.error ⟨.syntaxError, s⟩, rfl, (ReaderOnly.refl s).symbolKept⟩

/-! ### The walk -/

/-- The channel after `c` is live, and one further. -/
theorem nextChannel_some {d : Fin 3} (h : nextChannel s c = some d) :
    d.val = c.val + 1 ∧ d.val < s.frame.channels := by
  match c with
  | 0 | 1 =>
    obtain ⟨hlive, hd⟩ := Option.ite_none_right_eq_some.1 h
    cases hd
    exact ⟨rfl, hlive⟩
  | 2 => cases h

/-- The scan moved to a block of the same MCU. -/
def atBlock (s : State) (c : Fin 3) (y x : Nat) : State :=
  beginBlock { s with scan := { s.scan with chan := c, sby := y, sbx := x } }

/-- The scan with another countdown. -/
def withCountdown (s : State) (n : Nat) : State := { s with scan := { s.scan with countdown := n } }

/-- The last MCU of the grid. -/
def lastMcu (s : State) : Prop := s.scan.mbx + 1 = s.frame.mbw ∧ s.scan.mby + 1 = s.frame.mbh

/-- Where the walk goes after a block: along the sample row, to the next row, to the next channel, and after the MCU to
finishing, to the restart boundary or to the next MCU. -/
inductive Walk (s : State) : State → Prop
  | row (fits : s.scan.sbx + 1 < (current s).hs) : Walk s (atBlock s s.scan.chan s.scan.sby (s.scan.sbx + 1))
  | nextRow (fits : s.scan.sby + 1 < (current s).vs) : Walk s (atBlock s s.scan.chan (s.scan.sby + 1) 0)
  | channel {d : Fin 3} (next : d.val = s.scan.chan.val + 1) (live : d.val < s.frame.channels) :
      Walk s (atBlock s d 0 0)
  | finish {sc : Scan} : Walk s (startFinish { s with scan := sc })
  | boundary {n : Nat} (more : ¬ lastMcu s) : Walk s { withCountdown (nextMcu s) n with phase := .atRestartBoundary }
  | mcu {n : Nat} (more : ¬ lastMcu s) (counts : 0 < s.ri → 0 < n) : Walk s (beginMcu (withCountdown (nextMcu s) n))

theorem ri_nextMcu (s : State) : (nextMcu s).ri = s.ri := by
  rw [nextMcu_kept]

theorem walk_countMcu (hmore : ¬ lastMcu s) : Walk s (countMcu (nextMcu s)) := by
  unfold countMcu
  split
  · next hri => exact .mcu (n := (nextMcu s).scan.countdown) hmore fun h => absurd hri (by rw [ri_nextMcu]; omega)
  · dsimp only
    split
    · exact .boundary (n := (nextMcu s).scan.countdown - 1) hmore
    · next hn => exact .mcu (n := (nextMcu s).scan.countdown - 1) hmore fun _ => Nat.pos_of_ne_zero hn

theorem walk_advanceMcu (s : State) : Walk s (advanceMcu s) := by
  by_cases hlast : lastMcu s
  · rw [advanceMcu_last hlast.1 hlast.2]
    exact .finish
  · rw [advanceMcu_notLast hlast]
    exact walk_countMcu hlast

theorem walk_advanceBlock (s : State) : Walk s (advanceBlock s) := by
  unfold advanceBlock
  split
  · next hx => exact .row hx
  · split
    · next hy => exact .nextRow hy
    · split
      · next d hd => exact .channel (nextChannel_some hd).1 (nextChannel_some hd).2
      · exact walk_advanceMcu s

/-! ### Finishing -/

/-- The parts of finishing: a channel that needs no upsampling, one that is upsampled in the room WORK has (R362), the
output, and the end. -/
inductive FinishTurn (s : State) : State → Prop
  | skipped {c : Fin 3} (part : s.fin = .upsample c) : FinishTurn s (afterUpsample s c)
  | upsampled {c : Fin 3} (part : s.fin = .upsample c)
      (room : s.live + s.frame.width * s.frame.height ≤ s.params.workMemSize) :
      FinishTurn s (afterUpsample (replacePlane s c) c)
  | output (part : s.fin = .output) : FinishTurn s (writeOutput s)
  | complete : FinishTurn s (completeOk s)

theorem finishStep_turn (s : State) : Ends (FinishTurn s) (· = s) (finishStep s) := by
  unfold finishStep
  split
  · next c hc =>
    unfold upsample
    split
    · exact .skipped hc
    · split
      · exact rfl
      · next hroom => exact .upsampled hc (Nat.not_lt.1 hroom)
  · next hout => exact .output hout
  · exact .complete

/-- The next part is that of a live channel one further, or the output. -/
theorem afterUpsample_fin (s : State) (c : Fin 3) :
    ∃ f, afterUpsample s c = { s with fin := f } ∧
      (f = .output ∨ ∃ d : Fin 3, f = .upsample d ∧ d.val = c.val + 1 ∧ d.val < s.frame.channels) := by
  unfold afterUpsample
  split
  · next d hd => exact ⟨_, rfl, .inr ⟨d, rfl, nextChannel_some hd⟩⟩
  · exact ⟨_, rfl, .inl rfl⟩

/-! ### What no move changes -/

/-- The parameters and the queue. -/
def fixedFields (s : State) : Params × List HostOp := (s.params, s.host)

theorem Ends.fixed {Q E : State → Prop} {r : Except Abort State} (hr : Ends Q E r)
    (hq : ∀ u, Q u → fixedFields u = fixedFields s) (he : ∀ u, E u → fixedFields u = fixedFields s)
    (h : Machine.settle r = .next t) : fixedFields t = fixedFields s :=
  (hr.mono hq fun u hu _ => he u hu).settle h

theorem HeaderKept.fixed (h : HeaderKept s t) : fixedFields t = fixedFields s := (congrArg fixedFields h.only :)

theorem HeaderDone.fixed (h : HeaderDone s t) : fixedFields t = fixedFields s := by
  rcases h with h | ⟨u, hu, rfl⟩
  · exact h.fixed
  · exact hu.fixed

theorem ReaderOnly.fixed (h : ReaderOnly s t) : fixedFields t = fixedFields s := by
  obtain ⟨r, e, rfl⟩ := h
  rfl

theorem SymbolKept.fixed (h : SymbolKept s t) : fixedFields t = fixedFields s := (congrArg fixedFields h.only :)

theorem EngineMove.fixed (h : EngineMove s t) : fixedFields t = fixedFields s := by
  cases h with
  | spoiled broken busy =>
    obtain ⟨u, hu, h | ⟨k, h⟩⟩ := spoiledEnd_cases s <;> rw [h] <;> exact (congrArg fixedFields hu :)
  | hold idle => rfl
  | reject busy => rfl
  | framing phase done =>
    exact (checkFraming_ends s).fixed (fun _ => HeaderKept.fixed) (fun _ => HeaderKept.fixed) done
  | marker phase room format done =>
    obtain ⟨r, hr, hends⟩ := exec_marker_settles format { s with cursor := s.cursor + 2 }
    rw [hr] at done
    exact hends.fixed (fun _ hu => hu.fixed) (fun _ hu => hu.fixed) done
  | refill phase few done =>
    exact (fetchByte_ends few).fixed (fun _ hu => hu.only.fixed) (fun _ => ReaderOnly.fixed) done
  | @symbol i n _ phase held format done =>
    obtain ⟨r, hr, hends⟩ := exec_symbol_settles (format.imp And.right And.right) (skipBits n s)
    rw [hr] at done
    exact hends.fixed (fun _ hu => hu.fixed) (fun _ hu => hu.fixed) done
  | block phase step => exact (congrArg fixedFields (finishBlock_frame s) :)
  | restart phase done =>
    refine (restartStep_ends s).fixed ?_ (fun _ => ReaderOnly.fixed) done
    rintro _ ⟨u, hu, rfl⟩
    exact hu.only.fixed
  | finish phase done =>
    refine (finishStep_ends s).fixed ?_ (fun _ hu => hu ▸ rfl) done
    rintro u (hu | rfl)
    · exact (congrArg fixedFields hu :)
    · rfl

theorem loadImage_fixed (s : State) : fixedFields (loadImage s) = fixedFields s := by
  unfold loadImage
  dsimp only
  split <;> rfl

/-- No move changes a parameter (00_scope.md R7); what it takes off the queue was taken before. -/
theorem Move.fixed (h : Move s t) : fixedFields t = fixedFields s := by
  cases h with
  | read done => exact (congrArg fixedFields (hostRead_accessOnly done) :)
  | write done => exact (congrArg fixedFields (hostWrite_accessOnly done) :)
  | command format done =>
    rcases exec_command_cases format done with rfl | ⟨-, rfl | ⟨-, rfl⟩ | rfl | rfl⟩
    · rfl
    · exact loadImage_fixed s
    · rfl
    · rfl
    · rfl
  | powerOn => rfl
  | engine move => exact move.fixed

end Sys2Proof.Machine
end

section
/-! PROOF. What the host's accesses do to the memories (20_memory.md R78 to R81). -/

namespace Sys2Proof.Machine

variable {s t : State} {addr i : Nat} {size : AccessSize} {v : Word}

/-- A place in a memory has room for every byte of the access. -/
theorem fits_of_placeOf_inMem {p : Params} (h : placeOf p addr size = .inMem i) : i + size.bytes ≤ p.inMemSize := by
  unfold placeOf at h
  split at h
  · split at h <;> cases h
  · split at h
    · cases h; omega
    · split at h <;> cases h

theorem fits_of_placeOf_outMem {p : Params} (h : placeOf p addr size = .outMem i) : i + size.bytes ≤ p.outMemSize := by
  unfold placeOf at h
  split at h
  · split at h <;> cases h
  · split at h
    · cases h
    · split at h
      · cases h; omega
      · cases h

/-- A read changes the value read and the draws only. -/
theorem hostRead_next (h : hostRead addr size s = .next t) : ∃ x d, t = { s with readData := x, draws := d } := by
  unfold hostRead at h
  split at h
  · cases h; exact ⟨_, s.draws, rfl⟩
  · cases h
  · cases h; exact ⟨_, s.draws, rfl⟩
  · cases h
    unfold readOutMem
    split
    · exact ⟨_, _, rfl⟩
    · exact ⟨_, s.draws, rfl⟩
  · cases h

theorem regWrite_changes (off : Nat) (v : Word) (s : State) :
    ∃ c l, regWrite off v s = { s with ctrl := c, inLen := l } := by
  unfold regWrite
  repeat' split
  · exact ⟨s.ctrl, s.inLen, rfl⟩
  · exact ⟨_, s.inLen, rfl⟩
  · exact ⟨s.ctrl, s.inLen, rfl⟩
  · exact ⟨s.ctrl, _, rfl⟩
  · exact ⟨s.ctrl, s.inLen, rfl⟩

/-- A write goes to a register, or to one of the two memories with room for it. -/
inductive HostWritten (s : State) (bytes : List Byte) : State → Prop
  | register {c l : Word} : HostWritten s bytes { s with ctrl := c, inLen := l }
  | inMem {i : Nat} (fits : i + bytes.length ≤ s.params.inMemSize) : HostWritten s bytes (writeInMem i bytes s)
  | outMem {i : Nat} (fits : i + bytes.length ≤ s.params.outMemSize) : HostWritten s bytes (writeOutMem i bytes s)

theorem hostWrite_next (h : hostWrite addr size v s = .next t) : HostWritten s (valueBytes size v) t := by
  have hlen := length_valueBytes size v
  unfold hostWrite at h
  split at h
  · next off _ =>
    cases h
    obtain ⟨c, l, hreg⟩ := regWrite_changes off v s
    rw [hreg]
    exact .register
  · cases h
  · next hp => cases h; exact .inMem (by rw [hlen]; exact fits_of_placeOf_inMem hp)
  · next hp => cases h; exact .outMem (by rw [hlen]; exact fits_of_placeOf_outMem hp)
  · cases h

end Sys2Proof.Machine
end

section
/-! PROOF. Every memory stays in its canonical form (20_memory.md section 1, log entry 4). -/

namespace Sys2Proof.Machine

open Sys2Proof.Claims

variable {s t u : State}

/-- The memories `MemoriesCanonical` speaks of. -/
def memories (s : State) : Memory × Memory × Triple (Option Memory) := (s.inMem, s.outMem, s.planes)

theorem MemoriesCanonical.of_memories (h : MemoriesCanonical s) (ht : memories t = memories s) :
    MemoriesCanonical t := by
  simp only [memories, Prod.mk.injEq] at ht
  obtain ⟨hin, hout, hplanes⟩ := ht
  exact ⟨hin ▸ h.inMem, hout ▸ h.outMem, hplanes ▸ h.planes⟩

/-- The same through a frame, which says of `t` with some fields put back that it is `s`. -/
theorem MemoriesCanonical.of_frame {x : State} (h : MemoriesCanonical s) (hx : x = s) (ht : memories t = memories x) :
    MemoriesCanonical t := by
  subst hx
  exact h.of_memories ht

theorem get_noPlanes (c : Fin 3) : noPlanes.get c = none := by fin_cases c <;> rfl

theorem canonical_of_noPlanes (hin : s.inMem.wf = true) (hout : s.outMem.wf = true) (hp : s.planes = noPlanes) :
    MemoriesCanonical s :=
  ⟨hin, hout, fun c m h => by rw [hp, get_noPlanes] at h; cases h⟩

theorem canonical_raiseError (k : ErrCode) (h : u.inMem.wf = true) : MemoriesCanonical (raiseError k u) :=
  canonical_of_noPlanes h (wf_raiseError k u) rfl

theorem canonical_completeOk (hin : s.inMem.wf = true) (hout : s.outMem.wf = true) : MemoriesCanonical (completeOk s) :=
  canonical_of_noPlanes hin (wf_completeOk s hout) rfl

/-- An operation that settles: where it raises, only IN_MEM has to be as it was. -/
theorem MemoriesCanonical.of_settle {Q E : State → Prop} {r : Except Abort State} (hs : MemoriesCanonical s)
    (hr : Ends Q E r) (hq : ∀ u, Q u → MemoriesCanonical u) (he : ∀ u, E u → u.inMem = s.inMem)
    (h : settle r = .next t) : MemoriesCanonical t :=
  (hr.mono hq fun u hu k => canonical_raiseError k ((he u hu).symm ▸ hs.inMem)).settle h

theorem HeaderKept.inMem_eq (h : HeaderKept s t) : t.inMem = s.inMem := (congrArg State.inMem h.only :)

theorem SymbolKept.inMem_eq (h : SymbolKept s t) : t.inMem = s.inMem := (congrArg State.inMem h.only :)

theorem ReaderOnly.inMem_eq (h : ReaderOnly s t) : t.inMem = s.inMem := h.symbolKept.inMem_eq

theorem MemoriesCanonical.symbolKept (hs : MemoriesCanonical s) (h : SymbolKept s t) : MemoriesCanonical t :=
  hs.of_frame h.only rfl

theorem canonical_spoiledEnd (hs : MemoriesCanonical s) : MemoriesCanonical (spoiledEnd s) := by
  rw [spoiledEnd_eq s _ rfl]
  split
  · exact canonical_completeOk hs.inMem (Memory.wf_writeBytes _ _ _ hs.outMem)
  · exact canonical_raiseError _ hs.inMem

theorem canonical_sofLoaded {len w h nc : Nat} (hs : MemoriesCanonical s) :
    MemoriesCanonical (sofLoaded s len w h nc) where
  inMem := hs.inMem
  outMem := hs.outMem
  planes := fun c m hm => by
    by_cases hc : c.val < nc
    · rw [get_planes_sofLoaded hc] at hm
      cases hm
      exact Memory.wf_empty _
    · rw [(get_sofLoaded_above (Nat.le_of_not_lt hc)).2] at hm
      exact hs.planes c m hm

theorem canonical_headerTurn (hs : MemoriesCanonical s) (h : HeaderTurn s t) : MemoriesCanonical t := by
  have kept {u : State} (h : FrameKept s u) : MemoriesCanonical u := by
    have hx : MemoriesCanonical { u with planes := s.planes } := hs.of_frame h.only rfl
    exact hx.of_memories (by rw [memories, h.planes]; rfl)
  cases h with
  | kept same => exact kept same
  | framed accepted => exact canonical_sofLoaded hs
  | scan seen same => exact (kept same).of_memories rfl

theorem canonical_finishBlock (hs : MemoriesCanonical s) : MemoriesCanonical (finishBlock s) := by
  have hplaced : MemoriesCanonical (blockPlaced s) :=
    ⟨hs.inMem, hs.outMem, fun c m hm => wf_idctBlock s _ c _ _ m hs.planes hm⟩
  obtain ⟨p, sc, b, k, l, f, h⟩ := walkOnly_advanceBlock (blockPlaced s)
  rw [finishBlock_eq, h]
  exact hplaced.of_memories rfl

theorem canonical_afterUpsample (hs : MemoriesCanonical s) (c : Fin 3) : MemoriesCanonical (afterUpsample s c) := by
  obtain ⟨f, hf, -⟩ := afterUpsample_fin s c
  rw [hf]
  exact hs.of_memories rfl

theorem canonical_finishTurn (hs : MemoriesCanonical s) (h : FinishTurn s t) : MemoriesCanonical t := by
  cases h with
  | skipped part => exact canonical_afterUpsample hs _
  | @upsampled c part room =>
    have hreplaced : MemoriesCanonical (replacePlane s c) :=
      ⟨hs.inMem, hs.outMem, fun d m hm => wf_replacePlane s c d m (hs.planes d) hm⟩
    exact canonical_afterUpsample hreplaced c
  | output part => exact ⟨hs.inMem, wf_writeOutput s hs.outMem, hs.planes⟩
  | complete => exact canonical_completeOk hs.inMem hs.outMem

theorem canonical_engineMove (hs : MemoriesCanonical s) (h : EngineMove s t) : MemoriesCanonical t := by
  cases h with
  | spoiled broken busy => exact canonical_spoiledEnd hs
  | hold idle => exact hs
  | reject busy => exact canonical_raiseError _ hs.inMem
  | framing phase done =>
    exact hs.of_settle (checkFraming_turn s) (fun u hu => hu ▸ hs.of_memories rfl) (fun u hu => hu ▸ rfl) done
  | marker phase room format done =>
    obtain ⟨r, hr, hends⟩ := exec_marker_turn format { s with cursor := s.cursor + 2 }
    rw [hr] at done
    have hs' : MemoriesCanonical { s with cursor := s.cursor + 2 } := hs.of_memories rfl
    exact hs'.of_settle hends (fun u hu => canonical_headerTurn hs' hu) (fun u hu => hu.inMem_eq) done
  | refill phase few done =>
    exact hs.of_settle (fetchByte_ends few) (fun u hu => hs.symbolKept hu.only.symbolKept) (fun u hu => hu.inMem_eq)
      done
  | @symbol i n _ phase held format done =>
    obtain ⟨r, hr, hends⟩ := exec_symbol_settles (format.imp And.right And.right) (skipBits n s)
    rw [hr] at done
    have hs' : MemoriesCanonical (skipBits n s) := hs.of_memories rfl
    exact hs'.of_settle hends (fun u hu => hs'.symbolKept hu.toSymbolKept) (fun u hu => hu.inMem_eq) done
  | block phase step => exact canonical_finishBlock hs
  | restart phase done =>
    refine hs.of_settle (restartStep_ends s) ?_ (fun u hu => hu.inMem_eq) done
    rintro _ ⟨u, hu, rfl⟩
    exact (hs.symbolKept hu.only.symbolKept).of_memories rfl
  | finish phase done =>
    exact hs.of_settle (finishStep_turn s) (fun u hu => canonical_finishTurn hs hu) (fun u hu => hu ▸ rfl) done

theorem canonical_hostWritten {bytes : List Byte} (hs : MemoriesCanonical s) (h : HostWritten s bytes t) :
    MemoriesCanonical t := by
  cases h with
  | register => exact hs.of_memories rfl
  | inMem fits => exact ⟨wf_writeInMem _ _ s hs.inMem, hs.outMem, hs.planes⟩
  | outMem fits =>
    unfold writeOutMem
    split
    · exact hs.of_memories rfl
    · exact ⟨hs.inMem, Memory.wf_writeBytes _ _ _ hs.outMem, hs.planes⟩

theorem canonical_loadImage (hs : MemoriesCanonical s) : MemoriesCanonical (loadImage s) := by
  unfold loadImage
  dsimp only
  split <;> exact canonical_of_noPlanes hs.inMem hs.outMem rfl

theorem canonical_move (hs : MemoriesCanonical s) (h : Move s t) : MemoriesCanonical t := by
  cases h with
  | read done =>
    obtain ⟨x, d, rfl⟩ := hostRead_next done
    exact hs.of_memories rfl
  | write done => exact canonical_hostWritten hs (hostWrite_next done)
  | command format done =>
    rcases exec_command_cases format done with rfl | ⟨-, rfl | ⟨-, rfl⟩ | rfl | rfl⟩
    · exact hs
    · exact canonical_loadImage hs
    · exact canonical_of_noPlanes hs.inMem hs.outMem rfl
    · exact hs.of_memories rfl
    · exact canonical_of_noPlanes hs.inMem hs.outMem rfl
  | powerOn => exact canonical_of_noPlanes (Memory.wf_empty _) (Memory.wf_empty _) rfl
  | engine move => exact canonical_engineMove hs move

end Sys2Proof.Machine

open Sys2Proof Sys2Proof.Machine

/-- Settles O58: every kind of move keeps the form, and the queue does not matter to it. -/
theorem stepKeepsMemoriesCanonical : Obligations.StepKeepsMemoriesCanonical := fun _ _ hs h =>
  step_keeps (fun _ _ hs => hs.of_memories rfl) (fun _ _ => canonical_move) hs h
end

section
/-! PROOF. The engine's memories, frame and place, one by one: which fields each part of `EngineLegal` looks at, and the
parts that each phase asks for (60_exceptions.md R409, 46_scan_decoder.md R333). -/

namespace Sys2Proof.Machine

open Sys2Proof.Claims

variable {s t u : State}

/-! ### The memories -/

/-- What holds in every phase: IN_MEM, OUT_MEM and the writes made while BUSY lie below their sizes, and LEN fits
IN_MEM. -/
structure MemoriesBelow (s : State) : Prop where
  inMem : s.inMem.below s.params.inMemSize = true
  outMem : s.outMem.below s.params.outMemSize = true
  busyWrites : (s.busyWrites.all fun c => decide (c.1 < s.params.outMemSize)) = true
  len : s.len ≤ s.params.inMemSize

/-- The fields it looks at. -/
def memoryFields (s : State) : Params × Memory × Memory × List Host.Cell × Nat :=
  (s.params, s.inMem, s.outMem, s.busyWrites, s.len)

theorem EngineLegal.below (h : EngineLegal s) : MemoriesBelow s := ⟨h.inMem, h.outMem, h.busyWrites, h.len⟩

theorem MemoriesBelow.of_fields (h : MemoriesBelow s) (ht : memoryFields t = memoryFields s) : MemoriesBelow t := by
  simp only [memoryFields, Prod.mk.injEq] at ht
  obtain ⟨hp, hin, hout, hb, hl⟩ := ht
  exact ⟨by rw [hp, hin]; exact h.inMem, by rw [hp, hout]; exact h.outMem, by rw [hp, hb]; exact h.busyWrites,
    by rw [hp, hl]; exact h.len⟩

/-- The same through a frame, which says of `t` with some fields put back that it is `s`. -/
theorem MemoriesBelow.of_frame {x : State} (h : MemoriesBelow s) (hx : x = s) (ht : memoryFields t = memoryFields x) :
    MemoriesBelow t := by
  subst hx
  exact h.of_fields ht

theorem MemoriesBelow.headerKept (h : MemoriesBelow s) (ho : HeaderKept s t) : MemoriesBelow t := h.of_frame ho.only rfl

theorem MemoriesBelow.symbolKept (h : MemoriesBelow s) (ho : SymbolKept s t) : MemoriesBelow t := h.of_frame ho.only rfl

theorem below_settleBusyWrites {d n size : Nat} {writes : List Host.Cell} {m : Memory} (hm : m.below size = true)
    (hw : (writes.all fun c => decide (c.1 < size)) = true) : (settleBusyWrites d n writes m).below size = true := by
  induction writes generalizing m with
  | nil => exact hm
  | cons c rest ih =>
    obtain ⟨a, v⟩ := c
    obtain ⟨ha, hrest⟩ := Bool.and_eq_true_iff.1 hw
    have ha' : a < size := of_decide_eq_true ha
    unfold settleBusyWrites
    refine ih ?_ hrest
    split
    · exact hm
    · exact Memory.below_writeBytes _ _ _ _ hm ha'

theorem below_completeOk (h : MemoriesBelow s) : MemoriesBelow (completeOk s) :=
  ⟨h.inMem, below_settleBusyWrites h.outMem h.busyWrites, rfl, h.len⟩

theorem below_raiseError (k : ErrCode) (h : MemoriesBelow s) : MemoriesBelow (raiseError k s) :=
  ⟨h.inMem, Memory.below_empty .., rfl, h.len⟩

/-! ### The frame -/

/-- The parameters and the frame are the same, and every channel has the shape it had. -/
structure SameFrame (s t : State) : Prop where
  params : t.params = s.params
  frame : t.frame = s.frame
  shapes : ShapesKept s t

theorem SameFrame.factors (h : SameFrame s t) (c : Fin 3) :
    (t.ch.get c).hs = (s.ch.get c).hs ∧ (t.ch.get c).vs = (s.ch.get c).vs :=
  ⟨congrArg Prod.fst (h.shapes c), congrArg (·.2.1) (h.shapes c)⟩

theorem SameFrame.size (h : SameFrame s t) (c : Fin 3) :
    (t.ch.get c).stride = (s.ch.get c).stride ∧ (t.ch.get c).rows = (s.ch.get c).rows :=
  ⟨congrArg (·.2.2.1) (h.shapes c), congrArg (·.2.2.2) (h.shapes c)⟩

/-- An accepted frame's legality looks at the factors of its channels only. -/
theorem FrameLegal.of_factors (h : FrameLegal s) (hp : t.params = s.params) (hf : t.frame = s.frame)
    (hc : ∀ c, (t.ch.get c).hs = (s.ch.get c).hs ∧ (t.ch.get c).vs = (s.ch.get c).vs) : FrameLegal t where
  width := by rw [hf]; exact h.width
  height := by rw [hf]; exact h.height
  channels := by rw [hf]; exact h.channels
  output := by rw [hf, hp]; exact h.output
  hmax := by rw [hf]; exact h.hmax
  vmax := by rw [hf]; exact h.vmax
  mbw := by rw [hf]; exact h.mbw
  mbh := by rw [hf]; exact h.mbh
  factors := fun c hlive => by
    rw [hf] at hlive ⊢
    rw [(hc c).1, (hc c).2]
    exact h.factors c hlive

theorem planeBytes_of_size (hf : t.frame = s.frame)
    (hc : ∀ c, (t.ch.get c).stride = (s.ch.get c).stride ∧ (t.ch.get c).rows = (s.ch.get c).rows) :
    planeBytes t = planeBytes s := by
  simp only [planeBytes, hf, hc]

/-- An accepted frame whose planes fit WORK. -/
structure FrameFits (s : State) : Prop where
  seen : s.frame.seen = true
  legal : FrameLegal s
  work : planeBytes s ≤ s.params.workMemSize

theorem FrameFits.same (h : FrameFits s) (hs : SameFrame s t) : FrameFits t where
  seen := by rw [hs.frame]; exact h.seen
  legal := h.legal.of_factors hs.params hs.frame hs.factors
  work := by rw [planeBytes_of_size hs.frame hs.size, hs.params]; exact h.work

theorem PlanesLegal.same (h : PlanesLegal s) (hs : SameFrame s t) (hp : t.planes = s.planes) : PlanesLegal t := by
  intro c hlive
  rw [hs.frame] at hlive ⊢
  rw [(hs.size c).1, (hs.size c).2, (hs.factors c).1, (hs.factors c).2, hp]
  exact h c hlive

/-! ### The place in the scan -/

/-- A scan runs: its frame fits, and it stands at a block that lies in its plane. -/
structure ScanFits (s : State) : Prop extends FrameFits s where
  planes : PlanesLegal s
  scan : ScanLegal s

theorem ScanLegal.same (h : ScanLegal s) (hs : SameFrame s t) (hp : t.phase = s.phase) (hri : t.ri = s.ri)
    (hscan : { t.scan with step := s.scan.step } = s.scan) : ScanLegal t := by
  have field {α : Type} (f : Scan → α) : f { t.scan with step := s.scan.step } = f s.scan := congrArg f hscan
  have hmbx : t.scan.mbx = s.scan.mbx := field Scan.mbx
  have hmby : t.scan.mby = s.scan.mby := field Scan.mby
  have hchan : t.scan.chan = s.scan.chan := field Scan.chan
  have hsbx : t.scan.sbx = s.scan.sbx := field Scan.sbx
  have hsby : t.scan.sby = s.scan.sby := field Scan.sby
  have hcount : t.scan.countdown = s.scan.countdown := field Scan.countdown
  exact
    { mbx := by rw [hmbx, hs.frame]; exact h.mbx
      mby := by rw [hmby, hs.frame]; exact h.mby
      chan := by rw [hp, hchan, hs.frame]; exact h.chan
      sbx := by rw [hp, hsbx, hchan, (hs.factors _).1]; exact h.sbx
      sby := by rw [hp, hsby, hchan, (hs.factors _).2]; exact h.sby
      countdown := by rw [hp, hri, hcount]; exact h.countdown }

theorem ScanFits.symbolKept (h : ScanFits s) (ho : SymbolKept s t) (hshapes : ShapesKept s t) : ScanFits t := by
  have hs : SameFrame s t := ⟨(congrArg State.params ho.only :), (congrArg State.frame ho.only :), hshapes⟩
  exact ⟨h.toFrameFits.same hs, h.planes.same hs (congrArg State.planes ho.only :),
    h.scan.same hs ho.phase_eq (congrArg State.ri ho.only :) (congrArg State.scan ho.only :)⟩

theorem ReaderOnly.shapesKept (h : ReaderOnly s t) : ShapesKept s t := fun c => by rw [h.ch_k_scan.1]

/-! ### By phase -/

theorem not_scanning_of_rest (hp : s.phase.busy = false) : ¬ s.phase.scanning := by
  rintro (h | h) <;> rw [h] at hp <;> cases hp

/-- A core at rest owes its memories alone. -/
theorem MemoriesBelow.atRest (h : MemoriesBelow s) (hp : s.phase.busy = false) : EngineLegal s where
  inMem := h.inMem
  outMem := h.outMem
  busyWrites := h.busyWrites
  len := h.len
  seen := by rintro (hs | hs); exacts [absurd hs (not_scanning_of_rest hp), by rw [hs] at hp; cases hp]
  frame hb := by rw [hp] at hb; cases hb
  planes := by rintro (hs | hs) -; exacts [(by rw [hs] at hp; cases hp), absurd hs (not_scanning_of_rest hp)]
  work hb := by rw [hp] at hb; cases hb
  scan hs := absurd hs (not_scanning_of_rest hp)
  finish hs := by rw [hs] at hp; cases hp

theorem MemoriesBelow.inHeader (h : MemoriesBelow s) (hp : s.phase = .parsingHeader)
    (hf : s.frame.seen = true → FrameFits s ∧ PlanesLegal s) : EngineLegal s where
  inMem := h.inMem
  outMem := h.outMem
  busyWrites := h.busyWrites
  len := h.len
  seen := by rw [hp]; rintro ((hs | hs) | hs) <;> cases hs
  frame _ hs := (hf hs).1.legal
  planes _ hs := (hf hs).2
  work _ hs := (hf hs).1.work
  scan := by rw [hp]; rintro (hs | hs) <;> cases hs
  finish := by rw [hp]; nofun

theorem MemoriesBelow.inScan (h : MemoriesBelow s) (hp : s.phase.scanning) (hf : ScanFits s) : EngineLegal s where
  inMem := h.inMem
  outMem := h.outMem
  busyWrites := h.busyWrites
  len := h.len
  seen _ := hf.seen
  frame _ _ := hf.legal
  planes _ _ := hf.planes
  work _ _ := hf.work
  scan _ := hf.scan
  finish := by rcases hp with hp | hp <;> rw [hp] <;> nofun

theorem MemoriesBelow.inFinish (h : MemoriesBelow s) (hp : s.phase = .finishing) (hf : FrameFits s)
    (hfin : FinishLegal s) : EngineLegal s where
  inMem := h.inMem
  outMem := h.outMem
  busyWrites := h.busyWrites
  len := h.len
  seen _ := hf.seen
  frame _ _ := hf.legal
  planes := by rw [hp]; rintro (hs | hs | hs) <;> cases hs
  work _ _ := hf.work
  scan := by rw [hp]; rintro (hs | hs) <;> cases hs
  finish _ := hfin

theorem EngineLegal.header (h : EngineLegal s) (hp : s.phase = .parsingHeader) (hs : s.frame.seen = true) :
    FrameFits s ∧ PlanesLegal s := by
  have hb : s.phase.busy = true := by rw [hp]; rfl
  exact ⟨⟨hs, h.frame hb hs, h.work hb hs⟩, h.planes (.inl hp) hs⟩

theorem EngineLegal.scanFits (h : EngineLegal s) (hp : s.phase.scanning) : ScanFits s := by
  have hs := h.seen (.inl hp)
  have hb : s.phase.busy = true := by rcases hp with hp | hp <;> rw [hp] <;> rfl
  exact ⟨⟨hs, h.frame hb hs, h.work hb hs⟩, h.planes (.inr hp) hs, h.scan hp⟩

theorem EngineLegal.frameFits (h : EngineLegal s) (hp : s.phase = .finishing) : FrameFits s := by
  have hs := h.seen (.inr hp)
  have hb : s.phase.busy = true := by rw [hp]; rfl
  exact ⟨hs, h.frame hb hs, h.work hb hs⟩

/-- The fields but the memories that `EngineLegal` looks at. -/
def placeFields (s : State) :
    (Params × Phase × Frame × Triple Channel × Triple (Option Memory)) × Nat × Scan × Nat × FinishStep :=
  ((s.params, s.phase, s.frame, s.ch, s.planes), s.ri, s.scan, s.live, s.fin)

/-- A move that leaves the engine's place alone has only the memories to keep. -/
theorem EngineLegal.of_place (h : EngineLegal s) (hm : MemoriesBelow t) (ht : placeFields t = placeFields s) :
    EngineLegal t := by
  simp only [placeFields, Prod.mk.injEq] at ht
  obtain ⟨⟨hparams, hp, hframe, hch, hplanes⟩, hri, hscan, hlive, hfin⟩ := ht
  have hs : SameFrame s t := ⟨hparams, hframe, fun c => by rw [hch]⟩
  have hscan' : ({ t.scan with step := s.scan.step } : Scan) = s.scan := by rw [hscan]
  cases hphase : s.phase with
  | idle | doneOk | doneErr => exact hm.atRest (by rw [hp, hphase]; rfl)
  | parsingHeader =>
    refine hm.inHeader (hp.trans hphase) fun hseen => ?_
    obtain ⟨hf, hpl⟩ := h.header hphase (hframe ▸ hseen)
    exact ⟨hf.same hs, hpl.same hs hplanes⟩
  | decodingMcu | atRestartBoundary =>
    have hsc : s.phase.scanning := by rw [hphase]; simp [Phase.scanning]
    have hf := h.scanFits hsc
    exact hm.inScan (hp ▸ hsc)
      ⟨hf.toFrameFits.same hs, hf.planes.same hs hplanes, hf.scan.same hs hp hri hscan'⟩
  | finishing =>
    obtain ⟨hl, hc⟩ := h.finish hphase
    refine hm.inFinish (hp.trans hphase) ((h.frameFits hphase).same hs) ⟨?_, ?_⟩
    · rw [hlive, hl, planeBytes_of_size hframe hs.size]
    · rw [hfin, hframe]
      exact hc

end Sys2Proof.Machine
end

section
/-! PROOF. Every step keeps the engine within its memories and its grid (60_exceptions.md R409, 20_memory.md R72, R73,
46_scan_decoder.md R333). -/

namespace Sys2Proof.Machine

open Sys2Proof.Claims

variable {s t u : State} {w h nc len : Nat}

/-! ### The grid -/

theorem legalFactor_pos {f : Nat} (hf : legalFactor f) : 0 < f := by
  rcases hf with rfl | rfl | rfl <;> decide

theorem ceilDiv_pos {a b : Nat} (ha : 1 ≤ a) (hb : 0 < b) : 0 < ceilDiv a b := Nat.div_pos (by omega) hb

/-- The grid has an MCU, whose first channel has a block. -/
theorem FrameLegal.nonempty (hf : FrameLegal s) : 0 < s.frame.mbw ∧ 0 < s.frame.mbh ∧ 0 < s.frame.channels ∧
    0 < (s.ch.get 0).hs ∧ 0 < (s.ch.get 0).vs := by
  have hc : 0 < s.frame.channels := by rcases hf.channels with hc | hc <;> rw [hc] <;> decide
  obtain ⟨hhs, hvs, -, -⟩ := hf.factors 0 hc
  refine ⟨?_, ?_, hc, legalFactor_pos hhs, legalFactor_pos hvs⟩
  · rw [hf.mbw]
    exact ceilDiv_pos hf.width.1 (Nat.mul_pos (by decide) (legalFactor_pos hf.hmax))
  · rw [hf.mbh]
    exact ceilDiv_pos hf.height.1 (Nat.mul_pos (by decide) (legalFactor_pos hf.vmax))

/-- An MCU of the grid begins at its first block. -/
theorem scanLegal_beginMcu (hf : FrameLegal s) (hx : s.scan.mbx < s.frame.mbw) (hy : s.scan.mby < s.frame.mbh)
    (hc : 0 < s.ri → 0 < s.scan.countdown) : ScanLegal (beginMcu s) := by
  obtain ⟨-, -, hlive, hhs, hvs⟩ := hf.nonempty
  exact ⟨hx, hy, fun _ => hlive, fun _ => hhs, fun _ => hvs, fun _ => hc⟩

/-! ### The header -/

/-- A factor that passes is one of the statements'. -/
theorem channelPasses_factors (ha : SofAccepted s len w h nc) {i : Nat} (hi : i < nc) :
    legalFactor (hsOf s nc i) ∧ legalFactor (vsOf s nc i) := by
  obtain ⟨hhigh, hlow, -⟩ := ha.list i hi
  unfold hsOf vsOf
  split
  · exact ⟨.inl rfl, .inl rfl⟩
  · exact ⟨hhigh, hlow⟩

theorem legalFactor_max {a b : Nat} (ha : legalFactor a) (hb : legalFactor b) : legalFactor (max a b) :=
  by
  rcases max_choice a b with h | h <;> rw [h] <;> assumption

/-- The largest factors are legal, and no channel's is larger (R156). -/
theorem sofMax_legal (ha : SofAccepted s len w h nc) : legalFactor (hmaxOf s nc) ∧ legalFactor (vmaxOf s nc) ∧
    ∀ i < nc, hsOf s nc i ≤ hmaxOf s nc ∧ vsOf s nc i ≤ vmaxOf s nc := by
  rcases ha.header.channels with rfl | rfl
  · refine ⟨.inl rfl, .inl rfl, fun i _ => ⟨le_rfl, le_rfl⟩⟩
  · have h0 := channelPasses_factors ha (i := 0) (by decide)
    have h1 := channelPasses_factors ha (i := 1) (by decide)
    have h2 := channelPasses_factors ha (i := 2) (by decide)
    refine ⟨legalFactor_max (legalFactor_max h0.1 h1.1) h2.1, legalFactor_max (legalFactor_max h0.2 h1.2) h2.2, ?_⟩
    intro i hi
    simp only [hmaxOf, vmaxOf, show ¬ (3 = 1) by decide, if_false]
    interval_cases i <;> omega

theorem frameLegal_sofLoaded (ha : SofAccepted s len w h nc) : FrameLegal (sofLoaded s len w h nc) := by
  obtain ⟨hhmax, hvmax, hle⟩ := sofMax_legal ha
  have hbyte (i : Nat) : payload s i < 256 := BitVec.isLt _
  have hd := ha.header
  have hw : w ≤ 65535 := by
    have h3 := hbyte 3
    have h4 := hbyte 4
    have := hd.width
    omega
  have hh : h ≤ 65535 := by
    have h1 := hbyte 1
    have h2 := hbyte 2
    have := hd.height
    omega
  obtain ⟨hw1, hh1⟩ := hd.nonzero
  refine ⟨⟨hw1, hw⟩, ⟨hh1, hh⟩, hd.channels, ha.fits.2, hhmax, hvmax, rfl, rfl, fun c (hc : c.val < nc) => ?_⟩
  rw [get_sofLoaded hc]
  obtain ⟨hhs, hvs⟩ := channelPasses_factors ha hc
  exact ⟨hhs, hvs, (hle c hc).1, (hle c hc).2⟩

/-- An accepted frame fits, with the planes R156 and R158 give it. -/
theorem frameFits_sofLoaded (ha : SofAccepted s len w h nc) :
    FrameFits (sofLoaded s len w h nc) ∧ PlanesLegal (sofLoaded s len w h nc) := by
  have hneed := (planesNeed_sofGeometry (s := s) (len := len) (w := w) (h := h) ha.header.channels).trans_le ha.fits.1
  refine ⟨⟨rfl, frameLegal_sofLoaded ha, hneed⟩, fun c (hc : c.val < nc) => ?_⟩
  rw [get_sofLoaded hc]
  exact ⟨rfl, rfl, _, get_planes_sofLoaded hc, Memory.below_empty ..⟩

theorem shapesKept_clearPredictors (s : State) : ShapesKept s (clearPredictors s) := by
  intro c
  rw [get_clearPredictors]
  split <;> rfl

theorem FrameKept.sameFrame (hk : FrameKept s t) : SameFrame s t :=
  ⟨(congrArg Prod.fst hk.toHeaderKept.fixed :), hk.frame, hk.shapes⟩

/-- A scan of an accepted frame starts at the first MCU. -/
theorem scanFits_startScan {a : Nat} (hf : FrameFits s) (hpl : PlanesLegal s) : ScanFits (startScan a s) := by
  have hs : SameFrame s (startScan a s) := ⟨rfl, rfl, shapesKept_clearPredictors s⟩
  have hf' := hf.same hs
  obtain ⟨hx, hy, -, -, -⟩ := hf'.legal.nonempty
  exact ⟨hf', hpl.same hs rfl, scanLegal_beginMcu (hf.legal.of_factors rfl rfl hs.factors) hx hy id⟩

theorem engineLegal_headerTurn (hs : EngineLegal s) (hp : s.phase = .parsingHeader) (h : HeaderTurn s t) :
    EngineLegal t := by
  have hm {u : State} (hu : HeaderKept s u) : MemoriesBelow u := hs.below.headerKept hu
  cases h with
  | kept same =>
    refine (hm same.toHeaderKept).inHeader (same.phase_eq.trans hp) fun hseen => ?_
    obtain ⟨hf, hpl⟩ := hs.header hp (same.frame ▸ hseen)
    exact ⟨hf.same same.sameFrame, hpl.same same.sameFrame same.planes⟩
  | @framed len w h nc accepted =>
    have hm' : MemoriesBelow (sofLoaded s len w h nc) := hs.below.of_fields rfl
    exact hm'.inHeader hp fun _ => frameFits_sofLoaded accepted
  | @scan u seen same =>
    obtain ⟨hf, hpl⟩ := hs.header hp seen
    have hm' : MemoriesBelow (startScan u.cursor u) := (hm same.toHeaderKept).of_fields rfl
    exact hm'.inScan (.inl rfl) <| scanFits_startScan (hf.same same.sameFrame) (hpl.same same.sameFrame same.planes)

/-! ### Blocks -/

theorem below_writeRows {base : Nat → Nat} {bytes : Nat → List Byte} {rows : List Nat} {m : Memory} {n : Nat}
    (hm : m.below n = true) (h : ∀ r ∈ rows, base r + (bytes r).length ≤ n) :
    (writeRows base bytes rows m).below n = true := by
  induction rows generalizing m with
  | nil => exact hm
  | cons r rows ih =>
    rw [List.forall_mem_cons] at h
    exact ih (Memory.below_writeBytes _ _ _ _ hm h.1) h.2

/-- A block whose rows and columns lie in the plane is written within it (45_idct.md R300). -/
theorem below_placeBlock {m : Memory} {stride rows r0 x0 : Nat} {samples : Grid Byte}
    (hm : m.below (stride * rows) = true) (hr : r0 + 8 ≤ rows) (hx : x0 + 8 ≤ stride) :
    (placeBlock m stride r0 x0 samples).below (stride * rows) = true := by
  rw [placeBlock_eq_writeRows]
  refine below_writeRows hm fun r hmem => ?_
  have hr8 : r0 + r + 1 ≤ rows := by
    have := List.mem_range.1 hmem
    omega
  calc (r0 + r) * stride + x0 + 8 ≤ (r0 + r) * stride + stride := by omega
    _ = (r0 + r + 1) * stride := (Nat.succ_mul ..).symm
    _ ≤ rows * stride := Nat.mul_le_mul_right stride hr8
    _ = stride * rows := Nat.mul_comm ..

/-- Place `i` of `n` within group `g` of `m` ends within the whole. -/
theorem block_end_le {g i m n : Nat} (hg : g < m) (hi : i < n) : (g * n + i) * 8 + 8 ≤ m * n * 8 := by
  have hgroup : (g + 1) * n ≤ m * n := Nat.mul_le_mul_right n hg
  rw [Nat.succ_mul] at hgroup
  omega

/-- The block's samples stand in its plane (46_scan_decoder.md R333). -/
theorem scanFits_blockPlaced (hf : ScanFits s) (hp : s.phase = .decodingMcu) : ScanFits (blockPlaced s) := by
  have hs : SameFrame s (blockPlaced s) := ⟨rfl, rfl, .refl s⟩
  refine ⟨hf.toFrameFits.same hs, fun c hc => ?_, hf.scan.same hs rfl rfl rfl⟩
  obtain ⟨hstride, hrows, m, hm, hbelow⟩ := hf.planes c hc
  refine ⟨hstride, hrows, ?_⟩
  by_cases hcur : c = s.scan.chan
  · subst hcur
    refine ⟨_, (Triple.get_set_same ..).trans (congrArg (Option.map _) hm), below_placeBlock hbelow ?_ ?_⟩
    · exact (block_end_le hf.scan.mby (hf.scan.sby hp)).trans_eq hrows.symm
    · exact (block_end_le hf.scan.mbx (hf.scan.sbx hp)).trans_eq hstride.symm
  · exact ⟨m, (Triple.get_set_other _ _ hcur).trans hm, hbelow⟩

/-- The walk moves the scan within its grid, or begins finishing with the planes' bytes counted. -/
theorem engineLegal_walk (hm : MemoriesBelow s) (hf : ScanFits s) (hp : s.phase = .decodingMcu) (h : Walk s t) :
    EngineLegal t := by
  have hscan := hf.scan
  have inScan {u : State} (hu : memoryFields u = memoryFields s) (hframe : SameFrame s u) (hpl : u.planes = s.planes)
      (hpu : u.phase.scanning) (hl : ScanLegal u) : EngineLegal u :=
    (hm.of_fields hu).inScan hpu ⟨hf.toFrameFits.same hframe, hf.planes.same hframe hpl, hl⟩
  have factors {c : Fin 3} (hc : c.val < s.frame.channels) : 0 < (s.ch.get c).hs ∧ 0 < (s.ch.get c).vs :=
    ⟨legalFactor_pos (hf.legal.factors c hc).1, legalFactor_pos (hf.legal.factors c hc).2.1⟩
  cases h with
  | row fits =>
    exact inScan rfl ⟨rfl, rfl, .refl s⟩ rfl (.inl hp)
      ⟨hscan.mbx, hscan.mby, hscan.chan, fun _ => fits, hscan.sby, hscan.countdown⟩
  | nextRow fits =>
    exact inScan rfl ⟨rfl, rfl, .refl s⟩ rfl (.inl hp)
      ⟨hscan.mbx, hscan.mby, hscan.chan, fun _ => (factors (hscan.chan hp)).1, fun _ => fits, hscan.countdown⟩
  | channel next live =>
    exact inScan rfl ⟨rfl, rfl, .refl s⟩ rfl (.inl hp)
      ⟨hscan.mbx, hscan.mby, fun _ => live, fun _ => (factors live).1, fun _ => (factors live).2, hscan.countdown⟩
  | @finish sc =>
    have hm' : MemoriesBelow (startFinish { s with scan := sc }) := hm.of_fields rfl
    refine hm'.inFinish rfl (hf.toFrameFits.same ⟨rfl, rfl, .refl s⟩) ⟨rfl, fun c hc => ?_⟩
    obtain ⟨-, -, hlive, -, -⟩ := hf.legal.nonempty
    cases (hc : FinishStep.upsample 0 = .upsample c)
    exact hlive
  | @boundary n more =>
    obtain ⟨-, hx, hy⟩ := nextMcu_place hscan.mbx hscan.mby more
    rw [nextMcu_kept] at hx hy ⊢
    exact inScan rfl ⟨rfl, rfl, .refl s⟩ rfl (.inr rfl) ⟨hx, hy, nofun, nofun, nofun, nofun⟩
  | @mcu n more counts =>
    obtain ⟨-, hx, hy⟩ := nextMcu_place hscan.mbx hscan.mby more
    rw [nextMcu_kept] at hx hy ⊢
    exact inScan rfl ⟨rfl, rfl, .refl s⟩ rfl (.inl rfl)
      (scanLegal_beginMcu (hf.legal.of_factors rfl rfl fun _ => ⟨rfl, rfl⟩) hx hy counts)

theorem engineLegal_finishBlock (hs : EngineLegal s) (hp : s.phase = .decodingMcu) : EngineLegal (finishBlock s) :=
  engineLegal_walk (s := blockPlaced s) (hs.below.of_fields rfl) (scanFits_blockPlaced (hs.scanFits (.inl hp)) hp) hp
    (walk_advanceBlock (blockPlaced s))

/-- An accepted restart marker begins the MCU the scan stands at (R339). -/
theorem engineLegal_afterRestart (hm : MemoriesBelow s) (hf : ScanFits s) : EngineLegal (afterRestart s) := by
  have hs : SameFrame s (afterRestart s) := ⟨rfl, rfl, shapesKept_clearPredictors s⟩
  have hm' : MemoriesBelow (afterRestart s) := hm.of_fields rfl
  exact hm'.inScan (.inl rfl) ⟨hf.toFrameFits.same hs, hf.planes.same hs rfl,
    scanLegal_beginMcu (hf.legal.of_factors rfl rfl hs.factors) hf.scan.mbx hf.scan.mby id⟩

/-! ### Finishing -/

/-- The bytes of WORK that channel `c`'s plane holds. -/
def planeHeld (s : State) (c : Fin 3) : Nat :=
  if c.val < s.frame.channels then (s.ch.get c).stride * (s.ch.get c).rows else 0

theorem planeBytes_eq_sum (s : State) : planeBytes s = planeHeld s 0 + planeHeld s 1 + planeHeld s 2 :=
  planeBytes_eq_workHeld s

theorem planeHeld_of_live {c : Fin 3} (hc : c.val < s.frame.channels) :
    planeHeld s c = (s.ch.get c).stride * (s.ch.get c).rows := if_pos hc

theorem planeHeld_replacePlane_other {c d : Fin 3} (hd : d ≠ c) : planeHeld (replacePlane s c) d = planeHeld s d := by
  unfold planeHeld
  rw [(replacePlane_other hd).2]
  rfl

theorem planeHeld_replacePlane_same {c : Fin 3} (hc : c.val < s.frame.channels) :
    planeHeld (replacePlane s c) c = s.frame.width * s.frame.height := by
  rw [planeHeld_of_live (s := replacePlane s c) hc, replacePlane, Triple.get_set_same]

/-- With another plane in its place a live channel's bytes are counted anew. -/
theorem planeBytes_replacePlane {c : Fin 3} (hc : c.val < s.frame.channels) : planeBytes (replacePlane s c) =
    planeBytes s - (s.ch.get c).stride * (s.ch.get c).rows + s.frame.width * s.frame.height := by
  rw [planeBytes_eq_sum, planeBytes_eq_sum, ← planeHeld_of_live hc, ← planeHeld_replacePlane_same hc]
  have hother {d : Fin 3} (hd : d ≠ c) := planeHeld_replacePlane_other (s := s) hd
  match c with
  | 0 => rw [hother (d := 1) (by decide), hother (d := 2) (by decide)]; omega
  | 1 => rw [hother (d := 0) (by decide), hother (d := 2) (by decide)]; omega
  | 2 => rw [hother (d := 0) (by decide), hother (d := 1) (by decide)]; omega

/-- The next part of finishing is of a live channel. -/
theorem engineLegal_afterUpsample {c : Fin 3} (hm : MemoriesBelow s) (hp : s.phase = .finishing) (hf : FrameFits s)
    (hl : s.live = planeBytes s) : EngineLegal (afterUpsample s c) := by
  obtain ⟨f, hfin, hnext⟩ := afterUpsample_fin s c
  rw [hfin]
  have hm' : MemoriesBelow { s with fin := f } := hm.of_fields rfl
  refine hm'.inFinish hp (hf.same ⟨rfl, rfl, .refl s⟩) ⟨hl, fun d hd => ?_⟩
  rcases hnext with hout | ⟨e, he, -, hlive⟩
  · cases hd.symm.trans hout
  · cases hd.symm.trans he
    exact hlive

/-- The output lies below W·H·NC, and so in OUT_MEM (20_memory.md R73, 41_segment_parser.md R158). -/
theorem below_writeOutput (hm : MemoriesBelow s) (hf : FrameLegal s) : MemoriesBelow (writeOutput s) := by
  refine ⟨hm.inMem, Memory.below_writeBytes _ _ _ _ hm.outMem ?_, hm.busyWrites, hm.len⟩
  have hout := hf.output
  rw [Nat.zero_add]
  split
  · next hn =>
    rw [length_colourBytes, Nat.mul_comm]
    rwa [hn] at hout
  · next hn =>
    rw [hf.channels.resolve_right hn, Nat.mul_one] at hout
    rwa [length_grayBytes]

theorem engineLegal_finishTurn (hs : EngineLegal s) (hp : s.phase = .finishing) (h : FinishTurn s t) :
    EngineLegal t := by
  have hm := hs.below
  have hf := hs.frameFits hp
  obtain ⟨hl, hchan⟩ := hs.finish hp
  cases h with
  | skipped part => exact engineLegal_afterUpsample hm hp hf hl
  | @upsampled c part room =>
    have hbytes := planeBytes_replacePlane (hchan c part)
    have hlive : (replacePlane s c).live = planeBytes (replacePlane s c) := by
      rw [hbytes, ← hl]
      rfl
    have hlegal : FrameLegal (replacePlane s c) := hf.legal.of_factors rfl rfl fun d => by
      unfold replacePlane
      rw [Triple.get_set]
      split
      · next hd => subst hd; exact ⟨rfl, rfl⟩
      · exact ⟨rfl, rfl⟩
    refine engineLegal_afterUpsample (hm.of_fields rfl) hp ⟨hf.seen, hlegal, ?_⟩ hlive
    show planeBytes (replacePlane s c) ≤ s.params.workMemSize
    omega
  | output part =>
    exact (below_writeOutput hm hf.legal).inFinish hp (hf.same ⟨rfl, rfl, .refl s⟩) ⟨hl, nofun⟩
  | complete => exact (below_completeOk hm).atRest rfl

/-! ### Every move -/

/-- An operation that settles: where it raises, the memories have to be kept. -/
theorem EngineLegal.of_settle {Q E : State → Prop} {r : Except Abort State} (hr : Ends Q E r)
    (hq : ∀ u, Q u → EngineLegal u) (he : ∀ u, E u → MemoriesBelow u) (h : settle r = .next t) : EngineLegal t :=
  (hr.mono hq fun u hu k => (below_raiseError k (he u hu)).atRest (busy_ended k)).settle h

/-- The image drawn for a spoiled decode fits OUT_MEM (20_memory.md R81). -/
theorem engineLegal_spoiledEnd (hm : MemoriesBelow s) : EngineLegal (spoiledEnd s) := by
  rw [spoiledEnd_eq s _ rfl]
  split
  · next hfits =>
    have hm' : MemoriesBelow (spoiledImage (Config.spoiledOutcome s.draws) s) := by
      refine ⟨hm.inMem, Memory.below_writeBytes _ _ _ _ hm.outMem ?_, hm.busyWrites, hm.len⟩
      rw [List.length_map, List.length_range, Nat.zero_add]
      exact spoiledSize_le hfits
    exact (below_completeOk hm').atRest rfl
  · have hm' : MemoriesBelow (spoiledEvents (Config.spoiledOutcome s.draws) s) := hm.of_fields rfl
    exact (below_raiseError _ hm').atRest (busy_ended _)

theorem engineLegal_engineMove (hs : EngineLegal s) (h : EngineMove s t) : EngineLegal t := by
  have hm := hs.below
  cases h with
  | spoiled broken busy => exact engineLegal_spoiledEnd hm
  | hold idle => exact hs
  | reject busy => exact (below_raiseError _ hm).atRest rfl
  | framing phase done =>
    exact .of_settle (checkFraming_turn s) (fun u hu => hu ▸ hs.of_place (hm.of_fields rfl) rfl) (fun u hu => hu ▸ hm)
      done
  | marker phase room format done =>
    obtain ⟨r, hr, hends⟩ := exec_marker_turn format { s with cursor := s.cursor + 2 }
    rw [hr] at done
    have hm' : MemoriesBelow { s with cursor := s.cursor + 2 } := hm.of_fields rfl
    exact .of_settle hends (fun u hu => engineLegal_headerTurn (hs.of_place hm' rfl) phase hu)
      (fun u hu => hm'.headerKept hu) done
  | refill phase few done =>
    refine .of_settle (fetchByte_ends few) (fun u hu => ?_) (fun u hu => hm.symbolKept hu.symbolKept) done
    have hk := hu.only.symbolKept
    exact (hm.symbolKept hk).inScan (.inl (hk.phase_eq.trans phase))
      ((hs.scanFits (.inl phase)).symbolKept hk hu.only.shapesKept)
  | @symbol i n _ phase held format done =>
    obtain ⟨r, hr, hends⟩ := exec_symbol_turn (s := skipBits n s) format
    rw [hr] at done
    have hm' : MemoriesBelow (skipBits n s) := hm.of_fields rfl
    have hf' := (hs.of_place hm' rfl).scanFits (.inl phase)
    exact .of_settle hends (fun u hu => (hm'.symbolKept hu.toSymbolKept).inScan (.inl (hu.phase_eq.trans phase))
      (hf'.symbolKept hu.toSymbolKept hu.shapes)) (fun u hu => hm'.symbolKept hu) done
  | block phase step => exact engineLegal_finishBlock hs phase
  | restart phase done =>
    refine .of_settle (restartStep_ends s) ?_ (fun u hu => hm.symbolKept hu.symbolKept) done
    rintro _ ⟨u, hu, rfl⟩
    have hk := hu.only.symbolKept
    exact engineLegal_afterRestart (hm.symbolKept hk) ((hs.scanFits (.inr phase)).symbolKept hk hu.only.shapesKept)
  | finish phase done =>
    exact .of_settle (finishStep_turn s) (fun u hu => engineLegal_finishTurn hs phase hu) (fun u hu => hu ▸ hm) done

theorem all_below_cellsFrom {a n : Nat} {bytes : List Byte} (h : a + bytes.length ≤ n) :
    ((cellsFrom a bytes).all fun c => decide (c.1 < n)) = true :=
  Memory.below_cellsFrom 0 a n bytes h

theorem below_hostWritten {bytes : List Byte} (hm : MemoriesBelow s) (h : HostWritten s bytes t) : MemoriesBelow t := by
  cases h with
  | register => exact hm.of_fields rfl
  | inMem fits => exact ⟨Memory.below_writeBytes _ _ _ _ hm.inMem fits, hm.outMem, hm.busyWrites, hm.len⟩
  | outMem fits =>
    unfold writeOutMem
    split
    · refine ⟨hm.inMem, hm.outMem, ?_, hm.len⟩
      rw [List.all_append, Bool.and_eq_true]
      exact ⟨hm.busyWrites, all_below_cellsFrom fits⟩
    · exact ⟨hm.inMem, Memory.below_writeBytes _ _ _ _ hm.outMem fits, hm.busyWrites, hm.len⟩

theorem placeFields_hostWritten {bytes : List Byte} (h : HostWritten s bytes t) : placeFields t = placeFields s := by
  cases h with
  | register => rfl
  | inMem fits => rfl
  | outMem fits => unfold writeOutMem; split <;> rfl

/-- LEN is latched only if it fits IN_MEM (40_host_commands.md R133). -/
theorem engineLegal_loadImage (hm : MemoriesBelow s) : EngineLegal (loadImage s) := by
  unfold loadImage
  dsimp only
  split
  · exact MemoriesBelow.atRest ⟨hm.inMem, hm.outMem, hm.busyWrites, Nat.zero_le _⟩ rfl
  · next hlen => exact MemoriesBelow.atRest ⟨hm.inMem, hm.outMem, hm.busyWrites, Nat.not_lt.1 hlen⟩ rfl

theorem engineLegal_command {i : Instr} (hs : EngineLegal s) (hi : i.format = .cmd32) (h : exec i s = .next t) :
    EngineLegal t := by
  have hm := hs.below
  rcases exec_command_cases hi h with rfl | ⟨-, rfl | ⟨-, rfl⟩ | rfl | rfl⟩
  · exact hs
  · exact engineLegal_loadImage hm
  · exact MemoriesBelow.inHeader ⟨hm.inMem, hm.outMem, rfl, hm.len⟩ rfl nofun
  · exact hs.of_place (hm.of_fields rfl) rfl
  · exact MemoriesBelow.atRest ⟨hm.inMem, hm.outMem, hm.busyWrites, Nat.zero_le _⟩ rfl

theorem engineLegal_move (hs : EngineLegal s) (h : Move s t) : EngineLegal t := by
  have hm := hs.below
  cases h with
  | read done =>
    obtain ⟨x, d, rfl⟩ := hostRead_next done
    exact hs.of_place (hm.of_fields rfl) rfl
  | write done =>
    have hw := hostWrite_next done
    exact hs.of_place (below_hostWritten hm hw) (placeFields_hostWritten hw)
  | command format done => exact engineLegal_command hs format done
  | powerOn => exact MemoriesBelow.atRest ⟨Memory.below_empty .., Memory.below_empty .., rfl, Nat.zero_le _⟩ rfl
  | engine move => exact engineLegal_engineMove hs move

theorem params_step (h : step s = .next t) : t.params = s.params := congrArg Prod.fst (move_of_step h).fixed

end Sys2Proof.Machine

open Sys2Proof Sys2Proof.Machine

/-- Settles O59: every kind of move keeps the engine legal and the parameters, and the queue does not matter to
either. -/
theorem stepKeepsEngineLegal : Obligations.StepKeepsEngineLegal := fun _ _ hs h =>
  ⟨step_keeps (fun _ _ hs => hs.of_place (hs.below.of_fields rfl) rfl) (fun _ _ => engineLegal_move) hs h,
    params_step h⟩
end

section
/-! PROOF. Every decode completes (46_scan_decoder.md R343, 70_reset_and_hazards.md R449): each turn ends the decode or
brings it nearer to its end. What is left is measured by the stage the decode is at and, within the stage, by a bound on
the turns to come: the bytes between CURSOR and LEN, the symbols of the blocks of the MCUs not yet decoded with the bits
each still has to fetch, or the parts of finishing. -/

namespace Sys2Proof.Machine

open Sys2Proof.Claims

variable {s t u : State}

/-! ### What is left -/

/-- The MCUs from the current one on, in raster order (46_scan_decoder.md R331). -/
def mcusLeft (s : State) : Nat := s.frame.mbw * s.frame.mbh - (s.scan.mby * s.frame.mbw + s.scan.mbx)

/-- A bound on the blocks of an MCU after a place in it: at most 4 by 4 of a channel, and three channels. -/
def blocksAfter (c : Fin 3) (y x : Nat) : Nat := (2 - c.val) * 16 + (3 - y) * 4 + (3 - x)

def blocksLeft (s : State) : Nat := blocksAfter s.scan.chan s.scan.sby s.scan.sbx

/-- A bound on the turns of a scan within a block: at most 17 for a symbol with its 16 bits fetched, 66 symbols with the
block's end, and 49 blocks with a restart step in an MCU. -/
def blockTurns (s : State) : Nat :=
  ((mcusLeft s * 49 + blocksLeft s) * 66 + symbolsLeft s) * 17 + (16 - s.reader.nb)

/-- The same at a restart boundary: the whole MCU is to come. -/
def boundaryTurns (s : State) : Nat := (mcusLeft s * 49 + 48) * 66 * 17

/-- The parts of finishing after one (47_upsample_colour.md R360). -/
def finishTurns : FinishStep → Nat
  | .upsample c => 4 - c.val
  | .output => 1
  | .complete => 0

/-- What is left of a decode: the stages after this one, then the turns of this one. -/
def turnsLeft (s : State) : ℕ ×ₗ ℕ :=
  match s.phase with
  | .parsingHeader => toLex (2, s.len - s.cursor)
  | .decodingMcu => toLex (1, blockTurns s)
  | .atRestartBoundary => toLex (1, boundaryTurns s)
  | .finishing => toLex (0, finishTurns s.fin)
  | .idle | .doneOk | .doneErr => toLex (0, 0)

theorem turnsLeft_header (hp : s.phase = .parsingHeader) : turnsLeft s = toLex (2, s.len - s.cursor) := by
  rw [turnsLeft, hp]

theorem turnsLeft_block (hp : s.phase = .decodingMcu) : turnsLeft s = toLex (1, blockTurns s) := by
  rw [turnsLeft, hp]

theorem turnsLeft_boundary (hp : s.phase = .atRestartBoundary) : turnsLeft s = toLex (1, boundaryTurns s) := by
  rw [turnsLeft, hp]

theorem turnsLeft_finish (hp : s.phase = .finishing) : turnsLeft s = toLex (0, finishTurns s.fin) := by
  rw [turnsLeft, hp]

theorem toLex_lt_of_stage {a b m n : Nat} (h : a < b) : (toLex (a, m) : ℕ ×ₗ ℕ) < toLex (b, n) :=
  Prod.Lex.toLex_lt_toLex.2 (.inl h)

theorem toLex_lt_of_turns {a m n : Nat} (h : m < n) : (toLex (a, m) : ℕ ×ₗ ℕ) < toLex (a, n) :=
  Prod.Lex.toLex_lt_toLex.2 (.inr ⟨rfl, h⟩)

/-! ### How a turn goes on -/

/-- The decode has ended (40_host_commands.md R139). -/
def Ended (t : State) : Prop := t.status.busy = false ∧ t.status.done = true

/-- A turn from `s` ends the decode, or leaves less of it. -/
def Advances (s t : State) : Prop := Ended t ∨ (t.phase.busy = true ∧ turnsLeft t < turnsLeft s)

theorem ended_raiseError (k : ErrCode) (u : State) : Ended (raiseError k u) := ⟨rfl, rfl⟩

theorem ended_completeOk (s : State) : Ended (completeOk s) := ⟨rfl, rfl⟩

theorem ended_spoiledEnd (s : State) : Ended (spoiledEnd s) := by
  obtain ⟨u, -, h | ⟨k, h⟩⟩ := spoiledEnd_cases s <;> rw [h]
  · exact ended_completeOk u
  · exact ended_raiseError k u

/-- An operation that settles: an error ends the decode, so only how it goes on matters. -/
theorem Advances.of_settle {Q E : State → Prop} {r : Except Abort State} (hr : Ends Q E r)
    (hq : ∀ u, Q u → Advances s u) (h : settle r = .next t) : Advances s t :=
  (hr.mono hq fun u _ k => .inl (ended_raiseError k u)).settle h

theorem advances_header (hs : s.phase = .parsingHeader) (ht : t.phase = .parsingHeader)
    (h : t.len - t.cursor < s.len - s.cursor) : Advances s t := by
  refine .inr ⟨by rw [ht]; rfl, ?_⟩
  rw [turnsLeft_header hs, turnsLeft_header ht]
  exact toLex_lt_of_turns h

theorem advances_block (hs : s.phase = .decodingMcu) (ht : t.phase = .decodingMcu) (h : blockTurns t < blockTurns s) :
    Advances s t := by
  refine .inr ⟨by rw [ht]; rfl, ?_⟩
  rw [turnsLeft_block hs, turnsLeft_block ht]
  exact toLex_lt_of_turns h

/-! ### The header -/

theorem advances_headerTurn (hs : s.phase = .parsingHeader) (room : s.cursor + 2 ≤ s.len)
    (h : HeaderTurn { s with cursor := s.cursor + 2 } t) : Advances s t := by
  cases h with
  | kept same =>
    have hlen : t.len = s.len := (congrArg State.len same.only :)
    have hforward : s.cursor + 2 ≤ t.cursor := same.forward
    exact advances_header hs (same.phase_eq.trans hs) (by omega)
  | @framed len w h nc accepted =>
    exact advances_header hs hs (show s.len - (s.cursor + 2 + len) < s.len - s.cursor by omega)
  | scan seen same =>
    refine .inr ⟨rfl, ?_⟩
    rw [turnsLeft_header hs, turnsLeft_block rfl]
    exact toLex_lt_of_stage (by decide)

theorem advances_fetchMarker (hs : s.phase = .parsingHeader) (h : (fetchMarker s).outcome = .next t) :
    Advances s t := by
  rcases hd : decode .marker (inBytes s s.cursor 2) with e | ⟨i, tail⟩
  · rw [outcome_fetchMarker_error hd] at h
    cases h
    exact .inl ⟨rfl, rfl⟩
  · have room : s.cursor + 2 ≤ s.len := by
      by_contra hroom
      obtain ⟨e, he⟩ := decode_marker_error (s := s) (a := s.cursor) (.inl (by omega))
      rw [hd] at he
      cases he
    obtain ⟨word, hword, -⟩ := decode_isWord hd
    obtain ⟨r, hr, hends⟩ := exec_marker_turn hword.format { s with cursor := s.cursor + 2 }
    rw [outcome_fetchMarker_ok hd, hr] at h
    exact .of_settle hends (fun u hu => advances_headerTurn hs room hu) h

theorem advances_fetchFraming (hs : s.phase = .parsingHeader) (hc : s.cursor = 0)
    (h : (fetchFraming s).outcome = .next t) : Advances s t := by
  by_cases hbad : s.len < 6 ∨ s.inMem.read 0 ≠ 0xFF ∨ s.inMem.read 1 ≠ 0xD8
  · rw [outcome_fetchFraming_error hbad] at h
    cases h
    exact .inl ⟨rfl, rfl⟩
  · simp only [not_or, not_not, Nat.not_lt] at hbad
    obtain ⟨hlen, h0, h1⟩ := hbad
    rw [outcome_fetchFraming_soi hlen h0 h1] at h
    refine .of_settle (checkFraming_turn s) ?_ h
    rintro _ rfl
    exact advances_header hs hs (show s.len - 2 < s.len - s.cursor by omega)

/-! ### The scan -/

theorem symbolsLeft_le (s : State) : symbolsLeft s ≤ 65 := by
  unfold symbolsLeft
  split <;> omega

theorem blocksAfter_le (c : Fin 3) (y x : Nat) : blocksAfter c y x ≤ 47 := by
  unfold blocksAfter
  omega

theorem advances_refill (hs : s.phase = .decodingMcu) (few : s.reader.nb < 16) (h : settle (fetchByte s) = .next t) :
    Advances s t := by
  rcases hr : fetchByte s with e | u
  · rw [hr] at h
    cases h
    exact .inl (ended_raiseError _ _)
  · have hends := fetchByte_ends few
    have hbits := fetchByte_bits hr
    rw [hr] at hends h
    cases h
    obtain ⟨⟨r, e, rfl⟩, -⟩ := hends
    refine advances_block hs hs ?_
    replace hbits : r.nb = s.reader.nb + 8 ∨ r.nb = s.reader.nb + 16 := hbits
    exact Nat.add_lt_add_left (show 16 - r.nb < 16 - s.reader.nb by omega) _

theorem advances_symbolTurn {n : Nat} (hs : s.phase = .decodingMcu) (hk : s.k ≤ 63)
    (h : SymbolTurn (skipBits n s) t) : Advances s t := by
  refine advances_block hs (h.phase_eq.trans hs) ?_
  have hmcus : mcusLeft t = mcusLeft s := (congrArg mcusLeft h.only :)
  have hblocks : blocksLeft t = blocksLeft s := (congrArg blocksLeft h.only :)
  have hnearer : symbolsLeft t < symbolsLeft s := h.nearer hk
  rw [blockTurns, blockTurns, hmcus, hblocks]
  omega

/-- A later block of the MCU, of any length. -/
theorem blockTurns_atBlock_lt {c : Fin 3} {y x : Nat} (hlt : blocksAfter c y x < blocksLeft s) :
    blockTurns (atBlock s c y x) < blockTurns s := by
  have hmcus : mcusLeft (atBlock s c y x) = mcusLeft s := rfl
  have hblocks : blocksLeft (atBlock s c y x) = blocksAfter c y x := rfl
  have hsymbols : symbolsLeft (atBlock s c y x) = 65 := rfl
  rw [blockTurns, blockTurns, hmcus, hblocks, hsymbols]
  omega

/-- The scan's place lies within the grid's MCUs. -/
theorem place_lt (hx : s.scan.mbx < s.frame.mbw) (hy : s.scan.mby < s.frame.mbh) :
    s.scan.mby * s.frame.mbw + s.scan.mbx < s.frame.mbw * s.frame.mbh :=
  calc s.scan.mby * s.frame.mbw + s.scan.mbx < s.scan.mby * s.frame.mbw + s.frame.mbw := Nat.add_lt_add_left hx _
    _ = (s.scan.mby + 1) * s.frame.mbw := (Nat.succ_mul ..).symm
    _ ≤ s.frame.mbh * s.frame.mbw := Nat.mul_le_mul_right _ hy
    _ = s.frame.mbw * s.frame.mbh := Nat.mul_comm ..

theorem mcusLeft_nextMcu (hl : ScanLegal s) (more : ¬ lastMcu s) : mcusLeft (nextMcu s) < mcusLeft s := by
  obtain ⟨hplace, -, -⟩ := nextMcu_place hl.mbx hl.mby more
  have hframe : (nextMcu s).frame = s.frame := by rw [nextMcu_kept]
  have hin := place_lt hl.mbx hl.mby
  rw [mcusLeft, mcusLeft, hframe]
  omega

theorem legalFactor_le {f : Nat} (hf : legalFactor f) : f ≤ 4 := by
  rcases hf with rfl | rfl | rfl <;> decide

/-- After a block fewer blocks, MCUs or stages are left. -/
theorem advances_walk (hp : s.phase = .decodingMcu) (hf : ScanFits s) (h : Walk s t) : Advances s t := by
  obtain ⟨hhs, hvs, -, -⟩ := hf.legal.factors s.scan.chan (hf.scan.chan hp)
  replace hhs := legalFactor_le hhs
  replace hvs := legalFactor_le hvs
  cases h with
  | row fits =>
    refine advances_block hp hp (blockTurns_atBlock_lt ?_)
    unfold blocksLeft blocksAfter
    unfold current at fits
    omega
  | nextRow fits =>
    refine advances_block hp hp (blockTurns_atBlock_lt ?_)
    unfold blocksLeft blocksAfter
    unfold current at fits
    omega
  | channel next live =>
    refine advances_block hp hp (blockTurns_atBlock_lt ?_)
    unfold blocksLeft blocksAfter
    omega
  | finish =>
    refine .inr ⟨rfl, ?_⟩
    rw [turnsLeft_block hp, turnsLeft_finish rfl]
    exact toLex_lt_of_stage (by decide)
  | @boundary n more =>
    refine .inr ⟨rfl, ?_⟩
    rw [turnsLeft_block hp, turnsLeft_boundary rfl]
    have hless := mcusLeft_nextMcu hf.scan more
    have hmcus : mcusLeft { withCountdown (nextMcu s) n with phase := .atRestartBoundary } = mcusLeft (nextMcu s) := rfl
    refine toLex_lt_of_turns ?_
    rw [boundaryTurns, blockTurns, hmcus]
    omega
  | @mcu n more counts =>
    refine advances_block hp rfl ?_
    have hless := mcusLeft_nextMcu hf.scan more
    have hmcus : mcusLeft (beginMcu (withCountdown (nextMcu s) n)) = mcusLeft (nextMcu s) := rfl
    have hblocks : blocksLeft (beginMcu (withCountdown (nextMcu s) n)) ≤ 47 := blocksAfter_le ..
    have hsymbols := symbolsLeft_le (beginMcu (withCountdown (nextMcu s) n))
    rw [blockTurns, blockTurns, hmcus]
    omega

/-- An accepted restart marker takes the one turn a boundary has beyond its MCU. -/
theorem advances_afterRestart (hs : s.phase = .atRestartBoundary) (hu : ReaderOnly s u) :
    Advances s (afterRestart u) := by
  refine .inr ⟨rfl, ?_⟩
  rw [turnsLeft_boundary hs, turnsLeft_block rfl]
  refine toLex_lt_of_turns ?_
  have hmcus : mcusLeft (afterRestart u) = mcusLeft s := (congrArg mcusLeft hu.symbolKept.only :)
  have hblocks : blocksLeft (afterRestart u) ≤ 47 := blocksAfter_le ..
  have hsymbols := symbolsLeft_le (afterRestart u)
  rw [boundaryTurns, blockTurns, hmcus]
  omega

/-! ### Finishing -/

theorem advances_finish (hs : s.phase = .finishing) (ht : t.phase = .finishing)
    (h : finishTurns t.fin < finishTurns s.fin) : Advances s t := by
  refine .inr ⟨by rw [ht]; rfl, ?_⟩
  rw [turnsLeft_finish hs, turnsLeft_finish ht]
  exact toLex_lt_of_turns h

theorem finishTurns_afterUpsample (s : State) (c : Fin 3) :
    finishTurns (afterUpsample s c).fin < finishTurns (.upsample c) := by
  obtain ⟨f, hf, rfl | ⟨d, rfl, hd, -⟩⟩ := afterUpsample_fin s c <;> rw [hf] <;> simp only [finishTurns] <;> omega

theorem phase_afterUpsample (s : State) (c : Fin 3) : (afterUpsample s c).phase = s.phase := by
  obtain ⟨f, hf, -⟩ := afterUpsample_fin s c
  rw [hf]

theorem advances_finishTurn (hs : s.phase = .finishing) (h : FinishTurn s t) : Advances s t := by
  cases h with
  | skipped part =>
    exact advances_finish hs ((phase_afterUpsample ..).trans hs) (part ▸ finishTurns_afterUpsample ..)
  | upsampled part room =>
    exact advances_finish hs ((phase_afterUpsample ..).trans hs) (part ▸ finishTurns_afterUpsample ..)
  | output part => exact advances_finish hs hs (part ▸ (show 0 < 1 by decide))
  | complete => exact .inl (ended_completeOk s)

/-! ### Every turn -/

theorem advances_engineMove (hi : Inv s) (hb : s.phase.busy = true) (hp : s.phase ≠ .parsingHeader)
    (h : EngineMove s t) : Advances s t := by
  cases h with
  | spoiled broken busy => exact .inl (ended_spoiledEnd s)
  | hold idle => rw [hb] at idle; cases idle
  | reject busy => exact .inl (ended_raiseError _ s)
  | framing phase done => exact absurd phase hp
  | marker phase room format done => exact absurd phase hp
  | refill phase few done => exact advances_refill phase few done
  | @symbol i n _ phase held format done =>
    obtain ⟨r, hr, hends⟩ := exec_symbol_turn (s := skipBits n s) format
    rw [hr] at done
    exact .of_settle hends (fun u hu => advances_symbolTurn phase (hi.cursors.index.2 phase) hu) done
  | block phase step =>
    exact advances_walk (s := blockPlaced s) phase (scanFits_blockPlaced (hi.engine.scanFits (.inl phase)) phase)
      (walk_advanceBlock (blockPlaced s))
  | restart phase done =>
    refine .of_settle (restartStep_ends s) ?_ done
    rintro _ ⟨u, hu, rfl⟩
    exact advances_afterRestart phase hu.only
  | finish phase done => exact .of_settle (finishStep_turn s) (fun u hu => advances_finishTurn phase hu) done

theorem advances_step (hi : Inv s) (hq : s.host = []) (hb : s.status.busy = true) (h : step s = .next t) :
    Advances s t := by
  cases hs : s.spoiled with
  | true =>
    rw [step_spoiled hq hs hb] at h
    cases h
    exact .inl (ended_spoiledEnd s)
  | false =>
    by_cases hp : s.phase = .parsingHeader
    · rw [step_header ⟨hq, hs⟩ hp] at h
      split at h
      · next hc => exact advances_fetchFraming hp hc h
      · exact advances_fetchMarker hp h
    · rw [step_eq, fetch_engine hq] at h
      exact advances_engineMove hi (hi.status.busyPhase ▸ hb) hp (engineMove_of_engineTurn h)

/-! ### Runs -/

theorem outcome_runDecoded_next (r : Except DecodeError (Instr × List Byte)) (s : State) :
    ∃ t, (runDecoded r s).outcome = .next t := by
  rcases r with e | ⟨i, tail⟩
  · exact ⟨_, rfl⟩
  · exact exec_next i s

theorem outcome_fetchSymbol_next (f : Format) (slot : Fin 4) (s : State) :
    ∃ t, (fetchSymbol f slot s).outcome = .next t := by
  unfold fetchSymbol
  split
  · rw [outcome_fetchForm]
    exact settle_next _
  · split
    · exact outcome_runDecoded_next ..
    · exact ⟨_, rfl⟩

theorem outcome_fetchMarker_next (s : State) : ∃ t, (fetchMarker s).outcome = .next t := by
  rcases hd : decode .marker (inBytes s s.cursor 2) with e | ⟨i, tail⟩
  · exact ⟨_, outcome_fetchMarker_error hd⟩
  · rw [outcome_fetchMarker_ok hd]
    exact exec_next i _

theorem outcome_fetchFraming_next (s : State) : ∃ t, (fetchFraming s).outcome = .next t := by
  unfold fetchFraming
  split
  · exact ⟨_, rfl⟩
  · exact outcome_runDecoded_next ..

/-- An engine turn never stops the machine. -/
theorem outcome_engineTurn_next (s : State) : ∃ t, (engineTurn s).outcome = .next t := by
  unfold engineTurn
  split
  · exact ⟨_, rfl⟩
  · split
    · exact ⟨_, rfl⟩
    · split
      · exact outcome_fetchFraming_next s
      · exact outcome_fetchMarker_next s
    · split
      · exact outcome_fetchSymbol_next ..
      · exact outcome_fetchSymbol_next ..
      · exact ⟨_, rfl⟩
    · exact settle_next _
    · exact settle_next _
    · exact ⟨_, rfl⟩
    · exact ⟨_, rfl⟩

/-- Every step keeps every invariant. -/
theorem inv_step (hi : Inv s) (h : step s = .next t) : Inv t where
  params := (params_step h).symm ▸ hi.params
  status := stepKeepsStatusCoherent s t hi.status h
  cursors := stepKeepsCursorsBounded s t hi.cursors h
  memories := stepKeepsMemoriesCanonical s t hi.memories h
  engine := (stepKeepsEngineLegal s t hi.engine h).1

theorem host_step (hq : s.host = []) (h : step s = .next t) : t.host = [] := by
  have hfixed := congrArg Prod.snd (move_of_step h).fixed
  rw [hq] at hfixed
  exact hfixed

/-- By induction on what is left of the decode. -/
theorem run_ends (hi : Inv s) (hq : s.host = []) (hb : s.status.busy = true) :
    ∃ n t, core.run n s = .next t ∧ Ended t := by
  induction hleft : turnsLeft s using WellFoundedLT.induction generalizing s with
  | _ left ih =>
    subst hleft
    obtain ⟨t, ht⟩ := outcome_engineTurn_next s
    rw [← fetch_engine hq, ← step_eq] at ht
    rcases advances_step hi hq hb ht with hend | ⟨hbusy, hless⟩
    · exact ⟨1, t, run_succ core ht, hend⟩
    · have hi' := inv_step hi ht
      obtain ⟨n, u, hrun, hend⟩ := ih _ hless hi' (host_step hq ht) (hi'.status.busyPhase.trans hbusy) rfl
      exact ⟨n + 1, u, (run_succ core ht).trans hrun, hend⟩

end Sys2Proof.Machine

open Sys2Proof Sys2Proof.Machine

/-- Settles O60: every turn ends the decode or leaves less of it, and what is left is well-founded. -/
theorem everyDecodeCompletes : Obligations.EveryDecodeCompletes := fun _ hi hq hb => run_ends hi hq hb
end
